-- ==== Sys2Proof/Word.lean ====
section
/-! DEFINITION. The word and byte types of the CORE (spec 00_scope R8: a Byte is 8 bits, a Word is 32 bits). -/

namespace Sys2Proof

/-- A 32-bit word: a FIFO word, a status word, a command word (00_scope R8). -/
abbrev Word := BitVec 32

/-- An 8-bit byte of client memory (00_scope R8). -/
abbrev Byte := BitVec 8

end Sys2Proof
end

