-- ==== Sys2Proof/Config.lean ====
section
/-! DEFINITION. The implementation parameters (spec 00_scope R5), the names they range over, and the free values: what the
spec leaves unspecified (93_implementation_defined U7, U8, U23) as constants without a body. -/

namespace Sys2Proof

/-- Byte order of a FIFO word (20_memory R66; 90_conflicts C1). -/
inductive ByteOrder where
  | big
  | little
  deriving DecidableEq, Repr, Inhabited

/-- When a staged device address reaches the hardware (00_scope R5 `SET_ADDRESS_TIMING`; 92 D18). -/
inductive AddrTiming where
  | deferred
  | immediate
  deriving DecidableEq, Repr, Inhabited

/-- The fourteen handled global interrupt sources, in the source's order of listing (30_encoding R96). -/
inductive Source where
  | mmis
  | rxflvl
  | oepint
  | iepint
  | wkup
  | susp
  | lpm
  | usbrst
  | enumdne
  | sof
  | iisoixfr
  | iisooxfr
  | srq
  | otg
  deriving DecidableEq, Repr, Inhabited

/-- The order in which 4.2 of the source lists the handled sources: the value of `HANDLER_ORDER` (41 R141). -/
def Source.listing : List Source :=
  [.mmis, .rxflvl, .oepint, .iepint, .wkup, .susp, .lpm, .usbrst, .enumdne, .sof, .iisoixfr, .iisooxfr, .srq, .otg]

/-- The five handled OUT-endpoint conditions (30_encoding R97). -/
inductive OutCond where
  | xfrc
  | stup
  | otepdis
  | stsphsrx
  | nak
  deriving DecidableEq, Repr, Inhabited

/-- The order in which flagged OUT conditions are served: transfer-complete before SETUP-done (41 R149; 90 C15). -/
def OutCond.order : List OutCond := [.xfrc, .stup, .otepdis, .stsphsrx, .nak]

/-- The six handled IN-endpoint conditions (30_encoding R98). -/
inductive InCond where
  | xfrc
  | toc
  | ittxfe
  | inepne
  | epdisd
  | txfe
  deriving DecidableEq, Repr, Inhabited

/-- The order in which flagged IN conditions are served: the source's order of listing (41 R155). -/
def InCond.order : List InCond := [.xfrc, .toc, .ittxfe, .inepne, .epdisd, .txfe]

/-- What of `REG_LAYOUT` a rule depends on (00_scope R5; 20_memory R69; 30_encoding R96 to R99): the bit of each global source in
`G.intsts` and `G.intmsk`, of each condition in `D.oep[i].int` and `D.iep[i].int`, the lowest bit of each field of the receive
status word, and its three named packet-status codes. The spec gives no address, and no rule depends on one. -/
structure Layout where
  mmis : Nat
  rxflvl : Nat
  oepint : Nat
  iepint : Nat
  wkup : Nat
  susp : Nat
  lpm : Nat
  usbrst : Nat
  enumdne : Nat
  sof : Nat
  iisoixfr : Nat
  iisooxfr : Nat
  srq : Nat
  otg : Nat
  outXfrc : Nat
  outStup : Nat
  outOtepdis : Nat
  outStsphsrx : Nat
  outNak : Nat
  inXfrc : Nat
  inToc : Nat
  inIttxfe : Nat
  inInepne : Nat
  inEpdisd : Nat
  inTxfe : Nat
  rxEpnum : Nat
  rxBcnt : Nat
  rxDpid : Nat
  rxPktsts : Nat
  dataUpdate : Nat
  setupComplete : Nat
  setupUpdate : Nat
  deriving DecidableEq, Repr, Inhabited

/-- Bit of `G.intsts` and of `G.intmsk` of a source (30_encoding R96). -/
def Layout.bit (l : Layout) : Source → Nat
  | .mmis => l.mmis
  | .rxflvl => l.rxflvl
  | .oepint => l.oepint
  | .iepint => l.iepint
  | .wkup => l.wkup
  | .susp => l.susp
  | .lpm => l.lpm
  | .usbrst => l.usbrst
  | .enumdne => l.enumdne
  | .sof => l.sof
  | .iisoixfr => l.iisoixfr
  | .iisooxfr => l.iisooxfr
  | .srq => l.srq
  | .otg => l.otg

/-- Bit of `D.oep[i].int` of a condition (30_encoding R97). -/
def Layout.outBit (l : Layout) : OutCond → Nat
  | .xfrc => l.outXfrc
  | .stup => l.outStup
  | .otepdis => l.outOtepdis
  | .stsphsrx => l.outStsphsrx
  | .nak => l.outNak

/-- Bit of `D.iep[i].int` of a condition (30_encoding R98). -/
def Layout.inBit (l : Layout) : InCond → Nat
  | .xfrc => l.inXfrc
  | .toc => l.inToc
  | .ittxfe => l.inIttxfe
  | .inepne => l.inInepne
  | .epdisd => l.inEpdisd
  | .txfe => l.inTxfe

/-- The parameters of 00_scope R5. -/
structure Config where
  /-- `N_EP`, number of endpoint descriptors. -/
  nEp : Nat
  /-- `RETRY_CEILING`, the most reads one poll makes. -/
  retryCeiling : Nat
  /-- `FIFO_RAM_WORDS`, total FIFO RAM in words. -/
  fifoRamWords : Nat
  /-- `RX_FIFO_WORDS`, receive FIFO size programmed at init. -/
  rxFifoWords : Nat
  /-- `TX_FIFO_WORDS[i]`, transmit FIFO sizes programmed at init; a missing entry is 0. -/
  txFifoWords : List Nat
  /-- `TRDT`, the turnaround value. -/
  trdt : Nat
  /-- `SETUP_CNT`. -/
  setupCnt : Nat
  /-- `SETUP_XFRSIZ`. -/
  setupXfrsiz : Nat
  /-- `REG_BASE`; no rule depends on it. -/
  regBase : Nat
  /-- `REG_LAYOUT`. -/
  layout : Layout
  /-- `FIFO_BYTE_ORDER`. -/
  byteOrder : ByteOrder
  /-- `SET_ADDRESS_TIMING`. -/
  addrTiming : AddrTiming
  /-- `HANDLER_ORDER`. -/
  handlerOrder : List Source
  /-- `ADDR_WIDTH`, width of the hardware device-address field. -/
  addrWidth : Nat
  deriving DecidableEq, Repr, Inhabited

/-- Answers of the `setup` callback (30_encoding R101). -/
inductive SetupAnswer where
  | ok
  | okSetAddress (a : BitVec 16)
  | error
  deriving DecidableEq, Repr, Inhabited

/-- Answers of the `in_data` callback (30_encoding R101). -/
inductive InAnswer where
  | packet (size : BitVec 16) (last : Bool)
  | delay
  | error
  deriving DecidableEq, Repr, Inhabited

/-- Answers of the `out_data` callback (30_encoding R101; 90 C12: three distinct answers). -/
inductive OutAnswer where
  | ok
  | halted
  | delay
  deriving DecidableEq, Repr, Inhabited

/-- FREE VALUE (log 10): the bytes stored beyond a received packet (45 R271), and no others. -/
opaque Config.freeByte : Nat → Byte

/-- FREE VALUE (log 9): the word a pop returns on an empty receive queue (93 U7), and on one out of step where the Register Interface
answers any value (93 U8). -/
opaque Config.freeWord : Nat → Word

/-- FREE VALUE (log 11): the bytes the Client writes to its memory before an answer that no listed answer fixes (93 U23). -/
opaque Config.freeWrites : Nat → List (BitVec 32 × Byte)

/-- FREE VALUE (log 11): a `setup` answer that no listed answer fixes (93 U23). -/
opaque Config.freeSetup : Nat → SetupAnswer

/-- FREE VALUE (log 11): an `in_data` answer that no listed answer fixes (93 U23). -/
opaque Config.freeIn : Nat → InAnswer

/-- FREE VALUE (log 11): an `out_data` answer that no listed answer fixes (93 U23). -/
opaque Config.freeOut : Nat → OutAnswer

end Sys2Proof
end

