-- ==== Sys2Proof/Syntax.lean ====
section
/-! DEFINITION. The instructions: one constructor per row of spec/opcode_table.json, in the table's order (spec 00_scope R11:
an instruction is an operation of the CORE or one item of a port). -/

namespace Sys2Proof

/-- The speed operand of `ENABLE` (40 R120). -/
inductive Speed where
  | full
  | low
  deriving DecidableEq, Repr, Inhabited

/-- The transfer-type field; code 1 is the rejected Isochronous (30_encoding R95). -/
inductive TType where
  | control
  | isochronous
  | bulk
  | interrupt
  deriving DecidableEq, Repr, Inhabited

/-- An instruction. The endpoint operand `i` of the condition rows says WHICH endpoint's interrupt field the condition stands
in: the field's word does not hold it (30_encoding R97, R98). -/
inductive Instr where
  -- commands (30_encoding R93)
  | enable (speed : Speed)
  | start
  | detach
  | setAddress (a : BitVec 16)
  | assignCtrlBuf (len : BitVec 16) (base : Word)
  | assignInBuf (i : BitVec 8) (len : BitVec 16) (base : Word)
  | assignOutBuf (i : BitVec 8) (len : BitVec 16) (base : Word)
  | activateEpIn (i : BitVec 8) (t : TType)
  | activateEpOut (i : BitVec 8) (t : TType)
  | disableEpIn (i : BitVec 8)
  | disableEpOut (i : BitVec 8)
  | stallEpIn (i : BitVec 8)
  | stallEpOut (i : BitVec 8)
  | clearStallIn (i : BitVec 8)
  | clearStallOut (i : BitVec 8)
  | setRxFifo (size : BitVec 16)
  | setTxFifo (i : BitVec 8) (size : BitVec 16)
  | writePacket (i : BitVec 8) (len : BitVec 16)
  | readPacket (i : BitVec 8) (len : BitVec 16)
  | irq
  -- global interrupt sources (30_encoding R96)
  | srcMmis
  | srcRxflvl
  | srcOepint
  | srcIepint
  | srcWkup
  | srcSusp
  | srcLpm
  | srcUsbrst
  | srcEnumdne
  | srcSof
  | srcIisoixfr
  | srcIisooxfr
  | srcSrq
  | srcOtg
  -- OUT-endpoint conditions of endpoint i (30_encoding R97)
  | oepXfrc (i : Nat)
  | oepStup (i : Nat)
  | oepOtepdis (i : Nat)
  | oepStsphsrx (i : Nat)
  | oepNak (i : Nat)
  -- IN-endpoint conditions of endpoint i (30_encoding R98)
  | iepXfrc (i : Nat)
  | iepToc (i : Nat)
  | iepIttxfe (i : Nat)
  | iepInepne (i : Nat)
  | iepEpdisd (i : Nat)
  | iepTxfe (i : Nat)
  -- receive status words (30_encoding R99)
  | rxDataUpdate (e : BitVec 4) (bcnt : BitVec 11) (dpid : BitVec 2)
  | rxSetupComplete (e : BitVec 4) (bcnt : BitVec 11) (dpid : BitVec 2)
  | rxSetupUpdate (e : BitVec 4) (bcnt : BitVec 11) (dpid : BitVec 2)
  -- callback requests (30_encoding R100)
  | cbSetup (e : BitVec 8)
  | cbInData (e : BitVec 8)
  | cbOutData (e : BitVec 8) (len : BitVec 16)
  | cbStatus (e : BitVec 8)
  | cbStatusComplete (e : BitVec 8)
  | cbBusReset
  -- callback responses (30_encoding R101)
  | respSetupOk
  | respSetupOkSetAddress (a : BitVec 16)
  | respSetupError
  | respInDataPacket (size : BitVec 16) (last : Bool)
  | respInDataDelay
  | respInDataError
  | respOutDataOk
  | respOutDataHalted
  | respOutDataDelay
  | respStatusDone
  | respStatusCompleteDone
  | respBusResetDone
  -- result words (30_encoding R94)
  | resOk
  | resConfigurationError
  | resHardwareTimeout
  | resUnsupportedFeature
  deriving DecidableEq, Repr, Inhabited

end Sys2Proof
end

