-- ==== Sys2Proof/WellFormed.lean ====
section
/-! DEFINITION. Well-formedness: what the formats of spec 30_encoding ask of an instruction's operands beyond their widths, and what
00_scope R5 asks of the parameters. -/

namespace Sys2Proof

/-- An endpoint index is 0 to 255 (30_encoding R91). -/
def Instr.indexOk (i : Nat) : Bool := i < 256

/-- The control callbacks run on endpoint 0 only (43 R233: "Control transfers run on endpoint 0 only"). -/
def Instr.controlOk (e : BitVec 8) : Bool := e == 0

/-- The instruction's operands are ones its format admits. -/
def Instr.wellFormed : Instr → Bool
  | .oepXfrc i | .oepStup i | .oepOtepdis i | .oepStsphsrx i | .oepNak i => Instr.indexOk i
  | .iepXfrc i | .iepToc i | .iepIttxfe i | .iepInepne i | .iepEpdisd i | .iepTxfe i => Instr.indexOk i
  | .cbSetup e | .cbStatus e | .cbStatusComplete e => Instr.controlOk e
  | .enable _ | .start | .detach | .setAddress _ | .assignCtrlBuf _ _ | .assignInBuf _ _ _ | .assignOutBuf _ _ _
  | .activateEpIn _ _ | .activateEpOut _ _ | .disableEpIn _ | .disableEpOut _ | .stallEpIn _ | .stallEpOut _
  | .clearStallIn _ | .clearStallOut _ | .setRxFifo _ | .setTxFifo _ _ | .writePacket _ _ | .readPacket _ _ | .irq => true
  | .srcMmis | .srcRxflvl | .srcOepint | .srcIepint | .srcWkup | .srcSusp | .srcLpm | .srcUsbrst | .srcEnumdne
  | .srcSof | .srcIisoixfr | .srcIisooxfr | .srcSrq | .srcOtg => true
  | .rxDataUpdate _ _ _ | .rxSetupComplete _ _ _ | .rxSetupUpdate _ _ _ => true
  | .cbInData _ | .cbOutData _ _ | .cbBusReset => true
  | .respSetupOk | .respSetupOkSetAddress _ | .respSetupError | .respInDataPacket _ _ | .respInDataDelay
  | .respInDataError | .respOutDataOk | .respOutDataHalted | .respOutDataDelay | .respStatusDone
  | .respStatusCompleteDone | .respBusResetDone => true
  | .resOk | .resConfigurationError | .resHardwareTimeout | .resUnsupportedFeature => true

/-! ## Parameters -/

/-- Whether two fields of one word, each a lowest bit and a length, have no bit in common. -/
def apart (a b : Nat × Nat) : Bool := decide (a.1 + a.2 ≤ b.1 ∨ b.1 + b.2 ≤ a.1)

/-- The fields of the receive status word, each a lowest bit and a length (30_encoding R99). -/
def Layout.rxFields (l : Layout) : List (Nat × Nat) := [(l.rxEpnum, 4), (l.rxBcnt, 11), (l.rxDpid, 2), (l.rxPktsts, 4)]

/-- The named packet-status codes (30_encoding R99). -/
def Layout.codes (l : Layout) : List Nat := [l.dataUpdate, l.setupComplete, l.setupUpdate]

/-- What any `REG_LAYOUT` must be: "semantics depend only on the bits being distinct" (30_encoding R96), and every bit is in its
word. -/
def Layout.wf (l : Layout) : Bool :=
  decide (Source.listing.map l.bit).Nodup && Source.listing.all (fun x => decide (l.bit x < 32)) &&
  decide (OutCond.order.map l.outBit).Nodup && OutCond.order.all (fun c => decide (l.outBit c < 32)) &&
  decide (InCond.order.map l.inBit).Nodup && InCond.order.all (fun c => decide (l.inBit c < 32)) &&
  l.rxFields.all (fun f => decide (f.1 + f.2 ≤ 32)) && decide (l.rxFields.Pairwise fun a b => apart a b = true) &&
  decide l.codes.Nodup && l.codes.all (fun c => decide (c < 16))

/-- What 00_scope R5 asks of the parameters: `N_EP` ≥ 1, `RETRY_CEILING` ≥ 1, a layout of distinct places, and a handler order
that lists each handled source once (93 U9). -/
def Config.wf (c : Config) : Bool :=
  decide (1 ≤ c.nEp) && decide (1 ≤ c.retryCeiling) && c.layout.wf && c.handlerOrder.isPerm Source.listing

end Sys2Proof
end

