-- ==== Sys2Proof/Decode.lean ====
section
/-! DEFINITION. Decoding the words of a port into an instruction, total, rejecting by name, and the encoder written from the
same tables (spec 30_encoding). One word has different readings at different ports, so the port is an argument (log 1).
The bit numbers of status words are those of the `REG_LAYOUT` given (00_scope R5); `Layout.default` holds the spec's default numbers
(30_encoding R96 to R99; log 4). -/

namespace Sys2Proof

/-! ## Bit fields -/

/-- `w[lo+len-1 : lo]` as a number (00_scope R8). -/
def field (w : Word) (lo len : Nat) : Nat := w.toNat / 2 ^ lo % 2 ^ len

/-- The word with bit `n` alone set. -/
def bitMask (n : Nat) : Word := BitVec.ofNat 32 (2 ^ n)

/-- Bit `n` of a word. -/
def testBit (w : Word) (n : Nat) : Bool := w.getLsbD n

/-- The word with bit `n` made `b`, every other bit kept. -/
def putBit (w : Word) (n : Nat) (b : Bool) : Word := if b then w ||| bitMask n else w &&& ~~~ bitMask n

/-! ## Status layouts -/

/-- The word of all fourteen source bits (30_encoding R96). -/
def Layout.sources (l : Layout) : Word := Source.listing.foldl (fun w x => w ||| bitMask (l.bit x)) 0

/-- The spec's default `REG_LAYOUT` (30_encoding R96 to R99; PRESUMED by the spec from general knowledge, log 4). -/
def Layout.default : Layout where
  mmis := 1
  rxflvl := 4
  oepint := 19
  iepint := 18
  wkup := 31
  susp := 11
  lpm := 27
  usbrst := 12
  enumdne := 13
  sof := 3
  iisoixfr := 20
  iisooxfr := 21
  srq := 30
  otg := 2
  outXfrc := 0
  outStup := 3
  outOtepdis := 4
  outStsphsrx := 5
  outNak := 13
  inXfrc := 0
  inToc := 3
  inIttxfe := 4
  inInepne := 6
  inEpdisd := 1
  inTxfe := 7
  rxEpnum := 0
  rxBcnt := 4
  rxDpid := 15
  rxPktsts := 17
  dataUpdate := 2
  setupComplete := 4
  setupUpdate := 6

/-- The values the spec's vectors use and its stated defaults (00_scope R5; 95_test_vectors section 0). `TRDT` and `REG_BASE`
have no value in the spec: 0 here (DESIGN CHOICE, log 3). -/
def Config.vectors : Config where
  nEp := 4
  retryCeiling := 1000
  fifoRamWords := 320
  rxFifoWords := 128
  txFifoWords := [32, 64, 32, 32]
  trdt := 0
  setupCnt := 3
  setupXfrsiz := 24
  regBase := 0
  layout := Layout.default
  byteOrder := .big
  addrTiming := .deferred
  handlerOrder := Source.listing
  addrWidth := 7

/-- Transfer-type code (30_encoding R95). -/
def TType.code : TType → Nat
  | .control => 0
  | .isochronous => 1
  | .bulk => 2
  | .interrupt => 3

/-- The transfer type of a 2-bit code (30_encoding R95). -/
def TType.ofCode (n : Nat) : Option TType :=
  if n = 0 then some .control else if n = 1 then some .isochronous
  else if n = 2 then some .bulk else if n = 3 then some .interrupt else none

/-- A receive status word's fields (30_encoding R99). -/
structure RxStatus where
  epnum : Nat
  bcnt : Nat
  dpid : Nat
  pktsts : Nat
  deriving DecidableEq, Repr

/-- The fields of a receive status word (30_encoding R99); no rule uses its other bits. -/
def rxStatusOf (l : Layout) (w : Word) : RxStatus :=
  ⟨field w l.rxEpnum 4, field w l.rxBcnt 11, field w l.rxDpid 2, field w l.rxPktsts 4⟩

/-! ## Ports -/

/-- Where a word arrives (30_encoding R90): the command port, the status words read through the register master port (the
endpoint interrupt fields of endpoint `i`), the receive queue, the two directions of the client port, the result side of the
command port. -/
inductive Port where
  | cmd
  | gintsts
  | doepint (i : Nat)
  | diepint (i : Nat)
  | rxsts
  | cb
  | resp
  | res
  deriving DecidableEq, Repr, Inhabited

/-- Why words at a port are no instruction. -/
inductive Reject where
  /-- A command word's opcode is not in 30_encoding R93 (R102 (a)). -/
  | unknownOpcode
  /-- A must-be-zero field is not zero (R102 (b); for a response, 93 U12). -/
  | nonZeroField
  /-- A transaction of the wrong number of words for its opcode (R104). -/
  | wrongLength
  /-- A status word with none of the bits the CORE serves (R102 (f), (h)). -/
  | nothingServed
  /-- A packet-status code other than the three named (R102 (g), 41 R148). -/
  | unnamedPktsts
  /-- A callback number outside 1 to 6 (R100). -/
  | unknownCallback
  /-- A response code not listed for its callback (R102 (i)). -/
  | unknownResponse
  /-- A result code above 3 (R94). -/
  | unknownResult
  deriving DecidableEq, Repr

/-! ## Decoding, port by port -/

/-- A command row: its opcode, whether a second word follows (R92), and the instruction its fields give, none where a
must-be-zero field is not zero (R102 (b)). -/
structure CmdRow where
  op : Nat
  two : Bool
  build : Nat → Nat → Word → Option Instr

/-- `k` where both fields that must be zero are zero. -/
def ifZero (a b : Nat) (k : Option Instr) : Option Instr := if a = 0 ∧ b = 0 then k else none

/-- The opcode assignments (30_encoding R93), a row's arguments being `epn`, `arg` and the second word. -/
def cmdTable : List CmdRow :=
  [ ⟨0x01, false, fun e a _ =>
      ifZero e (a / 2) (some (.enable (if a % 2 = 0 then .full else .low)))⟩,
    ⟨0x02, false, fun e a _ => ifZero e a (some .start)⟩,
    ⟨0x03, false, fun e a _ => ifZero e a (some .detach)⟩,
    ⟨0x04, false, fun e a _ => ifZero e 0 (some (.setAddress (BitVec.ofNat 16 a)))⟩,
    ⟨0x10, true, fun e a b => ifZero e 0 (some (.assignCtrlBuf (BitVec.ofNat 16 a) b))⟩,
    ⟨0x11, true, fun e a b => some (.assignInBuf (BitVec.ofNat 8 e) (BitVec.ofNat 16 a) b)⟩,
    ⟨0x12, true, fun e a b => some (.assignOutBuf (BitVec.ofNat 8 e) (BitVec.ofNat 16 a) b)⟩,
    ⟨0x20, false, fun e a _ => (TType.ofCode a).map (.activateEpIn (BitVec.ofNat 8 e))⟩,
    ⟨0x21, false, fun e a _ => (TType.ofCode a).map (.activateEpOut (BitVec.ofNat 8 e))⟩ ] ++
  [ ⟨0x22, false, fun e a _ => ifZero a 0 (some (.disableEpIn (BitVec.ofNat 8 e)))⟩,
    ⟨0x23, false, fun e a _ => ifZero a 0 (some (.disableEpOut (BitVec.ofNat 8 e)))⟩,
    ⟨0x24, false, fun e a _ => ifZero a 0 (some (.stallEpIn (BitVec.ofNat 8 e)))⟩,
    ⟨0x25, false, fun e a _ => ifZero a 0 (some (.stallEpOut (BitVec.ofNat 8 e)))⟩,
    ⟨0x26, false, fun e a _ => ifZero a 0 (some (.clearStallIn (BitVec.ofNat 8 e)))⟩,
    ⟨0x27, false, fun e a _ => ifZero a 0 (some (.clearStallOut (BitVec.ofNat 8 e)))⟩ ] ++
  [ ⟨0x30, false, fun e a _ => ifZero e 0 (some (.setRxFifo (BitVec.ofNat 16 a)))⟩,
    ⟨0x31, false, fun e a _ => some (.setTxFifo (BitVec.ofNat 8 e) (BitVec.ofNat 16 a))⟩,
    ⟨0x40, false, fun e a _ => some (.writePacket (BitVec.ofNat 8 e) (BitVec.ofNat 16 a))⟩,
    ⟨0x41, false, fun e a _ => some (.readPacket (BitVec.ofNat 8 e) (BitVec.ofNat 16 a))⟩,
    ⟨0x80, false, fun e a _ => ifZero e a (some .irq)⟩ ]

/-- The row of an opcode. -/
def cmdRow (op : Nat) : Option CmdRow := cmdTable.find? fun r => r.op == op

/-- A command: `op[31:24] epn[23:16] arg[15:0]`, and a second word where the opcode says so (R91, R92, R104). -/
def decodeCmd : List Word → Except Reject Instr
  | [] => .error .wrongLength
  | w :: more =>
    match cmdRow (field w 24 8) with
    | none => .error .unknownOpcode
    | some row =>
      match row.two, more with
      | true, [base] =>
        match row.build (field w 16 8) (field w 0 16) base with
        | some i => .ok i
        | none => .error .nonZeroField
      | false, [] =>
        match row.build (field w 16 8) (field w 0 16) 0 with
        | some i => .ok i
        | none => .error .nonZeroField
      | _, _ => .error .wrongLength

/-- The instruction that serves a source (the `SRC.` rows). -/
def Source.instr : Source → Instr
  | .mmis => .srcMmis
  | .rxflvl => .srcRxflvl
  | .oepint => .srcOepint
  | .iepint => .srcIepint
  | .wkup => .srcWkup
  | .susp => .srcSusp
  | .lpm => .srcLpm
  | .usbrst => .srcUsbrst
  | .enumdne => .srcEnumdne
  | .sof => .srcSof
  | .iisoixfr => .srcIisoixfr
  | .iisooxfr => .srcIisooxfr
  | .srq => .srcSrq
  | .otg => .srcOtg

/-- The instruction that serves an OUT condition of endpoint `i` (the `OEP.` rows). -/
def OutCond.instr (i : Nat) : OutCond → Instr
  | .xfrc => .oepXfrc i
  | .stup => .oepStup i
  | .otepdis => .oepOtepdis i
  | .stsphsrx => .oepStsphsrx i
  | .nak => .oepNak i

/-- The instruction that serves an IN condition of endpoint `i` (the `IEP.` rows). -/
def InCond.instr (i : Nat) : InCond → Instr
  | .xfrc => .iepXfrc i
  | .toc => .iepToc i
  | .ittxfe => .iepIttxfe i
  | .inepne => .iepInepne i
  | .epdisd => .iepEpdisd i
  | .txfe => .iepTxfe i

/-- The first bit of a list that a status word has set, the instruction it selects, and what is left of the word: the word
without that bit while it still has a bit of the list, else nothing (R108: one word may select several, in order). -/
def decodeBits (rows : List (Nat × Instr)) (w : Word) : Except Reject (Instr × List Word) :=
  match rows.find? fun r => testBit w r.1 with
  | none => .error .nothingServed
  | some (n, i) =>
    let w' := putBit w n false
    .ok (i, if rows.any fun r => testBit w' r.1 then [w'] else [])

/-- The rows of `G.intsts`, in the listing order (R96). -/
def sourceRows (l : Layout) : List (Nat × Instr) := Source.listing.map fun x => (l.bit x, x.instr)

/-- The rows of `D.oep[i].int`, in the serving order (R97, 41 R149). -/
def outRows (l : Layout) (i : Nat) : List (Nat × Instr) := OutCond.order.map fun c => (l.outBit c, c.instr i)

/-- The rows of `D.iep[i].int`, in the serving order (R98, 41 R155). -/
def inRows (l : Layout) (i : Nat) : List (Nat × Instr) := InCond.order.map fun c => (l.inBit c, c.instr i)

/-- A receive status word with one of the three named codes (R99). -/
def decodeRx (l : Layout) (w : Word) : Except Reject Instr :=
  let s := rxStatusOf l w
  let e := BitVec.ofNat 4 s.epnum
  let n := BitVec.ofNat 11 s.bcnt
  let d := BitVec.ofNat 2 s.dpid
  if s.pktsts = l.dataUpdate then .ok (.rxDataUpdate e n d)
  else if s.pktsts = l.setupComplete then .ok (.rxSetupComplete e n d)
  else if s.pktsts = l.setupUpdate then .ok (.rxSetupUpdate e n d)
  else .error .unnamedPktsts

/-- The instruction where a must-be-zero number is zero. -/
def okIfZero (z : Nat) (i : Instr) : Except Reject Instr := if z = 0 then .ok i else .error .nonZeroField

/-- A callback request: `cb[31:28] epn[23:16] len[15:0]`, other bits zero (R100). -/
def decodeCb (w : Word) : Except Reject Instr :=
  let e := BitVec.ofNat 8 (field w 16 8)
  let n := field w 0 16
  let z := field w 24 4
  let cb := field w 28 4
  if cb = 1 then okIfZero (z + n) (.cbSetup e)
  else if cb = 2 then okIfZero (z + n) (.cbInData e)
  else if cb = 3 then okIfZero z (.cbOutData e (BitVec.ofNat 16 n))
  else if cb = 4 then okIfZero (z + n) (.cbStatus e)
  else if cb = 5 then okIfZero (z + n) (.cbStatusComplete e)
  else if cb = 6 then okIfZero (z + n + field w 16 8) .cbBusReset
  else .error .unknownCallback

/-- A callback response: `cb[31:28] code[27:24] last[16] val[15:0]`, other bits zero (R101). -/
def decodeResp (w : Word) : Except Reject Instr :=
  let cb := field w 28 4
  let code := field w 24 4
  let z := field w 17 7
  let last := field w 16 1
  let val := field w 0 16
  if cb = 0 ∨ 6 < cb then .error .unknownCallback
  else if cb = 1 ∧ code = 0 then okIfZero (z + last + val) .respSetupOk
  else if cb = 1 ∧ code = 1 then okIfZero (z + last) (.respSetupOkSetAddress (BitVec.ofNat 16 val))
  else if cb = 1 ∧ code = 2 then okIfZero (z + last + val) .respSetupError
  else if cb = 2 ∧ code = 0 then okIfZero z (.respInDataPacket (BitVec.ofNat 16 val) (last == 1))
  else if cb = 2 ∧ code = 1 then okIfZero (z + last + val) .respInDataDelay
  else if cb = 2 ∧ code = 2 then okIfZero (z + last + val) .respInDataError
  else if cb = 3 ∧ code = 0 then okIfZero (z + last + val) .respOutDataOk
  else if cb = 3 ∧ code = 1 then okIfZero (z + last + val) .respOutDataHalted
  else if cb = 3 ∧ code = 2 then okIfZero (z + last + val) .respOutDataDelay
  else if cb = 4 ∧ code = 0 then okIfZero (z + last + val) .respStatusDone
  else if cb = 5 ∧ code = 0 then okIfZero (z + last + val) .respStatusCompleteDone
  else if cb = 6 ∧ code = 0 then okIfZero (z + last + val) .respBusResetDone
  else .error .unknownResponse

/-- A result word: `code[7:0]`, other bits zero (R94). -/
def decodeRes (w : Word) : Except Reject Instr :=
  if w.toNat = 0 then .ok .resOk
  else if w.toNat = 1 then .ok .resConfigurationError
  else if w.toNat = 2 then .ok .resHardwareTimeout
  else if w.toNat = 3 then .ok .resUnsupportedFeature
  else .error .unknownResult

/-- A whole instruction, with nothing left of the transaction. -/
def whole (r : Except Reject Instr) : Except Reject (Instr × List Word) := r.map fun i => (i, [])

/-- One word handed to a one-word format. -/
def oneWord (f : Word → Except Reject (Instr × List Word)) : List Word → Except Reject (Instr × List Word)
  | [w] => f w
  | _ => .error .wrongLength

/-- The instruction the words of a transaction at a port stand for, with what is left of the transaction. -/
def decode (l : Layout) (p : Port) (ws : List Word) : Except Reject (Instr × List Word) :=
  match p with
  | .cmd => whole (decodeCmd ws)
  | .gintsts => oneWord (decodeBits (sourceRows l)) ws
  | .doepint i => oneWord (decodeBits (outRows l i)) ws
  | .diepint i => oneWord (decodeBits (inRows l i)) ws
  | .rxsts => oneWord (fun w => whole (decodeRx l w)) ws
  | .cb => oneWord (fun w => whole (decodeCb w)) ws
  | .resp => oneWord (fun w => whole (decodeResp w)) ws
  | .res => oneWord (fun w => whole (decodeRes w)) ws

/-! ## Encoding -/

/-- A command word (R91). -/
def cmdWord (op epn arg : Nat) : Word := BitVec.ofNat 32 (op * 2 ^ 24 + epn * 2 ^ 16 + arg)

/-- A receive status word (R99). -/
def rxWord (l : Layout) (code : Nat) (e : BitVec 4) (n : BitVec 11) (d : BitVec 2) : Word :=
  BitVec.ofNat 32 code <<< l.rxPktsts ||| d.setWidth 32 <<< l.rxDpid ||| n.setWidth 32 <<< l.rxBcnt ||| e.setWidth 32 <<< l.rxEpnum

/-- A callback request word (R100). -/
def cbWord (cb epn len : Nat) : Word := BitVec.ofNat 32 (cb * 2 ^ 28 + epn * 2 ^ 16 + len)

/-- A callback response word (R101). -/
def respWord (cb code last val : Nat) : Word :=
  BitVec.ofNat 32 (cb * 2 ^ 28 + code * 2 ^ 24 + last * 2 ^ 16 + val)

/-- The speed bit of `ENABLE` (R93). -/
def Speed.code : Speed → Nat
  | .full => 0
  | .low => 1

/-- The port and the words of an instruction (30_encoding R91 to R101). -/
def encode (l : Layout) : Instr → Port × List Word
  | .enable v => (.cmd, [cmdWord 0x01 0 v.code])
  | .start => (.cmd, [cmdWord 0x02 0 0])
  | .detach => (.cmd, [cmdWord 0x03 0 0])
  | .setAddress a => (.cmd, [cmdWord 0x04 0 a.toNat])
  | .assignCtrlBuf n b => (.cmd, [cmdWord 0x10 0 n.toNat, b])
  | .assignInBuf i n b => (.cmd, [cmdWord 0x11 i.toNat n.toNat, b])
  | .assignOutBuf i n b => (.cmd, [cmdWord 0x12 i.toNat n.toNat, b])
  | .activateEpIn i t => (.cmd, [cmdWord 0x20 i.toNat t.code])
  | .activateEpOut i t => (.cmd, [cmdWord 0x21 i.toNat t.code])
  | .disableEpIn i => (.cmd, [cmdWord 0x22 i.toNat 0])
  | .disableEpOut i => (.cmd, [cmdWord 0x23 i.toNat 0])
  | .stallEpIn i => (.cmd, [cmdWord 0x24 i.toNat 0])
  | .stallEpOut i => (.cmd, [cmdWord 0x25 i.toNat 0])
  | .clearStallIn i => (.cmd, [cmdWord 0x26 i.toNat 0])
  | .clearStallOut i => (.cmd, [cmdWord 0x27 i.toNat 0])
  | .setRxFifo n => (.cmd, [cmdWord 0x30 0 n.toNat])
  | .setTxFifo i n => (.cmd, [cmdWord 0x31 i.toNat n.toNat])
  | .writePacket i n => (.cmd, [cmdWord 0x40 i.toNat n.toNat])
  | .readPacket i n => (.cmd, [cmdWord 0x41 i.toNat n.toNat])
  | .irq => (.cmd, [cmdWord 0x80 0 0])
  | .srcMmis => (.gintsts, [bitMask (l.bit .mmis)])
  | .srcRxflvl => (.gintsts, [bitMask (l.bit .rxflvl)])
  | .srcOepint => (.gintsts, [bitMask (l.bit .oepint)])
  | .srcIepint => (.gintsts, [bitMask (l.bit .iepint)])
  | .srcWkup => (.gintsts, [bitMask (l.bit .wkup)])
  | .srcSusp => (.gintsts, [bitMask (l.bit .susp)])
  | .srcLpm => (.gintsts, [bitMask (l.bit .lpm)])
  | .srcUsbrst => (.gintsts, [bitMask (l.bit .usbrst)])
  | .srcEnumdne => (.gintsts, [bitMask (l.bit .enumdne)])
  | .srcSof => (.gintsts, [bitMask (l.bit .sof)])
  | .srcIisoixfr => (.gintsts, [bitMask (l.bit .iisoixfr)])
  | .srcIisooxfr => (.gintsts, [bitMask (l.bit .iisooxfr)])
  | .srcSrq => (.gintsts, [bitMask (l.bit .srq)])
  | .srcOtg => (.gintsts, [bitMask (l.bit .otg)])
  | .oepXfrc i => (.doepint i, [bitMask (l.outBit .xfrc)])
  | .oepStup i => (.doepint i, [bitMask (l.outBit .stup)])
  | .oepOtepdis i => (.doepint i, [bitMask (l.outBit .otepdis)])
  | .oepStsphsrx i => (.doepint i, [bitMask (l.outBit .stsphsrx)])
  | .oepNak i => (.doepint i, [bitMask (l.outBit .nak)])
  | .iepXfrc i => (.diepint i, [bitMask (l.inBit .xfrc)])
  | .iepToc i => (.diepint i, [bitMask (l.inBit .toc)])
  | .iepIttxfe i => (.diepint i, [bitMask (l.inBit .ittxfe)])
  | .iepInepne i => (.diepint i, [bitMask (l.inBit .inepne)])
  | .iepEpdisd i => (.diepint i, [bitMask (l.inBit .epdisd)])
  | .iepTxfe i => (.diepint i, [bitMask (l.inBit .txfe)])
  | .rxDataUpdate e n d => (.rxsts, [rxWord l l.dataUpdate e n d])
  | .rxSetupComplete e n d => (.rxsts, [rxWord l l.setupComplete e n d])
  | .rxSetupUpdate e n d => (.rxsts, [rxWord l l.setupUpdate e n d])
  | .cbSetup e => (.cb, [cbWord 1 e.toNat 0])
  | .cbInData e => (.cb, [cbWord 2 e.toNat 0])
  | .cbOutData e n => (.cb, [cbWord 3 e.toNat n.toNat])
  | .cbStatus e => (.cb, [cbWord 4 e.toNat 0])
  | .cbStatusComplete e => (.cb, [cbWord 5 e.toNat 0])
  | .cbBusReset => (.cb, [cbWord 6 0 0])
  | .respSetupOk => (.resp, [respWord 1 0 0 0])
  | .respSetupOkSetAddress a => (.resp, [respWord 1 1 0 a.toNat])
  | .respSetupError => (.resp, [respWord 1 2 0 0])
  | .respInDataPacket n last => (.resp, [respWord 2 0 last.toNat n.toNat])
  | .respInDataDelay => (.resp, [respWord 2 1 0 0])
  | .respInDataError => (.resp, [respWord 2 2 0 0])
  | .respOutDataOk => (.resp, [respWord 3 0 0 0])
  | .respOutDataHalted => (.resp, [respWord 3 1 0 0])
  | .respOutDataDelay => (.resp, [respWord 3 2 0 0])
  | .respStatusDone => (.resp, [respWord 4 0 0 0])
  | .respStatusCompleteDone => (.resp, [respWord 5 0 0 0])
  | .respBusResetDone => (.resp, [respWord 6 0 0 0])
  | .resOk => (.res, [0])
  | .resConfigurationError => (.res, [1])
  | .resHardwareTimeout => (.res, [2])
  | .resUnsupportedFeature => (.res, [3])

/-! ## A word without its port -/

/-- Whether an opcode's command has a second word. -/
def twoWords (w : Word) : Bool :=
  match cmdRow (field w 24 8) with
  | some row => row.two
  | none => false

/-- The words of a transaction at a port whose first word is `w` and whose second, where the format has one, is `v`. -/
def wordsAt (p : Port) (w v : Word) : List Word :=
  match p with
  | .cmd => if twoWords w then [w, v] else [w]
  | _ => [w]

/-- The order in which a word given without its port is tried (log 1). -/
def portOrder : List Port := [.cmd, .resp, .cb, .gintsts, .rxsts, .doepint 0, .diepint 0, .res]

/-- The instruction `w` (and `v`) is in whole at a port: decoding leaves nothing, and encoding the result gives the words
back. -/
def exactAt (l : Layout) (w v : Word) (p : Port) : Option (Port × Instr) :=
  match decode l p (wordsAt p w v) with
  | .ok (i, []) => if encode l i = (p, wordsAt p w v) then some (p, i) else none
  | _ => none

/-- The first port at which the words are one whole instruction, with that instruction. -/
def portOf (l : Layout) (w v : Word) : Option (Port × Instr) := portOrder.findSome? (exactAt l w v)

/-- The instruction the decoder reads from the bits of a table row (log 1): bits 31 to 0 are the first word, bits 63 to 32 the
second word of the two-word format. The port is the first at which they are one whole instruction. The table's words are those of
the default layout. -/
def decodeTableWord (nbits w : Nat) : Option Instr :=
  if nbits ≤ 64 ∧ w < 2 ^ nbits then (portOf Layout.default (BitVec.ofNat 32 w) (BitVec.ofNat 32 (w / 2 ^ 32))).map (·.2) else none

end Sys2Proof
end

