-- ==== Sys2Proof/Machine/State.lean ====
section
/-! DEFINITION. The state of the machine as plain data: the CORE's own state (spec 10_state, Group A), the Register Interface
(Group B), the Clock Gate, client memory, the ports, and the environment's inputs; why a step can stop; and the state after
power-on (10_state R48, 70 R340). INVENTORY.md lists every field with its rule and its reset value. -/

namespace Sys2Proof.Machine

/-! ## Group A: the CORE's own state -/

/-- Controller lifecycle state (10_state R21). `poweredOn`, `attached`, `configured` are listed and never entered. -/
inductive CtrlState where
  | disabled
  | started
  | initialized
  | poweredOn
  | attached
  | configured
  deriving DecidableEq, Repr, Inhabited

/-- A buffer descriptor (10_state R30). -/
structure Buf where
  base : Word
  len : BitVec 16
  deriving DecidableEq, Repr, Inhabited

/-- Direction of the current control request: host-to-device 0, device-to-host 1 (10_state R24). -/
inductive Dir where
  | h2d
  | d2h
  deriving DecidableEq, Repr, Inhabited

/-- Sub-states of the control endpoint (10_state R26). -/
inductive CtrlSub where
  | init
  | readIn
  | readStatus
  | writeOut
  | setAddress
  deriving DecidableEq, Repr, Inhabited

/-- Sub-state of an IN half: nothing in flight, or a transfer of `n` bytes in flight (10_state R27, R28). -/
inductive InSub where
  | init
  | busy (n : BitVec 16)
  deriving DecidableEq, Repr, Inhabited

/-- Sub-state of a bulk OUT half (10_state R27). -/
inductive OutSub where
  | init
  | outDelay
  | outData (n : BitVec 16)
  deriving DecidableEq, Repr, Inhabited

/-- Per-endpoint sub-state, tagged by transfer type (10_state R25 to R29). -/
inductive Sub where
  | control (c : CtrlSub)
  | bulk (bin : InSub) (bout : OutSub)
  | interrupt (s : InSub) (mps : BitVec 16)
  | disabled
  deriving DecidableEq, Repr, Inhabited

/-- An endpoint descriptor (10_state R24). -/
structure Endpoint where
  inBuf : Option Buf
  outBuf : Option Buf
  pendingSize : BitVec 16
  reqDir : Dir
  sub : Sub
  deriving DecidableEq, Repr, Inhabited

/-- One transmit entry of the FIFO partition, in words (10_state R34). -/
structure TxPart where
  offset : Nat
  size : Nat
  deriving DecidableEq, Repr, Inhabited

/-- The FIFO partition table (10_state R34). -/
structure FifoPart where
  rxSize : Option Nat
  tx : List (Option TxPart)
  deriving DecidableEq, Repr, Inhabited

/-! ## Group B: the Register Interface -/

/-- Control and size fields of IN endpoint i, and its condition flags (10_state R43). -/
structure InRegs where
  act : Bool
  eptyp : BitVec 2
  stall : Bool
  dpid : Bool
  ena : Bool
  nak : Bool
  mps : Nat
  txfnum : Nat
  xfrsiz : Nat
  pktcnt : Nat
  int : Word
  deriving DecidableEq, Repr, Inhabited

/-- Control and size fields of OUT endpoint i, and its condition flags (10_state R43). `stupcnt` is meaningful on endpoint 0. -/
structure OutRegs where
  act : Bool
  eptyp : BitVec 2
  stall : Bool
  dpid : Bool
  ena : Bool
  nak : Bool
  mps : Nat
  xfrsiz : Nat
  pktcnt : Nat
  stupcnt : Nat
  int : Word
  deriving DecidableEq, Repr, Inhabited

/-- Start and depth of transmit FIFO i (10_state R41). -/
structure TxfRegs where
  start : Nat
  size : Nat
  deriving DecidableEq, Repr, Inhabited

/-- One word of the receive queue: a status word or a data word (20_memory R64). -/
inductive RxItem where
  | status (w : Word)
  | data (w : Word)
  deriving DecidableEq, Repr, Inhabited

/-- The Register Interface's fields (10_state R41 to R43), its receive queue and transmit FIFOs (R47), and the model's own
`levelGate` (log 8) and `rxInStep` (log 9): whether every pop since the last flush found a word of the kind it asks for.
`addr` has the width of a parameter, `ADDR_WIDTH`: what is put there is cut to it (R42); the FIFO fields `rxfSize` and
`txf` are bounded by `FIFO_RAM_WORDS` (45 R278). Both are `FieldsInRange` of Safety.lean (log 19). -/
structure RegIf where
  gintEn : Bool
  phyFs : Bool
  devRole : Bool
  trdt : Nat
  ahbIdle : Bool
  coreRst : Bool
  rxfFlush : Bool
  txfFlush : Bool
  intsts : Word
  intmsk : Word
  levelGate : Word
  rxq : List RxItem
  rxInStep : Bool
  rxfSize : Nat
  txf : List TxfRegs
  addr : Nat
  connect : Bool
  aintIep : List Bool
  aintOep : List Bool
  nakctl : Nat
  iep : List InRegs
  oep : List OutRegs
  txq : List (List Word)
  deriving DecidableEq, Repr, Inhabited

/-- Fields of IN endpoint i the CORE reads or writes by name (10_state R43). -/
inductive InField where
  | act
  | eptyp
  | stall
  | dpid
  | ena
  | nak
  | mps
  | txfnum
  | xfrsiz
  | pktcnt
  deriving DecidableEq, Repr, Inhabited

/-- Fields of OUT endpoint i the CORE reads or writes by name (10_state R43). -/
inductive OutField where
  | act
  | eptyp
  | stall
  | dpid
  | ena
  | nak
  | mps
  | xfrsiz
  | pktcnt
  | stupcnt
  deriving DecidableEq, Repr, Inhabited

/-- A field of the register space, the unit of a register access (20_memory R62, R68). -/
inductive Field where
  | gintEn
  | phyFs
  | devRole
  | trdt
  | ahbIdle
  | coreRst
  | rxfFlush
  | txfFlush
  /-- all status bits, one read -/
  | intsts
  /-- one status bit, write-1-to-clear -/
  | intstsBit (x : Source)
  /-- all mask bits, one read -/
  | intmsk
  /-- one mask bit -/
  | intmskBit (x : Source)
  | rxstsp
  | rxfSize
  | txfStart (i : Nat)
  | txfSize (i : Nat)
  | addr
  | connect
  | aintIep (i : Nat)
  | aintOep (i : Nat)
  | nakctl
  /-- every control field of an endpoint and direction, write 0 -/
  | iepCtl (i : Nat)
  | oepCtl (i : Nat)
  | iep (i : Nat) (f : InField)
  | oep (i : Nat) (f : OutField)
  /-- all condition bits, one read -/
  | iepInt (i : Nat)
  | oepInt (i : Nat)
  /-- one condition bit, write-1-to-clear -/
  | iepCond (i : Nat) (c : InCond)
  | oepCond (i : Nat) (c : OutCond)
  deriving DecidableEq, Repr, Inhabited

/-- One access on the register master port (30_encoding R90, 20_memory R68). -/
inductive Access where
  | read (f : Field)
  | write (f : Field) (v : Nat)
  | txPush (i : Nat) (w : Word)
  | rxPop
  deriving DecidableEq, Repr, Inhabited

/-- What the Register Interface may do by itself (20_memory R77 E1 to E5; log 6). -/
inductive RiMove where
  /-- set status bit `n` of `G.intsts` (any bit, also one the CORE does not know) -/
  | raise (n : Nat)
  /-- set which level bits are shown, those shown while their cause stands kept (E1; log 8) -/
  | gate (w : Word)
  /-- set condition bit `n` of `D.oep[i].int` -/
  | oepFlag (i n : Nat)
  /-- set condition bit `n` of `D.iep[i].int` -/
  | iepFlag (i n : Nat)
  /-- append one receive entry: a status word and its data words (R64) -/
  | receive (status : Word) (data : List Word)
  /-- send the `n` oldest words of transmit FIFO i to the bus -/
  | drain (i n : Nat)
  /-- a transfer ended: clear `.ena` -/
  | iepDone (i : Nat)
  | oepDone (i : Nat)
  /-- change `.nak` -/
  | iepNak (i : Nat) (b : Bool)
  | oepNak (i : Nat) (b : Bool)
  /-- change the data toggle -/
  | iepDpid (i : Nat) (b : Bool)
  | oepDpid (i : Nat) (b : Bool)
  /-- change `G.ahb_idle` -/
  | idle (b : Bool)
  /-- a SETUP packet arrives at endpoint 0, the peripheral clearing the STALL bits of the control endpoint as it does
  (42 R202, 43 R228; log 21): its status word, its data words -/
  | setup (data : List Word)
  /-- the self-clearing bit read at this point is not finished yet -/
  | unfinished
  /-- the pop at this point returns any value, where the queue is out of step (93 U8; log 9) -/
  | anyWord
  /-- test only: move transmit FIFO i to the tail of the receive queue (R81 `EV_LOOPBACK`) -/
  | loopback (i : Nat)
  deriving DecidableEq, Repr, Inhabited

/-- An event of the reference environment, a step of the Register Interface between two operations of the CORE (20_memory R81). -/
inductive Event where
  /-- `EV_BUS_RESET` -/
  | busReset
  /-- `EV_ENUM_DONE` -/
  | enumDone
  /-- `EV_SRC(s)`, of a latched source -/
  | src (x : Source)
  /-- `EV_RX(e, code, bytes)` -/
  | rx (e : BitVec 4) (code : BitVec 4) (bytes : List Byte)
  /-- `EV_OEP(i, c)` -/
  | oep (i : Nat) (c : OutCond)
  /-- `EV_IEP(i, c)` -/
  | iep (i : Nat) (c : InCond)
  /-- `EV_SETUP(bytes8)` -/
  | setup (bytes : List Byte)
  /-- `EV_OUT(e, bytes)` -/
  | out (e : BitVec 4) (bytes : List Byte)
  /-- `EV_LOOPBACK(i)`, test only -/
  | loopback (i : Nat)
  deriving DecidableEq, Repr, Inhabited

/-! ## Ports and inputs -/

/-- Result codes of the command port (30_encoding R94). -/
inductive Res where
  | ok
  | configurationError
  | hardwareTimeout
  | unsupportedFeature
  deriving DecidableEq, Repr, Inhabited

/-- A callback request (30_encoding R100). -/
inductive CbReq where
  | setup (e : Nat)
  | inData (e : Nat)
  | outData (e : Nat) (len : BitVec 16)
  | status (e : Nat)
  | statusComplete (e : Nat)
  | busReset
  deriving DecidableEq, Repr, Inhabited

/-- A callback response, typed (30_encoding R101). -/
inductive Resp where
  | setup (a : SetupAnswer)
  | inData (a : InAnswer)
  | outData (a : OutAnswer)
  | status
  | statusComplete
  | busReset
  deriving DecidableEq, Repr, Inhabited

/-- One answer of the Client: the bytes it writes to its memory first, and its response word (30_encoding R101). -/
structure ClientAnswer where
  writes : List (BitVec 32 × Byte)
  word : Word
  deriving DecidableEq, Repr, Inhabited

/-- The client port (10_state R46): the request awaiting its answer, the requests made so far (newest first), and the answers
the Client will give. -/
structure ClientPort where
  outstanding : Option CbReq
  calls : List CbReq
  answers : List ClientAnswer
  deriving DecidableEq, Repr, Inhabited

/-- One item of the inbox: a transaction at a port, or what another agent does between two operations (log 2). -/
inductive Input where
  | port (p : Port) (ws : List Word)
  | move (m : RiMove)
  /-- an event of the reference environment, and the interrupts it causes (20_memory R81) -/
  | event (e : Event)
  /-- `IRQ` until no unmasked source is pending, put behind an event (20_memory R81) -/
  | interrupts
  | clientWrite (a : BitVec 32) (b : Byte)
  | clock (on : Bool)
  deriving DecidableEq, Repr, Inhabited

/-- Client buffer memory: bytes by address in one canonical form, addresses rising and no entry equal to what an unlisted
address reads as (20_memory R61; log 13). -/
abbrev Memory := List Host.Cell

/-! ## The state -/

/-- The machine. Every field is plain data. -/
structure State where
  /-- parameters, never changed by a step (00_scope R5) -/
  cfg : Config
  /-- lifecycle state (10_state R21) -/
  ctrl : CtrlState
  /-- the endpoint array (R23) -/
  ep : List Endpoint
  /-- staged device address (R33) -/
  devAddrPending : BitVec 16
  /-- FIFO partition (R34) -/
  part : FifoPart
  /-- the Register Interface (R40 to R43) -/
  ri : RegIf
  /-- the Clock Gate's bit (R45) -/
  clockOn : Bool
  /-- client buffer memory (20_memory R61) -/
  mem : Memory
  /-- the client port (10_state R46) -/
  client : ClientPort
  /-- the result word the command port shows, none before the first command (30_encoding R94) -/
  result : Option Res
  /-- what waits at the ports (30_encoding R90) -/
  inbox : List Input
  /-- the Register Interface's moves inside operations, one entry before each access of the CORE (20_memory R77) -/
  moves : List (List RiMove)
  /-- what the Register Interface holds after each core soft reset (10_state R49) -/
  resetImages : List RegIf
  /-- accesses made on the register master port, newest first (00_scope R10) -/
  trace : List Access
  /-- the counter free values are applied to -/
  freeCtr : Nat
  deriving DecidableEq, Repr, Inhabited

/-! ## Why a step stops -/

/-- Faults: an access the spec says does not exist. The hardware's behaviour there is not in the spec, so stopping is safe. -/
inductive Fault where
  /-- Raised by a buffer access whose range passes 2^32 (20_memory R61). Safe. -/
  | outsideAddressSpace
  /-- Raised by the service of a condition of an endpoint index ≥ N_EP, whose registers do not exist (10_state R43). Safe. -/
  | noSuchEndpoint
  deriving DecidableEq, Repr, Inhabited

/-- Refusals: the situations to which the spec gives no meaning (00_scope R9 `refuse`; 93_implementation_defined). All safe. -/
inductive Refusal where
  /-- Raised by `exec` for an instruction without a meaning yet. Safe. -/
  | notModelled (mnemonic : String)
  /-- Raised by every operation that touches a register while the clock is off (40 R130, 93 U19). Safe. -/
  | clockOff
  /-- Raised by `START` outside `Initialized` (40 R126, 93 U1). Safe. -/
  | startNotInitialized
  /-- Raised by `DETACH` outside `Started` (40 R127, 93 U2). Safe. -/
  | detachNotStarted
  /-- Raised by a buffer assignment while a transfer borrows the buffer (42 R190 to R192, 93 U3). Safe. -/
  | bufferInUse
  /-- Raised by the enumeration-done handler when endpoint 0 cannot be activated (41 R166, 93 U4). Safe. -/
  | enumWithoutBuffers
  /-- Raised by a receive entry the endpoint cannot take (41 R146, R147, 44 R253, 93 U5). Safe. -/
  | receiveNotTakable
  /-- Raised by SETUP-done, or a `setup` answer, where no control endpoint is (41 R150, 43 R221, 93 U6). Safe. -/
  | noControlEndpoint
  /-- Raised by SETUP-done when the last packet was not 8 bytes (43 R221, 93 U14). Safe. -/
  | setupNotEightBytes
  /-- Raised by a callback answer that breaks the Client's contract (30 R102 (i), 93 U12). Safe. -/
  | clientContract
  /-- Raised by an answer to a request the endpoint's sub-state does not await (43, 44). Safe. -/
  | answerNotAwaited
  /-- Raised by a port transaction or an event between operations while a callback awaits its answer (60 R314, 93 U11). Safe. -/
  | insideCallback
  /-- Raised by activation with a control type on an index above 0 (42 R194, R195, 93 U13). Safe. -/
  | controlTypeAboveZero
  /-- Raised by activation of an OUT endpoint with the interrupt type (44 R258, 93 U21). Safe. -/
  | interruptOut
  /-- Raised by activation before `ENABLE` (42 R194, R195, 93 U21). Safe. -/
  | activateWhileDisabled
  /-- Raised by activation with a type other than the endpoint's tag (42 R196, 93 U21). Safe. -/
  | otherTypeActive
  /-- Raised by a packet of more words than its transmit FIFO (45 R270, 93 U15). Safe. -/
  | fifoCapacity
  /-- Raised by a partition command outside the open phase (45 R276, 93 U16). Safe. -/
  | partitionClosed
  /-- Raised by `SET_TX_FIFO` out of ascending order (45 R275, 93 U16). Safe. -/
  | partitionOrder
  /-- Raised by an IN packet longer than the buffer or than `mps` (43 R225, 44 R251, R256, 93 U18). Safe. -/
  | packetTooLong
  /-- Raised by `StartIn` or `ArmOut` without its buffer or its FIFO (42 R204, R205). Safe. -/
  | transferNotReady
  /-- Raised by a command transaction of the wrong number of words (30 R104; the spec gives it no meaning, log 26). Safe. -/
  | wrongLength
  /-- Raised by a word at the client, response or result port that is no word of its format (30 R102 (i)). Safe. -/
  | badPortWord
  deriving DecidableEq, Repr, Inhabited

/-! ## Power-on -/

/-- An endpoint descriptor at power-on (10_state R48). -/
def Endpoint.reset : Endpoint := ⟨none, none, 0, .h2d, .disabled⟩

/-- An IN endpoint's fields at zero (20_memory R78; log 5). -/
def InRegs.zero : InRegs := ⟨false, 0, false, false, false, false, 0, 0, 0, 0, 0⟩

/-- An OUT endpoint's fields at zero (20_memory R78; log 5). -/
def OutRegs.zero : OutRegs := ⟨false, 0, false, false, false, false, 0, 0, 0, 0, 0⟩

/-- The Register Interface of `n` endpoints with every field zero and AHB idle (20_memory R78, R79; log 5). -/
def RegIf.zero (n : Nat) : RegIf where
  gintEn := false
  phyFs := false
  devRole := false
  trdt := 0
  ahbIdle := true
  coreRst := false
  rxfFlush := false
  txfFlush := false
  intsts := 0
  intmsk := 0
  levelGate := BitVec.allOnes 32
  rxq := []
  rxInStep := true
  rxfSize := 0
  txf := List.replicate n ⟨0, 0⟩
  addr := 0
  connect := false
  aintIep := List.replicate n false
  aintOep := List.replicate n false
  nakctl := 0
  iep := List.replicate n InRegs.zero
  oep := List.replicate n OutRegs.zero
  txq := List.replicate n []

/-- The CORE and its surroundings at power-on under a configuration (10_state R48, R49, 70 R340). -/
def State.powerOn (c : Config) : State where
  cfg := c
  ctrl := .disabled
  ep := List.replicate c.nEp Endpoint.reset
  devAddrPending := 0
  part := ⟨none, List.replicate c.nEp none⟩
  ri := RegIf.zero c.nEp
  clockOn := false
  mem := []
  client := ⟨none, [], []⟩
  result := none
  inbox := []
  moves := []
  resetImages := []
  trace := []
  freeCtr := 0

/-- The machine right after power-on, under the configuration of the spec's vectors (log 3). -/
def State.reset : State := State.powerOn Config.vectors

end Sys2Proof.Machine
end

