-- ==== Sys2Proof/Machine/Operands.lean ====
section
/-! DEFINITION. Operand forms: buffer validity, packing of bytes into FIFO words, decoding of SETUP bytes, of responses and of
result words (spec 42 R193; 45 R272, R273; 43 R234, R235; 30 R94, R101). -/

namespace Sys2Proof.Machine

/-- `ceil(n/4)` (45 R278). -/
def words4 (n : Nat) : Nat := (n + 3) / 4

/-- `IsPow2(n)` (42 R193). -/
def isPow2 (n : Nat) : Bool := n != 0 && (n &&& (n - 1)) == 0

/-- `BufValid(b)`: at least 8 bytes, a power of two, not past the end of the address space (42 R193). -/
def Buf.valid (b : Buf) : Bool :=
  decide (8 ≤ b.len.toNat) && isPow2 b.len.toNat && decide (b.base.toNat + b.len.toNat ≤ 2 ^ 32)

/-- Whether the first `n` bytes of a buffer lie in the 32-bit address space (20_memory R61). -/
def Buf.inSpace (b : Buf) (n : Nat) : Bool := decide (b.base.toNat + n ≤ 2 ^ 32)

/-- Four bytes in buffer order as one FIFO word (20_memory R66, 45 R272). -/
def packWord (o : ByteOrder) (b0 b1 b2 b3 : Byte) : Word :=
  match o with
  | .big => BitVec.ofNat 32 (b0.toNat * 2 ^ 24 + b1.toNat * 2 ^ 16 + b2.toNat * 2 ^ 8 + b3.toNat)
  | .little => BitVec.ofNat 32 (b3.toNat * 2 ^ 24 + b2.toNat * 2 ^ 16 + b1.toNat * 2 ^ 8 + b0.toNat)

/-- `Pack(bytes)`: the last word completed with zero bytes (45 R272). -/
def pack (o : ByteOrder) : List Byte → List Word
  | [] => []
  | [a] => [packWord o a 0 0 0]
  | [a, b] => [packWord o a b 0 0]
  | [a, b, c] => [packWord o a b c 0]
  | a :: b :: c :: d :: rest => packWord o a b c d :: pack o rest

/-- `Unpack(w, j)`, byte `j` of a word in buffer order (45 R273). -/
def unpack (o : ByteOrder) (w : Word) (j : Nat) : Byte :=
  match o with
  | .big => BitVec.ofNat 8 (field w (24 - 8 * j) 8)
  | .little => BitVec.ofNat 8 (field w (8 * j) 8)

/-- `DirOf(x)`: bit 7 set is device-to-host (43 R234). -/
def dirOf (x : Byte) : Dir := if x.getLsbD 7 then .d2h else .h2d

/-- The request length from bytes 6 and 7 of a SETUP packet, low byte first (43 R235). -/
def reqLenOf (b6 b7 : Byte) : Nat := b6.toNat + 256 * b7.toNat

/-- The typed response of a response instruction (30_encoding R101). -/
def respOfInstr : Instr → Option Resp
  | .respSetupOk => some (.setup .ok)
  | .respSetupOkSetAddress a => some (.setup (.okSetAddress a))
  | .respSetupError => some (.setup .error)
  | .respInDataPacket n last => some (.inData (.packet n last))
  | .respInDataDelay => some (.inData .delay)
  | .respInDataError => some (.inData .error)
  | .respOutDataOk => some (.outData .ok)
  | .respOutDataHalted => some (.outData .halted)
  | .respOutDataDelay => some (.outData .delay)
  | .respStatusDone => some .status
  | .respStatusCompleteDone => some .statusComplete
  | .respBusResetDone => some .busReset
  | _ => none

/-- The typed response of a response word, none where the word breaks the format (30_encoding R101, R102 (i)). -/
def respOfWord (w : Word) : Option Resp :=
  match decodeResp w with
  | .ok i => respOfInstr i
  | .error _ => none

/-- The result word of a result code (30_encoding R94). -/
def Res.word : Res → Word
  | .ok => 0
  | .configurationError => 1
  | .hardwareTimeout => 2
  | .unsupportedFeature => 3

/-- The word of a callback request (30_encoding R100). -/
def CbReq.word : CbReq → Word
  | .setup e => cbWord 1 e 0
  | .inData e => cbWord 2 e 0
  | .outData e n => cbWord 3 e n.toNat
  | .status e => cbWord 4 e 0
  | .statusComplete e => cbWord 5 e 0
  | .busReset => cbWord 6 0 0

end Sys2Proof.Machine
end

