-- ==== Sys2Proof/Machine/Flags.lean ====
section
/-! DEFINITION. Flag and status computations: pending and unmasked sources, the level bits, acknowledging, the baseline mask,
and the predicates over sub-states that checks use (spec 40 R125; 41 R140, R142; 42 R191, R192, R196; 45 R276, R279). -/

namespace Sys2Proof.Machine

/-- The three level bits as their causes stand: the receive queue's level, and the summaries of the endpoint conditions
(20_memory R79; 60 R306). DESIGN CHOICE in two points the spec leaves open: a condition bit outside 30_encoding R97 and R98 is a
cause like the others (log 8), and `D.aintmsk` hides none, its effect inside the peripheral not being in the source (10_state R42,
91 N14; log 31). -/
def RegIf.level (l : Layout) (r : RegIf) : Word :=
  (if r.rxq.isEmpty then 0 else bitMask (l.bit .rxflvl)) |||
  (if r.oep.any fun e => e.int != 0 then bitMask (l.bit .oepint) else 0) |||
  (if r.iep.any fun e => e.int != 0 then bitMask (l.bit .iepint) else 0)

/-- What a read of `G.intsts` gives: the latched bits, and the level bits the Register Interface shows (log 8). -/
def RegIf.status (l : Layout) (r : RegIf) : Word := r.intsts ||| (r.level l &&& r.levelGate)

/-- `P`: the sources pending and unmasked in a snapshot (30_encoding R108, 41 R140). -/
def pendingOf (status mask : Word) : Word := status &&& mask

/-- Whether a source is served in a snapshot (41 R140). -/
def served (l : Layout) (p : Word) (x : Source) : Bool := testBit p (l.bit x)

/-- The sources of the baseline unmask set (40 R125). -/
def isBaseline : Source → Bool
  | .rxflvl | .susp | .usbrst | .enumdne | .iepint | .oepint | .iisoixfr | .iisooxfr | .wkup => true
  | .mmis | .lpm | .sof | .srq | .otg => false

/-- `InIdle(sub)`: no IN transfer borrows the buffer (42 R191). -/
def Sub.inIdle : Sub → Bool
  | .disabled | .control .init | .bulk .init _ | .interrupt .init _ => true
  | .control .readIn | .control .readStatus | .control .writeOut | .control .setAddress => false
  | .bulk (.busy _) _ | .interrupt (.busy _) _ => false

/-- `OutIdle(sub)`: no OUT transfer borrows the buffer (42 R192). -/
def Sub.outIdle : Sub → Bool
  | .disabled | .control .init | .bulk _ .init | .interrupt _ _ => true
  | .control .readIn | .control .readStatus | .control .writeOut | .control .setAddress => false
  | .bulk _ .outDelay | .bulk _ (.outData _) => false

/-- `Tag(sub)` (42 R196); `Disabled` has none. -/
def Sub.tag : Sub → Option TType
  | .control _ => some .control
  | .bulk _ _ => some .bulk
  | .interrupt _ _ => some .interrupt
  | .disabled => none

/-- The tag test of activation: `Disabled`, or tagged with the same type (42 R194). -/
def Sub.admits (x : Sub) (t : TType) : Bool :=
  match x.tag with
  | none => true
  | some u => u == t

/-- `InitialSub(t, IN, i)`, `n` the length of the IN buffer (42 R196). -/
def initialIn (t : TType) (x : Sub) (n : BitVec 16) : Sub :=
  match t, x with
  | .bulk, .bulk _ bout => .bulk .init bout
  | .bulk, _ => .bulk .init .init
  | .interrupt, _ => .interrupt .init n
  | .control, .control c => .control c
  | .control, _ => .control .init
  | .isochronous, x => x

/-- `InitialSub(t, OUT, i)` (42 R196). -/
def initialOut (t : TType) (x : Sub) : Sub :=
  match t, x with
  | .bulk, .bulk bin _ => .bulk bin .init
  | .bulk, _ => .bulk .init .init
  | .control, .control c => .control c
  | .control, _ => .control .init
  | .interrupt, x => x
  | .isochronous, x => x

/-- The sub-state after its IN half is disabled (42 R197). -/
def Sub.dropIn : Sub → Sub
  | .bulk _ bout => .bulk .init bout
  | .interrupt _ mps => .interrupt .init mps
  | .control _ => .control .init
  | .disabled => .disabled

/-- The sub-state after its OUT half is disabled (42 R198). -/
def Sub.dropOut : Sub → Sub
  | .bulk bin _ => .bulk bin .init
  | .interrupt s mps => .interrupt s mps
  | .control _ => .control .init
  | .disabled => .disabled

/-- Whether disabling the OUT half clears the pending size by itself (42 R198). -/
def Sub.dropOutClears : Sub → Bool
  | .bulk _ _ | .control _ => true
  | .interrupt _ _ | .disabled => false

/-- Words a partition entry takes (45 R275, 10_state R38: none counts 0). -/
def partSize (x : Option TxPart) : Nat :=
  match x with
  | none => 0
  | some t => t.size

/-- The words the partition has laid out: `rx_size` and every transmit size (10_state R38). -/
def FifoPart.total (p : FifoPart) : Nat := p.rxSize.getD 0 + (p.tx.map partSize).sum

/-- `TxReserved(i)` (45 R279). -/
def FifoPart.reserved (p : FifoPart) (i : Nat) : Bool :=
  match p.tx.getD i none with
  | some t => decide (0 < t.size)
  | none => false

end Sys2Proof.Machine
end

