-- ==== Sys2Proof/Machine/Ops.lean ====
section
/-! DEFINITION. The named operations over client memory, the register space, the FIFO windows, the endpoint array and the
ports, and the two ends of an operation: an error result (spec 60 R300 to R305) and the interrupt entry (60 R311). -/

namespace Sys2Proof.Machine

/-! ## Outcomes -/

/-- An operation that may stop and otherwise gives a value. -/
abbrev M (α : Type) := Host.Outcome α Fault Refusal

/-- Do one operation, then the next. -/
def andThen {α β : Type} (x : M α) (f : α → M β) : M β :=
  match x with
  | .next a => f a
  | .fault e => .fault e
  | .refused e => .refused e

/-- The clock precondition of an operation that touches a register (40 R130). -/
def clocked {α : Type} (s : State) (k : M α) : M α := if s.clockOn then k else .refused .clockOff

/-! ## Client buffer memory (20_memory R61) -/

/-- What an address that is not listed reads as (DESIGN CHOICE, log 13). -/
def unlistedByte : Byte := 0

/-- The byte at an address. -/
def Memory.read : Memory → Nat → Byte
  | [], _ => unlistedByte
  | (k, v) :: m, a => if k = a then v else Memory.read m a

/-- The memory with one byte stored, in canonical form. -/
def Memory.write : Memory → Nat → Byte → Memory
  | [], a, b => if b = unlistedByte then [] else [(a, b)]
  | (k, v) :: m, a, b =>
    if a < k then (if b = unlistedByte then (k, v) :: m else (a, b) :: (k, v) :: m)
    else if a = k then (if b = unlistedByte then m else (a, b) :: m)
    else (k, v) :: Memory.write m a b

/-- Every listed address is at least `lo`, addresses rise, no listed byte is what an unlisted address reads as. -/
def Memory.wfFrom (lo : Nat) : Memory → Bool
  | [] => true
  | (k, v) :: m => decide (lo ≤ k) && v != unlistedByte && Memory.wfFrom (k + 1) m

/-- The canonical form of a memory. -/
def Memory.wf (m : Memory) : Bool := Memory.wfFrom 0 m

/-- `Buf[a]` for consecutive addresses. -/
def Memory.bytes (m : Memory) (a n : Nat) : List Byte := (List.range n).map fun k => m.read (a + k)

/-- `Buf[a] <- b`. -/
def storeByte (a : Nat) (b : Byte) (s : State) : State := { s with mem := s.mem.write a b }

/-- `Buf[a] <- unspecified`: a free byte (45 R271, log 10). -/
def storeFree (a : Nat) (s : State) : State :=
  { s with mem := s.mem.write a (Config.freeByte s.freeCtr), freeCtr := s.freeCtr + 1 }

/-- Writes the Client makes to its own memory. -/
def clientWrites (ws : List (BitVec 32 × Byte)) (s : State) : State :=
  { s with mem := ws.foldl (fun m w => m.write w.1.toNat w.2) s.mem }

/-! ## The endpoint array (10_state R23) -/

/-- `ep[i]`. -/
def State.epAt (s : State) (i : Nat) : Endpoint := s.ep.getD i Endpoint.reset

/-- A change of `ep[i]`. -/
def modifyEp (i : Nat) (f : Endpoint → Endpoint) (s : State) : State := { s with ep := s.ep.modify i f }

/-- `ep[i].sub <- x`. -/
def setSub (i : Nat) (x : Sub) (s : State) : State := modifyEp i (fun e => { e with sub := x }) s

/-- `ep[i].pending_size <- n`. -/
def setPending (i : Nat) (n : BitVec 16) (s : State) : State := modifyEp i (fun e => { e with pendingSize := n }) s

/-- `ep[i].req_dir <- d`. -/
def setDir (i : Nat) (d : Dir) (s : State) : State := modifyEp i (fun e => { e with reqDir := d }) s

/-- `ep[i].in_buf <- Some b`. -/
def setInBuf (i : Nat) (b : Buf) (s : State) : State := modifyEp i (fun e => { e with inBuf := some b }) s

/-- `ep[i].out_buf <- Some b`. -/
def setOutBuf (i : Nat) (b : Buf) (s : State) : State := modifyEp i (fun e => { e with outBuf := some b }) s

/-! ## Fields of the Register Interface (10_state R41 to R44) -/

/-- A field of an IN endpoint as a number. -/
def InRegs.look (r : InRegs) : InField → Nat
  | .act => r.act.toNat
  | .eptyp => r.eptyp.toNat
  | .stall => r.stall.toNat
  | .dpid => r.dpid.toNat
  | .ena => r.ena.toNat
  | .nak => r.nak.toNat
  | .mps => r.mps
  | .txfnum => r.txfnum
  | .xfrsiz => r.xfrsiz
  | .pktcnt => r.pktcnt

/-- A write of a field of an IN endpoint; a one-bit field takes whether the number is odd, `.eptyp` two bits. -/
def InRegs.put (f : InField) (v : Nat) (r : InRegs) : InRegs :=
  match f with
  | .act => { r with act := v % 2 == 1 }
  | .eptyp => { r with eptyp := BitVec.ofNat 2 v }
  | .stall => { r with stall := v % 2 == 1 }
  | .dpid => { r with dpid := v % 2 == 1 }
  | .ena => { r with ena := v % 2 == 1 }
  | .nak => { r with nak := v % 2 == 1 }
  | .mps => { r with mps := v }
  | .txfnum => { r with txfnum := v }
  | .xfrsiz => { r with xfrsiz := v }
  | .pktcnt => { r with pktcnt := v }

/-- A field of an OUT endpoint as a number. -/
def OutRegs.look (r : OutRegs) : OutField → Nat
  | .act => r.act.toNat
  | .eptyp => r.eptyp.toNat
  | .stall => r.stall.toNat
  | .dpid => r.dpid.toNat
  | .ena => r.ena.toNat
  | .nak => r.nak.toNat
  | .mps => r.mps
  | .xfrsiz => r.xfrsiz
  | .pktcnt => r.pktcnt
  | .stupcnt => r.stupcnt

/-- A write of a field of an OUT endpoint. -/
def OutRegs.put (f : OutField) (v : Nat) (r : OutRegs) : OutRegs :=
  match f with
  | .act => { r with act := v % 2 == 1 }
  | .eptyp => { r with eptyp := BitVec.ofNat 2 v }
  | .stall => { r with stall := v % 2 == 1 }
  | .dpid => { r with dpid := v % 2 == 1 }
  | .ena => { r with ena := v % 2 == 1 }
  | .nak => { r with nak := v % 2 == 1 }
  | .mps => { r with mps := v }
  | .xfrsiz => { r with xfrsiz := v }
  | .pktcnt => { r with pktcnt := v }
  | .stupcnt => { r with stupcnt := v }

/-- Writing `.ctl <- 0`: every control field of the endpoint 0 (10_state R43, last row). -/
def InRegs.clearCtl (r : InRegs) : InRegs :=
  { r with act := false, eptyp := 0, stall := false, dpid := false, ena := false, nak := false, mps := 0, txfnum := 0 }

/-- Writing `.ctl <- 0` of an OUT endpoint (10_state R43, last row). -/
def OutRegs.clearCtl (r : OutRegs) : OutRegs :=
  { r with act := false, eptyp := 0, stall := false, dpid := false, ena := false, nak := false, mps := 0 }

/-- The registers of IN endpoint i. -/
def RegIf.iepAt (r : RegIf) (i : Nat) : InRegs := r.iep.getD i InRegs.zero

/-- The registers of OUT endpoint i. -/
def RegIf.oepAt (r : RegIf) (i : Nat) : OutRegs := r.oep.getD i OutRegs.zero

/-- What a read of a field gives now, without a side effect. The pop of `G.rxstsp` is `popStatus`. -/
def RegIf.peek (l : Layout) (r : RegIf) : Field → Nat
  | .gintEn => r.gintEn.toNat
  | .phyFs => r.phyFs.toNat
  | .devRole => r.devRole.toNat
  | .trdt => r.trdt
  | .ahbIdle => r.ahbIdle.toNat
  | .coreRst => r.coreRst.toNat
  | .rxfFlush => r.rxfFlush.toNat
  | .txfFlush => r.txfFlush.toNat
  | .intsts => (r.status l).toNat
  | .intstsBit x => (testBit (r.status l) (l.bit x)).toNat
  | .intmsk => r.intmsk.toNat
  | .intmskBit x => (testBit r.intmsk (l.bit x)).toNat
  | .rxstsp => 0
  | .rxfSize => r.rxfSize
  | .txfStart i => (r.txf.getD i ⟨0, 0⟩).start
  | .txfSize i => (r.txf.getD i ⟨0, 0⟩).size
  | .addr => r.addr
  | .connect => r.connect.toNat
  | .aintIep i => (r.aintIep.getD i false).toNat
  | .aintOep i => (r.aintOep.getD i false).toNat
  | .nakctl => r.nakctl
  | .iepCtl _ => 0
  | .oepCtl _ => 0
  | .iep i f => (r.iepAt i).look f
  | .oep i f => (r.oepAt i).look f
  | .iepInt i => (r.iepAt i).int.toNat
  | .oepInt i => (r.oepAt i).int.toNat
  | .iepCond i c => (testBit (r.iepAt i).int (l.inBit c)).toNat
  | .oepCond i c => (testBit (r.oepAt i).int (l.outBit c)).toNat

/-- Write-1-to-clear of one bit (10_state R44). -/
def w1c (w : Word) (n v : Nat) : Word := if v % 2 = 1 then putBit w n false else w

/-- What a FIFO size or offset field holds of a number: a natural bounded by `FIFO_RAM_WORDS` (45 R278; the CORE compares before
any write, so it writes none that is cut; log 19). -/
def inFifoRam (c : Config) (v : Nat) : Nat := min v c.fifoRamWords

/-- A write of a field (10_state R41 to R44; the FIFO flushes 20_memory R80). Read-only fields keep their value; a level bit
is acknowledged only in its latched part; a field keeps as many bits as it has. -/
def RegIf.write (c : Config) (f : Field) (v : Nat) (r : RegIf) : RegIf :=
  match f with
  | .gintEn => { r with gintEn := v % 2 == 1 }
  | .phyFs => { r with phyFs := v % 2 == 1 }
  | .devRole => { r with devRole := v % 2 == 1 }
  | .trdt => { r with trdt := v }
  | .ahbIdle => r
  | .coreRst => { r with coreRst := v % 2 == 1 }
  | .rxfFlush =>
    if v % 2 = 1 then { r with rxfFlush := true, rxq := [], rxInStep := true } else { r with rxfFlush := false }
  | .txfFlush =>
    if v % 2 = 1 then { r with txfFlush := true, txq := r.txq.map fun _ => [] } else { r with txfFlush := false }
  | .intsts => r
  | .intstsBit x => { r with intsts := w1c r.intsts (c.layout.bit x) v }
  | .intmsk => r
  | .intmskBit x => { r with intmsk := putBit r.intmsk (c.layout.bit x) (v % 2 == 1) }
  | .rxstsp => r
  | .rxfSize => { r with rxfSize := inFifoRam c v }
  | .txfStart i => { r with txf := r.txf.modify i fun t => { t with start := inFifoRam c v } }
  | .txfSize i => { r with txf := r.txf.modify i fun t => { t with size := inFifoRam c v } }
  | .addr => { r with addr := v % 2 ^ c.addrWidth }
  | .connect => { r with connect := v % 2 == 1 }
  | .aintIep i => { r with aintIep := r.aintIep.modify i fun _ => v % 2 == 1 }
  | .aintOep i => { r with aintOep := r.aintOep.modify i fun _ => v % 2 == 1 }
  | .nakctl => { r with nakctl := v }
  | .iepCtl i => { r with iep := r.iep.modify i InRegs.clearCtl }
  | .oepCtl i => { r with oep := r.oep.modify i OutRegs.clearCtl }
  | .iep i f => { r with iep := r.iep.modify i (InRegs.put f v) }
  | .oep i f => { r with oep := r.oep.modify i (OutRegs.put f v) }
  | .iepInt _ => r
  | .oepInt _ => r
  | .iepCond i x => { r with iep := r.iep.modify i fun e => { e with int := w1c e.int (c.layout.inBit x) v } }
  | .oepCond i x => { r with oep := r.oep.modify i fun e => { e with int := w1c e.int (c.layout.outBit x) v } }

/-! ## The Register Interface's own moves (20_memory R77) -/

/-- One move of the Register Interface. -/
def RiMove.apply (l : Layout) (r : RegIf) : RiMove → RegIf
  | .raise n => { r with intsts := r.intsts ||| bitMask n }
  | .gate w => { r with levelGate := w ||| (r.levelGate &&& r.level l) }
  | .oepFlag i n => { r with oep := r.oep.modify i fun e => { e with int := e.int ||| bitMask n } }
  | .iepFlag i n => { r with iep := r.iep.modify i fun e => { e with int := e.int ||| bitMask n } }
  | .receive w ds => { r with rxq := r.rxq ++ .status w :: ds.map .data }
  | .drain i n => { r with txq := r.txq.modify i (List.drop n) }
  | .iepDone i => { r with iep := r.iep.modify i fun e => { e with ena := false } }
  | .oepDone i => { r with oep := r.oep.modify i fun e => { e with ena := false } }
  | .iepNak i b => { r with iep := r.iep.modify i fun e => { e with nak := b } }
  | .oepNak i b => { r with oep := r.oep.modify i fun e => { e with nak := b } }
  | .iepDpid i b => { r with iep := r.iep.modify i fun e => { e with dpid := b } }
  | .oepDpid i b => { r with oep := r.oep.modify i fun e => { e with dpid := b } }
  | .idle b => { r with ahbIdle := b }
  | .setup ds =>
    { r with
      rxq := r.rxq ++ .status (rxWord l l.setupUpdate 0 8 0) :: ds.map .data,
      iep := r.iep.modify 0 fun e => { e with stall := false }, oep := r.oep.modify 0 fun e => { e with stall := false } }
  | .unfinished => r
  | .anyWord => r
  | .loopback i => { r with rxq := r.rxq ++ (r.txq.getD i []).map .data, txq := r.txq.modify i fun _ => [] }

/-- Moves of the Register Interface, in order. -/
def RegIf.moved (l : Layout) (ms : List RiMove) (r : RegIf) : RegIf := ms.foldl (RiMove.apply l) r

/-- The moves at the next point inside an operation. -/
def nextMoves (s : State) : List RiMove := s.moves.headD []

/-- The point before an access of the CORE, where the Register Interface may move: "at any point between two accesses of the CORE"
(20_memory R77 E4; log 6). -/
def envPoint (s : State) : State := { s with moves := s.moves.tail, ri := s.ri.moved s.cfg.layout (nextMoves s) }

/-! ## Register accesses (20_memory R62, R68) -/

/-- Record an access of the register master port. -/
def logAccess (a : Access) (s : State) : State := { s with trace := a :: s.trace }

/-- The state after a read of a field: the Register Interface's moves before it, then the access. -/
def regRead (f : Field) (s : State) : State := logAccess (.read f) (envPoint s)

/-- The write of a field alone, with no move before it. -/
def putReg (f : Field) (v : Nat) (s : State) : State :=
  logAccess (.write f v) { s with ri := s.ri.write s.cfg f v }

/-- `Reg[F] <- v`. -/
def regWrite (f : Field) (v : Nat) (s : State) : State := putReg f v (envPoint s)

/-- `Reg[G.ahb_idle]`. -/
def readIdle (s : State) : Nat × State :=
  let s1 := regRead .ahbIdle s
  (s1.ri.peek s1.cfg.layout .ahbIdle, s1)

/-- Whether the self-clearing bit read at the next point is not finished. -/
def unfinishedNext (s : State) : Bool := (nextMoves s).contains .unfinished

/-- A read of a self-clearing bit: finished, and 0, unless the Register Interface says it is not (20_memory R79; log 23). -/
def readSelfClear (f : Field) (s : State) : Nat × State :=
  let s1 := regRead f s
  if unfinishedNext s then (s1.ri.peek s1.cfg.layout f, s1) else (0, { s1 with ri := s1.ri.write s1.cfg f 0 })

/-- `PollUntil(F, v)` with at most `n` reads: whether a read gave `v` (40 R121). -/
def pollUntil (rd : State → Nat × State) (v : Nat) : Nat → State → Bool × State
  | 0, s => (false, s)
  | n + 1, s =>
    let r := rd s
    if r.1 = v then (true, r.2) else pollUntil rd v n r.2

/-- A list of exactly `n` entries, `d` where the given one has none. -/
def fitList {α : Type} (n : Nat) (d : α) (l : List α) : List α := (List.range n).map fun i => l.getD i d

/-- An image with one entry per endpoint, the device address as wide as it is (10_state R42), the FIFO sizes and offsets bounded by
FIFO RAM (45 R278). -/
def RegIf.fit (c : Config) (r : RegIf) : RegIf :=
  { r with
    addr := r.addr % 2 ^ c.addrWidth, rxfSize := inFifoRam c r.rxfSize,
    txf := (fitList c.nEp ⟨0, 0⟩ r.txf).map fun t => ⟨inFifoRam c t.start, inFifoRam c t.size⟩, aintIep := fitList c.nEp false r.aintIep,
    aintOep := fitList c.nEp false r.aintOep, iep := fitList c.nEp InRegs.zero r.iep, oep := fitList c.nEp OutRegs.zero r.oep, txq := fitList c.nEp [] r.txq }

/-- The reference environment's image: every field 0 but the PHY selection (20_memory R80). -/
def RegIf.referenceImage (n : Nat) (r : RegIf) : RegIf :=
  { RegIf.zero n with phyFs := r.phyFs, ahbIdle := r.ahbIdle, levelGate := r.levelGate }

/-- The image the next core soft reset leaves: the environment's, the reference environment's where it gives none (10_state R49,
20_memory R80; log 7). -/
def nextImage (s : State) : RegIf :=
  match s.resetImages with
  | [] => RegIf.referenceImage s.cfg.nEp s.ri
  | r :: _ => r.fit s.cfg

/-- What holds of every image a core soft reset leaves: the reset bit is set, global interrupts are masked (70 R345), and the mask
bits of sources the CORE does not know are 0 (41 R172, 93 U10; log 7). -/
def RegIf.afterReset (l : Layout) (r : RegIf) : RegIf :=
  { r with coreRst := true, gintEn := false, intmsk := r.intmsk &&& l.sources }

/-- `Reg[G.core_rst] <- 1` (40 R122). -/
def assertCoreReset (s : State) : State :=
  let s1 := envPoint s
  logAccess (.write .coreRst 1)
    { s1 with ri := (nextImage s1).afterReset s1.cfg.layout, resetImages := s1.resetImages.tail }

/-- The push of one word alone, with no move before it. -/
def pushWord (i : Nat) (w : Word) (s : State) : State :=
  logAccess (.txPush i w) { s with ri := { s.ri with txq := s.ri.txq.modify i fun q => q ++ [w] } }

/-- `TxPush(i, w)` (20_memory R63). -/
def txPush (i : Nat) (w : Word) (s : State) : State := pushWord i w (envPoint s)

/-- A free word (log 9). -/
def freeWord (s : State) : Word × State := (Config.freeWord s.freeCtr, { s with freeCtr := s.freeCtr + 1 })

/-- The receive queue without its head, in step as told. -/
def dropHead (inStep : Bool) (s : State) : State :=
  { s with ri := { s.ri with rxq := s.ri.rxq.tail, rxInStep := inStep } }

/-- The word of a receive queue item. -/
def RxItem.word : RxItem → Word
  | .status w => w
  | .data w => w

/-- Whether an item is a status word. -/
def RxItem.isStatus : RxItem → Bool
  | .status _ => true
  | .data _ => false

/-- Whether the pop at the next point may return any value. -/
def anyWordNext (s : State) : Bool := (nextMoves s).contains .anyWord

/-- The head of the receive queue, removed: its word (20_memory R79), where the queue is out of step any value the Register
Interface likes (93 U8); on an empty queue a free word, the queue left empty (93 U7). -/
def takeHead (status any : Bool) (s : State) : Word × State :=
  match s.ri.rxq with
  | [] => freeWord s
  | x :: _ =>
    let inStep := s.ri.rxInStep && x.isStatus == status
    if any && !inStep then freeWord (dropHead inStep s) else (x.word, dropHead inStep s)

/-- `Reg[G.rxstsp]`, the pop of a status word (20_memory R64). -/
def popStatus (s : State) : Word × State := takeHead true (anyWordNext s) (regRead .rxstsp s)

/-- `RxPop()`, the pop of a data word (20_memory R64). -/
def rxPop (s : State) : Word × State := takeHead false (anyWordNext s) (logAccess .rxPop (envPoint s))

/-! ## Results and the interrupt entry -/

/-- The one way an operation reports to the Caller: the result word of the command port. An error saves nothing else: there is
no cause register and no saved status (30_encoding R94, 60 R300, R305). -/
def answer (r : Res) (s : State) : State := { s with result := some r }

/-- A command's end: its result word. -/
def finish (x : M (Res × State)) : M State := andThen x fun p => .next (answer p.1 p.2)

/-- Interrupt entry: the status read once, then the mask, and the set to serve. Nothing is saved, no mode changes, no vector is
fetched (41 R140, 60 R311). -/
def irqEntry (s : State) : Word × State :=
  let s1 := regRead .intsts s
  let s2 := regRead .intmsk s1
  (pendingOf (s1.ri.status s1.cfg.layout) s2.ri.intmsk, s2)

/-- Interrupt return: "Nothing is restored" (60 R313). -/
def irqReturn (s : State) : State := s

/-- Whether the interrupt line is asserted: global enable, and some bit pending and unmasked (41 R140, 20_memory R81; log 16). The
clock is no part of it: with the clock off the dispatcher it invokes refuses (40 R130). -/
def irqLine (s : State) : Bool := s.ri.gintEn && pendingOf (s.ri.status s.cfg.layout) s.ri.intmsk != 0

/-! ## The client port (10_state R46, 30_encoding R100, R101) -/

/-- Put a callback request on the client port. -/
def issueCb (q : CbReq) (s : State) : State :=
  { s with client := { s.client with outstanding := some q, calls := q :: s.client.calls } }

/-- The request has been answered. -/
def clearCb (s : State) : State := { s with client := { s.client with outstanding := none } }

/-- A free answer to a request (93 U23; log 11). -/
def freeResp (q : CbReq) (n : Nat) : Resp :=
  match q with
  | .setup _ => .setup (Config.freeSetup n)
  | .inData _ => .inData (Config.freeIn n)
  | .outData _ _ => .outData (Config.freeOut n)
  | .status _ => .status
  | .statusComplete _ => .statusComplete
  | .busReset => .busReset

/-- The Client's next answer to a request, with the bytes it writes first: its listed one, else a free one. None where the
listed word breaks the response format (30_encoding R102 (i)). -/
def clientAnswer (q : CbReq) (s : State) : Option Resp × State :=
  match s.client.answers with
  | a :: rest => (respOfWord a.word, clientWrites a.writes { s with client := { s.client with answers := rest } })
  | [] =>
    (some (freeResp q s.freeCtr), clientWrites (Config.freeWrites s.freeCtr) { s with freeCtr := s.freeCtr + 1 })

end Sys2Proof.Machine
end

