-- ==== Sys2Proof/Machine/Fifo.lean ====
section
/-! DEFINITION. Packet-FIFO datapath and FIFO partition (spec 45_fifo_datapath): `WRITE_PACKET`, `READ_PACKET`,
`SET_RX_FIFO`, `SET_TX_FIFO`. -/

namespace Sys2Proof.Machine

/-! ## Packet transfer -/

/-- Push words into transmit FIFO i, in order (45 R270). -/
def pushAll (i : Nat) (ws : List Word) (s : State) : State := ws.foldl (fun t w => txPush i w t) s

/-- The words `WRITE_PACKET` pushes: the first `n` bytes of a buffer, packed (45 R270, R272). -/
def packetWords (b : Buf) (n : Nat) (s : State) : List Word := pack s.cfg.byteOrder (s.mem.bytes b.base.toNat n)

/-- The body of `WRITE_PACKET` after its checks (45 R270). -/
def pushPacket (i : Nat) (b : Buf) (n : Nat) (s : State) : M State :=
  if partSize (s.part.tx.getD i none) < words4 n then .refused .fifoCapacity
  else if b.inSpace n then clocked s (.next (pushAll i (packetWords b n s) s))
  else .fault .outsideAddressSpace

/-- `WRITE_PACKET i, n` (45 R270). -/
def writePacket (i n : Nat) (s : State) : M (Res × State) :=
  if i < s.cfg.nEp then
    match (s.epAt i).inBuf with
    | none => .next (.configurationError, s)
    | some b =>
      if n ≤ b.len.toNat then
        if s.part.reserved i then andThen (pushPacket i b n s) fun t => .next (.ok, t)
        else .next (.configurationError, s)
      else .next (.configurationError, s)
  else .next (.configurationError, s)

/-- One byte lane of a popped word: stored while inside the packet, unspecified beyond it (45 R271). -/
def storeLane (a n : Nat) (w : Word) (j : Nat) (s : State) : State :=
  if j < n then storeByte (a + j) (unpack s.cfg.byteOrder w j) s else storeFree (a + j) s

/-- The four bytes of a popped word at address `a`, `n` bytes of the packet left (45 R271). -/
def storeWord (a n : Nat) (w : Word) (s : State) : State :=
  storeLane a n w 3 (storeLane a n w 2 (storeLane a n w 1 (storeLane a n w 0 s)))

/-- Pop `m` words and store them from address `a` on, `n` bytes of the packet left (45 R271). -/
def popWords : Nat → Nat → Nat → State → State
  | 0, _, _, s => s
  | m + 1, a, n, s =>
    let r := rxPop s
    popWords m (a + 4) (n - 4) (storeWord a n r.1 r.2)

/-- The body of `READ_PACKET` after its checks (45 R271). -/
def popPacket (b : Buf) (n : Nat) (s : State) : M State :=
  if b.inSpace (4 * words4 n) then clocked s (.next (popWords (words4 n) b.base.toNat n s))
  else .fault .outsideAddressSpace

/-- `READ_PACKET i, n` (45 R271). -/
def readPacket (i n : Nat) (s : State) : M (Res × State) :=
  if i < s.cfg.nEp then
    match (s.epAt i).outBuf with
    | none => .next (.configurationError, s)
    | some b =>
      if n ≤ b.len.toNat then andThen (popPacket b n s) fun t => .next (.ok, t)
      else .next (.configurationError, s)
  else .next (.configurationError, s)

/-! ## Partition -/

/-- `PartitionOpen()` (45 R276). -/
def partitionOpen (s : State) : Bool := s.ctrl == .initialized && s.ep.all fun e => e.sub == .disabled

/-- The layout `SET_RX_FIFO` begins (45 R274). -/
def beginLayout (size : Nat) (s : State) : State :=
  { s with part := { rxSize := some size, tx := s.part.tx.map fun _ => none } }

/-- `SET_RX_FIFO size` after the phase test (45 R274). -/
def layoutRx (size : Nat) (s : State) : M (Res × State) :=
  if size ≤ s.cfg.fifoRamWords then clocked s (.next (.ok, beginLayout size (regWrite .rxfSize size s)))
  else .next (.configurationError, s)

/-- `SET_RX_FIFO size` (45 R274). -/
def setRxFifo (size : Nat) (s : State) : M (Res × State) :=
  if partitionOpen s then layoutRx size s else .refused .partitionClosed

/-- The order condition of `SET_TX_FIFO`: FIFOs below `i` placed, `i` and above not (45 R275). -/
def nextInOrder (i : Nat) (p : FifoPart) : Bool :=
  p.rxSize.isSome && (p.tx.take i).all Option.isSome && (p.tx.drop i).all Option.isNone

/-- The offset of transmit FIFO i: `r + Σ_{j<i} fifo_part.tx[j].size` (45 R275). -/
def layoutOffset (i : Nat) (p : FifoPart) : Nat := p.rxSize.getD 0 + ((p.tx.take i).map partSize).sum

/-- `fifo_part.tx[i] <- Some t` (45 R275). -/
def placeTx (i : Nat) (t : TxPart) (s : State) : State :=
  { s with part := { s.part with tx := s.part.tx.modify i fun _ => some t } }

/-- `SET_TX_FIFO i, size` after the phase test (45 R275). -/
def layoutTx (i size : Nat) (s : State) : M (Res × State) :=
  if i < s.cfg.nEp then
    if nextInOrder i s.part then
      if layoutOffset i s.part + size ≤ s.cfg.fifoRamWords then
        clocked s (.next (.ok, placeTx i ⟨layoutOffset i s.part, size⟩
          (regWrite (.txfSize i) size (regWrite (.txfStart i) (layoutOffset i s.part) s))))
      else .next (.configurationError, s)
    else .refused .partitionOrder
  else .next (.configurationError, s)

/-- `SET_TX_FIFO i, size` (45 R275). -/
def setTxFifo (i size : Nat) (s : State) : M (Res × State) :=
  if partitionOpen s then layoutTx i size s else .refused .partitionClosed

/-- The transmit part of `INIT_FIFOS`, over the indices given (30_encoding R106): the first error ends it. -/
def layoutTxAll : List Nat → State → M (Res × State)
  | [], s => .next (.ok, s)
  | i :: is, s =>
    andThen (layoutTx i (s.cfg.txFifoWords.getD i 0) s) fun p =>
      if p.1 = .ok then layoutTxAll is p.2 else .next p

/-- `INIT_FIFOS` (30_encoding R106). -/
def initFifos (s : State) : M (Res × State) :=
  andThen (layoutRx s.cfg.rxFifoWords s) fun p =>
    if p.1 = .ok then layoutTxAll (List.range p.2.cfg.nEp) p.2 else .next p

/-! ## Commands -/

def execWritePacket (i : BitVec 8) (len : BitVec 16) (s : State) : M State := finish (writePacket i.toNat len.toNat s)

def execReadPacket (i : BitVec 8) (len : BitVec 16) (s : State) : M State := finish (readPacket i.toNat len.toNat s)

def execSetRxFifo (size : BitVec 16) (s : State) : M State := finish (setRxFifo size.toNat s)

def execSetTxFifo (i : BitVec 8) (size : BitVec 16) (s : State) : M State := finish (setTxFifo i.toNat size.toNat s)

end Sys2Proof.Machine
end

