-- ==== Sys2Proof/Machine/Lifecycle.lean ====
section
/-! DEFINITION. Controller Core lifecycle operations (spec 40_controller_core): `ENABLE`, `START`, `DETACH`, `SET_ADDRESS` and
their helpers. -/

namespace Sys2Proof.Machine

/-- Every endpoint descriptor as the core soft reset leaves it: buffers kept (10_state R50). -/
def resetEndpoint (e : Endpoint) : Endpoint := { e with sub := .disabled, pendingSize := 0, reqDir := .h2d }

/-- The CORE's own state as the core soft reset leaves it (10_state R50). -/
def resetCore (s : State) : State :=
  { s with
    ep := s.ep.map resetEndpoint, devAddrPending := 0,
    part := { rxSize := none, tx := s.part.tx.map fun _ => none } }

/-- `CoreSoftReset()` (40 R122). -/
def coreSoftReset (s : State) : Res × State :=
  let r1 := pollUntil readIdle 1 s.cfg.retryCeiling s
  if r1.1 then
    let r2 := pollUntil (readSelfClear .coreRst) 0 s.cfg.retryCeiling (assertCoreReset r1.2)
    if r2.1 then (.ok, resetCore r2.2) else (.hardwareTimeout, r2.2)
  else (.hardwareTimeout, r1.2)

/-- Write 1 to every condition flag of IN endpoint i (40 R123). -/
def clearInFlags (i : Nat) (s : State) : State := InCond.order.foldl (fun t c => regWrite (.iepCond i c) 1 t) s

/-- Write 1 to every condition flag of OUT endpoint i (40 R123). -/
def clearOutFlags (i : Nat) (s : State) : State := OutCond.order.foldl (fun t c => regWrite (.oepCond i c) 1 t) s

/-- The endpoint part of `DeviceInit()` for endpoint i (40 R123). -/
def initEndpointRegs (s : State) (i : Nat) : State :=
  clearOutFlags i (clearInFlags i (regWrite (.oepCtl i) 0 (regWrite (.iepCtl i) 0 s)))

/-- `FlushFifos()`: transmit side, then receive side (40 R124). -/
def flushFifos (s : State) : Res × State :=
  let r1 := pollUntil (readSelfClear .txfFlush) 0 s.cfg.retryCeiling (regWrite .txfFlush 1 s)
  if r1.1 then
    let r2 := pollUntil (readSelfClear .rxfFlush) 0 s.cfg.retryCeiling (regWrite .rxfFlush 1 r1.2)
    if r2.1 then (.ok, r2.2) else (.hardwareTimeout, r2.2)
  else (.hardwareTimeout, r1.2)

/-- `SetBaselineMask()` (40 R125). -/
def setBaselineMask (s : State) : State :=
  Source.listing.foldl (fun t x => regWrite (.intmskBit x) (isBaseline x).toNat t) s

/-- `DeviceInit()` (40 R123). -/
def deviceInit (s : State) : Res × State :=
  let r := flushFifos ((List.range s.cfg.nEp).foldl initEndpointRegs s)
  if r.1 = .ok then (.ok, setBaselineMask r.2) else r

/-- `ctrl_state <- c`. -/
def setCtrl (c : CtrlState) (s : State) : State := { s with ctrl := c }

/-- The steps of `ENABLE` up to the core soft reset: clock on, interrupts masked, full-speed PHY (40 R120). -/
def enablePrelude (s : State) : State := regWrite .phyFs 1 (regWrite .gintEn 0 { s with clockOn := true })

/-- The last step of `ENABLE`, on the result of the partition (40 R120). -/
def enableEnd (p : Res × State) : M (Res × State) :=
  if p.1 = .ok then .next (.ok, setCtrl .initialized p.2) else .next p

/-- `ENABLE full` from `Disabled` (40 R120). -/
def enableFromDisabled (s : State) : M (Res × State) :=
  let r1 := coreSoftReset (enablePrelude s)
  if r1.1 = .ok then
    let r2 := deviceInit (regWrite .devRole 1 r1.2)
    if r2.1 = .ok then andThen (initFifos r2.2) enableEnd else .next r2
  else .next r1

/-- `ENABLE speed` (40 R120). -/
def enableCore (speed : Speed) (s : State) : M (Res × State) :=
  match speed with
  | .low => .next (.unsupportedFeature, s)
  | .full => if s.ctrl = .disabled then enableFromDisabled s else .next (.ok, s)

/-- `WriteDevAddr()` (40 R129). -/
def writeDevAddr (s : State) : State := regWrite .addr (s.devAddrPending.toNat % 2 ^ s.cfg.addrWidth) s

/-- `dev_addr_pending <- a`. -/
def stageAddr (a : BitVec 16) (s : State) : State := { s with devAddrPending := a }

def execEnable (speed : Speed) (s : State) : M State := finish (enableCore speed s)

/-- `START` (40 R126). -/
def execStart (s : State) : M State :=
  if s.ctrl = .initialized then
    clocked s (.next (answer .ok (setCtrl .started (regWrite .connect 1 (regWrite .gintEn 1 s)))))
  else .refused .startNotInitialized

/-- `DETACH` (40 R127). -/
def execDetach (s : State) : M State :=
  if s.ctrl = .started then
    clocked s (.next (answer .ok (setCtrl .initialized (regWrite .gintEn 0 (regWrite .connect 0 s)))))
  else .refused .detachNotStarted

/-- `SET_ADDRESS a` (40 R128). -/
def execSetAddress (a : BitVec 16) (s : State) : M State :=
  match s.cfg.addrTiming with
  | .deferred => .next (answer .ok (stageAddr a s))
  | .immediate => clocked s (.next (answer .ok (writeDevAddr (stageAddr a s))))

end Sys2Proof.Machine
end

