-- ==== Sys2Proof/Machine/Endpoints.lean ====
section
/-! DEFINITION. Endpoint Manager, configuration operations and register-programming helpers (spec 42_endpoint_manager). -/

namespace Sys2Proof.Machine

/-! ## Helpers (42, section E) -/

/-- `ArmCtrlOut()` (42 R203). -/
def armCtrlOut (s : State) : State :=
  regWrite (.oep 0 .ena) 1 (regWrite (.oep 0 .nak) 0 (regWrite (.oep 0 .xfrsiz) s.cfg.setupXfrsiz
    (regWrite (.oep 0 .pktcnt) 1 (regWrite (.oep 0 .stupcnt) s.cfg.setupCnt s))))

/-- The four field writes of `StartIn` (42 R204). -/
def programIn (i n : Nat) (s : State) : State :=
  regWrite (.iep i .ena) 1 (regWrite (.iep i .nak) 0 (regWrite (.iep i .pktcnt) 1 (regWrite (.iep i .xfrsiz) n s)))

/-- `StartIn(i, n)` (42 R204). -/
def startIn (i n : Nat) (s : State) : M State :=
  match (s.epAt i).inBuf with
  | none => .refused .transferNotReady
  | some b =>
    if n ≤ b.len.toNat then
      if s.part.reserved i then clocked s (pushPacket i b n (programIn i n s)) else .refused .transferNotReady
    else .refused .transferNotReady

/-- The four field writes of `ArmOut` (42 R205). -/
def programOut (i n : Nat) (s : State) : State :=
  regWrite (.oep i .ena) 1 (regWrite (.oep i .nak) 0 (regWrite (.oep i .pktcnt) 1 (regWrite (.oep i .xfrsiz) n s)))

/-- `ArmOut(i)` (42 R205). -/
def armOut (i : Nat) (s : State) : M State :=
  match (s.epAt i).outBuf with
  | none => .refused .transferNotReady
  | some b => clocked s (.next (programOut i b.len.toNat s))

/-- `StallBoth0()`, IN first (42 R206). -/
def stallBoth0 (s : State) : State := regWrite (.oep 0 .stall) 1 (regWrite (.iep 0 .stall) 1 s)

/-! ## Buffer assignment (42, section A) -/

/-- `ASSIGN_CTRL_BUF base, len` (42 R190). -/
def assignCtrlBuf (b : Buf) (s : State) : M (Res × State) :=
  if b.valid then
    if (s.epAt 0).sub = .disabled ∨ (s.epAt 0).sub = .control .init then .next (.ok, setOutBuf 0 b (setInBuf 0 b s))
    else .refused .bufferInUse
  else .next (.configurationError, s)

/-- An interrupt endpoint's `mps` follows its IN buffer (42 R191, R196). -/
def Sub.withMps (x : Sub) (n : BitVec 16) : Sub :=
  match x with
  | .interrupt s _ => .interrupt s n
  | .control c => .control c
  | .bulk bin bout => .bulk bin bout
  | .disabled => .disabled

/-- `ASSIGN_IN_BUF i, base, len` (42 R191). -/
def assignInBuf (i : Nat) (b : Buf) (s : State) : M (Res × State) :=
  if i < s.cfg.nEp then
    if b.valid then
      if (s.epAt i).sub.inIdle then
        .next (.ok, setSub i ((s.epAt i).sub.withMps b.len) (setInBuf i b s))
      else .refused .bufferInUse
    else .next (.configurationError, s)
  else .next (.configurationError, s)

/-- `ASSIGN_OUT_BUF i, base, len` (42 R192). -/
def assignOutBuf (i : Nat) (b : Buf) (s : State) : M (Res × State) :=
  if i < s.cfg.nEp then
    if b.valid then
      if (s.epAt i).sub.outIdle then .next (.ok, setOutBuf i b s) else .refused .bufferInUse
    else .next (.configurationError, s)
  else .next (.configurationError, s)

/-! ## Activation (42, section B) -/

/-- Both buffers of an endpoint, where they are assigned and valid (42 R194, 10_state R35). -/
def buffersOf (e : Endpoint) : Option (Buf × Buf) :=
  match e.inBuf, e.outBuf with
  | some b1, some b2 => if b1.valid && b2.valid then some (b1, b2) else none
  | _, _ => none

/-- Endpoint 0 becomes a control endpoint if it is `Disabled` (42 R194, R195). -/
def startControl0 (s : State) : State := if (s.epAt 0).sub = .disabled then setSub 0 (.control .init) s else s

/-- Activation of the IN side of endpoint 0: "enables the control endpoint if not already active" (42 R194). -/
def activateIn0 (s : State) : State :=
  let s1 := regRead (.iep 0 .act) s
  startControl0 (if (s1.ri.iepAt 0).act then s1 else regWrite (.iep 0 .act) 1 s1)

/-- Activation of the OUT side of endpoint 0 (42 R195). -/
def activateOut0 (s : State) : State :=
  let s1 := regRead (.oep 0 .act) s
  startControl0 (if (s1.ri.oepAt 0).act then s1 else regWrite (.oep 0 .act) 1 s1)

/-- The writes of `ACTIVATE_EP_IN` on an index above 0, `n` the length of the IN buffer (42 R194). -/
def activateInRegs (i : Nat) (t : TType) (n : BitVec 16) (s : State) : State :=
  regWrite (.aintIep i) 1 (regWrite (.iep i .act) 1 (regWrite (.iep i .txfnum) i (regWrite (.iep i .mps) n.toNat
    (regWrite (.iep i .dpid) 0 (setSub i (initialIn t (s.epAt i).sub n) (regWrite (.iep i .eptyp) t.code s))))))

/-- The writes of `ACTIVATE_EP_OUT` on an index above 0 before the arm, `n` the length of the OUT buffer (42 R195). -/
def activateOutRegs (i : Nat) (t : TType) (n : BitVec 16) (s : State) : State :=
  regWrite (.aintOep i) 1 (regWrite (.oep i .act) 1 (regWrite (.oep i .mps) n.toNat (regWrite (.oep i .dpid) 0
    (setSub i (initialOut t (s.epAt i).sub) (regWrite (.oep i .eptyp) t.code s)))))

/-- `ACTIVATE_EP_IN(t, i)` (42 R194). -/
def activateIn (t : TType) (i : Nat) (s : State) : M (Res × State) :=
  if i < s.cfg.nEp then
    if t = .isochronous then .next (.unsupportedFeature, s)
    else
      match buffersOf (s.epAt i) with
      | none => .next (.configurationError, s)
      | some (b1, _) =>
        if s.ctrl = .disabled then .refused .activateWhileDisabled
        else if i = 0 then clocked s (.next (.ok, activateIn0 s))
        else if t = .control then .refused .controlTypeAboveZero
        else if s.part.reserved i then
          if (s.epAt i).sub.admits t then clocked s (.next (.ok, activateInRegs i t b1.len s))
          else .refused .otherTypeActive
        else .next (.configurationError, s)
  else .next (.configurationError, s)

/-- `ACTIVATE_EP_OUT(t, i)` (42 R195). -/
def activateOut (t : TType) (i : Nat) (s : State) : M (Res × State) :=
  if i < s.cfg.nEp then
    if t = .isochronous then .next (.unsupportedFeature, s)
    else
      match buffersOf (s.epAt i) with
      | none => .next (.configurationError, s)
      | some (_, b2) =>
        if s.ctrl = .disabled then .refused .activateWhileDisabled
        else if i = 0 then clocked s (.next (.ok, activateOut0 s))
        else if t = .control then .refused .controlTypeAboveZero
        else if t = .interrupt then .refused .interruptOut
        else if (s.epAt i).sub.admits t then
          clocked s (andThen (armOut i (activateOutRegs i t b2.len s)) fun u => .next (.ok, u))
        else .refused .otherTypeActive
  else .next (.configurationError, s)

/-! ## Disabling (42, section C) -/

/-- The endpoint `Disabled` with nothing pending: neither direction is active (42 R197, R198). -/
def disableBoth (i : Nat) (s : State) : State := setPending i 0 (setSub i .disabled s)

/-- The body of `DISABLE_EP_IN i` (42 R197). -/
def dropInSide (i : Nat) (s : State) : State :=
  let s1 := regWrite (.aintIep i) 0 (regWrite (.iep i .act) 0 (regWrite (.iep i .ena) 0 (regWrite (.iep i .nak) 1 s)))
  let s2 := regRead (.oep i .act) (setSub i (s1.epAt i).sub.dropIn s1)
  if (s2.ri.oepAt i).act then s2 else disableBoth i s2

/-- The sub-state part of `DISABLE_EP_OUT i` (42 R198). -/
def dropOutSub (i : Nat) (s : State) : State :=
  let s1 := setSub i (s.epAt i).sub.dropOut s
  if (s.epAt i).sub.dropOutClears then setPending i 0 s1 else s1

/-- The body of `DISABLE_EP_OUT i` (42 R198). -/
def dropOutSide (i : Nat) (s : State) : State :=
  let s1 := regWrite (.aintOep i) 0 (regWrite (.oep i .act) 0 (regWrite (.oep i .ena) 0 (regWrite (.oep i .nak) 1 s)))
  let s2 := regRead (.iep i .act) (dropOutSub i s1)
  if (s2.ri.iepAt i).act then s2 else disableBoth i s2

/-- A command on an endpoint index that only writes registers and always succeeds on an index in range (42 R197 to R202). -/
def onEndpoint (i : Nat) (f : State → State) (s : State) : M (Res × State) :=
  if i < s.cfg.nEp then clocked s (.next (.ok, f s)) else .next (.configurationError, s)

/-- The writes of `CLEAR_STALL_IN i` (42 R201). -/
def clearStallInRegs (i : Nat) (s : State) : State :=
  let s1 := regWrite (.iep i .stall) 0 s
  if i = 0 then s1 else regWrite (.iep i .dpid) 0 s1

/-- The writes of `CLEAR_STALL_OUT i` (42 R202). -/
def clearStallOutRegs (i : Nat) (s : State) : State :=
  let s1 := regWrite (.oep i .stall) 0 s
  if i = 0 then s1 else regWrite (.oep i .dpid) 0 s1

/-! ## Commands -/

def execAssignCtrlBuf (len : BitVec 16) (base : Word) (s : State) : M State := finish (assignCtrlBuf ⟨base, len⟩ s)

def execAssignInBuf (i : BitVec 8) (len : BitVec 16) (base : Word) (s : State) : M State :=
  finish (assignInBuf i.toNat ⟨base, len⟩ s)

def execAssignOutBuf (i : BitVec 8) (len : BitVec 16) (base : Word) (s : State) : M State :=
  finish (assignOutBuf i.toNat ⟨base, len⟩ s)

def execActivateEpIn (i : BitVec 8) (t : TType) (s : State) : M State := finish (activateIn t i.toNat s)

def execActivateEpOut (i : BitVec 8) (t : TType) (s : State) : M State := finish (activateOut t i.toNat s)

def execDisableEpIn (i : BitVec 8) (s : State) : M State := finish (onEndpoint i.toNat (dropInSide i.toNat) s)

def execDisableEpOut (i : BitVec 8) (s : State) : M State := finish (onEndpoint i.toNat (dropOutSide i.toNat) s)

/-- `STALL_EP_IN i` (42 R199). -/
def execStallEpIn (i : BitVec 8) (s : State) : M State := finish (onEndpoint i.toNat (regWrite (.iep i.toNat .stall) 1) s)

/-- `STALL_EP_OUT i` (42 R200). -/
def execStallEpOut (i : BitVec 8) (s : State) : M State := finish (onEndpoint i.toNat (regWrite (.oep i.toNat .stall) 1) s)

def execClearStallIn (i : BitVec 8) (s : State) : M State := finish (onEndpoint i.toNat (clearStallInRegs i.toNat) s)

def execClearStallOut (i : BitVec 8) (s : State) : M State := finish (onEndpoint i.toNat (clearStallOutRegs i.toNat) s)

end Sys2Proof.Machine
end

