-- ==== Sys2Proof/Machine/Control.lean ====
section
/-! DEFINITION. The control-transfer protocol sequencer on endpoint 0 (spec 43_control_transfer): what it does up to a callback
request, and what it does with the answer. -/

namespace Sys2Proof.Machine

/-- `ReqLen()` from a buffer (43 R235). -/
def reqLen (b : Buf) (s : State) : Nat :=
  reqLenOf (s.mem.read (b.base.toNat + 6)) (s.mem.read (b.base.toNat + 7))

/-- A new SETUP abandons the transfer in flight (43 R221, R232). -/
def abandon (c : CtrlSub) (s : State) : State := if c = .init then s else setSub 0 (.control .init) s

/-- `CtrlSetup()` up to its request `setup(0)` (43 R221). -/
def ctrlSetup (s : State) : M State :=
  match (s.epAt 0).sub, (s.epAt 0).outBuf with
  | .control c, some _ =>
    if (s.epAt 0).pendingSize = 8 then .next (issueCb (.setup 0) (abandon c s)) else .refused .setupNotEightBytes
  | _, _ => .refused .noControlEndpoint

/-- The end of a status phase: `Init`, control-OUT armed (43 R223, R229 to R231). -/
def toInit (s : State) : State := armCtrlOut (setSub 0 (.control .init) s)

/-- `CtrlOkSetAddress(a)` (43 R222). -/
def ctrlOkSetAddress (a : BitVec 16) (s : State) : M State :=
  clocked s
    (let s1 := stageAddr a s
     let s2 := if s.cfg.addrTiming = .immediate then writeDevAddr s1 else s1
     startIn 0 0 (setSub 0 (.control .setAddress) s2))

/-- `CtrlOkNoData()` up to its request `status(0)` (43 R223). -/
def ctrlOkNoData (s : State) : M State := andThen (startIn 0 0 s) fun t => .next (issueCb (.status 0) t)

/-- `CtrlInStep()` up to its request `in_data(0)` (43 R225). -/
def ctrlInStep (s : State) : State := issueCb (.inData 0) s

/-- `CtrlOkRead()` (43 R224). -/
def ctrlOkRead (s : State) : State := ctrlInStep (setSub 0 (.control .readIn) s)

/-- `CtrlOkWrite()` (43 R226). -/
def ctrlOkWrite (s : State) : M State := armOut 0 (setSub 0 (.control .writeOut) s)

/-- `CtrlError()` (43 R228). -/
def ctrlError (s : State) : M State := clocked s (.next (toInit (stallBoth0 s)))

/-- The answer of `setup(0)` (43 R221): the request length is tested before the direction. -/
def onSetup (a : SetupAnswer) (s : State) : M State :=
  match (s.epAt 0).sub, (s.epAt 0).outBuf with
  | .control _, some b =>
    match a with
    | .okSetAddress n => ctrlOkSetAddress n s
    | .ok =>
      if b.inSpace 8 then
        if reqLen b s = 0 then ctrlOkNoData s
        else if (s.epAt 0).reqDir = .d2h then .next (ctrlOkRead s)
        else ctrlOkWrite s
      else .fault .outsideAddressSpace
    | .error => ctrlError s
  | _, _ => .refused .noControlEndpoint

/-- Whether a packet of `n` bytes fits the IN buffer of an endpoint (10_state R37). -/
def fitsInBuf (n : Nat) (e : Endpoint) : Bool :=
  match e.inBuf with
  | some b => decide (n ≤ b.len.toNat)
  | none => false

/-- The last packet of a data stage has been started (43 R225). -/
def lastPacket (last : Bool) (s : State) : State :=
  if last then armCtrlOut (setSub 0 (.control .readStatus) s) else s

/-- The answer of `in_data(0)` in `ReadIn` (43 R225). -/
def onCtrlIn (a : InAnswer) (s : State) : M State :=
  match a with
  | .packet size last =>
    if fitsInBuf size.toNat (s.epAt 0) then andThen (startIn 0 size.toNat s) fun t => .next (lastPacket last t)
    else .refused .packetTooLong
  | .delay => .next s
  | .error => ctrlError s

/-- `CtrlOutStep()` up to its request `out_data(0, pending_size)` (43 R227). -/
def ctrlOutStep (s : State) : State := issueCb (.outData 0 (s.epAt 0).pendingSize) s

/-- A non-`Ok` answer of `out_data(0, n)`: only the OUT side is stalled (43 R227). -/
def ctrlOutRejected (s : State) : M State := clocked s (.next (toInit (regWrite (.oep 0 .stall) 1 s)))

/-- The answer of `out_data(0, n)` in `WriteOut` (43 R227). -/
def onCtrlOut (a : OutAnswer) (s : State) : M State :=
  match a with
  | .ok => startIn 0 0 (setSub 0 (.control .readStatus) s)
  | .halted => ctrlOutRejected s
  | .delay => ctrlOutRejected s

/-- `StatusDone()` up to its request `status(0)` (43 R229, R230). -/
def statusDone (s : State) : State := issueCb (.status 0) s

/-- The answer of `status(0)`: the request `status_complete(0)` follows (43 R223, R229). -/
def onStatus (s : State) : M State := .next (issueCb (.statusComplete 0) s)

/-- The answer of `status_complete(0)` (43 R223, R229). -/
def onStatusComplete (s : State) : M State :=
  match (s.epAt 0).sub with
  | .control _ => clocked s (.next (toInit s))
  | .bulk _ _ | .interrupt _ _ | .disabled => .refused .answerNotAwaited

/-- `SetAddressDone()` (43 R231). -/
def setAddressDone (s : State) : State := toInit (if s.cfg.addrTiming = .deferred then writeDevAddr s else s)

end Sys2Proof.Machine
end

