-- ==== Sys2Proof/Machine/DataEp.lean ====
section
/-! DEFINITION. Bulk and interrupt endpoint state machines (spec 44_bulk_interrupt_endpoints), and the delivery of a Client
answer to whichever machine awaits it. -/

namespace Sys2Proof.Machine

/-- `BulkInPoll(i)` and `IntInPoll(i)` up to their request `in_data(i)` (44 R251, R256). -/
def pollIn (i : Nat) (s : State) : State := issueCb (.inData i) s

/-- The answer of `in_data(i)` on a bulk endpoint with no IN transfer in flight (44 R251). -/
def onBulkIn (i : Nat) (bout : OutSub) (a : InAnswer) (s : State) : M State :=
  match a with
  | .packet size _ =>
    if fitsInBuf size.toNat (s.epAt i) then
      andThen (startIn i size.toNat s) fun t => .next (setSub i (.bulk (.busy size) bout) t)
    else .refused .packetTooLong
  | .delay => .next s
  | .error => clocked s (.next (regWrite (.iep i .stall) 1 s))

/-- The answer of `in_data(i)` on an interrupt endpoint with no transfer in flight (44 R256). -/
def onIntIn (i : Nat) (mps : BitVec 16) (a : InAnswer) (s : State) : M State :=
  match a with
  | .packet size _ =>
    if size.toNat ≤ mps.toNat then
      andThen (startIn i size.toNat s) fun t => .next (setSub i (.interrupt (.busy size) mps) t)
    else .refused .packetTooLong
  | .delay => .next s
  | .error => clocked s (.next (regWrite (.iep i .stall) 1 s))

/-- The answer of `in_data(i)`, by the sub-state that asked (43 R225, 44 R251, R256). -/
def onIn (i : Nat) (a : InAnswer) (s : State) : M State :=
  match (s.epAt i).sub with
  | .control .readIn => if i = 0 then onCtrlIn a s else .refused .answerNotAwaited
  | .bulk .init bout => onBulkIn i bout a s
  | .interrupt .init mps => onIntIn i mps a s
  | .control .init | .control .readStatus | .control .writeOut | .control .setAddress => .refused .answerNotAwaited
  | .bulk (.busy _) _ | .interrupt (.busy _) _ | .disabled => .refused .answerNotAwaited

/-- `BulkOutDeliver(i)` up to its request `out_data(i, pending_size)` (44 R254). -/
def bulkOutDeliver (i : Nat) (s : State) : State := issueCb (.outData i (s.epAt i).pendingSize) s

/-- The answer of `out_data(i, n)` on a bulk endpoint holding a packet (44 R254). -/
def onBulkOut (i : Nat) (bin : InSub) (a : OutAnswer) (s : State) : M State :=
  match a with
  | .ok => armOut i (setSub i (.bulk bin .init) s)
  | .delay => .next (setSub i (.bulk bin .outDelay) s)
  | .halted => clocked s (armOut i (setSub i (.bulk bin .init) (regWrite (.oep i .stall) 1 s)))

/-- The answer of `out_data(i, n)`, by the sub-state that asked (43 R227, 44 R254). -/
def onOut (i : Nat) (a : OutAnswer) (s : State) : M State :=
  match (s.epAt i).sub with
  | .control .writeOut => if i = 0 then onCtrlOut a s else .refused .answerNotAwaited
  | .bulk bin (.outData _) => onBulkOut i bin a s
  | .bulk bin .outDelay => onBulkOut i bin a s
  | .control .init | .control .readIn | .control .readStatus | .control .setAddress => .refused .answerNotAwaited
  | .bulk _ .init | .interrupt _ _ | .disabled => .refused .answerNotAwaited

/-! ## Delivering an answer -/

/-- The Client's answer reaches the CORE, which goes on from the request it answers. An answer that does not echo the
outstanding request breaks the contract (30_encoding R101, R102 (i)). -/
def deliver (r : Resp) (s : State) : M State :=
  match s.client.outstanding, r with
  | some (.setup _), .setup a => onSetup a (clearCb s)
  | some (.inData i), .inData a => onIn i a (clearCb s)
  | some (.outData i _), .outData a => onOut i a (clearCb s)
  | some (.status _), .status => onStatus (clearCb s)
  | some (.statusComplete _), .statusComplete => onStatusComplete (clearCb s)
  | some .busReset, .busReset => .next (clearCb s)
  | _, _ => .refused .clientContract

/-- Obtain the Client's answer to the outstanding request and go on, until no request is outstanding; `n` bounds the requests
one event makes (`setup`, `status`, `status_complete` at most: 43 R236). -/
def settle : Nat → State → M State
  | 0, s => .next s
  | n + 1, s =>
    match s.client.outstanding with
    | none => .next s
    | some q =>
      match clientAnswer q s with
      | (some r, t) => andThen (deliver r t) (settle n)
      | (none, _) => .refused .clientContract

/-- The callbacks of one event, answered inside the operation that makes them (20_memory R72). -/
def answered (s : State) : M State := settle 3 s

end Sys2Proof.Machine
end

