-- ==== Sys2Proof/Machine/Client.lean ====
section
/-! DEFINITION. The client port's words as instructions: the six callback requests (spec 30_encoding R100) and the twelve
responses (R101), and the four result words of the command port (R94). They are the two halves of each callback the dispatcher
makes (log 12). -/

namespace Sys2Proof.Machine

/-! ## Requests -/

/-- A request goes out only while no other awaits its answer (DEDUCED from 60 R314, log 24). -/
def request (q : CbReq) (s : State) : M State :=
  match s.client.outstanding with
  | none => .next (issueCb q s)
  | some _ => .refused .insideCallback

/-- A request of the control protocol, which runs on endpoint 0 only (43 R233; the refusal: DEDUCED, log 24). -/
def requestControl (e : Nat) (q : CbReq) (s : State) : M State :=
  if e = 0 then request q s else .refused .noControlEndpoint

/-- `setup(ep)` (43 R221). -/
def execCbSetup (e : BitVec 8) (s : State) : M State := requestControl e.toNat (.setup e.toNat) s

/-- `in_data(ep)` (43 R225, 44 R251, R256). -/
def execCbInData (e : BitVec 8) (s : State) : M State := request (.inData e.toNat) s

/-- `out_data(ep, len)` (43 R227, 44 R254). -/
def execCbOutData (e : BitVec 8) (len : BitVec 16) (s : State) : M State := request (.outData e.toNat len) s

/-- `status(ep)` (43 R223, R229). -/
def execCbStatus (e : BitVec 8) (s : State) : M State := requestControl e.toNat (.status e.toNat) s

/-- `status_complete(ep)` (43 R223, R229). -/
def execCbStatusComplete (e : BitVec 8) (s : State) : M State := requestControl e.toNat (.statusComplete e.toNat) s

/-- `bus_reset()` (41 R165). -/
def execCbBusReset (s : State) : M State := request .busReset s

/-! ## Responses -/

/-- `setup -> Ok` (43 R221). -/
def execRespSetupOk (s : State) : M State := deliver (.setup .ok) s

/-- `setup -> OkSetAddress(a)` (43 R222). -/
def execRespSetupOkSetAddress (a : BitVec 16) (s : State) : M State := deliver (.setup (.okSetAddress a)) s

/-- `setup -> Error` (43 R228). -/
def execRespSetupError (s : State) : M State := deliver (.setup .error) s

/-- `in_data -> Packet(size, last)` (43 R225, 44 R251, R256). -/
def execRespInDataPacket (size : BitVec 16) (last : Bool) (s : State) : M State := deliver (.inData (.packet size last)) s

/-- `in_data -> Delay` (43 R225, 44 R251, R256). -/
def execRespInDataDelay (s : State) : M State := deliver (.inData .delay) s

/-- `in_data -> Error` (43 R225, 44 R251, R256). -/
def execRespInDataError (s : State) : M State := deliver (.inData .error) s

/-- `out_data -> Ok` (43 R227, 44 R254). -/
def execRespOutDataOk (s : State) : M State := deliver (.outData .ok) s

/-- `out_data -> Halted` (43 R227, 44 R254). -/
def execRespOutDataHalted (s : State) : M State := deliver (.outData .halted) s

/-- `out_data -> Delay` (43 R227, 44 R254). -/
def execRespOutDataDelay (s : State) : M State := deliver (.outData .delay) s

/-- `status` has returned (43 R229). -/
def execRespStatusDone (s : State) : M State := deliver .status s

/-- `status_complete` has returned (43 R229). -/
def execRespStatusCompleteDone (s : State) : M State := deliver .statusComplete s

/-- `bus_reset` has returned (41 R165). -/
def execRespBusResetDone (s : State) : M State := deliver .busReset s

/-! ## Result words -/

/-- Result word 0 (30_encoding R94). -/
def execResOk (s : State) : M State := .next (answer .ok s)

/-- Result word 1 (30_encoding R94, 60 R301). -/
def execResConfigurationError (s : State) : M State := .next (answer .configurationError s)

/-- Result word 2 (30_encoding R94, 60 R302). -/
def execResHardwareTimeout (s : State) : M State := .next (answer .hardwareTimeout s)

/-- Result word 3 (30_encoding R94, 60 R304). -/
def execResUnsupportedFeature (s : State) : M State := .next (answer .unsupportedFeature s)

end Sys2Proof.Machine
end

