-- ==== Sys2Proof/Machine/Irq.lean ====
section
/-! DEFINITION. The Interrupt Dispatcher and its handlers (spec 41_interrupt_dispatcher): the receive branches, the endpoint
conditions, the global sources, `IRQ`. -/

namespace Sys2Proof.Machine

/-! ## Receive branches (41, section C) -/

/-- Whether a DATA-update for an endpoint with this sub-state finds its OUT half free (44 R253, 93 U5). -/
def Sub.takesData : Sub → Bool
  | .bulk _ .outDelay | .bulk _ (.outData _) => false
  | .bulk _ .init | .control _ | .interrupt _ _ | .disabled => true

/-- The sub-state after a packet of `n` bytes has been copied (44 R253). -/
def Sub.dataArrived (x : Sub) (n : BitVec 16) : Sub :=
  match x with
  | .bulk bin .init => .bulk bin (.outData n)
  | .bulk bin .outDelay => .bulk bin .outDelay
  | .bulk bin (.outData m) => .bulk bin (.outData m)
  | .control c => .control c
  | .interrupt s mps => .interrupt s mps
  | .disabled => .disabled

/-- `RxSetupComplete(e, n)`: nothing (41 R145). -/
def rxSetupComplete (_e : Nat) (_n : BitVec 16) (s : State) : M State := .next s

/-- The OUT buffer of endpoint `e` where a received packet of `n` bytes can go (41 R146, R147, 93 U5). -/
def receiveBuf (e : Nat) (n : BitVec 16) (s : State) : Option Buf :=
  if e < s.cfg.nEp then
    match (s.epAt e).outBuf with
    | some b => if n.toNat ≤ b.len.toNat then some b else none
    | none => none
  else none

/-- `RxDataUpdate(e, n)` (41 R146). -/
def rxDataUpdate (e : Nat) (n : BitVec 16) (s : State) : M State :=
  match receiveBuf e n s with
  | none => .refused .receiveNotTakable
  | some b =>
    if (s.epAt e).sub.takesData then
      andThen (if n = 0 then .next s else popPacket b n.toNat s) fun t =>
        .next (setSub e ((t.epAt e).sub.dataArrived n) (setPending e n t))
    else .refused .receiveNotTakable

/-- `RxSetupUpdate(e, n)` (41 R147). -/
def rxSetupUpdate (e : Nat) (n : BitVec 16) (s : State) : M State :=
  match receiveBuf e n s with
  | none => .refused .receiveNotTakable
  | some b =>
    if b.inSpace 1 then
      andThen (popPacket b n.toNat s) fun t => .next (setDir e (dirOf (t.mem.read b.base.toNat)) (setPending e n t))
    else .fault .outsideAddressSpace

/-- `RxOther(e, n, code)`: the entry is discarded (41 R148). -/
def rxOther (_e : Nat) (_n : BitVec 16) (s : State) : M State := .next s

/-- The branch on the packet-status code (41 R144). -/
def rxBranch (w : Word) (s : State) : M State :=
  let st := rxStatusOf s.cfg.layout w
  let n := BitVec.ofNat 16 st.bcnt
  if st.pktsts = s.cfg.layout.setupComplete then rxSetupComplete st.epnum n s
  else if st.pktsts = s.cfg.layout.dataUpdate then rxDataUpdate st.epnum n s
  else if st.pktsts = s.cfg.layout.setupUpdate then rxSetupUpdate st.epnum n s
  else rxOther st.epnum n s

def execRxDataUpdate (e : BitVec 4) (bcnt : BitVec 11) (_dpid : BitVec 2) (s : State) : M State :=
  rxDataUpdate e.toNat (bcnt.setWidth 16) s

def execRxSetupComplete (e : BitVec 4) (bcnt : BitVec 11) (_dpid : BitVec 2) (s : State) : M State :=
  rxSetupComplete e.toNat (bcnt.setWidth 16) s

def execRxSetupUpdate (e : BitVec 4) (bcnt : BitVec 11) (_dpid : BitVec 2) (s : State) : M State :=
  rxSetupUpdate e.toNat (bcnt.setWidth 16) s

/-! ## OUT conditions (41 R149 to R154) -/

/-- `OutCond_stup(i)` (41 R150). -/
def outStup (i : Nat) (s : State) : M State :=
  if i = 0 then andThen (ctrlSetup s) answered else .refused .noControlEndpoint

/-- `OutCond_xfrc(i)` (41 R151). -/
def outXfrc (i : Nat) (s : State) : M State :=
  match (s.epAt i).sub with
  | .control .writeOut => if i = 0 then answered (ctrlOutStep s) else .next s
  | .control .readStatus => if i = 0 ∧ (s.epAt i).reqDir = .d2h then answered (statusDone s) else .next s
  | .bulk _ (.outData _) => answered (bulkOutDeliver i s)
  | .control .init | .control .readIn | .control .setAddress => .next s
  | .bulk _ .init | .bulk _ .outDelay | .interrupt _ _ | .disabled => .next s

/-- The re-offer of a delayed packet (44 R255). -/
def reOffer (i : Nat) (s : State) : M State :=
  match (s.epAt i).sub with
  | .bulk _ .outDelay => answered (bulkOutDeliver i s)
  | .bulk _ .init | .bulk _ (.outData _) | .control _ | .interrupt _ _ | .disabled => .next s

/-- `OutCond_otepdis(i)` (41 R152). -/
def outOtepdis (i : Nat) (s : State) : M State := reOffer i s

/-- `OutCond_stsphsrx(i)`: no action (41 R153). -/
def outStsphsrx (_i : Nat) (s : State) : M State := .next s

/-- `OutCond_nak(i)` (41 R154). -/
def outNak (i : Nat) (s : State) : M State := reOffer i s

/-- The sub-handler of an OUT condition. -/
def outCond (c : OutCond) (i : Nat) (s : State) : M State :=
  match c with
  | .xfrc => outXfrc i s
  | .stup => outStup i s
  | .otepdis => outOtepdis i s
  | .stsphsrx => outStsphsrx i s
  | .nak => outNak i s

/-- Sub-handler, then the write-1-to-clear acknowledge of that condition (41 R149). -/
def serveOut (c : OutCond) (i : Nat) (s : State) : M State :=
  andThen (outCond c i s) fun t => .next (regWrite (.oepCond i c) 1 t)

/-- The flagged conditions of one read of an OUT endpoint's flags, in order (41 R149). -/
def serveOuts (f : Word) (i : Nat) : List OutCond → State → M State
  | [], s => .next s
  | c :: cs, s => if testBit f (s.cfg.layout.outBit c) then andThen (serveOut c i s) (serveOuts f i cs) else serveOuts f i cs s

/-- One endpoint of the OUT scan: its flags read once (41 R149). -/
def scanOut (i : Nat) (s : State) : M State :=
  let s1 := regRead (.oepInt i) s
  serveOuts (s1.ri.oepAt i).int i OutCond.order s1

/-! ## IN conditions (41 R155 to R161) -/

/-- `InCond_xfrc(i)` (41 R156). -/
def inXfrc (i : Nat) (s : State) : M State :=
  match (s.epAt i).sub with
  | .control .readIn => if i = 0 then answered (ctrlInStep s) else .next s
  | .control .readStatus => if i = 0 ∧ (s.epAt i).reqDir = .h2d then answered (statusDone s) else .next s
  | .control .setAddress => if i = 0 then .next (setAddressDone s) else .next s
  | .bulk (.busy _) bout => .next (setSub i (.bulk .init bout) s)
  | .interrupt (.busy _) mps => .next (setSub i (.interrupt .init mps) s)
  | .control .init | .control .writeOut | .bulk .init _ | .interrupt .init _ | .disabled => .next s

/-- `InCond_toc(i)`: no action (41 R157). -/
def inToc (_i : Nat) (s : State) : M State := .next s

/-- The `.ena` test of a control read polled again (41 R158). -/
def pollIfIdle0 (s : State) : M State :=
  let s1 := regRead (.iep 0 .ena) s
  if (s1.ri.iepAt 0).ena then .next s1 else answered (ctrlInStep s1)

/-- `InCond_ittxfe(i)` (41 R158). -/
def inIttxfe (i : Nat) (s : State) : M State :=
  match (s.epAt i).sub with
  | .control .readIn => if i = 0 then pollIfIdle0 s else .next s
  | .bulk .init _ => answered (pollIn i s)
  | .interrupt .init _ => answered (pollIn i s)
  | .control .init | .control .readStatus | .control .writeOut | .control .setAddress => .next s
  | .bulk (.busy _) _ | .interrupt (.busy _) _ | .disabled => .next s

/-- `InCond_inepne(i)`: no action (41 R159). -/
def inInepne (_i : Nat) (s : State) : M State := .next s

/-- `InCond_epdisd(i)`: no action (41 R160). -/
def inEpdisd (_i : Nat) (s : State) : M State := .next s

/-- `InCond_txfe(i)`: no action (41 R161). -/
def inTxfe (_i : Nat) (s : State) : M State := .next s

/-- The sub-handler of an IN condition. -/
def inCond (c : InCond) (i : Nat) (s : State) : M State :=
  match c with
  | .xfrc => inXfrc i s
  | .toc => inToc i s
  | .ittxfe => inIttxfe i s
  | .inepne => inInepne i s
  | .epdisd => inEpdisd i s
  | .txfe => inTxfe i s

/-- Sub-handler, then the write-1-to-clear acknowledge of that condition (41 R155). -/
def serveIn (c : InCond) (i : Nat) (s : State) : M State :=
  andThen (inCond c i s) fun t => .next (regWrite (.iepCond i c) 1 t)

/-- The flagged conditions of one read of an IN endpoint's flags, in order (41 R155). -/
def serveIns (f : Word) (i : Nat) : List InCond → State → M State
  | [], s => .next s
  | c :: cs, s => if testBit f (s.cfg.layout.inBit c) then andThen (serveIn c i s) (serveIns f i cs) else serveIns f i cs s

/-- One endpoint of the IN scan: its flags read once (41 R155). -/
def scanIn (i : Nat) (s : State) : M State :=
  let s1 := regRead (.iepInt i) s
  serveIns (s1.ri.iepAt i).int i InCond.order s1

/-! ## Handlers of the global sources -/

/-- One operation for each index, in order. -/
def forEach (f : Nat → State → M State) : List Nat → State → M State
  | [], s => .next s
  | i :: is, s => andThen (f i s) (forEach f is)

/-- `mmis`: no action (41 R143). -/
def handleMmis (s : State) : M State := .next s

/-- `rxflvl`: the pop inside the mask bracket (41 R144, 20_memory R73). -/
def handleRxflvl (s : State) : M State :=
  let p := popStatus (regWrite (.intmskBit .rxflvl) 0 s)
  andThen (rxBranch p.1 p.2) fun t => .next (regWrite (.intmskBit .rxflvl) 1 t)

/-- `oepint`: every OUT endpoint, ascending (41 R149). -/
def handleOepint (s : State) : M State := forEach scanOut (List.range s.cfg.nEp) s

/-- `iepint`: every IN endpoint, ascending (41 R155). -/
def handleIepint (s : State) : M State := forEach scanIn (List.range s.cfg.nEp) s

/-- `wkup`: no action (41 R162). -/
def handleWkup (s : State) : M State := .next s

/-- `susp`: no action (41 R163). -/
def handleSusp (s : State) : M State := .next s

/-- `lpm`: no action (41 R164). -/
def handleLpm (s : State) : M State := .next s

/-- Bus reset, registers of endpoint i: pending flags and STALL cleared (41 R165, first loop). -/
def busResetRegs (s : State) (i : Nat) : State :=
  regWrite (.oep i .stall) 0 (regWrite (.iep i .stall) 0 (clearOutFlags i (clearInFlags i s)))

/-- Bus reset, endpoint i above 0: inactive and `Disabled` (41 R165, second loop). -/
def busResetEndpoint (s : State) (i : Nat) : State :=
  disableBoth i (regWrite (.aintOep i) 0 (regWrite (.aintIep i) 0 (regWrite (.oep i .act) 0 (regWrite (.iep i .act) 0 s))))

/-- Bus reset, the sub-state of endpoint 0 (41 R165). -/
def busResetControl (s : State) : State :=
  match (s.epAt 0).sub with
  | .control _ => setSub 0 (.control .init) s
  | .bulk _ _ | .interrupt _ _ | .disabled => s

/-- The bus-reset handler before its callback (41 R165). -/
def busReset (s : State) : State :=
  let s1 := (List.range s.cfg.nEp).foldl busResetRegs s
  let s2 := ((List.range s.cfg.nEp).drop 1).foldl busResetEndpoint s1
  armCtrlOut (regWrite .addr 0 (stageAddr 0 (setPending 0 0 (busResetControl s2))))

/-- `usbrst`: bus reset, then `bus_reset()` (41 R165). -/
def handleUsbrst (s : State) : M State := answered (issueCb .busReset (busReset s))

/-- `enumdne`: enumeration-done (41 R166). -/
def handleEnumdne (s : State) : M State :=
  andThen (activateIn .control 0 (regWrite .trdt s.cfg.trdt s)) fun p1 =>
    if p1.1 = .ok then
      andThen (activateOut .control 0 p1.2) fun p2 =>
        if p2.1 = .ok then .next (armCtrlOut p2.2) else .refused .enumWithoutBuffers
    else .refused .enumWithoutBuffers

/-- `sof`: no action (41 R167). -/
def handleSof (s : State) : M State := .next s

/-- `iisoixfr`: no action (41 R168). -/
def handleIisoixfr (s : State) : M State := .next s

/-- `iisooxfr`: no action (41 R169). -/
def handleIisooxfr (s : State) : M State := .next s

/-- `srq`: no action (41 R170). -/
def handleSrq (s : State) : M State := .next s

/-- `otg`: no action (41 R171). -/
def handleOtg (s : State) : M State := .next s

/-- The handler of a source. -/
def handler (x : Source) (s : State) : M State :=
  match x with
  | .mmis => handleMmis s
  | .rxflvl => handleRxflvl s
  | .oepint => handleOepint s
  | .iepint => handleIepint s
  | .wkup => handleWkup s
  | .susp => handleSusp s
  | .lpm => handleLpm s
  | .usbrst => handleUsbrst s
  | .enumdne => handleEnumdne s
  | .sof => handleSof s
  | .iisoixfr => handleIisoixfr s
  | .iisooxfr => handleIisooxfr s
  | .srq => handleSrq s
  | .otg => handleOtg s

/-- The acknowledge of a source (41 R142). -/
def acknowledge (x : Source) (s : State) : State := regWrite (.intstsBit x) 1 s

/-- Handler first, acknowledge second (41 R140, R142). -/
def serve (x : Source) (s : State) : M State := andThen (handler x s) fun t => .next (acknowledge x t)

/-- The sources of a snapshot, in the order given (41 R140, R141). -/
def serveAll (p : Word) : List Source → State → M State
  | [], s => .next s
  | x :: xs, s => if served s.cfg.layout p x then andThen (serve x s) (serveAll p xs) else serveAll p xs s

/-! ## Instructions -/

/-- `IRQ`, the dispatcher (41 R140). -/
def execIrq (s : State) : M State :=
  clocked s
    (let p := irqEntry s
     andThen (serveAll p.1 s.cfg.handlerOrder p.2) fun t => .next (irqReturn t))

def execSrcMmis (s : State) : M State := clocked s (serve .mmis s)
def execSrcRxflvl (s : State) : M State := clocked s (serve .rxflvl s)
def execSrcOepint (s : State) : M State := clocked s (serve .oepint s)
def execSrcIepint (s : State) : M State := clocked s (serve .iepint s)
def execSrcWkup (s : State) : M State := clocked s (serve .wkup s)
def execSrcSusp (s : State) : M State := clocked s (serve .susp s)
def execSrcLpm (s : State) : M State := clocked s (serve .lpm s)
def execSrcUsbrst (s : State) : M State := clocked s (serve .usbrst s)
def execSrcEnumdne (s : State) : M State := clocked s (serve .enumdne s)
def execSrcSof (s : State) : M State := clocked s (serve .sof s)
def execSrcIisoixfr (s : State) : M State := clocked s (serve .iisoixfr s)
def execSrcIisooxfr (s : State) : M State := clocked s (serve .iisooxfr s)
def execSrcSrq (s : State) : M State := clocked s (serve .srq s)
def execSrcOtg (s : State) : M State := clocked s (serve .otg s)

/-- The service of a condition of endpoint i, whose registers must exist (10_state R43). -/
def onRegs (i : Nat) (s : State) (k : M State) : M State :=
  if i < s.cfg.nEp then clocked s k else .fault .noSuchEndpoint

def execOepXfrc (i : Nat) (s : State) : M State := onRegs i s (serveOut .xfrc i s)
def execOepStup (i : Nat) (s : State) : M State := onRegs i s (serveOut .stup i s)
def execOepOtepdis (i : Nat) (s : State) : M State := onRegs i s (serveOut .otepdis i s)
def execOepStsphsrx (i : Nat) (s : State) : M State := onRegs i s (serveOut .stsphsrx i s)
def execOepNak (i : Nat) (s : State) : M State := onRegs i s (serveOut .nak i s)

def execIepXfrc (i : Nat) (s : State) : M State := onRegs i s (serveIn .xfrc i s)
def execIepToc (i : Nat) (s : State) : M State := onRegs i s (serveIn .toc i s)
def execIepIttxfe (i : Nat) (s : State) : M State := onRegs i s (serveIn .ittxfe i s)
def execIepInepne (i : Nat) (s : State) : M State := onRegs i s (serveIn .inepne i s)
def execIepEpdisd (i : Nat) (s : State) : M State := onRegs i s (serveIn .epdisd i s)
def execIepTxfe (i : Nat) (s : State) : M State := onRegs i s (serveIn .txfe i s)

end Sys2Proof.Machine
end

