-- ==== Sys2Proof/Machine/Dispatch.lean ====
section
/-! DEFINITION. The dispatch of an instruction to its meaning, one arm per constructor. -/

namespace Sys2Proof.Machine

def exec (i : Instr) (s : State) : Host.Outcome State Fault Refusal :=
  match i with
  | .enable speed => Sys2Proof.Machine.execEnable speed s
  | .start => Sys2Proof.Machine.execStart s
  | .detach => Sys2Proof.Machine.execDetach s
  | .setAddress a => Sys2Proof.Machine.execSetAddress a s
  | .assignCtrlBuf len base => Sys2Proof.Machine.execAssignCtrlBuf len base s
  | .assignInBuf k len base => Sys2Proof.Machine.execAssignInBuf k len base s
  | .assignOutBuf k len base => Sys2Proof.Machine.execAssignOutBuf k len base s
  | .activateEpIn k t => Sys2Proof.Machine.execActivateEpIn k t s
  | .activateEpOut k t => Sys2Proof.Machine.execActivateEpOut k t s
  | .disableEpIn k => Sys2Proof.Machine.execDisableEpIn k s
  | .disableEpOut k => Sys2Proof.Machine.execDisableEpOut k s
  | .stallEpIn k => Sys2Proof.Machine.execStallEpIn k s
  | .stallEpOut k => Sys2Proof.Machine.execStallEpOut k s
  | .clearStallIn k => Sys2Proof.Machine.execClearStallIn k s
  | .clearStallOut k => Sys2Proof.Machine.execClearStallOut k s
  | .setRxFifo size => Sys2Proof.Machine.execSetRxFifo size s
  | .setTxFifo k size => Sys2Proof.Machine.execSetTxFifo k size s
  | .writePacket k len => Sys2Proof.Machine.execWritePacket k len s
  | .readPacket k len => Sys2Proof.Machine.execReadPacket k len s
  | .irq => Sys2Proof.Machine.execIrq s
  | .srcMmis => Sys2Proof.Machine.execSrcMmis s
  | .srcRxflvl => Sys2Proof.Machine.execSrcRxflvl s
  | .srcOepint => Sys2Proof.Machine.execSrcOepint s
  | .srcIepint => Sys2Proof.Machine.execSrcIepint s
  | .srcWkup => Sys2Proof.Machine.execSrcWkup s
  | .srcSusp => Sys2Proof.Machine.execSrcSusp s
  | .srcLpm => Sys2Proof.Machine.execSrcLpm s
  | .srcUsbrst => Sys2Proof.Machine.execSrcUsbrst s
  | .srcEnumdne => Sys2Proof.Machine.execSrcEnumdne s
  | .srcSof => Sys2Proof.Machine.execSrcSof s
  | .srcIisoixfr => Sys2Proof.Machine.execSrcIisoixfr s
  | .srcIisooxfr => Sys2Proof.Machine.execSrcIisooxfr s
  | .srcSrq => Sys2Proof.Machine.execSrcSrq s
  | .srcOtg => Sys2Proof.Machine.execSrcOtg s
  | .oepXfrc k => Sys2Proof.Machine.execOepXfrc k s
  | .oepStup k => Sys2Proof.Machine.execOepStup k s
  | .oepOtepdis k => Sys2Proof.Machine.execOepOtepdis k s
  | .oepStsphsrx k => Sys2Proof.Machine.execOepStsphsrx k s
  | .oepNak k => Sys2Proof.Machine.execOepNak k s
  | .iepXfrc k => Sys2Proof.Machine.execIepXfrc k s
  | .iepToc k => Sys2Proof.Machine.execIepToc k s
  | .iepIttxfe k => Sys2Proof.Machine.execIepIttxfe k s
  | .iepInepne k => Sys2Proof.Machine.execIepInepne k s
  | .iepEpdisd k => Sys2Proof.Machine.execIepEpdisd k s
  | .iepTxfe k => Sys2Proof.Machine.execIepTxfe k s
  | .rxDataUpdate e bcnt dpid => Sys2Proof.Machine.execRxDataUpdate e bcnt dpid s
  | .rxSetupComplete e bcnt dpid => Sys2Proof.Machine.execRxSetupComplete e bcnt dpid s
  | .rxSetupUpdate e bcnt dpid => Sys2Proof.Machine.execRxSetupUpdate e bcnt dpid s
  | .cbSetup e => Sys2Proof.Machine.execCbSetup e s
  | .cbInData e => Sys2Proof.Machine.execCbInData e s
  | .cbOutData e len => Sys2Proof.Machine.execCbOutData e len s
  | .cbStatus e => Sys2Proof.Machine.execCbStatus e s
  | .cbStatusComplete e => Sys2Proof.Machine.execCbStatusComplete e s
  | .cbBusReset => Sys2Proof.Machine.execCbBusReset s
  | .respSetupOk => Sys2Proof.Machine.execRespSetupOk s
  | .respSetupOkSetAddress a => Sys2Proof.Machine.execRespSetupOkSetAddress a s
  | .respSetupError => Sys2Proof.Machine.execRespSetupError s
  | .respInDataPacket size last => Sys2Proof.Machine.execRespInDataPacket size last s
  | .respInDataDelay => Sys2Proof.Machine.execRespInDataDelay s
  | .respInDataError => Sys2Proof.Machine.execRespInDataError s
  | .respOutDataOk => Sys2Proof.Machine.execRespOutDataOk s
  | .respOutDataHalted => Sys2Proof.Machine.execRespOutDataHalted s
  | .respOutDataDelay => Sys2Proof.Machine.execRespOutDataDelay s
  | .respStatusDone => Sys2Proof.Machine.execRespStatusDone s
  | .respStatusCompleteDone => Sys2Proof.Machine.execRespStatusCompleteDone s
  | .respBusResetDone => Sys2Proof.Machine.execRespBusResetDone s
  | .resOk => Sys2Proof.Machine.execResOk s
  | .resConfigurationError => Sys2Proof.Machine.execResConfigurationError s
  | .resHardwareTimeout => Sys2Proof.Machine.execResHardwareTimeout s
  | .resUnsupportedFeature => Sys2Proof.Machine.execResUnsupportedFeature s

end Sys2Proof.Machine
end

