-- ==== Sys2Proof/Machine/Ports.lean ====
section
/-! DEFINITION. The ports between operations: what one input does, what a word means that is no instruction (spec 30_encoding
R102), the events of the reference environment (20_memory R81), the interrupt line, and how a word comes to stand at the head of
the inbox. -/

namespace Sys2Proof.Machine

/-- A word at a port that decodes to no instruction (30_encoding R102, 41 R148, R172; log 26 for a wrong length). -/
def rejected (p : Port) (r : Reject) (s : State) : M State :=
  match p, r with
  | .cmd, .unknownOpcode => .next (answer .unsupportedFeature s)
  | .cmd, .nonZeroField => .next (answer .unsupportedFeature s)
  | .cmd, _ => .refused .wrongLength
  | .gintsts, .nothingServed => .next s
  | .doepint _, .nothingServed => .next s
  | .diepint _, .nothingServed => .next s
  | .rxsts, .unnamedPktsts => .next s
  | .resp, _ => .refused .clientContract
  | _, _ => .refused .badPortWord

/-- Whether a transaction at a port must wait for an answer first: while a callback is in progress only its response may come
(60 R314, 93 U11). -/
def heldByCallback (p : Port) (s : State) : Bool := s.client.outstanding.isSome && p != .resp

/-- The inbox with what is left of the transaction just served. -/
def putBack (p : Port) (left : List Word) (rest : List Input) (s : State) : State :=
  { s with inbox := match left with
      | [] => rest
      | w :: ws => .port p (w :: ws) :: rest }

/-- One transaction at a port, the rest of the inbox behind it. -/
def takePort (p : Port) (ws : List Word) (rest : List Input) (s : State) : M State :=
  if heldByCallback p s then .refused .insideCallback
  else
    match decode s.cfg.layout p ws with
    | .ok (i, left) => exec i (putBack p left rest s)
    | .error r => rejected p r (putBack p [] rest s)

/-- The Clock Gate's bit, turned from outside (10_state R45; log 15). DESIGN CHOICE: 00_scope R7 lets no agent but the Register
Interface step inside an operation and does not name the Clock Gate; it turns between two steps, so between a callback request and
its response where these are steps of their own (log 12), and never inside a run of the dispatcher (log 33). -/
def setClock (on : Bool) (s : State) : State := { s with clockOn := on }

/-- A move of the Register Interface between two operations (20_memory R77 E4). -/
def riMoves (m : RiMove) (s : State) : State := { s with ri := RiMove.apply s.cfg.layout s.ri m }

/-! ## Events of the reference environment (20_memory R81) -/

/-- The three sources that are levels and are never latched by an event (20_memory R78). -/
def isLevel : Source → Bool
  | .rxflvl | .oepint | .iepint => true
  | .mmis | .wkup | .susp | .lpm | .usbrst | .enumdne | .sof | .iisoixfr | .iisooxfr | .srq | .otg => false

/-- The receive entry of `EV_RX`: its status word, and the packed bytes where the code carries data (20_memory R81). -/
def rxEntry (c : Config) (e code : BitVec 4) (bytes : List Byte) : RiMove :=
  .receive (rxWord c.layout code.toNat e (BitVec.ofNat 11 bytes.length) 0)
    (if code.toNat = c.layout.dataUpdate ∨ code.toNat = c.layout.setupUpdate then pack c.byteOrder bytes else [])

/-- What an event makes the Register Interface do; the two shorthands do nothing by themselves. -/
def Event.moves (s : State) : Event → List RiMove
  | .busReset => [.raise (s.cfg.layout.bit .usbrst)]
  | .enumDone => [.raise (s.cfg.layout.bit .enumdne)]
  | .src x => if isLevel x then [] else [.raise (s.cfg.layout.bit x)]
  | .rx e code bytes => [rxEntry s.cfg e code bytes]
  | .oep i c => .oepFlag i (s.cfg.layout.outBit c) :: if c = .xfrc ∨ c = .stup then [.oepDone i] else []
  | .iep i c =>
    .iepFlag i (s.cfg.layout.inBit c) :: if c = .xfrc then [.iepDone i, .drain i (s.ri.txq.getD i []).length] else []
  | .setup _ => []
  | .out _ _ => []
  | .loopback i => [.loopback i]

/-- What comes next after an event: the interrupts it causes; for a shorthand the events it stands for. -/
def Event.follow (l : Layout) : Event → List Input
  | .setup bytes =>
    [.event (.rx 0 (BitVec.ofNat 4 l.setupUpdate) bytes), .event (.rx 0 (BitVec.ofNat 4 l.setupComplete) []), .event (.oep 0 .stup)]
  | .out e bytes => [.event (.rx e (BitVec.ofNat 4 l.dataUpdate) bytes), .event (.oep e.toNat .xfrc)]
  | .busReset | .enumDone | .src _ | .rx _ _ _ | .oep _ _ | .iep _ _ | .loopback _ => [.interrupts]

/-- An event, the rest of the inbox behind what it causes. It happens between two operations, so not while a callback is in
progress (60 R314). -/
def takeEvent (e : Event) (rest : List Input) (s : State) : M State :=
  if s.client.outstanding.isSome then .refused .insideCallback
  else .next { s with ri := s.ri.moved s.cfg.layout (e.moves s), inbox := e.follow s.cfg.layout ++ rest }

/-- The interrupts an event causes: one `IRQ` operation while the line is asserted, this item kept; then the rest of the inbox. -/
def takeInterrupts (rest : List Input) (s : State) : M State :=
  if s.client.outstanding.isSome then .refused .insideCallback
  else if irqLine s then exec .irq s else .next { s with inbox := rest }

/-! ## Inputs -/

/-- One input, the rest of the inbox behind it. A move, a write of the Client or a turn of the clock is taken also while a callback
awaits its answer (log 6, log 29; the clock: DESIGN CHOICE, log 33); a transaction other than a response and an event are not. -/
def takeInput (x : Input) (rest : List Input) (s : State) : M State :=
  match x with
  | .port p ws => takePort p ws rest s
  | .move m => .next (riMoves m { s with inbox := rest })
  | .event e => takeEvent e rest s
  | .interrupts => takeInterrupts rest s
  | .clientWrite a b => .next (storeByte a.toNat b { s with inbox := rest })
  | .clock on => .next (setClock on { s with inbox := rest })

/-- With nothing at the ports: the dispatcher where the interrupt line asks for it and no callback is in progress, else nothing
(60 R311, R314, R321; log 16). -/
def idle (s : State) : M State :=
  if irqLine s && s.client.outstanding.isNone then exec .irq s else .next s

/-- One step: the oldest input, else the interrupt line. -/
def nextOperation (s : State) : M State :=
  match s.inbox with
  | [] => idle s
  | x :: rest => takeInput x rest s

/-- A request on endpoint 0 that a response answers (30_encoding R101: the response echoes the callback). -/
def requestFor : Resp → CbReq
  | .setup _ => .setup 0
  | .inData _ => .inData 0
  | .outData _ => .outData 0 0
  | .status => .status 0
  | .statusComplete => .statusComplete 0
  | .busReset => .busReset

/-- Whether a response echoes a request (30_encoding R101). -/
def echoes : Resp → CbReq → Bool
  | .setup _, .setup _ => true
  | .inData _, .inData _ => true
  | .outData _, .outData _ _ => true
  | .status, .status _ => true
  | .statusComplete, .statusComplete _ => true
  | .busReset, .busReset => true
  | _, _ => false

/-- The callback in progress that an instruction needs: for a response one it echoes, kept where it is there already; for
every other instruction none (log 2). -/
def outstandingFor (i : Option Instr) (o : Option CbReq) : Option CbReq :=
  match i.bind respOfInstr with
  | none => none
  | some r =>
    match o with
    | some q => if echoes r q then some q else some (requestFor r)
    | none => some (requestFor r)

/-- Words put at the head of the inbox, with the callback in progress their instruction needs (log 2). -/
def arrive (p : Port) (ws : List Word) (i : Option Instr) (s : State) : State :=
  { s with
    inbox := .port p ws :: s.inbox,
    client := { s.client with outstanding := outstandingFor i s.client.outstanding } }

/-- A word, and the word behind it, put at the head of the inbox at the port where they are one whole instruction; at the
command port where they are none (log 1, log 2). -/
def arriveWord (w v : Word) (s : State) : State :=
  match portOf s.cfg.layout w v with
  | some (p, i) => arrive p (wordsAt p w v) (some i) s
  | none => arrive .cmd (wordsAt .cmd w v) none s

end Sys2Proof.Machine
end

