-- ==== Sys2Proof/Machine/Step.lean ====
section
/-! DEFINITION. One step of the machine: the next operation (spec 00_scope R7, 20_memory R72). -/

namespace Sys2Proof.Machine

/-- One step. -/
def step (s : State) : Host.Outcome State Fault Refusal := nextOperation s

/-- The state whose next step runs the instruction with these bits (log 2): the first word bits 31 to 0, the second bits 63 to
32, bits from `nbits` on zero. -/
def State.withFetchWord (s : State) (nbits w : Nat) : State :=
  arriveWord (BitVec.ofNat 32 (w % 2 ^ nbits)) (BitVec.ofNat 32 (w % 2 ^ nbits / 2 ^ 32)) s

end Sys2Proof.Machine
end

