-- ==== Sys2Proof/Safety.lean ====
section
/-! DEFINITION. What a safe run is, and the invariants of the machine in the terms claims use (spec 10_state R35 to R39). -/

namespace Sys2Proof.Machine

/-- A step from `s` stops neither at a fault nor at a refusal. -/
def Progresses (s : State) : Prop := ∃ t, step s = .next t

/-- `n` steps from `s`, none of which stops. -/
def SafeRun : Nat → State → Prop
  | 0, _ => True
  | n + 1, s => ∃ t, step s = .next t ∧ SafeRun n t

/-- A state is reached from another by steps. -/
inductive Reaches (s : State) : State → Prop
  | here : Reaches s s
  | more {t u : State} : Reaches s t → step t = .next u → Reaches s u

/-! ## What the register helpers leave, and their accesses, newest first (42 R203 to R206, 20_memory R71) -/

/-- OUT endpoint 0 armed for the next SETUP (42 R203). -/
def OutRegs.armedForSetup (c : Config) (r : OutRegs) : OutRegs :=
  { r with stupcnt := c.setupCnt, pktcnt := 1, xfrsiz := c.setupXfrsiz, nak := false, ena := true }

/-- The five writes that arm for the next SETUP (42 R203). -/
def armForSetupWrites (c : Config) : List Access :=
  [.write (.oep 0 .ena) 1, .write (.oep 0 .nak) 0, .write (.oep 0 .xfrsiz) c.setupXfrsiz, .write (.oep 0 .pktcnt) 1,
    .write (.oep 0 .stupcnt) c.setupCnt]

/-- An OUT endpoint armed for one packet of at most `n` bytes (42 R205). -/
def OutRegs.armed (n : Nat) (r : OutRegs) : OutRegs := { r with xfrsiz := n, pktcnt := 1, nak := false, ena := true }

/-- The four writes that arm OUT endpoint `i` (42 R205). -/
def armWrites (i n : Nat) : List Access :=
  [.write (.oep i .ena) 1, .write (.oep i .nak) 0, .write (.oep i .pktcnt) 1, .write (.oep i .xfrsiz) n]

/-- An IN endpoint with a transfer of `n` bytes started (42 R204). -/
def InRegs.started (n : Nat) (r : InRegs) : InRegs := { r with xfrsiz := n, pktcnt := 1, nak := false, ena := true }

/-- The four writes that start an IN transfer on endpoint `i` (42 R204). -/
def startWrites (i n : Nat) : List Access :=
  [.write (.iep i .ena) 1, .write (.iep i .nak) 0, .write (.iep i .pktcnt) 1, .write (.iep i .xfrsiz) n]

/-- The pushes of a packet's words into transmit FIFO `i` (45 R270). -/
def pushes (i : Nat) (ws : List Word) : List Access := (ws.map (Access.txPush i)).reverse

/-- The words of the first `n` bytes of a buffer (45 R270, R272). -/
def wordsOf (b : Buf) (n : Nat) (s : State) : List Word := pack s.cfg.byteOrder (s.mem.bytes b.base.toNat n)

/-- OUT endpoint registers with one condition acknowledged (41 R149). -/
def OutRegs.acked (l : Layout) (c : OutCond) (r : OutRegs) : OutRegs := { r with int := putBit r.int (l.outBit c) false }

/-- IN endpoint registers with one condition acknowledged (41 R155). -/
def InRegs.acked (l : Layout) (c : InCond) (r : InRegs) : InRegs := { r with int := putBit r.int (l.inBit c) false }

/-- The first `n` bytes of endpoint `i`'s IN buffer can be sent as one packet: buffer, reserved FIFO and capacity
(42 R204, 45 R270). -/
structure CanSend (i n : Nat) (b : Buf) (s : State) : Prop where
  buf : (s.epAt i).inBuf = some b
  fits : n ≤ b.len.toNat
  reserved : s.part.reserved i = true
  capacity : words4 n ≤ partSize (s.part.tx.getD i none)
  space : b.base.toNat + n ≤ 2 ^ 32

/-- The receive queue is in step and holds the data words of a packet of `n` bytes, `rest` behind them, and the Register
Interface makes no move inside the operation (20_memory R64). -/
structure HoldsPacket (n : Nat) (ws : List Word) (rest : List RxItem) (s : State) : Prop where
  queue : s.ri.rxq = ws.map .data ++ rest
  count : ws.length = words4 n
  inStep : s.ri.rxInStep = true
  still : s.moves = []

/-- Byte `k` of a packet held in words (45 R271, R273). -/
def packetByte (o : ByteOrder) (ws : List Word) (k : Nat) : Byte := unpack o (ws.getD (k / 4) 0) (k % 4)

/-- The Client's next answer is listed and its word is the one of this response instruction (30_encoding R101). -/
def Answers (a : ClientAnswer) (i : Instr) (rest : List ClientAnswer) (s : State) : Prop :=
  s.client.answers = a :: rest ∧ (encode s.cfg.layout i).2 = [a.word]

/-- Client memory after the writes of an answer (20_memory R60). -/
def memAfter (a : ClientAnswer) (m : Memory) : Memory := a.writes.foldl (fun m w => m.write w.1.toNat w.2) m

/-- The state once a request has been made and answered, before the CORE acts on the answer. -/
def afterCall (q : CbReq) (a : ClientAnswer) (rest : List ClientAnswer) (s : State) : State :=
  { s with mem := memAfter a s.mem, client := { outstanding := none, calls := q :: s.client.calls, answers := rest } }

/-- `s` with a condition of OUT endpoint `i` acknowledged (41 R149). -/
def outAcknowledged (i : Nat) (c : OutCond) (s : State) : State :=
  { s with
    ri := { s.ri with oep := s.ri.oep.modify i (OutRegs.acked s.cfg.layout c) }, trace := .write (.oepCond i c) 1 :: s.trace }

/-- `s` with a condition of IN endpoint `i` acknowledged (41 R155). -/
def inAcknowledged (i : Nat) (c : InCond) (s : State) : State :=
  { s with
    ri := { s.ri with iep := s.ri.iep.modify i (InRegs.acked s.cfg.layout c) }, trace := .write (.iepCond i c) 1 :: s.trace }

/-- `s` with the next packet of a control read started, the last one entering `ReadStatus` with control-OUT armed (43 R225). -/
def ctrlInStarted (size : Nat) (last : Bool) (b : Buf) (s : State) : State :=
  { s with
    ep := if last then s.ep.modify 0 fun e => { e with sub := .control .readStatus } else s.ep,
    ri := { s.ri with
      iep := s.ri.iep.modify 0 (InRegs.started size),
      oep := if last then s.ri.oep.modify 0 (OutRegs.armedForSetup s.cfg) else s.ri.oep,
      txq := s.ri.txq.modify 0 fun q => q ++ wordsOf b size s },
    trace := (if last then armForSetupWrites s.cfg else []) ++ pushes 0 (wordsOf b size s) ++ startWrites 0 size ++ s.trace }

/-- `s` with both sides of endpoint 0 stalled, back in `Init`, control-OUT armed (43 R228). -/
def ctrlFailed (s : State) : State :=
  { s with
    ep := s.ep.modify 0 fun e => { e with sub := .control .init },
    ri := { s.ri with
      iep := s.ri.iep.modify 0 fun r => { r with stall := true },
      oep := s.ri.oep.modify 0 fun r => OutRegs.armedForSetup s.cfg { r with stall := true } },
    trace := armForSetupWrites s.cfg ++ [.write (.oep 0 .stall) 1, .write (.iep 0 .stall) 1] ++ s.trace }

/-- `s` with endpoint 0 in a sub-state of its request. -/
def inControl (c : CtrlSub) (s : State) : State := { s with ep := s.ep.modify 0 fun e => { e with sub := .control c } }

/-- Instructions one after the other, as long as none stops. -/
def runAll : List Instr → State → M State
  | [], s => .next s
  | i :: is, s => andThen (exec i s) (runAll is)

/-- What outcome `y` is like `x`: the same stop, or a next state that is the same but for the accesses made, which `f` gives. -/
def Follows (x y : M State) (f : State → State) : Prop :=
  match x with
  | .next t => ∃ l, y = .next { f t with trace := l }
  | .fault e => y = .fault e
  | .refused e => y = .refused e

/-! ## What the Register Interface alone writes (20_memory R77) -/

/-- An IN endpoint without the fields the Register Interface may write. -/
def InRegs.plain (r : InRegs) : InRegs := { r with dpid := false, ena := false, nak := false, int := 0 }

/-- An OUT endpoint without the fields the Register Interface may write. -/
def OutRegs.plain (r : OutRegs) : OutRegs := { r with dpid := false, ena := false, nak := false, int := 0 }

/-- The plain fields of the Register Interface, which keep the last value the CORE wrote (20_memory R77 E3), the STALL bits of the
control endpoint left out, which the peripheral clears when a SETUP packet arrives (42 R202, 43 R228; log 21). -/
def RegIf.plain (r : RegIf) : RegIf :=
  { r with
    ahbIdle := false, coreRst := false, rxfFlush := false, txfFlush := false, intsts := 0, levelGate := 0, rxq := [],
    rxInStep := true, iep := (r.iep.modify 0 fun e => { e with stall := false }).map InRegs.plain,
    oep := (r.oep.modify 0 fun e => { e with stall := false }).map OutRegs.plain, txq := r.txq.map fun _ => [] }

/-- Two outcomes alike but for what the Register Interface may write by itself: the same stop, or next states that agree in the
CORE's own state, client memory, the client port, the result, the accesses made and every plain field. -/
def SameBut : M State → M State → Prop
  | .next t, .next u => u = { t with ri := u.ri, moves := u.moves } ∧ u.ri.plain = t.ri.plain
  | .fault e, .fault e' => e = e'
  | .refused e, .refused e' => e = e'
  | _, _ => False

/-- The instructions that read nothing the Register Interface may change by itself: all but `ENABLE full` (polls), `READ_PACKET`
and the two receive entries that copy (pops), `IRQ` and the handlers of `rxflvl`, `oepint` and `iepint` (status and condition
bits), and the IN-token mismatch (`.ena`). -/
def readsPlainOnly (i : Instr) : Prop :=
  i ≠ .enable .full ∧ i ≠ .irq ∧ i ≠ .srcRxflvl ∧ i ≠ .srcOepint ∧ i ≠ .srcIepint ∧ (∀ k n, i ≠ .readPacket k n) ∧
    (∀ e n d, i ≠ .rxDataUpdate e n d ∧ i ≠ .rxSetupUpdate e n d) ∧ ∀ k, i ≠ .iepIttxfe k

/-- The commands of 30_encoding R93, the pseudo-command `IRQ` left out. -/
def isCommand (i : Instr) : Prop := (encode Layout.default i).1 = .cmd ∧ i ≠ .irq

/-- The nine global sources whose handler has no described action (41 R143, R162 to R164, R167 to R171). -/
def noActionSources : List Source := [.mmis, .wkup, .susp, .lpm, .sof, .iisoixfr, .iisooxfr, .srq, .otg]

/-- Client memory is in canonical form and lists no address outside the 32-bit space (20_memory R61). -/
def MemoryCanonical (s : State) : Prop := s.mem.wf = true ∧ ∀ c ∈ s.mem, c.1 < 2 ^ 32

/-- Every list that has one entry per endpoint has `N_EP` entries (10_state R23, R34, R41 to R43). -/
structure Shaped (s : State) : Prop where
  ep : s.ep.length = s.cfg.nEp
  part : s.part.tx.length = s.cfg.nEp
  txf : s.ri.txf.length = s.cfg.nEp
  aintIep : s.ri.aintIep.length = s.cfg.nEp
  aintOep : s.ri.aintOep.length = s.cfg.nEp
  iep : s.ri.iep.length = s.cfg.nEp
  oep : s.ri.oep.length = s.cfg.nEp
  txq : s.ri.txq.length = s.cfg.nEp

/-- Every number field whose range the spec states is within it: the device address (10_state R42), and the FIFO sizes and offsets,
"naturals bounded by `FIFO_RAM_WORDS`" (45 R278). -/
structure RegIf.InRange (c : Config) (r : RegIf) : Prop where
  addr : r.addr < 2 ^ c.addrWidth
  rxfSize : r.rxfSize ≤ c.fifoRamWords
  txf : ∀ i, (r.txf.getD i ⟨0, 0⟩).start ≤ c.fifoRamWords ∧ (r.txf.getD i ⟨0, 0⟩).size ≤ c.fifoRamWords

/-- The fields of the Register Interface are within their ranges. -/
def FieldsInRange (s : State) : Prop := s.ri.InRange s.cfg

/-- The sum of the FIFO sizes of the partition is within FIFO RAM (10_state R38). -/
def PartitionFits (s : State) : Prop := s.part.total ≤ s.cfg.fifoRamWords

/-- Every placed transmit FIFO begins where the FIFOs before it end (20_memory R65). -/
def PartitionContiguous (s : State) : Prop :=
  ∀ i t, s.part.tx.getD i none = some t → t.offset = layoutOffset i s.part

/-- An endpoint that is not `Disabled` has both buffers, both valid (10_state R35). -/
def BuffersAssigned (s : State) : Prop := ∀ i, (s.epAt i).sub ≠ .disabled → ∃ p, buffersOf (s.epAt i) = some p

/-- A count is within a buffer. -/
def fitsBuf (n : BitVec 16) (b : Option Buf) : Prop :=
  match b with
  | some x => n.toNat ≤ x.len.toNat
  | none => False

/-- The sizes an endpoint's sub-state carries are within its buffers, and an interrupt endpoint's `mps` is its IN buffer's length
(10_state R28, R37). -/
def SizesFit (e : Endpoint) : Prop :=
  match e.sub with
  | .bulk bin bout =>
    (match bin with
      | .busy n => fitsBuf n e.inBuf
      | .init => True) ∧
    (match bout with
      | .outData n => fitsBuf n e.outBuf ∧ fitsBuf e.pendingSize e.outBuf
      | .outDelay => fitsBuf e.pendingSize e.outBuf
      | .init => True)
  | .interrupt s mps =>
    (∃ b, e.inBuf = some b ∧ b.len = mps) ∧
    (match s with
      | .busy n => fitsBuf n e.inBuf
      | .init => True)
  | .control _ => True
  | .disabled => True

/-- Sizes fit on every endpoint (10_state R37). -/
def TransferSizesFit (s : State) : Prop := ∀ i, SizesFit (s.epAt i)

/-- The activated directions of endpoint `i` hold the type code of its tag (10_state R39). -/
def TagMatches (s : State) (i : Nat) : Prop :=
  ∀ t, (s.epAt i).sub.tag = some t →
    ((s.ri.iepAt i).act = true → (s.ri.iepAt i).eptyp = BitVec.ofNat 2 t.code) ∧
    ((s.ri.oepAt i).act = true → (s.ri.oepAt i).eptyp = BitVec.ofNat 2 t.code)

/-- The whole of what keeps tags and type fields in step (10_state R39): besides the match itself, no endpoint is active before
`ENABLE` has completed, a `Disabled` data endpoint has neither direction active, endpoint 0 is `Control` or `Disabled` with type
code 0, and no data endpoint is `Control`. -/
structure TagsMatch (s : State) : Prop where
  here : ∀ i, TagMatches s i
  off : s.ctrl = .disabled → ∀ i, (s.epAt i).sub = .disabled
  quiet : s.ctrl ≠ .disabled → ∀ i, 1 ≤ i → (s.epAt i).sub = .disabled →
    (s.ri.iepAt i).act = false ∧ (s.ri.oepAt i).act = false
  zero : s.ctrl ≠ .disabled → (s.ri.iepAt 0).eptyp = 0 ∧ (s.ri.oepAt 0).eptyp = 0
  ep0 : (s.epAt 0).sub = .disabled ∨ ∃ c, (s.epAt 0).sub = .control c
  above : ∀ i, 1 ≤ i → ∀ c, (s.epAt i).sub ≠ .control c

/-- The controller is in one of the three states a rule produces (10_state R21). -/
def LegalCtrl (s : State) : Prop := s.ctrl = .disabled ∨ s.ctrl = .initialized ∨ s.ctrl = .started

end Sys2Proof.Machine
end

