-- ==== Sys2Proof/Certificates/Slice0/Obligations.lean ====
section
/-! DEFINITION. The statements for the provers, each with the rule of spec/ it formalises. A statement that gives the whole next state
of an instruction with register accesses has `s.moves = []` among its hypotheses: the Register Interface, which may move at any point
inside an operation (20_memory R77 E4), makes no move inside this one. What its moves can change of such an instruction's effect is
`Obligations.InterfaceDoesNotReachTheCore`. -/

open Sys2Proof Sys2Proof.Machine

/-! ## Power-on, encodings, the step -/

/-- 10_state R48: the CORE's own state at power-on, under any configuration; that `State.reset` is that state under the vectors'
configuration is the model's choice (log 3). -/
def Obligations.PowerOnValues : Prop :=
  (∀ c : Config,
    (State.powerOn c).ctrl = .disabled ∧ (State.powerOn c).ep.length = c.nEp ∧
    (∀ i, ((State.powerOn c).epAt i).sub = .disabled ∧ ((State.powerOn c).epAt i).inBuf = none ∧
      ((State.powerOn c).epAt i).outBuf = none ∧ ((State.powerOn c).epAt i).pendingSize = 0 ∧
      ((State.powerOn c).epAt i).reqDir = .h2d) ∧
    (State.powerOn c).devAddrPending = 0 ∧ (State.powerOn c).part.rxSize = none ∧
    (State.powerOn c).part.tx.length = c.nEp ∧ ∀ i, (State.powerOn c).part.tx.getD i none = none) ∧
  State.reset = State.powerOn Config.vectors

/-- 30_encoding R107: the worked encodings, each word read at its port (log 1), under the default layout. -/
def Obligations.WorkedEncodingsDecode : Prop :=
  decode Layout.default .cmd [0x01000000] = .ok (.enable .full, []) ∧ decode Layout.default .cmd [0x01000001] = .ok (.enable .low, []) ∧
  decode Layout.default .cmd [0x02000000] = .ok (.start, []) ∧ decode Layout.default .cmd [0x04000005] = .ok (.setAddress 5, []) ∧
  decode Layout.default .cmd [0x10000040, 0x20000000] = .ok (.assignCtrlBuf 64 0x20000000, []) ∧
  decode Layout.default .cmd [0x11010040, 0x20000100] = .ok (.assignInBuf 1 64 0x20000100, []) ∧
  decode Layout.default .cmd [0x20010002] = .ok (.activateEpIn 1 .bulk, []) ∧
  decode Layout.default .cmd [0x20020003] = .ok (.activateEpIn 2 .interrupt, []) ∧
  decode Layout.default .cmd [0x25000000] = .ok (.stallEpOut 0, []) ∧ decode Layout.default .cmd [0x31010040] = .ok (.setTxFifo 1 64, []) ∧
  decode Layout.default .cmd [0x40010005] = .ok (.writePacket 1 5, []) ∧ decode Layout.default .cmd [0x80000000] = .ok (.irq, []) ∧
  decode Layout.default .resp [0x20010012] = .ok (.respInDataPacket 18 true, []) ∧
  decode Layout.default .resp [0x11000005] = .ok (.respSetupOkSetAddress 5, []) ∧
  decode Layout.default .cb [0x3001001F] = .ok (.cbOutData 1 31, [])

/-- 30_encoding R91 to R101: under every layout of distinct places (00_scope R5), decoding the encoding of a well-formed instruction, at
its port (log 1), gives it back whole. -/
def Obligations.DecodeEncodeAgree : Prop :=
  ∀ (l : Layout) (i : Instr), l.wf = true → i.wellFormed = true → decode l (encode l i).1 (encode l i).2 = .ok (i, [])

/-- 30_encoding R91 to R94, R100, R101: at the command, request, response and result ports every word sequence that decodes is
the encoding of what it decodes to, so no bit of it is dropped, whatever the layout of the status words. -/
def Obligations.EncodeDecodeAgree : Prop :=
  ∀ (l : Layout) (p : Port) (ws : List Word) (i : Instr) (left : List Word),
    p = .cmd ∨ p = .cb ∨ p = .resp ∨ p = .res → decode l p ws = .ok (i, left) → left = [] ∧ encode l i = (p, ws)

/-- 30_encoding R102 (a), (b): a command word whose opcode is not assigned, or with a non-zero must-be-zero field, is answered
`UnsupportedFeature` and nothing else changes but that the word is taken. -/
def Obligations.IllegalCommandWordAnswersUnsupported : Prop :=
  ∀ (s : State) (w : Word) (more : List Word) (rest : List Input),
    s.inbox = .port .cmd (w :: more) :: rest → s.client.outstanding = none →
    (field w 24 8 ∉ [0x01, 0x02, 0x03, 0x04, 0x10, 0x11, 0x12, 0x20, 0x21, 0x22, 0x23, 0x24, 0x25, 0x26, 0x27, 0x30, 0x31, 0x40,
        0x41, 0x80] ∨
      (more = [] ∧ field w 24 8 = 0x01 ∧ field w 1 23 ≠ 0) ∨
      (more = [] ∧ field w 24 8 ∈ [0x02, 0x03, 0x80] ∧ field w 0 24 ≠ 0) ∨
      (more = [] ∧ field w 24 8 ∈ [0x04, 0x30] ∧ field w 16 8 ≠ 0) ∨
      (more.length = 1 ∧ field w 24 8 = 0x10 ∧ field w 16 8 ≠ 0) ∨
      (more = [] ∧ field w 24 8 ∈ [0x20, 0x21] ∧ field w 2 14 ≠ 0) ∨
      (more = [] ∧ field w 24 8 ∈ [0x22, 0x23, 0x24, 0x25, 0x26, 0x27] ∧ field w 0 16 ≠ 0)) →
    step s = .next { s with inbox := rest, result := some .unsupportedFeature }

/-- The step runs the decoded instruction: where the oldest input is a transaction that decodes to `i`, the step is `exec i` with
the transaction taken from the inbox, what is left of it put back. The second half: a word placed by `withFetchWord` is what the
very next step runs; the table's words are those of the default layout. (The inbox is the model's own, log 2.) -/
def Obligations.StepRunsDecodedInstruction : Prop :=
  (∀ (s : State) (p : Port) (ws left : List Word) (rest : List Input) (i : Instr),
    s.inbox = .port p ws :: rest → s.client.outstanding = none ∨ p = .resp → decode s.cfg.layout p ws = .ok (i, left) →
    step s = exec i { s with inbox := if left = [] then rest else .port p left :: rest }) ∧
  (∀ (s : State) (nbits w : Nat) (i : Instr), s.cfg.layout = Layout.default → decodeTableWord nbits w = some i →
    step (s.withFetchWord nbits w) =
      exec i { s with client := { s.client with outstanding := outstandingFor (some i) s.client.outstanding } })

/-- 60 R311, R313, R314, 20_memory R81 as the model's step has them (log 16): with nothing at the ports the interrupt line, where it is
asserted (`G.gint_en` set and a source pending and unmasked, whatever the clock) and no callback is in progress, invokes the
dispatcher, and otherwise nothing happens; while a callback is in progress every transaction but a response is refused. An event of
the reference environment has its effect, and behind it, before the rest of the inbox, `IRQ` runs as long as the line is asserted;
the two shorthands are the events they stand for. With the clock off the `IRQ` so invoked is refused (40 R130, 41 R140, 93 U19). What
R81 does not give is the model's (log 32): an event while a callback is in progress is refused (DEDUCED), an `EV_OEP` or `EV_IEP` of
an index of `N_EP` or more changes no register (DESIGN CHOICE), and an `EV_RX` of more than 2047 bytes holds its length cut to 11
bits (DESIGN CHOICE). Which level bits stand is log 8 and log 31 (DESIGN CHOICE). -/
def Obligations.StepsBetweenOperations : Prop :=
  (∀ s : State, s.inbox = [] → s.ri.gintEn = true → s.ri.status s.cfg.layout &&& s.ri.intmsk ≠ 0 →
    s.client.outstanding = none → step s = exec .irq s ∧ (s.clockOn = false → step s = .refused .clockOff)) ∧
  (∀ s : State, s.inbox = [] →
    (s.ri.gintEn = false ∨ s.ri.status s.cfg.layout &&& s.ri.intmsk = 0 ∨ s.client.outstanding ≠ none) →
    step s = .next s) ∧
  (∀ (s : State) (p : Port) (ws : List Word) (rest : List Input), s.inbox = .port p ws :: rest →
    s.client.outstanding ≠ none → p ≠ .resp → step s = .refused .insideCallback) ∧
  (∀ (s : State) (rest : List Input), s.inbox = .interrupts :: rest → s.client.outstanding = none →
    (s.ri.gintEn = true → s.ri.status s.cfg.layout &&& s.ri.intmsk ≠ 0 →
      step s = exec .irq s ∧ (s.clockOn = false → step s = .refused .clockOff)) ∧
    (s.ri.gintEn = false ∨ s.ri.status s.cfg.layout &&& s.ri.intmsk = 0 →
      step s = .next { s with inbox := rest })) ∧
  (∀ (s : State) (e : Event) (rest : List Input), s.inbox = .event e :: rest →
    (s.client.outstanding ≠ none → step s = .refused .insideCallback) ∧
    (s.client.outstanding = none →
      (∀ x, (e = .busReset ∧ x = .usbrst) ∨ (e = .enumDone ∧ x = .enumdne) ∨
          (e = .src x ∧ x ≠ .rxflvl ∧ x ≠ .oepint ∧ x ≠ .iepint) →
        step s = .next { s with
          ri := { s.ri with intsts := s.ri.intsts ||| bitMask (s.cfg.layout.bit x) }, inbox := .interrupts :: rest }) ∧
      (∀ k code bytes, e = .rx k code bytes →
        step s = .next { s with
          ri := { s.ri with rxq := s.ri.rxq ++ .status (rxWord s.cfg.layout code.toNat k (BitVec.ofNat 11 bytes.length) 0) ::
            (if code.toNat = s.cfg.layout.dataUpdate ∨ code.toNat = s.cfg.layout.setupUpdate
              then (pack s.cfg.byteOrder bytes).map .data else []) },
          inbox := .interrupts :: rest }) ∧
      (∀ i c, e = .oep i c →
        step s = .next { s with
          ri := { s.ri with oep := s.ri.oep.modify i fun r => { r with
            int := r.int ||| bitMask (s.cfg.layout.outBit c), ena := if c = .xfrc ∨ c = .stup then false else r.ena } },
          inbox := .interrupts :: rest }) ∧
      (∀ i c, e = .iep i c →
        step s = .next { s with
          ri := { s.ri with
            iep := s.ri.iep.modify i fun r => { r with
              int := r.int ||| bitMask (s.cfg.layout.inBit c), ena := if c = .xfrc then false else r.ena },
            txq := if c = .xfrc then s.ri.txq.modify i fun _ => [] else s.ri.txq },
          inbox := .interrupts :: rest }) ∧
      (∀ bytes, e = .setup bytes →
        step s = .next { s with inbox := [.event (.rx 0 (BitVec.ofNat 4 s.cfg.layout.setupUpdate) bytes),
          .event (.rx 0 (BitVec.ofNat 4 s.cfg.layout.setupComplete) []), .event (.oep 0 .stup)] ++ rest }) ∧
      (∀ k bytes, e = .out k bytes →
        step s = .next { s with inbox := [.event (.rx k (BitVec.ofNat 4 s.cfg.layout.dataUpdate) bytes),
          .event (.oep k.toNat .xfrc)] ++ rest }) ∧
      (∀ i, e = .loopback i →
        step s = .next { s with
          ri := { s.ri with
            rxq := s.ri.rxq ++ (s.ri.txq.getD i []).map .data, txq := s.ri.txq.modify i fun _ => [] },
          inbox := .interrupts :: rest })))

/-! ## Lifecycle -/

/-- 40 R120: low speed is rejected whatever the state, and `ENABLE full` outside `Disabled` is a no-op answered `Ok` with no
register access. -/
def Obligations.EnableRejectsLowSpeedAndIsIdempotent : Prop :=
  ∀ s : State,
    exec (.enable .low) s = .next { s with result := some .unsupportedFeature } ∧
    (s.ctrl ≠ .disabled → exec (.enable .full) s = .next { s with result := some .ok })

/-- 40 R120 to R125, 70 R345: from `Disabled`, with AHB idle, every poll answered at once and a partition that fits, `ENABLE full`
completes, whatever the Register Interface holds after the core soft reset; and whatever it does inside the operation, `Ok` from
`Disabled` means what the Caller may rely on. That the mask bits of sources the CORE does not know are 0 is 41 R172 (log 7). -/
def Obligations.EnableInitializes : Prop :=
  (∀ s : State, s.ctrl = .disabled → Shaped s → s.moves = [] → s.ri.ahbIdle = true → 1 ≤ s.cfg.retryCeiling →
    s.cfg.layout.wf = true →
    s.cfg.rxFifoWords + ((List.range s.cfg.nEp).map fun i => s.cfg.txFifoWords.getD i 0).sum ≤ s.cfg.fifoRamWords →
    ∃ t l, exec (.enable .full) s = .next t ∧
      t = { s with
        ctrl := .initialized, clockOn := true, result := some .ok, devAddrPending := 0, ri := t.ri,
        ep := s.ep.map fun e => { e with sub := .disabled, pendingSize := 0, reqDir := .h2d },
        part := { rxSize := some s.cfg.rxFifoWords, tx := t.part.tx },
        resetImages := s.resetImages.tail, trace := l ++ s.trace } ∧
      Shaped t ∧ t.ri.devRole = true ∧ t.ri.gintEn = false ∧ (s.resetImages = [] → t.ri.phyFs = true) ∧
      (∀ m, testBit t.ri.intmsk m =
        [Source.rxflvl, .susp, .usbrst, .enumdne, .iepint, .oepint, .iisoixfr, .iisooxfr, .wkup].any fun x => s.cfg.layout.bit x == m) ∧
      t.ri.rxq = [] ∧ t.ri.rxfSize = s.cfg.rxFifoWords ∧
      ∀ i, i < s.cfg.nEp →
        t.part.tx.getD i none = some ⟨layoutOffset i t.part, s.cfg.txFifoWords.getD i 0⟩ ∧
        t.ri.txf.getD i ⟨0, 0⟩ = ⟨layoutOffset i t.part, s.cfg.txFifoWords.getD i 0⟩ ∧
        t.ri.txq.getD i [] = [] ∧
        (t.ri.iepAt i).act = false ∧ (t.ri.iepAt i).eptyp = 0 ∧ (t.ri.iepAt i).stall = false ∧ (t.ri.iepAt i).dpid = false ∧
        (t.ri.iepAt i).ena = false ∧ (t.ri.iepAt i).nak = false ∧ (t.ri.iepAt i).mps = 0 ∧ (t.ri.iepAt i).txfnum = 0 ∧
        (t.ri.oepAt i).act = false ∧ (t.ri.oepAt i).eptyp = 0 ∧ (t.ri.oepAt i).stall = false ∧ (t.ri.oepAt i).dpid = false ∧
        (t.ri.oepAt i).ena = false ∧ (t.ri.oepAt i).nak = false ∧ (t.ri.oepAt i).mps = 0 ∧
        (∀ c : InCond, testBit (t.ri.iepAt i).int (s.cfg.layout.inBit c) = false) ∧
        (∀ c : OutCond, testBit (t.ri.oepAt i).int (s.cfg.layout.outBit c) = false)) ∧
  (∀ s t : State, s.ctrl = .disabled → s.cfg.layout.wf = true → exec (.enable .full) s = .next t → t.result = some .ok →
    t.ctrl = .initialized ∧ t.clockOn = true ∧ t.ri.gintEn = false ∧ t.ri.devRole = true ∧
    (∀ m, testBit t.ri.intmsk m =
      [Source.rxflvl, .susp, .usbrst, .enumdne, .iepint, .oepint, .iisoixfr, .iisooxfr, .wkup].any fun x => s.cfg.layout.bit x == m) ∧
    t.ep = s.ep.map (fun e => { e with sub := .disabled, pendingSize := 0, reqDir := .h2d }) ∧
    t.part.rxSize = some s.cfg.rxFifoWords ∧ t.ri.rxfSize = s.cfg.rxFifoWords ∧
    ∀ i, i < s.cfg.nEp →
      (s.part.tx.length = s.cfg.nEp →
        t.part.tx.getD i none = some ⟨layoutOffset i t.part, s.cfg.txFifoWords.getD i 0⟩) ∧
      (t.ri.iepAt i).act = false ∧ (t.ri.iepAt i).eptyp = 0 ∧ (t.ri.iepAt i).stall = false ∧ (t.ri.iepAt i).mps = 0 ∧
      (t.ri.iepAt i).txfnum = 0 ∧
      (t.ri.oepAt i).act = false ∧ (t.ri.oepAt i).eptyp = 0 ∧ (t.ri.oepAt i).stall = false ∧ (t.ri.oepAt i).mps = 0)

/-- 40 R121, R122, 60 R302: where AHB idle never reads 1, `ENABLE full` makes exactly `RETRY_CEILING` reads of it and answers
`HardwareTimeout`; the clock stays on, the two writes made stay made, the CORE's own state is untouched. -/
def Obligations.EnableTimesOutWhenBusIsNeverIdle : Prop :=
  ∀ s : State, s.ctrl = .disabled → s.moves = [] → s.ri.ahbIdle = false →
    exec (.enable .full) s = .next { s with
      clockOn := true, result := some .hardwareTimeout, ri := { s.ri with gintEn := false, phyFs := true },
      trace := List.replicate s.cfg.retryCeiling (.read .ahbIdle) ++ [.write .phyFs 1, .write .gintEn 0] ++ s.trace }

/-- 40 R126, R127: `START` in `Initialized`, `DETACH` in `Started`; each refused in every other state and with the clock off. -/
def Obligations.StartAndDetach : Prop :=
  (∀ s : State, s.ctrl = .initialized → s.clockOn = true → s.moves = [] →
    exec .start s = .next { s with
      ctrl := .started, result := some .ok, ri := { s.ri with gintEn := true, connect := true },
      trace := [.write .connect 1, .write .gintEn 1] ++ s.trace }) ∧
  (∀ s : State, s.ctrl = .started → s.clockOn = true → s.moves = [] →
    exec .detach s = .next { s with
      ctrl := .initialized, result := some .ok, ri := { s.ri with gintEn := false, connect := false },
      trace := [.write .gintEn 0, .write .connect 0] ++ s.trace }) ∧
  (∀ s : State,
    (s.ctrl ≠ .initialized → exec .start s = .refused .startNotInitialized) ∧
    (s.ctrl ≠ .started → exec .detach s = .refused .detachNotStarted) ∧
    (s.ctrl = .initialized → s.clockOn = false → exec .start s = .refused .clockOff) ∧
    (s.ctrl = .started → s.clockOn = false → exec .detach s = .refused .clockOff))

/-- 40 R128, R129: `SET_ADDRESS` stages the address, and under `Immediate` timing writes its low `ADDR_WIDTH` bits. -/
def Obligations.SetAddressStages : Prop :=
  ∀ (s : State) (a : BitVec 16),
    (s.cfg.addrTiming = .deferred → exec (.setAddress a) s = .next { s with devAddrPending := a, result := some .ok }) ∧
    (s.cfg.addrTiming = .immediate → s.clockOn = true → s.moves = [] →
      exec (.setAddress a) s = .next { s with
        devAddrPending := a, result := some .ok, ri := { s.ri with addr := a.toNat % 2 ^ s.cfg.addrWidth },
        trace := .write .addr (a.toNat % 2 ^ s.cfg.addrWidth) :: s.trace }) ∧
    (s.cfg.addrTiming = .immediate → s.clockOn = false → exec (.setAddress a) s = .refused .clockOff)

/-- 10_state R21, R22: only `ENABLE`, `START` and `DETACH` write the lifecycle state, and every step keeps it among `Disabled`,
`Initialized` and `Started`. -/
def Obligations.LifecycleStateWriters : Prop :=
  (∀ (i : Instr) (s t : State), exec i s = .next t → (∀ v, i ≠ .enable v) → i ≠ .start → i ≠ .detach → t.ctrl = s.ctrl) ∧
  (∀ s t : State, LegalCtrl s → step s = .next t → LegalCtrl t)

/-- 70 R347: no operation changes the FIFO partition in `Started`. -/
def Obligations.PartitionFixedOnceStarted : Prop :=
  ∀ (i : Instr) (s t : State), exec i s = .next t → s.ctrl = .started → t.part = s.part

/-! ## Endpoint Manager -/

/-- 42 R193: the valid buffers are those of the thirteen lengths that do not pass the end of the address space. -/
def Obligations.ValidBufferLengths : Prop :=
  ∀ b : Buf, b.valid = true ↔
    b.len.toNat ∈ [8, 16, 32, 64, 128, 256, 512, 1024, 2048, 4096, 8192, 16384, 32768] ∧ b.base.toNat + b.len.toNat ≤ 2 ^ 32

/-- 42 R190: `ASSIGN_CTRL_BUF`. -/
def Obligations.AssignControlBuffer : Prop :=
  ∀ (s : State) (len : BitVec 16) (base : Word),
    ((Buf.mk base len).valid = false →
      exec (.assignCtrlBuf len base) s = .next { s with result := some .configurationError }) ∧
    ((Buf.mk base len).valid = true → (s.epAt 0).sub = .disabled ∨ (s.epAt 0).sub = .control .init →
      exec (.assignCtrlBuf len base) s = .next { s with
        ep := s.ep.modify 0 fun e => { e with inBuf := some ⟨base, len⟩, outBuf := some ⟨base, len⟩ }, result := some .ok }) ∧
    ((Buf.mk base len).valid = true → (s.epAt 0).sub ≠ .disabled → (s.epAt 0).sub ≠ .control .init →
      exec (.assignCtrlBuf len base) s = .refused .bufferInUse)

/-- 42 R191, R192: `ASSIGN_IN_BUF` and `ASSIGN_OUT_BUF`, the index tested before the buffer; an interrupt endpoint's `mps` follows
its IN buffer. -/
def Obligations.AssignDataBuffers : Prop :=
  (∀ (s : State) (k : BitVec 8) (len : BitVec 16) (base : Word),
    (s.cfg.nEp ≤ k.toNat ∨ (Buf.mk base len).valid = false →
      exec (.assignInBuf k len base) s = .next { s with result := some .configurationError }) ∧
    (k.toNat < s.cfg.nEp → (Buf.mk base len).valid = true →
      ((s.epAt k.toNat).sub = .disabled ∨ (s.epAt k.toNat).sub = .control .init ∨
        (∃ bout, (s.epAt k.toNat).sub = .bulk .init bout) ∨ ∃ m, (s.epAt k.toNat).sub = .interrupt .init m) →
      exec (.assignInBuf k len base) s = .next { s with
        ep := s.ep.modify k.toNat fun e => { e with
          inBuf := some ⟨base, len⟩,
          sub := match e.sub with
            | .interrupt x _ => .interrupt x len
            | .control c => .control c
            | .bulk bin bout => .bulk bin bout
            | .disabled => .disabled },
        result := some .ok }) ∧
    (k.toNat < s.cfg.nEp → (Buf.mk base len).valid = true →
      ((∃ c, c ≠ .init ∧ (s.epAt k.toNat).sub = .control c) ∨ (∃ n bout, (s.epAt k.toNat).sub = .bulk (.busy n) bout) ∨
        ∃ n m, (s.epAt k.toNat).sub = .interrupt (.busy n) m) →
      exec (.assignInBuf k len base) s = .refused .bufferInUse)) ∧
  (∀ (s : State) (k : BitVec 8) (len : BitVec 16) (base : Word),
    (s.cfg.nEp ≤ k.toNat ∨ (Buf.mk base len).valid = false →
      exec (.assignOutBuf k len base) s = .next { s with result := some .configurationError }) ∧
    (k.toNat < s.cfg.nEp → (Buf.mk base len).valid = true →
      ((s.epAt k.toNat).sub = .disabled ∨ (s.epAt k.toNat).sub = .control .init ∨
        (∃ bin, (s.epAt k.toNat).sub = .bulk bin .init) ∨ ∃ x m, (s.epAt k.toNat).sub = .interrupt x m) →
      exec (.assignOutBuf k len base) s = .next { s with
        ep := s.ep.modify k.toNat fun e => { e with outBuf := some ⟨base, len⟩ }, result := some .ok }) ∧
    (k.toNat < s.cfg.nEp → (Buf.mk base len).valid = true →
      ((∃ c, c ≠ .init ∧ (s.epAt k.toNat).sub = .control c) ∨ (∃ bin, (s.epAt k.toNat).sub = .bulk bin .outDelay) ∨
        ∃ bin n, (s.epAt k.toNat).sub = .bulk bin (.outData n)) →
      exec (.assignOutBuf k len base) s = .refused .bufferInUse))

/-- 42 R194, R196: `ACTIVATE_EP_IN` of a bulk or interrupt endpoint. -/
def Obligations.ActivateInOnDataEndpoint : Prop :=
  ∀ (s : State) (k : BitVec 8) (t : TType) (b1 b2 : Buf),
    s.clockOn = true → s.moves = [] → s.ctrl ≠ .disabled → 1 ≤ k.toNat → k.toNat < s.cfg.nEp → t = .bulk ∨ t = .interrupt →
    (s.epAt k.toNat).inBuf = some b1 → (s.epAt k.toNat).outBuf = some b2 → b1.valid = true → b2.valid = true →
    s.part.reserved k.toNat = true → (s.epAt k.toNat).sub = .disabled ∨ (s.epAt k.toNat).sub.tag = some t →
    exec (.activateEpIn k t) s = .next { s with
      ep := s.ep.modify k.toNat fun e => { e with
        sub := match t, (s.epAt k.toNat).sub with
          | .interrupt, _ => .interrupt .init b1.len
          | _, .bulk _ bout => .bulk .init bout
          | _, _ => .bulk .init .init },
      ri := { s.ri with
        iep := s.ri.iep.modify k.toNat fun r =>
          { r with eptyp := BitVec.ofNat 2 t.code, dpid := false, mps := b1.len.toNat, txfnum := k.toNat, act := true },
        aintIep := s.ri.aintIep.modify k.toNat fun _ => true },
      result := some .ok,
      trace := [.write (.aintIep k.toNat) 1, .write (.iep k.toNat .act) 1, .write (.iep k.toNat .txfnum) k.toNat,
        .write (.iep k.toNat .mps) b1.len.toNat, .write (.iep k.toNat .dpid) 0, .write (.iep k.toNat .eptyp) t.code] ++ s.trace }

/-- 42 R195, R196, R205: `ACTIVATE_EP_OUT` of a bulk endpoint, armed at once. -/
def Obligations.ActivateOutOnBulkEndpoint : Prop :=
  ∀ (s : State) (k : BitVec 8) (b1 b2 : Buf),
    s.clockOn = true → s.moves = [] → s.ctrl ≠ .disabled → 1 ≤ k.toNat → k.toNat < s.cfg.nEp →
    (s.epAt k.toNat).inBuf = some b1 → (s.epAt k.toNat).outBuf = some b2 → b1.valid = true → b2.valid = true →
    (s.epAt k.toNat).sub = .disabled ∨ (s.epAt k.toNat).sub.tag = some .bulk →
    exec (.activateEpOut k .bulk) s = .next { s with
      ep := s.ep.modify k.toNat fun e => { e with
        sub := match (s.epAt k.toNat).sub with
          | .bulk bin _ => .bulk bin .init
          | _ => .bulk .init .init },
      ri := { s.ri with
        oep := s.ri.oep.modify k.toNat fun r =>
          ({ r with eptyp := 2, dpid := false, mps := b2.len.toNat, act := true } : OutRegs).armed b2.len.toNat,
        aintOep := s.ri.aintOep.modify k.toNat fun _ => true },
      result := some .ok,
      trace := armWrites k.toNat b2.len.toNat ++ [.write (.aintOep k.toNat) 1, .write (.oep k.toNat .act) 1,
        .write (.oep k.toNat .mps) b2.len.toNat, .write (.oep k.toNat .dpid) 0, .write (.oep k.toNat .eptyp) 2] ++ s.trace }

/-- 42 R194, R195: activation of endpoint 0 "enables the control endpoint if not already active": whatever the type operand but
Isochronous, no type field, toggle or mask is written. -/
def Obligations.ActivateControlEndpoint : Prop :=
  ∀ (s : State) (t : TType) (b1 b2 : Buf),
    s.clockOn = true → s.moves = [] → s.ctrl ≠ .disabled → 0 < s.cfg.nEp → t ≠ .isochronous →
    (s.epAt 0).inBuf = some b1 → (s.epAt 0).outBuf = some b2 → b1.valid = true → b2.valid = true →
    exec (.activateEpIn 0 t) s = .next { s with
      ep := if (s.epAt 0).sub = .disabled then s.ep.modify 0 fun e => { e with sub := .control .init } else s.ep,
      ri := { s.ri with iep := s.ri.iep.modify 0 fun r => { r with act := true } },
      result := some .ok,
      trace := (if (s.ri.iepAt 0).act then [.read (.iep 0 .act)] else [.write (.iep 0 .act) 1, .read (.iep 0 .act)]) ++ s.trace } ∧
    exec (.activateEpOut 0 t) s = .next { s with
      ep := if (s.epAt 0).sub = .disabled then s.ep.modify 0 fun e => { e with sub := .control .init } else s.ep,
      ri := { s.ri with oep := s.ri.oep.modify 0 fun r => { r with act := true } },
      result := some .ok,
      trace := (if (s.ri.oepAt 0).act then [.read (.oep 0 .act)] else [.write (.oep 0 .act) 1, .read (.oep 0 .act)]) ++ s.trace }

/-- 42 R194, R195, 60 R310: the checks of activation, in their order. -/
def Obligations.ActivationChecksInOrder : Prop :=
  ∀ (s : State) (k : BitVec 8) (t : TType),
    (s.cfg.nEp ≤ k.toNat →
      exec (.activateEpIn k t) s = .next { s with result := some .configurationError } ∧
      exec (.activateEpOut k t) s = .next { s with result := some .configurationError }) ∧
    (k.toNat < s.cfg.nEp → t = .isochronous →
      exec (.activateEpIn k t) s = .next { s with result := some .unsupportedFeature } ∧
      exec (.activateEpOut k t) s = .next { s with result := some .unsupportedFeature }) ∧
    (k.toNat < s.cfg.nEp → t ≠ .isochronous → buffersOf (s.epAt k.toNat) = none →
      exec (.activateEpIn k t) s = .next { s with result := some .configurationError } ∧
      exec (.activateEpOut k t) s = .next { s with result := some .configurationError }) ∧
    (k.toNat < s.cfg.nEp → t ≠ .isochronous → buffersOf (s.epAt k.toNat) ≠ none → s.ctrl = .disabled →
      exec (.activateEpIn k t) s = .refused .activateWhileDisabled ∧
      exec (.activateEpOut k t) s = .refused .activateWhileDisabled) ∧
    (1 ≤ k.toNat → k.toNat < s.cfg.nEp → buffersOf (s.epAt k.toNat) ≠ none → s.ctrl ≠ .disabled →
      (t = .control →
        exec (.activateEpIn k t) s = .refused .controlTypeAboveZero ∧
        exec (.activateEpOut k t) s = .refused .controlTypeAboveZero) ∧
      (t = .interrupt → exec (.activateEpOut k t) s = .refused .interruptOut) ∧
      (t = .bulk ∨ t = .interrupt → s.part.reserved k.toNat = false →
        exec (.activateEpIn k t) s = .next { s with result := some .configurationError }) ∧
      (t = .bulk ∨ t = .interrupt → s.part.reserved k.toNat = true → (∃ u, u ≠ t ∧ (s.epAt k.toNat).sub.tag = some u) →
        exec (.activateEpIn k t) s = .refused .otherTypeActive) ∧
      (t = .bulk → (∃ u, u ≠ t ∧ (s.epAt k.toNat).sub.tag = some u) →
        exec (.activateEpOut k t) s = .refused .otherTypeActive))

/-- 42 R197, R198: `DISABLE_EP_IN` and `DISABLE_EP_OUT`, and their answer to an index out of range. -/
def Obligations.DisableOneSide : Prop :=
  (∀ (s : State) (k : BitVec 8), s.clockOn = true → s.moves = [] → k.toNat < s.cfg.nEp →
    exec (.disableEpIn k) s = .next { s with
      ep := s.ep.modify k.toNat fun e =>
        if (s.ri.oepAt k.toNat).act then { e with
          sub := match e.sub with
            | .bulk _ bout => .bulk .init bout
            | .interrupt _ m => .interrupt .init m
            | .control _ => .control .init
            | .disabled => .disabled }
        else { e with sub := .disabled, pendingSize := 0 },
      ri := { s.ri with
        iep := s.ri.iep.modify k.toNat fun r => { r with nak := true, ena := false, act := false },
        aintIep := s.ri.aintIep.modify k.toNat fun _ => false },
      result := some .ok,
      trace := [.read (.oep k.toNat .act), .write (.aintIep k.toNat) 0, .write (.iep k.toNat .act) 0,
        .write (.iep k.toNat .ena) 0, .write (.iep k.toNat .nak) 1] ++ s.trace }) ∧
  (∀ (s : State) (k : BitVec 8), s.clockOn = true → s.moves = [] → k.toNat < s.cfg.nEp →
    exec (.disableEpOut k) s = .next { s with
      ep := s.ep.modify k.toNat fun e =>
        if (s.ri.iepAt k.toNat).act then
          (match e.sub with
            | .bulk bin _ => { e with sub := .bulk bin .init, pendingSize := 0 }
            | .control _ => { e with sub := .control .init, pendingSize := 0 }
            | .interrupt _ _ => e
            | .disabled => e)
        else { e with sub := .disabled, pendingSize := 0 },
      ri := { s.ri with
        oep := s.ri.oep.modify k.toNat fun r => { r with nak := true, ena := false, act := false },
        aintOep := s.ri.aintOep.modify k.toNat fun _ => false },
      result := some .ok,
      trace := [.read (.iep k.toNat .act), .write (.aintOep k.toNat) 0, .write (.oep k.toNat .act) 0,
        .write (.oep k.toNat .ena) 0, .write (.oep k.toNat .nak) 1] ++ s.trace }) ∧
  (∀ (s : State) (k : BitVec 8), s.cfg.nEp ≤ k.toNat →
    exec (.disableEpIn k) s = .next { s with result := some .configurationError } ∧
    exec (.disableEpOut k) s = .next { s with result := some .configurationError })

/-- 42 R199 to R202: stalling sets the STALL bit of that endpoint and direction and nothing else; clearing it resets the data toggle
on every endpoint but endpoint 0; an index out of range is a `ConfigurationError`. -/
def Obligations.StallAndClearStall : Prop :=
  (∀ (s : State) (k : BitVec 8), s.clockOn = true → s.moves = [] → k.toNat < s.cfg.nEp →
    exec (.stallEpIn k) s = .next { s with
      ri := { s.ri with iep := s.ri.iep.modify k.toNat fun r => { r with stall := true } }, result := some .ok,
      trace := .write (.iep k.toNat .stall) 1 :: s.trace } ∧
    exec (.stallEpOut k) s = .next { s with
      ri := { s.ri with oep := s.ri.oep.modify k.toNat fun r => { r with stall := true } }, result := some .ok,
      trace := .write (.oep k.toNat .stall) 1 :: s.trace }) ∧
  (∀ (s : State) (k : BitVec 8), s.clockOn = true → s.moves = [] → k.toNat < s.cfg.nEp →
    exec (.clearStallIn k) s = .next { s with
      ri := { s.ri with
        iep := s.ri.iep.modify k.toNat fun r => { r with stall := false, dpid := if k = 0 then r.dpid else false } },
      result := some .ok,
      trace := (if k = 0 then [.write (.iep k.toNat .stall) 0]
        else [.write (.iep k.toNat .dpid) 0, .write (.iep k.toNat .stall) 0]) ++ s.trace } ∧
    exec (.clearStallOut k) s = .next { s with
      ri := { s.ri with
        oep := s.ri.oep.modify k.toNat fun r => { r with stall := false, dpid := if k = 0 then r.dpid else false } },
      result := some .ok,
      trace := (if k = 0 then [.write (.oep k.toNat .stall) 0]
        else [.write (.oep k.toNat .dpid) 0, .write (.oep k.toNat .stall) 0]) ++ s.trace }) ∧
  (∀ (s : State) (k : BitVec 8) (i : Instr), s.cfg.nEp ≤ k.toNat →
    i = .stallEpIn k ∨ i = .stallEpOut k ∨ i = .clearStallIn k ∨ i = .clearStallOut k →
    exec i s = .next { s with result := some .configurationError })

/-- 10_state R23: an endpoint index out of range is answered `ConfigurationError` by every command that takes one, the state
otherwise unchanged (`SET_TX_FIFO` tests its phase first, 60 R310). -/
def Obligations.OutOfRangeIndexIsConfigurationError : Prop :=
  ∀ (s : State) (k : BitVec 8), s.cfg.nEp ≤ k.toNat →
    ∀ i : Instr,
      ((∃ n b, i = .assignInBuf k n b) ∨ (∃ n b, i = .assignOutBuf k n b) ∨ (∃ t, i = .activateEpIn k t) ∨
        (∃ t, i = .activateEpOut k t) ∨ i = .disableEpIn k ∨ i = .disableEpOut k ∨ i = .stallEpIn k ∨ i = .stallEpOut k ∨
        i = .clearStallIn k ∨ i = .clearStallOut k ∨ (∃ n, i = .writePacket k n) ∨ (∃ n, i = .readPacket k n) ∨
        ((∃ n, i = .setTxFifo k n) ∧ s.ctrl = .initialized ∧ ∀ e ∈ s.ep, e.sub = .disabled)) →
      exec i s = .next { s with result := some .configurationError }

/-- 60 R301, R304, R312: a command other than `ENABLE full` that answers an error has changed nothing but the result word. -/
def Obligations.FailedCommandChangesOnlyResult : Prop :=
  ∀ (i : Instr) (s t : State) (r : Res), isCommand i → i ≠ .enable .full → exec i s = .next t → t.result = some r → r ≠ .ok →
    t = { s with result := some r }

/-! ## FIFO datapath -/

/-- 45 R272: `Pack`, in both byte orders, the last word completed with zero bytes. That `Unpack` undoes it is 45 R273, the spec's own
inference ("[derived: from rule R272]"). -/
def Obligations.PackAndUnpack : Prop :=
  (∀ bs : List Byte,
    pack .big bs = (List.range (words4 bs.length)).map (fun k =>
      (bs.getD (4 * k) 0 ++ bs.getD (4 * k + 1) 0 ++ bs.getD (4 * k + 2) 0 ++ bs.getD (4 * k + 3) 0 : BitVec (8 + 8 + 8 + 8))) ∧
    pack .little bs = (List.range (words4 bs.length)).map (fun k =>
      (bs.getD (4 * k + 3) 0 ++ bs.getD (4 * k + 2) 0 ++ bs.getD (4 * k + 1) 0 ++ bs.getD (4 * k) 0 : BitVec (8 + 8 + 8 + 8)))) ∧
  (∀ (o : ByteOrder) (bs : List Byte) (j : Nat), j < bs.length → packetByte o (pack o bs) j = bs.getD j 0)

/-- 45 R270: `WRITE_PACKET` appends `ceil(n/4)` words of the IN buffer to transmit FIFO i, in order, and changes nothing else; its
three errors; a packet larger than the whole FIFO is refused. -/
def Obligations.WritePacketPushesWords : Prop :=
  ∀ (s : State) (k : BitVec 8) (n : BitVec 16) (b : Buf),
    (s.clockOn = true → s.moves = [] → k.toNat < s.cfg.nEp → CanSend k.toNat n.toNat b s →
      exec (.writePacket k n) s = .next { s with
        ri := { s.ri with txq := s.ri.txq.modify k.toNat fun q => q ++ wordsOf b n.toNat s },
        trace := pushes k.toNat (wordsOf b n.toNat s) ++ s.trace, result := some .ok } ∧
      (wordsOf b n.toNat s).length = words4 n.toNat) ∧
    (s.cfg.nEp ≤ k.toNat ∨ (s.epAt k.toNat).inBuf = none ∨
        ((s.epAt k.toNat).inBuf = some b ∧ b.len.toNat < n.toNat) ∨ s.part.reserved k.toNat = false →
      exec (.writePacket k n) s = .next { s with result := some .configurationError }) ∧
    (k.toNat < s.cfg.nEp → (s.epAt k.toNat).inBuf = some b → n.toNat ≤ b.len.toNat → s.part.reserved k.toNat = true →
      partSize (s.part.tx.getD k.toNat none) < words4 n.toNat → exec (.writePacket k n) s = .refused .fifoCapacity)

/-- 45 R271: `READ_PACKET` pops exactly `ceil(n/4)` words and stores the packet's bytes; the bytes that complete the last word are
free (log 10); every other byte of memory keeps its value. -/
def Obligations.ReadPacketStoresBytes : Prop :=
  ∀ (s : State) (k : BitVec 8) (n : BitVec 16) (b : Buf) (ws : List Word) (rest : List RxItem),
    (s.clockOn = true → k.toNat < s.cfg.nEp → (s.epAt k.toNat).outBuf = some b → n.toNat ≤ b.len.toNat →
      b.base.toNat + 4 * words4 n.toNat ≤ 2 ^ 32 → HoldsPacket n.toNat ws rest s → MemoryCanonical s →
      ∃ t, exec (.readPacket k n) s = .next t ∧
        t = { s with
          ri := { s.ri with rxq := rest }, mem := t.mem, freeCtr := t.freeCtr, result := some .ok,
          trace := List.replicate (words4 n.toNat) .rxPop ++ s.trace } ∧
        (∀ j, j < n.toNat → t.mem.read (b.base.toNat + j) = packetByte s.cfg.byteOrder ws j) ∧
        (∀ a, a < b.base.toNat ∨ b.base.toNat + 4 * words4 n.toNat ≤ a → t.mem.read a = s.mem.read a)) ∧
    (s.cfg.nEp ≤ k.toNat ∨ (s.epAt k.toNat).outBuf = none ∨
        ((s.epAt k.toNat).outBuf = some b ∧ b.len.toNat < n.toNat) →
      exec (.readPacket k n) s = .next { s with result := some .configurationError })

/-- 45 R277: `WRITE_PACKET`, loop-back, `READ_PACKET` reproduces the bytes. -/
def Obligations.PacketRoundTrip : Prop :=
  ∀ (s : State) (k : BitVec 8) (n : BitVec 16) (bi bo : Buf),
    s.clockOn = true → k.toNat < s.cfg.nEp → CanSend k.toNat n.toNat bi s → (s.epAt k.toNat).outBuf = some bo →
    n.toNat ≤ bo.len.toNat → bo.base.toNat + 4 * words4 n.toNat ≤ 2 ^ 32 → MemoryCanonical s → Shaped s →
    s.ri.txq.getD k.toNat [] = [] → s.ri.rxq = [] → s.ri.rxInStep = true → s.moves = [] →
    ∃ t u, exec (.writePacket k n) s = .next t ∧ t.result = some .ok ∧
      exec (.readPacket k n) { t with ri := RiMove.apply s.cfg.layout t.ri (.loopback k.toNat) } = .next u ∧ u.result = some .ok ∧
      ∀ j, j < n.toNat → u.mem.read (bo.base.toNat + j) = s.mem.read (bi.base.toNat + j)

/-- 45 R274, R276: `SET_RX_FIFO`. -/
def Obligations.SetReceiveFifo : Prop :=
  ∀ (s : State) (n : BitVec 16),
    (s.ctrl = .initialized → (∀ e ∈ s.ep, e.sub = .disabled) →
      (n.toNat ≤ s.cfg.fifoRamWords → s.clockOn = true → s.moves = [] →
        exec (.setRxFifo n) s = .next { s with
          ri := { s.ri with rxfSize := n.toNat }, part := { rxSize := some n.toNat, tx := s.part.tx.map fun _ => none },
          trace := .write .rxfSize n.toNat :: s.trace, result := some .ok }) ∧
      (s.cfg.fifoRamWords < n.toNat → exec (.setRxFifo n) s = .next { s with result := some .configurationError })) ∧
    (s.ctrl ≠ .initialized ∨ (∃ e ∈ s.ep, e.sub ≠ .disabled) → exec (.setRxFifo n) s = .refused .partitionClosed)

/-- 45 R275, R276: `SET_TX_FIFO`, laid out contiguously in ascending order. -/
def Obligations.SetTransmitFifo : Prop :=
  ∀ (s : State) (k : BitVec 8) (n : BitVec 16) (r : Nat),
    (s.ctrl = .initialized → (∀ e ∈ s.ep, e.sub = .disabled) → k.toNat < s.cfg.nEp → s.part.tx.length = s.cfg.nEp →
      (s.part.rxSize = some r → (∀ j, j < k.toNat → s.part.tx.getD j none ≠ none) →
        (∀ j, k.toNat ≤ j → s.part.tx.getD j none = none) →
        (r + ((s.part.tx.take k.toNat).map partSize).sum + n.toNat ≤ s.cfg.fifoRamWords → s.clockOn = true → s.moves = [] →
          exec (.setTxFifo k n) s = .next { s with
            ri := { s.ri with
              txf := s.ri.txf.modify k.toNat (fun _ => ⟨r + ((s.part.tx.take k.toNat).map partSize).sum, n.toNat⟩) },
            part := { s.part with
              tx := s.part.tx.modify k.toNat (fun _ => some ⟨r + ((s.part.tx.take k.toNat).map partSize).sum, n.toNat⟩) },
            trace := [.write (.txfSize k.toNat) n.toNat,
              .write (.txfStart k.toNat) (r + ((s.part.tx.take k.toNat).map partSize).sum)] ++ s.trace,
            result := some .ok }) ∧
        (s.cfg.fifoRamWords < r + ((s.part.tx.take k.toNat).map partSize).sum + n.toNat →
          exec (.setTxFifo k n) s = .next { s with result := some .configurationError })) ∧
      (s.part.rxSize = none ∨ (∃ j, j < k.toNat ∧ s.part.tx.getD j none = none) ∨
          (∃ j, k.toNat ≤ j ∧ s.part.tx.getD j none ≠ none) →
        exec (.setTxFifo k n) s = .refused .partitionOrder)) ∧
    (s.ctrl ≠ .initialized ∨ (∃ e ∈ s.ep, e.sub ≠ .disabled) → exec (.setTxFifo k n) s = .refused .partitionClosed)

/-- 20_memory R61: a command or a receive entry stores only inside an OUT buffer assigned to an endpoint. -/
def Obligations.StoresStayInOutBuffers : Prop :=
  ∀ (i : Instr) (s t : State), (∀ e b, (s.epAt e).outBuf = some b → b.valid = true) →
    isCommand i ∨ (encode s.cfg.layout i).1 = .rxsts → exec i s = .next t →
    ∀ a, t.mem.read a ≠ s.mem.read a →
      ∃ e b, (s.epAt e).outBuf = some b ∧ b.base.toNat ≤ a ∧ a < b.base.toNat + b.len.toNat

/-! ## The dispatcher -/

/-- 41 R142, R143, R153, R157, R159 to R164, R167 to R171: the nine sources and the five endpoint conditions without a described
action are acknowledged and nothing else. -/
def Obligations.NoActionOnlyAcknowledges : Prop :=
  (∀ (s : State) (x : Source), s.clockOn = true → s.moves = [] → x ∈ noActionSources →
    exec x.instr s = .next { s with
      ri := { s.ri with intsts := putBit s.ri.intsts (s.cfg.layout.bit x) false }, trace := .write (.intstsBit x) 1 :: s.trace }) ∧
  (∀ (s : State) (i : Nat), s.clockOn = true → s.moves = [] → i < s.cfg.nEp →
    exec (.oepStsphsrx i) s = .next { s with
      ri := { s.ri with oep := s.ri.oep.modify i (OutRegs.acked s.cfg.layout .stsphsrx) },
      trace := .write (.oepCond i .stsphsrx) 1 :: s.trace } ∧
    ∀ c : InCond, c = .toc ∨ c = .inepne ∨ c = .epdisd ∨ c = .txfe →
      exec (c.instr i) s = .next { s with
        ri := { s.ri with iep := s.ri.iep.modify i (InRegs.acked s.cfg.layout c) }, trace := .write (.iepCond i c) 1 :: s.trace })

/-- 41 R144, R145, R148, 20_memory R79: the receive handler pops exactly one word, the head of the queue whatever its kind, inside the
mask bracket, runs its branch, unmasks and acknowledges; SETUP-complete and the unnamed codes have no branch action. A head that is no
status word leaves the queue out of step (log 9). -/
def Obligations.ReceiveHandlerBracketsPop : Prop :=
  ∀ (s : State) (x : RxItem) (rest : List RxItem),
    s.clockOn = true → s.moves = [] → s.cfg.layout.wf = true → s.ri.rxq = x :: rest →
    ∀ s1, s1 = { s with
        ri := { s.ri with
          rxq := rest, rxInStep := s.ri.rxInStep && x.isStatus, intmsk := putBit s.ri.intmsk (s.cfg.layout.bit .rxflvl) false },
        trace := [.read .rxstsp, .write (.intmskBit .rxflvl) 0] ++ s.trace } →
      (∀ i t, decode s.cfg.layout .rxsts [x.word] = .ok (i, []) → exec i s1 = .next t →
        exec .srcRxflvl s = .next { t with
          ri := { t.ri with
            intmsk := putBit t.ri.intmsk (s.cfg.layout.bit .rxflvl) true,
            intsts := putBit t.ri.intsts (s.cfg.layout.bit .rxflvl) false },
          trace := [.write (.intstsBit .rxflvl) 1, .write (.intmskBit .rxflvl) 1] ++ t.trace }) ∧
      (field x.word s.cfg.layout.rxPktsts 4 ≠ s.cfg.layout.dataUpdate →
        field x.word s.cfg.layout.rxPktsts 4 ≠ s.cfg.layout.setupUpdate →
        exec .srcRxflvl s = .next { s1 with
          ri := { s1.ri with
            intmsk := putBit s1.ri.intmsk (s.cfg.layout.bit .rxflvl) true,
            intsts := putBit s1.ri.intsts (s.cfg.layout.bit .rxflvl) false },
          trace := [.write (.intstsBit .rxflvl) 1, .write (.intmskBit .rxflvl) 1] ++ s1.trace })

/-- 41 R146, 44 R253: a DATA-update entry. -/
def Obligations.ReceiveDataUpdate : Prop :=
  ∀ (s : State) (e : BitVec 4) (n : BitVec 11) (d : BitVec 2) (b : Buf) (ws : List Word) (rest : List RxItem),
    (s.clockOn = true → e.toNat < s.cfg.nEp → (s.epAt e.toNat).outBuf = some b → n.toNat ≤ b.len.toNat →
      b.base.toNat + 4 * words4 n.toNat ≤ 2 ^ 32 → HoldsPacket n.toNat ws rest s → MemoryCanonical s →
      (∀ bin, (s.epAt e.toNat).sub ≠ .bulk bin .outDelay) → (∀ bin m, (s.epAt e.toNat).sub ≠ .bulk bin (.outData m)) →
      ∃ t, exec (.rxDataUpdate e n d) s = .next t ∧
        t = { s with
          ri := { s.ri with rxq := rest }, mem := t.mem, freeCtr := t.freeCtr,
          trace := List.replicate (words4 n.toNat) .rxPop ++ s.trace,
          ep := s.ep.modify e.toNat fun x => { x with
            pendingSize := n.setWidth 16,
            sub := match x.sub with
              | .bulk bin .init => .bulk bin (.outData (n.setWidth 16))
              | y => y } } ∧
        (∀ j, j < n.toNat → t.mem.read (b.base.toNat + j) = packetByte s.cfg.byteOrder ws j) ∧
        (∀ a, a < b.base.toNat ∨ b.base.toNat + 4 * words4 n.toNat ≤ a → t.mem.read a = s.mem.read a)) ∧
    (s.cfg.nEp ≤ e.toNat ∨ (s.epAt e.toNat).outBuf = none ∨ ((s.epAt e.toNat).outBuf = some b ∧ b.len.toNat < n.toNat) ∨
        (∃ bin, (s.epAt e.toNat).sub = .bulk bin .outDelay) ∨ (∃ bin m, (s.epAt e.toNat).sub = .bulk bin (.outData m)) →
      exec (.rxDataUpdate e n d) s = .refused .receiveNotTakable)

/-- 41 R145, R147, 43 R234: a SETUP-complete entry changes nothing; a SETUP-update entry stores the packet and captures its size
and its direction, the high bit of its first byte. -/
def Obligations.ReceiveSetupEntries : Prop :=
  ∀ (s : State) (e : BitVec 4) (n : BitVec 11) (d : BitVec 2) (b : Buf) (ws : List Word) (rest : List RxItem),
    exec (.rxSetupComplete e n d) s = .next s ∧
    (s.clockOn = true → e.toNat < s.cfg.nEp → (s.epAt e.toNat).outBuf = some b → n.toNat ≤ b.len.toNat →
      b.base.toNat + 4 * words4 n.toNat ≤ 2 ^ 32 → HoldsPacket n.toNat ws rest s → MemoryCanonical s →
      ∃ t, exec (.rxSetupUpdate e n d) s = .next t ∧
        t = { s with
          ri := { s.ri with rxq := rest }, mem := t.mem, freeCtr := t.freeCtr,
          trace := List.replicate (words4 n.toNat) .rxPop ++ s.trace,
          ep := s.ep.modify e.toNat fun x => { x with
            pendingSize := n.setWidth 16, reqDir := if 128 ≤ (t.mem.read b.base.toNat).toNat then .d2h else .h2d } } ∧
        (∀ j, j < n.toNat → t.mem.read (b.base.toNat + j) = packetByte s.cfg.byteOrder ws j) ∧
        (∀ a, a < b.base.toNat ∨ b.base.toNat + 4 * words4 n.toNat ≤ a → t.mem.read a = s.mem.read a)) ∧
    (s.cfg.nEp ≤ e.toNat ∨ (s.epAt e.toNat).outBuf = none ∨ ((s.epAt e.toNat).outBuf = some b ∧ b.len.toNat < n.toNat) →
      exec (.rxSetupUpdate e n d) s = .refused .receiveNotTakable)

/-- 41 R165, 10_state R51: the bus-reset handler. -/
def Obligations.BusResetHandler : Prop :=
  ∀ (s : State) (a : ClientAnswer) (more : List ClientAnswer),
    s.clockOn = true → s.moves = [] → Shaped s → Answers a .respBusResetDone more s →
    ∃ t, exec .srcUsbrst s = .next t ∧
      t = { s with
        ep := t.ep, devAddrPending := 0, ri := t.ri, mem := memAfter a s.mem, trace := t.trace,
        client := { outstanding := none, calls := .busReset :: s.client.calls, answers := more } } ∧
      t.ri = { s.ri with
        addr := 0, iep := t.ri.iep, oep := t.ri.oep, aintIep := t.ri.aintIep, aintOep := t.ri.aintOep,
        intsts := putBit s.ri.intsts (s.cfg.layout.bit .usbrst) false } ∧
      Shaped t ∧
      ∀ i, i < s.cfg.nEp →
        t.epAt i = { s.epAt i with
          pendingSize := 0,
          sub := if i = 0 then (match (s.epAt 0).sub with
            | .control _ => .control .init
            | y => y) else .disabled } ∧
        t.ri.iepAt i = { s.ri.iepAt i with
          stall := false, act := if i = 0 then (s.ri.iepAt i).act else false, int := (t.ri.iepAt i).int } ∧
        t.ri.oepAt i = (if i = 0 then (OutRegs.armedForSetup s.cfg { s.ri.oepAt i with stall := false, int := (t.ri.oepAt i).int })
          else { s.ri.oepAt i with stall := false, act := false, int := (t.ri.oepAt i).int }) ∧
        (∀ m, testBit (t.ri.iepAt i).int m =
          (testBit (s.ri.iepAt i).int m && !InCond.order.any fun c => s.cfg.layout.inBit c == m)) ∧
        (∀ m, testBit (t.ri.oepAt i).int m =
          (testBit (s.ri.oepAt i).int m && !OutCond.order.any fun c => s.cfg.layout.outBit c == m)) ∧
        t.ri.aintIep.getD i false = (if i = 0 then s.ri.aintIep.getD i false else false) ∧
        t.ri.aintOep.getD i false = (if i = 0 then s.ri.aintOep.getD i false else false)

/-- 41 R166: the enumeration-done handler, and its refusal where endpoint 0 has no valid buffers. -/
def Obligations.EnumerationDoneHandler : Prop :=
  ∀ s : State, s.clockOn = true → 0 < s.cfg.nEp →
    (∀ b1 b2, s.moves = [] → s.ctrl ≠ .disabled → (s.epAt 0).inBuf = some b1 → (s.epAt 0).outBuf = some b2 → b1.valid = true →
      b2.valid = true →
      ∃ l, exec .srcEnumdne s = .next { s with
        ep := if (s.epAt 0).sub = .disabled then s.ep.modify 0 fun e => { e with sub := .control .init } else s.ep,
        ri := { s.ri with
          trdt := s.cfg.trdt,
          iep := s.ri.iep.modify 0 fun r => { r with act := true },
          oep := s.ri.oep.modify 0 fun r => OutRegs.armedForSetup s.cfg { r with act := true },
          intsts := putBit s.ri.intsts (s.cfg.layout.bit .enumdne) false },
        trace := l ++ s.trace }) ∧
    (buffersOf (s.epAt 0) = none → exec .srcEnumdne s = .refused .enumWithoutBuffers)

/-- 41 R149, R153, R155, R157, R159 to R161: the two endpoint handlers scan every endpoint, ascending, and on each serve the flagged
conditions in their order (transfer-complete before SETUP-done, and before the IN-token mismatch), each then acknowledged: what those
services do one after the other, stops among them, is what the handler does, and it acknowledges its source. Where every flagged
condition is one without a described action, exactly those flags are cleared. -/
def Obligations.EndpointScansAcknowledge : Prop :=
  ∀ s : State, s.clockOn = true → s.moves = [] →
    Follows
      (runAll ((List.range s.cfg.nEp).flatMap fun i =>
        ([.xfrc, .stup, .otepdis, .stsphsrx, .nak].filter fun c =>
          testBit (s.ri.oepAt i).int (s.cfg.layout.outBit c)).map (OutCond.instr i)) s)
      (exec .srcOepint s)
      (fun t => { t with ri := { t.ri with intsts := putBit t.ri.intsts (s.cfg.layout.bit .oepint) false } }) ∧
    Follows
      (runAll ((List.range s.cfg.nEp).flatMap fun i =>
        ([.xfrc, .toc, .ittxfe, .inepne, .epdisd, .txfe].filter fun c =>
          testBit (s.ri.iepAt i).int (s.cfg.layout.inBit c)).map (InCond.instr i)) s)
      (exec .srcIepint s)
      (fun t => { t with ri := { t.ri with intsts := putBit t.ri.intsts (s.cfg.layout.bit .iepint) false } }) ∧
    (Shaped s →
      (∀ i, i < s.cfg.nEp → ∀ c : OutCond, c ≠ .stsphsrx → testBit (s.ri.oepAt i).int (s.cfg.layout.outBit c) = false) →
      ∃ l, exec .srcOepint s = .next { s with
        ri := { s.ri with
          oep := s.ri.oep.map (OutRegs.acked s.cfg.layout .stsphsrx),
          intsts := putBit s.ri.intsts (s.cfg.layout.bit .oepint) false },
        trace := l ++ s.trace }) ∧
    (Shaped s →
      (∀ i, i < s.cfg.nEp → ∀ c : InCond, c = .xfrc ∨ c = .ittxfe → testBit (s.ri.iepAt i).int (s.cfg.layout.inBit c) = false) →
      ∃ l, exec .srcIepint s = .next { s with
        ri := { s.ri with
          iep := s.ri.iep.map fun r => (((r.acked s.cfg.layout .toc).acked s.cfg.layout .inepne).acked s.cfg.layout .epdisd).acked
            s.cfg.layout .txfe,
          intsts := putBit s.ri.intsts (s.cfg.layout.bit .iepint) false },
        trace := l ++ s.trace })

/-- 41 R140, R141, R142: the dispatcher reads status then mask once and serves the sources pending and unmasked in that snapshot, and
no other, one after the other in `HANDLER_ORDER`, each as its own instruction does, acting ones among them; none; exactly one; or any
number of those without a described action. The spec's own value of `HANDLER_ORDER` is the order of listing. (Which
level bits stand in the snapshot is log 8 and log 31, DESIGN CHOICE.) -/
def Obligations.DispatcherServesSnapshot : Prop :=
  (∀ s : State, s.clockOn = true → s.moves = [] →
    exec .irq s = runAll
      ((s.cfg.handlerOrder.filter fun x => testBit (s.ri.status s.cfg.layout &&& s.ri.intmsk) (s.cfg.layout.bit x)).map Source.instr)
      { s with trace := [.read .intmsk, .read .intsts] ++ s.trace } ∧
    ((∀ x ∈ s.cfg.handlerOrder, testBit (s.ri.status s.cfg.layout &&& s.ri.intmsk) (s.cfg.layout.bit x) = false) →
      exec .irq s = .next { s with trace := [.read .intmsk, .read .intsts] ++ s.trace }) ∧
    (∀ x pre post, s.cfg.handlerOrder = pre ++ x :: post →
      testBit (s.ri.status s.cfg.layout &&& s.ri.intmsk) (s.cfg.layout.bit x) = true →
      (∀ y ∈ pre ++ post, testBit (s.ri.status s.cfg.layout &&& s.ri.intmsk) (s.cfg.layout.bit y) = false) →
      exec .irq s = exec x.instr { s with trace := [.read .intmsk, .read .intsts] ++ s.trace }) ∧
    ((∀ x ∈ s.cfg.handlerOrder,
        testBit (s.ri.status s.cfg.layout &&& s.ri.intmsk) (s.cfg.layout.bit x) = true → x ∈ noActionSources) →
      ∃ t, exec .irq s = .next t ∧ t = { s with ri := { s.ri with intsts := t.ri.intsts }, trace := t.trace } ∧
        ∀ m, testBit t.ri.intsts m = (testBit s.ri.intsts m && !decide (∃ x ∈ s.cfg.handlerOrder,
          testBit (s.ri.status s.cfg.layout &&& s.ri.intmsk) (s.cfg.layout.bit x) = true ∧ s.cfg.layout.bit x = m)))) ∧
  Config.vectors.handlerOrder =
    [.mmis, .rxflvl, .oepint, .iepint, .wkup, .susp, .lpm, .usbrst, .enumdne, .sof, .iisoixfr, .iisooxfr, .srq, .otg]

/-! ## Endpoint conditions that act, with the Client's answers -/

/-- 41 R150, 43 R221 to R226, R228: SETUP-done on endpoint 0, by the `setup` answer: `Error`; `OkSetAddress`, under either timing; `Ok`
with request length 0 (exactly one `status` and `status_complete` pair); `Ok` with a non-zero length device-to-host (`in_data` is
called, by its answer) or host-to-device (the data packet is awaited). On any other endpoint it is refused. -/
def Obligations.SetupDoneRunsRequest : Prop :=
  ∀ (s : State) (c : CtrlSub) (b : Buf) (a : ClientAnswer) (more : List ClientAnswer),
    (∀ i, i ≠ 0 → i < s.cfg.nEp → s.clockOn = true → exec (.oepStup i) s = .refused .noControlEndpoint) ∧
    (s.clockOn = true → 0 < s.cfg.nEp → (s.epAt 0).sub = .control c → (s.epAt 0).outBuf = some b →
      (s.epAt 0).pendingSize ≠ 8 → exec (.oepStup 0) s = .refused .setupNotEightBytes) ∧
    (s.clockOn = true → s.moves = [] → 0 < s.cfg.nEp → (s.epAt 0).sub = .control c → (s.epAt 0).outBuf = some b →
      (s.epAt 0).pendingSize = 8 →
      (Answers a .respSetupError more s →
        exec (.oepStup 0) s = .next { afterCall (.setup 0) a more s with
          ep := s.ep.modify 0 fun e => { e with sub := .control .init },
          ri := { s.ri with
            iep := s.ri.iep.modify 0 fun r => { r with stall := true },
            oep := s.ri.oep.modify 0 fun r => (OutRegs.armedForSetup s.cfg { r with stall := true }).acked s.cfg.layout .stup },
          trace := .write (.oepCond 0 .stup) 1 :: armForSetupWrites s.cfg ++
            [.write (.oep 0 .stall) 1, .write (.iep 0 .stall) 1] ++ s.trace }) ∧
      (∀ (n : BitVec 16) (bi : Buf), Answers a (.respSetupOkSetAddress n) more s → CanSend 0 0 bi s →
        (s.cfg.addrTiming = .deferred →
          exec (.oepStup 0) s = .next { afterCall (.setup 0) a more s with
            devAddrPending := n,
            ep := s.ep.modify 0 fun e => { e with sub := .control .setAddress },
            ri := { s.ri with
              iep := s.ri.iep.modify 0 (InRegs.started 0), oep := s.ri.oep.modify 0 (OutRegs.acked s.cfg.layout .stup) },
            trace := .write (.oepCond 0 .stup) 1 :: startWrites 0 0 ++ s.trace }) ∧
        (s.cfg.addrTiming = .immediate →
          exec (.oepStup 0) s = .next { afterCall (.setup 0) a more s with
            devAddrPending := n,
            ep := s.ep.modify 0 fun e => { e with sub := .control .setAddress },
            ri := { s.ri with
              addr := n.toNat % 2 ^ s.cfg.addrWidth,
              iep := s.ri.iep.modify 0 (InRegs.started 0), oep := s.ri.oep.modify 0 (OutRegs.acked s.cfg.layout .stup) },
            trace := .write (.oepCond 0 .stup) 1 :: startWrites 0 0 ++
              .write .addr (n.toNat % 2 ^ s.cfg.addrWidth) :: s.trace })) ∧
      (∀ (a2 a3 : ClientAnswer) (rest : List ClientAnswer) (bi : Buf), Answers a .respSetupOk more s →
        more = a2 :: a3 :: rest → [a2.word] = (encode s.cfg.layout .respStatusDone).2 → [a3.word] = (encode s.cfg.layout .respStatusCompleteDone).2 →
        CanSend 0 0 bi s → b.base.toNat + 8 ≤ 2 ^ 32 →
        (memAfter a s.mem).read (b.base.toNat + 6) = 0 → (memAfter a s.mem).read (b.base.toNat + 7) = 0 →
        exec (.oepStup 0) s = .next { s with
          mem := memAfter a3 (memAfter a2 (memAfter a s.mem)),
          client := {
            outstanding := none, calls := [.statusComplete 0, .status 0, .setup 0] ++ s.client.calls, answers := rest },
          ep := s.ep.modify 0 fun e => { e with sub := .control .init },
          ri := { s.ri with
            iep := s.ri.iep.modify 0 (InRegs.started 0),
            oep := s.ri.oep.modify 0 fun r => (OutRegs.armedForSetup s.cfg r).acked s.cfg.layout .stup },
          trace := .write (.oepCond 0 .stup) 1 :: armForSetupWrites s.cfg ++ startWrites 0 0 ++ s.trace }) ∧
      (∀ len, Answers a .respSetupOk more s → b.base.toNat + 8 ≤ 2 ^ 32 →
        len = ((memAfter a s.mem).read (b.base.toNat + 6)).toNat + 256 * ((memAfter a s.mem).read (b.base.toNat + 7)).toNat →
        len ≠ 0 →
        ((s.epAt 0).reqDir = .d2h → ∀ (a2 : ClientAnswer) (rest : List ClientAnswer), more = a2 :: rest →
          (∀ size last bi, [a2.word] = (encode s.cfg.layout (.respInDataPacket size last)).2 → CanSend 0 size.toNat bi s →
            exec (.oepStup 0) s = .next (outAcknowledged 0 .stup (ctrlInStarted size.toNat last bi
              (afterCall (.inData 0) a2 rest (inControl .readIn (afterCall (.setup 0) a more s)))))) ∧
          ([a2.word] = (encode s.cfg.layout .respInDataDelay).2 →
            exec (.oepStup 0) s = .next (outAcknowledged 0 .stup
              (afterCall (.inData 0) a2 rest (inControl .readIn (afterCall (.setup 0) a more s))))) ∧
          ([a2.word] = (encode s.cfg.layout .respInDataError).2 →
            exec (.oepStup 0) s = .next (outAcknowledged 0 .stup (ctrlFailed
              (afterCall (.inData 0) a2 rest (inControl .readIn (afterCall (.setup 0) a more s))))))) ∧
        ((s.epAt 0).reqDir = .h2d →
          exec (.oepStup 0) s = .next { afterCall (.setup 0) a more s with
            ep := s.ep.modify 0 fun e => { e with sub := .control .writeOut },
            ri := { s.ri with oep := s.ri.oep.modify 0 fun r => (r.armed b.len.toNat).acked s.cfg.layout .stup },
            trace := .write (.oepCond 0 .stup) 1 :: armWrites 0 b.len.toNat ++ s.trace })))

/-- 41 R151, 44 R254, 43 R227, R229: OUT transfer-complete, by sub-state and answer. -/
def Obligations.OutTransferComplete : Prop :=
  ∀ (s : State) (i : Nat) (b : Buf) (a : ClientAnswer) (more : List ClientAnswer),
    s.clockOn = true → s.moves = [] → i < s.cfg.nEp →
    (∀ bin n, (s.epAt i).sub = .bulk bin (.outData n) → (s.epAt i).outBuf = some b →
      (Answers a .respOutDataOk more s →
        exec (.oepXfrc i) s = .next { afterCall (.outData i (s.epAt i).pendingSize) a more s with
          ep := s.ep.modify i fun e => { e with sub := .bulk bin .init },
          ri := { s.ri with oep := s.ri.oep.modify i fun r => (r.armed b.len.toNat).acked s.cfg.layout .xfrc },
          trace := .write (.oepCond i .xfrc) 1 :: armWrites i b.len.toNat ++ s.trace }) ∧
      (Answers a .respOutDataDelay more s →
        exec (.oepXfrc i) s = .next { afterCall (.outData i (s.epAt i).pendingSize) a more s with
          ep := s.ep.modify i fun e => { e with sub := .bulk bin .outDelay },
          ri := { s.ri with oep := s.ri.oep.modify i (OutRegs.acked s.cfg.layout .xfrc) },
          trace := .write (.oepCond i .xfrc) 1 :: s.trace }) ∧
      (Answers a .respOutDataHalted more s →
        exec (.oepXfrc i) s = .next { afterCall (.outData i (s.epAt i).pendingSize) a more s with
          ep := s.ep.modify i fun e => { e with sub := .bulk bin .init },
          ri := { s.ri with
            oep := s.ri.oep.modify i fun r => (OutRegs.armed b.len.toNat { r with stall := true }).acked s.cfg.layout .xfrc },
          trace := .write (.oepCond i .xfrc) 1 :: armWrites i b.len.toNat ++ .write (.oep i .stall) 1 :: s.trace })) ∧
    (∀ bi, i = 0 → (s.epAt 0).sub = .control .writeOut → Answers a .respOutDataOk more s → CanSend 0 0 bi s →
      exec (.oepXfrc 0) s = .next { afterCall (.outData 0 (s.epAt 0).pendingSize) a more s with
        ep := s.ep.modify 0 fun e => { e with sub := .control .readStatus },
        ri := { s.ri with
          iep := s.ri.iep.modify 0 (InRegs.started 0), oep := s.ri.oep.modify 0 (OutRegs.acked s.cfg.layout .xfrc) },
        trace := .write (.oepCond 0 .xfrc) 1 :: startWrites 0 0 ++ s.trace }) ∧
    (∀ r, i = 0 → (s.epAt 0).sub = .control .writeOut → r = .respOutDataHalted ∨ r = .respOutDataDelay → Answers a r more s →
      exec (.oepXfrc 0) s = .next { afterCall (.outData 0 (s.epAt 0).pendingSize) a more s with
        ep := s.ep.modify 0 fun e => { e with sub := .control .init },
        ri := { s.ri with
          oep := s.ri.oep.modify 0 fun x => (OutRegs.armedForSetup s.cfg { x with stall := true }).acked s.cfg.layout .xfrc },
        trace := .write (.oepCond 0 .xfrc) 1 :: armForSetupWrites s.cfg ++ .write (.oep 0 .stall) 1 :: s.trace }) ∧
    (∀ a2 rest, i = 0 → (s.epAt 0).sub = .control .readStatus → (s.epAt 0).reqDir = .d2h → Answers a .respStatusDone more s →
      more = a2 :: rest → [a2.word] = (encode s.cfg.layout .respStatusCompleteDone).2 →
      exec (.oepXfrc 0) s = .next { s with
        mem := memAfter a2 (memAfter a s.mem),
        client := { outstanding := none, calls := [.statusComplete 0, .status 0] ++ s.client.calls, answers := rest },
        ep := s.ep.modify 0 fun e => { e with sub := .control .init },
        ri := { s.ri with oep := s.ri.oep.modify 0 fun r => (OutRegs.armedForSetup s.cfg r).acked s.cfg.layout .xfrc },
        trace := .write (.oepCond 0 .xfrc) 1 :: armForSetupWrites s.cfg ++ s.trace }) ∧
    ((s.epAt i).sub = .control .init ∨ (s.epAt i).sub = .control .readIn ∨ (s.epAt i).sub = .control .setAddress ∨
        ((s.epAt i).sub = .control .readStatus ∧ (s.epAt i).reqDir = .h2d) ∨ (∃ bin, (s.epAt i).sub = .bulk bin .init) ∨
        (∃ bin, (s.epAt i).sub = .bulk bin .outDelay) ∨ (∃ x m, (s.epAt i).sub = .interrupt x m) ∨
        (s.epAt i).sub = .disabled →
      exec (.oepXfrc i) s = .next { s with
        ri := { s.ri with oep := s.ri.oep.modify i (OutRegs.acked s.cfg.layout .xfrc) }, trace := .write (.oepCond i .xfrc) 1 :: s.trace })

/-- 41 R152, R154, 44 R255: a delayed bulk packet is offered again, with the same size, at OUT-token-while-disabled and at NAK;
otherwise these conditions have no action. -/
def Obligations.DelayedPacketIsOfferedAgain : Prop :=
  ∀ (s : State) (i : Nat) (c : OutCond) (b : Buf) (a : ClientAnswer) (more : List ClientAnswer),
    s.clockOn = true → s.moves = [] → i < s.cfg.nEp → c = .otepdis ∨ c = .nak →
    (∀ bin, (s.epAt i).sub = .bulk bin .outDelay → (s.epAt i).outBuf = some b →
      (Answers a .respOutDataOk more s →
        exec (c.instr i) s = .next { afterCall (.outData i (s.epAt i).pendingSize) a more s with
          ep := s.ep.modify i fun e => { e with sub := .bulk bin .init },
          ri := { s.ri with oep := s.ri.oep.modify i fun r => (r.armed b.len.toNat).acked s.cfg.layout c },
          trace := .write (.oepCond i c) 1 :: armWrites i b.len.toNat ++ s.trace }) ∧
      (Answers a .respOutDataDelay more s →
        exec (c.instr i) s = .next { afterCall (.outData i (s.epAt i).pendingSize) a more s with
          ri := { s.ri with oep := s.ri.oep.modify i (OutRegs.acked s.cfg.layout c) }, trace := .write (.oepCond i c) 1 :: s.trace }) ∧
      (Answers a .respOutDataHalted more s →
        exec (c.instr i) s = .next { afterCall (.outData i (s.epAt i).pendingSize) a more s with
          ep := s.ep.modify i fun e => { e with sub := .bulk bin .init },
          ri := { s.ri with
            oep := s.ri.oep.modify i fun r => (OutRegs.armed b.len.toNat { r with stall := true }).acked s.cfg.layout c },
          trace := .write (.oepCond i c) 1 :: armWrites i b.len.toNat ++ .write (.oep i .stall) 1 :: s.trace })) ∧
    ((∀ bin, (s.epAt i).sub ≠ .bulk bin .outDelay) →
      exec (c.instr i) s = .next { s with
        ri := { s.ri with oep := s.ri.oep.modify i (OutRegs.acked s.cfg.layout c) }, trace := .write (.oepCond i c) 1 :: s.trace })

/-- 41 R156, 44 R252, R257, 43 R225, R230, R231: IN transfer-complete, by sub-state: a data transfer ends; in `ReadIn` `in_data` is
called, by its answer; a set-address request ends, under either timing; the status packet of a control write ends it. -/
def Obligations.InTransferComplete : Prop :=
  ∀ (s : State) (i : Nat) (a : ClientAnswer) (more : List ClientAnswer),
    s.clockOn = true → s.moves = [] → i < s.cfg.nEp →
    (∀ n bout, (s.epAt i).sub = .bulk (.busy n) bout →
      exec (.iepXfrc i) s = .next { s with
        ep := s.ep.modify i fun e => { e with sub := .bulk .init bout },
        ri := { s.ri with iep := s.ri.iep.modify i (InRegs.acked s.cfg.layout .xfrc) }, trace := .write (.iepCond i .xfrc) 1 :: s.trace }) ∧
    (∀ n m, (s.epAt i).sub = .interrupt (.busy n) m →
      exec (.iepXfrc i) s = .next { s with
        ep := s.ep.modify i fun e => { e with sub := .interrupt .init m },
        ri := { s.ri with iep := s.ri.iep.modify i (InRegs.acked s.cfg.layout .xfrc) }, trace := .write (.iepCond i .xfrc) 1 :: s.trace }) ∧
    (i = 0 → (s.epAt 0).sub = .control .setAddress → s.cfg.addrTiming = .deferred →
      exec (.iepXfrc 0) s = .next { s with
        ep := s.ep.modify 0 fun e => { e with sub := .control .init },
        ri := { s.ri with
          addr := s.devAddrPending.toNat % 2 ^ s.cfg.addrWidth, iep := s.ri.iep.modify 0 (InRegs.acked s.cfg.layout .xfrc),
          oep := s.ri.oep.modify 0 (OutRegs.armedForSetup s.cfg) },
        trace := .write (.iepCond 0 .xfrc) 1 :: armForSetupWrites s.cfg ++
          .write .addr (s.devAddrPending.toNat % 2 ^ s.cfg.addrWidth) :: s.trace }) ∧
    (i = 0 → (s.epAt 0).sub = .control .setAddress → s.cfg.addrTiming = .immediate →
      exec (.iepXfrc 0) s = .next { s with
        ep := s.ep.modify 0 fun e => { e with sub := .control .init },
        ri := { s.ri with
          iep := s.ri.iep.modify 0 (InRegs.acked s.cfg.layout .xfrc), oep := s.ri.oep.modify 0 (OutRegs.armedForSetup s.cfg) },
        trace := .write (.iepCond 0 .xfrc) 1 :: armForSetupWrites s.cfg ++ s.trace }) ∧
    (i = 0 → (s.epAt 0).sub = .control .readIn →
      (∀ size last bi, Answers a (.respInDataPacket size last) more s → CanSend 0 size.toNat bi s →
        exec (.iepXfrc 0) s = .next (inAcknowledged 0 .xfrc (ctrlInStarted size.toNat last bi (afterCall (.inData 0) a more s)))) ∧
      (∀ size last bi, Answers a (.respInDataPacket size last) more s → (s.epAt 0).inBuf = some bi →
        bi.len.toNat < size.toNat → exec (.iepXfrc 0) s = .refused .packetTooLong) ∧
      (Answers a .respInDataDelay more s →
        exec (.iepXfrc 0) s = .next (inAcknowledged 0 .xfrc (afterCall (.inData 0) a more s))) ∧
      (Answers a .respInDataError more s →
        exec (.iepXfrc 0) s = .next (inAcknowledged 0 .xfrc (ctrlFailed (afterCall (.inData 0) a more s))))) ∧
    (∀ a2 rest, i = 0 → (s.epAt 0).sub = .control .readStatus → (s.epAt 0).reqDir = .h2d → Answers a .respStatusDone more s →
      more = a2 :: rest → [a2.word] = (encode s.cfg.layout .respStatusCompleteDone).2 →
      exec (.iepXfrc 0) s = .next { s with
        mem := memAfter a2 (memAfter a s.mem),
        client := { outstanding := none, calls := [.statusComplete 0, .status 0] ++ s.client.calls, answers := rest },
        ep := s.ep.modify 0 fun e => { e with sub := .control .init },
        ri := { s.ri with
          iep := s.ri.iep.modify 0 (InRegs.acked s.cfg.layout .xfrc), oep := s.ri.oep.modify 0 (OutRegs.armedForSetup s.cfg) },
        trace := .write (.iepCond 0 .xfrc) 1 :: armForSetupWrites s.cfg ++ s.trace }) ∧
    ((s.epAt i).sub = .control .init ∨ (s.epAt i).sub = .control .writeOut ∨
        ((s.epAt i).sub = .control .readStatus ∧ (s.epAt i).reqDir = .d2h) ∨ (∃ bout, (s.epAt i).sub = .bulk .init bout) ∨
        (∃ m, (s.epAt i).sub = .interrupt .init m) ∨ (s.epAt i).sub = .disabled →
      exec (.iepXfrc i) s = .next { s with
        ri := { s.ri with iep := s.ri.iep.modify i (InRegs.acked s.cfg.layout .xfrc) }, trace := .write (.iepCond i .xfrc) 1 :: s.trace })

/-- 41 R158, 43 R225, 44 R251, R256: IN-token/FIFO-empty mismatch polls the Client on a bulk or interrupt endpoint with no IN transfer in
flight, and on endpoint 0 in `ReadIn` only while no packet is in flight; a packet that does not fit is refused. -/
def Obligations.InTokenPollsClient : Prop :=
  ∀ (s : State) (i : Nat) (a : ClientAnswer) (more : List ClientAnswer),
    s.clockOn = true → s.moves = [] → i < s.cfg.nEp →
    (∀ bout size last b, (s.epAt i).sub = .bulk .init bout → Answers a (.respInDataPacket size last) more s →
      CanSend i size.toNat b s →
      exec (.iepIttxfe i) s = .next { afterCall (.inData i) a more s with
        ep := s.ep.modify i fun e => { e with sub := .bulk (.busy size) bout },
        ri := { s.ri with
          iep := s.ri.iep.modify i fun r => (r.started size.toNat).acked s.cfg.layout .ittxfe,
          txq := s.ri.txq.modify i fun q => q ++ wordsOf b size.toNat (afterCall (.inData i) a more s) },
        trace := .write (.iepCond i .ittxfe) 1 :: pushes i (wordsOf b size.toNat (afterCall (.inData i) a more s)) ++
          startWrites i size.toNat ++ s.trace }) ∧
    (∀ m size last b, (s.epAt i).sub = .interrupt .init m → Answers a (.respInDataPacket size last) more s →
      size.toNat ≤ m.toNat → CanSend i size.toNat b s →
      exec (.iepIttxfe i) s = .next { afterCall (.inData i) a more s with
        ep := s.ep.modify i fun e => { e with sub := .interrupt (.busy size) m },
        ri := { s.ri with
          iep := s.ri.iep.modify i fun r => (r.started size.toNat).acked s.cfg.layout .ittxfe,
          txq := s.ri.txq.modify i fun q => q ++ wordsOf b size.toNat (afterCall (.inData i) a more s) },
        trace := .write (.iepCond i .ittxfe) 1 :: pushes i (wordsOf b size.toNat (afterCall (.inData i) a more s)) ++
          startWrites i size.toNat ++ s.trace }) ∧
    ((∃ bout, (s.epAt i).sub = .bulk .init bout) ∨ (∃ m, (s.epAt i).sub = .interrupt .init m) →
      (Answers a .respInDataDelay more s →
        exec (.iepIttxfe i) s = .next { afterCall (.inData i) a more s with
          ri := { s.ri with iep := s.ri.iep.modify i (InRegs.acked s.cfg.layout .ittxfe) },
          trace := .write (.iepCond i .ittxfe) 1 :: s.trace }) ∧
      (Answers a .respInDataError more s →
        exec (.iepIttxfe i) s = .next { afterCall (.inData i) a more s with
          ri := { s.ri with iep := s.ri.iep.modify i fun r => InRegs.acked s.cfg.layout .ittxfe { r with stall := true } },
          trace := [.write (.iepCond i .ittxfe) 1, .write (.iep i .stall) 1] ++ s.trace })) ∧
    (∀ bout size last b, (s.epAt i).sub = .bulk .init bout → Answers a (.respInDataPacket size last) more s →
      (s.epAt i).inBuf = some b → b.len.toNat < size.toNat → exec (.iepIttxfe i) s = .refused .packetTooLong) ∧
    (∀ m size last, (s.epAt i).sub = .interrupt .init m → Answers a (.respInDataPacket size last) more s →
      m.toNat < size.toNat → exec (.iepIttxfe i) s = .refused .packetTooLong) ∧
    (i = 0 → (s.epAt 0).sub = .control .readIn → (s.ri.iepAt 0).ena = false →
      ∀ r, r = { s with trace := .read (.iep 0 .ena) :: s.trace } →
      (∀ size last bi, Answers a (.respInDataPacket size last) more s → CanSend 0 size.toNat bi s →
        exec (.iepIttxfe 0) s = .next (inAcknowledged 0 .ittxfe (ctrlInStarted size.toNat last bi (afterCall (.inData 0) a more r)))) ∧
      (∀ size last bi, Answers a (.respInDataPacket size last) more s → (s.epAt 0).inBuf = some bi →
        bi.len.toNat < size.toNat → exec (.iepIttxfe 0) s = .refused .packetTooLong) ∧
      (Answers a .respInDataDelay more s →
        exec (.iepIttxfe 0) s = .next (inAcknowledged 0 .ittxfe (afterCall (.inData 0) a more r))) ∧
      (Answers a .respInDataError more s →
        exec (.iepIttxfe 0) s = .next (inAcknowledged 0 .ittxfe (ctrlFailed (afterCall (.inData 0) a more r))))) ∧
    (i = 0 → (s.epAt 0).sub = .control .readIn → (s.ri.iepAt 0).ena = true →
      exec (.iepIttxfe 0) s = .next { s with
        ri := { s.ri with iep := s.ri.iep.modify 0 (InRegs.acked s.cfg.layout .ittxfe) },
        trace := [.write (.iepCond 0 .ittxfe) 1, .read (.iep 0 .ena)] ++ s.trace }) ∧
    ((∃ c, c ≠ .readIn ∧ (s.epAt i).sub = .control c) ∨ (∃ n bout, (s.epAt i).sub = .bulk (.busy n) bout) ∨
        (∃ n m, (s.epAt i).sub = .interrupt (.busy n) m) ∨ (s.epAt i).sub = .disabled →
      exec (.iepIttxfe i) s = .next { s with
        ri := { s.ri with iep := s.ri.iep.modify i (InRegs.acked s.cfg.layout .ittxfe) },
        trace := .write (.iepCond i .ittxfe) 1 :: s.trace })

/-! ## The client port and the result word -/

/-- 30_encoding R94, R100: a callback request goes out where none is in progress and is recorded. Each result word shows its result on
the command port and changes nothing else. Requests and result words as instructions of their own are the model's (log 12, DEDUCED),
and so are the two refusals of a request (log 24, DEDUCED): where another awaits its answer, which 60 R314 says of commands inside a
callback only, and of the control protocol on an endpoint other than 0, which 43 R233 has on endpoint 0 only. -/
def Obligations.RequestAndResultWordsGoOut : Prop :=
  (∀ (s : State) (i : Instr) (q : CbReq),
    ((i = .cbSetup 0 ∧ q = .setup 0) ∨ (∃ e, i = .cbInData e ∧ q = .inData e.toNat) ∨
      (∃ e n, i = .cbOutData e n ∧ q = .outData e.toNat n) ∨ (i = .cbStatus 0 ∧ q = .status 0) ∨
      (i = .cbStatusComplete 0 ∧ q = .statusComplete 0) ∨ (i = .cbBusReset ∧ q = .busReset)) →
    (s.client.outstanding = none →
      exec i s = .next { s with client := { s.client with outstanding := some q, calls := q :: s.client.calls } }) ∧
    (s.client.outstanding ≠ none → exec i s = .refused .insideCallback)) ∧
  (∀ (s : State) (e : BitVec 8), e ≠ 0 →
    exec (.cbSetup e) s = .refused .noControlEndpoint ∧ exec (.cbStatus e) s = .refused .noControlEndpoint ∧
    exec (.cbStatusComplete e) s = .refused .noControlEndpoint) ∧
  (∀ s : State,
    exec .resOk s = .next { s with result := some .ok } ∧
    exec .resConfigurationError s = .next { s with result := some .configurationError } ∧
    exec .resHardwareTimeout s = .next { s with result := some .hardwareTimeout } ∧
    exec .resUnsupportedFeature s = .next { s with result := some .unsupportedFeature })

/-- 43 R221 to R224, R226, R228, R235: the `setup` answers. (A response word as an instruction of its own, which runs to the next
request, is the model's, log 12.) -/
def Obligations.SetupAnswersAct : Prop :=
  ∀ (s : State) (c : CtrlSub) (b : Buf),
    s.clockOn = true → s.moves = [] → s.client.outstanding = some (.setup 0) → (s.epAt 0).sub = .control c → (s.epAt 0).outBuf = some b →
    (exec .respSetupError s = .next { s with
      client := { s.client with outstanding := none },
      ep := s.ep.modify 0 fun e => { e with sub := .control .init },
      ri := { s.ri with
        iep := s.ri.iep.modify 0 fun r => { r with stall := true },
        oep := s.ri.oep.modify 0 fun r => OutRegs.armedForSetup s.cfg { r with stall := true } },
      trace := armForSetupWrites s.cfg ++ [.write (.oep 0 .stall) 1, .write (.iep 0 .stall) 1] ++ s.trace }) ∧
    (∀ n bi, CanSend 0 0 bi s →
      (s.cfg.addrTiming = .deferred →
        exec (.respSetupOkSetAddress n) s = .next { s with
          client := { s.client with outstanding := none }, devAddrPending := n,
          ep := s.ep.modify 0 fun e => { e with sub := .control .setAddress },
          ri := { s.ri with iep := s.ri.iep.modify 0 (InRegs.started 0) }, trace := startWrites 0 0 ++ s.trace }) ∧
      (s.cfg.addrTiming = .immediate →
        exec (.respSetupOkSetAddress n) s = .next { s with
          client := { s.client with outstanding := none }, devAddrPending := n,
          ep := s.ep.modify 0 fun e => { e with sub := .control .setAddress },
          ri := { s.ri with addr := n.toNat % 2 ^ s.cfg.addrWidth, iep := s.ri.iep.modify 0 (InRegs.started 0) },
          trace := startWrites 0 0 ++ .write .addr (n.toNat % 2 ^ s.cfg.addrWidth) :: s.trace })) ∧
    (b.base.toNat + 8 ≤ 2 ^ 32 →
      ∀ len, len = (s.mem.read (b.base.toNat + 6)).toNat + 256 * (s.mem.read (b.base.toNat + 7)).toNat →
      (∀ bi, len = 0 → CanSend 0 0 bi s →
        exec .respSetupOk s = .next { s with
          client := { s.client with outstanding := some (.status 0), calls := .status 0 :: s.client.calls },
          ri := { s.ri with iep := s.ri.iep.modify 0 (InRegs.started 0) }, trace := startWrites 0 0 ++ s.trace }) ∧
      (len ≠ 0 → (s.epAt 0).reqDir = .d2h →
        exec .respSetupOk s = .next { s with
          client := { s.client with outstanding := some (.inData 0), calls := .inData 0 :: s.client.calls },
          ep := s.ep.modify 0 fun e => { e with sub := .control .readIn } }) ∧
      (len ≠ 0 → (s.epAt 0).reqDir = .h2d →
        exec .respSetupOk s = .next { s with
          client := { s.client with outstanding := none },
          ep := s.ep.modify 0 fun e => { e with sub := .control .writeOut },
          ri := { s.ri with oep := s.ri.oep.modify 0 (OutRegs.armed b.len.toNat) },
          trace := armWrites 0 b.len.toNat ++ s.trace }))

/-- 43 R225, R228, 44 R251, R256: the `in_data` answers in the control read, and on bulk and interrupt endpoints; a packet longer
than the buffer, or than `mps`, is refused. (A response word as an instruction of its own, which runs to the next request, is the
model's, log 12.) -/
def Obligations.InDataAnswersAct : Prop :=
  ∀ (s : State) (i : Nat), s.clockOn = true → s.moves = [] → s.client.outstanding = some (.inData i) →
    (∀ size last b, i = 0 → (s.epAt 0).sub = .control .readIn → CanSend 0 size.toNat b s →
      exec (.respInDataPacket size last) s = .next { s with
        client := { s.client with outstanding := none },
        ep := if last then s.ep.modify 0 fun e => { e with sub := .control .readStatus } else s.ep,
        ri := { s.ri with
          iep := s.ri.iep.modify 0 (InRegs.started size.toNat),
          oep := if last then s.ri.oep.modify 0 (OutRegs.armedForSetup s.cfg) else s.ri.oep,
          txq := s.ri.txq.modify 0 fun q => q ++ wordsOf b size.toNat s },
        trace := (if last then armForSetupWrites s.cfg else []) ++ pushes 0 (wordsOf b size.toNat s) ++
          startWrites 0 size.toNat ++ s.trace }) ∧
    (∀ size last b bout, (s.epAt i).sub = .bulk .init bout → CanSend i size.toNat b s →
      exec (.respInDataPacket size last) s = .next { s with
        client := { s.client with outstanding := none },
        ep := s.ep.modify i fun e => { e with sub := .bulk (.busy size) bout },
        ri := { s.ri with
          iep := s.ri.iep.modify i (InRegs.started size.toNat),
          txq := s.ri.txq.modify i fun q => q ++ wordsOf b size.toNat s },
        trace := pushes i (wordsOf b size.toNat s) ++ startWrites i size.toNat ++ s.trace }) ∧
    (∀ size last b m, (s.epAt i).sub = .interrupt .init m → size.toNat ≤ m.toNat → CanSend i size.toNat b s →
      exec (.respInDataPacket size last) s = .next { s with
        client := { s.client with outstanding := none },
        ep := s.ep.modify i fun e => { e with sub := .interrupt (.busy size) m },
        ri := { s.ri with
          iep := s.ri.iep.modify i (InRegs.started size.toNat),
          txq := s.ri.txq.modify i fun q => q ++ wordsOf b size.toNat s },
        trace := pushes i (wordsOf b size.toNat s) ++ startWrites i size.toNat ++ s.trace }) ∧
    (∀ size last b, (i = 0 ∧ (s.epAt 0).sub = .control .readIn) ∨ (∃ bout, (s.epAt i).sub = .bulk .init bout) →
      (s.epAt i).inBuf = some b → b.len.toNat < size.toNat → exec (.respInDataPacket size last) s = .refused .packetTooLong) ∧
    (∀ size last m, (s.epAt i).sub = .interrupt .init m → m.toNat < size.toNat →
      exec (.respInDataPacket size last) s = .refused .packetTooLong) ∧
    ((i = 0 ∧ (s.epAt 0).sub = .control .readIn) ∨ (∃ bout, (s.epAt i).sub = .bulk .init bout) ∨
        (∃ m, (s.epAt i).sub = .interrupt .init m) →
      exec .respInDataDelay s = .next { s with client := { s.client with outstanding := none } }) ∧
    (i = 0 → (s.epAt 0).sub = .control .readIn →
      exec .respInDataError s = .next { s with
        client := { s.client with outstanding := none },
        ep := s.ep.modify 0 fun e => { e with sub := .control .init },
        ri := { s.ri with
          iep := s.ri.iep.modify 0 fun r => { r with stall := true },
          oep := s.ri.oep.modify 0 fun r => OutRegs.armedForSetup s.cfg { r with stall := true } },
        trace := armForSetupWrites s.cfg ++ [.write (.oep 0 .stall) 1, .write (.iep 0 .stall) 1] ++ s.trace }) ∧
    ((∃ bout, (s.epAt i).sub = .bulk .init bout) ∨ (∃ m, (s.epAt i).sub = .interrupt .init m) →
      exec .respInDataError s = .next { s with
        client := { s.client with outstanding := none },
        ri := { s.ri with iep := s.ri.iep.modify i fun r => { r with stall := true } },
        trace := .write (.iep i .stall) 1 :: s.trace })

/-- 43 R227, 44 R254: the `out_data` answers in the control write, where both non-`Ok` answers stall the OUT side, and on a bulk
endpoint, where `Delay` keeps the packet. (A response word as an instruction of its own, which runs to the next request, is the model's,
log 12.) -/
def Obligations.OutDataAnswersAct : Prop :=
  ∀ (s : State) (i : Nat) (n : BitVec 16), s.clockOn = true → s.moves = [] → s.client.outstanding = some (.outData i n) →
    (∀ bi, i = 0 → (s.epAt 0).sub = .control .writeOut → CanSend 0 0 bi s →
      exec .respOutDataOk s = .next { s with
        client := { s.client with outstanding := none },
        ep := s.ep.modify 0 fun e => { e with sub := .control .readStatus },
        ri := { s.ri with iep := s.ri.iep.modify 0 (InRegs.started 0) }, trace := startWrites 0 0 ++ s.trace }) ∧
    (∀ r, i = 0 → (s.epAt 0).sub = .control .writeOut → r = .respOutDataHalted ∨ r = .respOutDataDelay →
      exec r s = .next { s with
        client := { s.client with outstanding := none },
        ep := s.ep.modify 0 fun e => { e with sub := .control .init },
        ri := { s.ri with oep := s.ri.oep.modify 0 fun x => OutRegs.armedForSetup s.cfg { x with stall := true } },
        trace := armForSetupWrites s.cfg ++ .write (.oep 0 .stall) 1 :: s.trace }) ∧
    (∀ bin b, (s.epAt i).sub = .bulk bin .outDelay ∨ (∃ m, (s.epAt i).sub = .bulk bin (.outData m)) →
      (s.epAt i).outBuf = some b →
      exec .respOutDataOk s = .next { s with
        client := { s.client with outstanding := none },
        ep := s.ep.modify i fun e => { e with sub := .bulk bin .init },
        ri := { s.ri with oep := s.ri.oep.modify i (OutRegs.armed b.len.toNat) },
        trace := armWrites i b.len.toNat ++ s.trace } ∧
      exec .respOutDataHalted s = .next { s with
        client := { s.client with outstanding := none },
        ep := s.ep.modify i fun e => { e with sub := .bulk bin .init },
        ri := { s.ri with oep := s.ri.oep.modify i fun x => OutRegs.armed b.len.toNat { x with stall := true } },
        trace := armWrites i b.len.toNat ++ .write (.oep i .stall) 1 :: s.trace } ∧
      exec .respOutDataDelay s = .next { s with
        client := { s.client with outstanding := none },
        ep := s.ep.modify i fun e => { e with sub := .bulk bin .outDelay } })

/-- 43 R223, R229, R230, 41 R165: `status` is followed by `status_complete`, which ends the transfer in `Init` with control-OUT
armed; `bus_reset` ends with nothing more; a response that does not echo the request is refused (30_encoding R102 (i)). (That a
response ends at the next request is the model's, log 12.) -/
def Obligations.StatusAnswersEndTransfer : Prop :=
  ∀ s : State,
    (∀ e, s.client.outstanding = some (.status e) →
      exec .respStatusDone s = .next { s with
        client := { s.client with outstanding := some (.statusComplete 0), calls := .statusComplete 0 :: s.client.calls } }) ∧
    (∀ e c, s.clockOn = true → s.moves = [] → s.client.outstanding = some (.statusComplete e) → (s.epAt 0).sub = .control c →
      exec .respStatusCompleteDone s = .next { s with
        client := { s.client with outstanding := none },
        ep := s.ep.modify 0 fun e => { e with sub := .control .init },
        ri := { s.ri with oep := s.ri.oep.modify 0 (OutRegs.armedForSetup s.cfg) },
        trace := armForSetupWrites s.cfg ++ s.trace }) ∧
    (s.client.outstanding = some .busReset →
      exec .respBusResetDone s = .next { s with client := { s.client with outstanding := none } }) ∧
    (∀ i r, respOfInstr i = some r → (∀ q, s.client.outstanding = some q → echoes r q = false) →
      exec i s = .refused .clientContract)

/-! ## The whole machine -/

/-- 41 R173, 60 R316: commands, receive entries, the sources other than `oepint`, `iepint` and `usbrst`, and the conditions
without a described action make no callback: the client port is as before. -/
def Obligations.WhoMakesNoCallback : Prop :=
  ∀ (i : Instr) (s t : State), exec i s = .next t →
    isCommand i ∨ (encode s.cfg.layout i).1 = .rxsts ∨
      (∃ x : Source, x ≠ .oepint ∧ x ≠ .iepint ∧ x ≠ .usbrst ∧ i = x.instr) ∨
      (∃ k, i = .oepStsphsrx k ∨ i = .iepToc k ∨ i = .iepInepne k ∨ i = .iepEpdisd k ∨ i = .iepTxfe k) →
    t.client = s.client

/-- 40 R130, 70 R355: with the clock off no instruction but `ENABLE` completes with a register access: the Register Interface and
the accesses made are as before. -/
def Obligations.NoRegisterAccessWithClockOff : Prop :=
  ∀ (i : Instr) (s t : State), s.clockOn = false → (∀ v, i ≠ .enable v) → exec i s = .next t → t.ri = s.ri ∧ t.trace = s.trace

/-- 20_memory R77, 10_state R41 to R43: what the Register Interface does by itself reaches neither the plain fields nor, through an
instruction that reads only plain fields, the CORE. Its moves keep every plain field, and a status or condition bit once set, a level
bit shown while its cause stands (E1, E3; R77 does not give the causes: that any condition bit, an unknown one too, is a cause of
`oepint` or `iepint` is log 8, and that `D.aintmsk` hides none is log 31, both DESIGN CHOICE); the STALL bits change in one move alone, the arrival of a SETUP packet, at which the
peripheral clears those of the control endpoint (42 R202, 43 R228; a move of the model's, log 21). Two states that differ only in
what it may write and in its coming moves give the same stop, or next states alike in the CORE's own state, client memory, the client
port, the result, the accesses and every plain field.
(Moves as a list of the state are the model's, log 6.) -/
def Obligations.InterfaceDoesNotReachTheCore : Prop :=
  (∀ (l : Layout) (r : RegIf) (m : RiMove), (RiMove.apply l r m).plain = r.plain ∧
    (∀ n, testBit r.intsts n = true → testBit (RiMove.apply l r m).intsts n = true) ∧
    (∀ i n, testBit (r.oepAt i).int n = true → testBit ((RiMove.apply l r m).oepAt i).int n = true) ∧
    (∀ i n, testBit (r.iepAt i).int n = true → testBit ((RiMove.apply l r m).iepAt i).int n = true) ∧
    (∀ n, testBit (r.level l &&& r.levelGate) n = true → testBit ((RiMove.apply l r m).level l) n = true →
      testBit ((RiMove.apply l r m).status l) n = true) ∧
    ((∀ ds, m ≠ .setup ds) → ∀ i, ((RiMove.apply l r m).iepAt i).stall = (r.iepAt i).stall ∧
      ((RiMove.apply l r m).oepAt i).stall = (r.oepAt i).stall) ∧
    (∀ ds, m = .setup ds →
      (∀ i, ((RiMove.apply l r m).iepAt i).stall = (if i = 0 then false else (r.iepAt i).stall) ∧
        ((RiMove.apply l r m).oepAt i).stall = (if i = 0 then false else (r.oepAt i).stall)) ∧
      (RiMove.apply l r m).rxq = r.rxq ++ .status (rxWord l l.setupUpdate 0 8 0) :: ds.map .data)) ∧
  (∀ (i : Instr) (s u : State), readsPlainOnly i → u = { s with ri := u.ri, moves := u.moves } → u.ri.plain = s.ri.plain →
    SameBut (exec i s) (exec i u))

/-! ## Invariants every step keeps -/

/-- 20_memory R61 (the canonical form is the model's, log 13): every step keeps client memory canonical. -/
def Obligations.StepKeepsMemoryCanonical : Prop :=
  ∀ s t : State, MemoryCanonical s → step s = .next t → MemoryCanonical t

/-- 10_state R23, R34, R41 to R43: every step keeps the configuration, one entry per endpoint in every list that has one, and, whatever
image a core soft reset leaves, the device address within `ADDR_WIDTH` bits (R42) and the FIFO sizes and offsets bounded by
`FIFO_RAM_WORDS` (45 R278). -/
def Obligations.StepKeepsShape : Prop :=
  ∀ s t : State, step s = .next t → t.cfg = s.cfg ∧ (Shaped s → Shaped t) ∧ (FieldsInRange s → FieldsInRange t)

/-- 10_state R38, 20_memory R65: every step keeps the sum of the FIFO sizes within FIFO RAM and the layout contiguous. -/
def Obligations.StepKeepsPartitionInRam : Prop :=
  ∀ s t : State, PartitionFits s → PartitionContiguous s → step s = .next t → PartitionFits t ∧ PartitionContiguous t

/-- 10_state R35: every step keeps valid buffers on every endpoint that is not `Disabled`. -/
def Obligations.StepKeepsBuffersAssigned : Prop :=
  ∀ s t : State, BuffersAssigned s → step s = .next t → BuffersAssigned t

/-- 10_state R37, R28: every step keeps the sizes in the sub-states within the buffers. -/
def Obligations.StepKeepsTransferSizes : Prop :=
  ∀ s t : State, TransferSizesFit s → step s = .next t → TransferSizesFit t

/-- 10_state R39: every step keeps sub-state tags and hardware type fields in step. -/
def Obligations.StepKeepsTagsMatched : Prop :=
  ∀ s t : State, TagsMatch s → step s = .next t → TagsMatch t

/-- The invariants hold at power-on, under any configuration, and the lifecycle state is one a rule produces; the configuration of the
vectors is one that 00_scope R5 admits. -/
def Obligations.InvariantsHoldAtPowerOn : Prop :=
  (∀ c : Config, MemoryCanonical (State.powerOn c) ∧ Shaped (State.powerOn c) ∧ FieldsInRange (State.powerOn c) ∧
    PartitionFits (State.powerOn c) ∧ PartitionContiguous (State.powerOn c) ∧ BuffersAssigned (State.powerOn c) ∧ TransferSizesFit (State.powerOn c) ∧
    TagsMatch (State.powerOn c) ∧ LegalCtrl (State.powerOn c)) ∧
  Config.vectors.wf = true
end

