-- ==== Sys2Proof/Laws/Encoding.lean ====
section
/-! SUPPORT. The fields of the words the encoder writes (spec 30_encoding R91 to R101). -/

namespace Sys2Proof

/-! ## Command words -/

theorem cmdWord_op {op e a : Nat} (ho : op < 256) (he : e < 256) (ha : a < 65536) : field (cmdWord op e a) 24 8 = op := by
  simp only [field, cmdWord, BitVec.toNat_ofNat]; omega

theorem cmdWord_epn {op e a : Nat} (_ : op < 256) (he : e < 256) (ha : a < 65536) : field (cmdWord op e a) 16 8 = e := by
  simp only [field, cmdWord, BitVec.toNat_ofNat]; omega

theorem cmdWord_arg {op e a : Nat} (_ : op < 256) (_ : e < 256) (ha : a < 65536) : field (cmdWord op e a) 0 16 = a := by
  simp only [field, cmdWord, BitVec.toNat_ofNat]; omega

/-- A one-word command decodes to what its row builds from its fields. -/
theorem decodeCmd_one_of {w : Word} {op e a : Nat} {build : Nat → Nat → Word → Option Instr} {i : Instr}
    (h1 : field w 24 8 = op) (h2 : field w 16 8 = e) (h3 : field w 0 16 = a)
    (hr : cmdRow op = some ⟨op, false, build⟩) (hb : build e a 0 = some i) : decodeCmd [w] = .ok i := by
  simp only [decodeCmd, h1, h2, h3, hr, hb]

/-- A two-word command decodes to what its row builds from its fields and its second word. -/
theorem decodeCmd_two_of {w : Word} {op e a : Nat} {b : Word} {build : Nat → Nat → Word → Option Instr} {i : Instr}
    (h1 : field w 24 8 = op) (h2 : field w 16 8 = e) (h3 : field w 0 16 = a)
    (hr : cmdRow op = some ⟨op, true, build⟩) (hb : build e a b = some i) : decodeCmd [w, b] = .ok i := by
  simp only [decodeCmd, h1, h2, h3, hr, hb]

/-- The one-word command with these fields. -/
theorem decodeCmd_one {op e a : Nat} {build : Nat → Nat → Word → Option Instr} {i : Instr}
    (ho : op < 256) (he : e < 256) (ha : a < 65536)
    (hr : cmdRow op = some ⟨op, false, build⟩) (hb : build e a 0 = some i) : decodeCmd [cmdWord op e a] = .ok i :=
  decodeCmd_one_of (cmdWord_op ho he ha) (cmdWord_epn ho he ha) (cmdWord_arg ho he ha) hr hb

/-- The two-word command with these fields. -/
theorem decodeCmd_two {op e a : Nat} {b : Word} {build : Nat → Nat → Word → Option Instr} {i : Instr}
    (ho : op < 256) (he : e < 256) (ha : a < 65536)
    (hr : cmdRow op = some ⟨op, true, build⟩) (hb : build e a b = some i) : decodeCmd [cmdWord op e a, b] = .ok i :=
  decodeCmd_two_of (cmdWord_op ho he ha) (cmdWord_epn ho he ha) (cmdWord_arg ho he ha) hr hb

/-! ## Bits of a status word -/

theorem bitMask_getLsbD {n : Nat} (hn : n < 32) (m : Nat) : (bitMask n).getLsbD m = decide (m = n) := by
  simp only [bitMask, BitVec.getLsbD_ofNat, Nat.testBit_two_pow]
  by_cases h : n = m
  · subst h
    simp [hn]
  · simp [h, Ne.symm h]

/-- A bit of a word with one bit written. -/
theorem testBit_putBit (w : Word) {n : Nat} (hn : n < 32) (m : Nat) (b : Bool) :
    testBit (putBit w n b) m = if m = n then b else testBit w m := by
  by_cases h : m = n
  · subst h
    cases b <;> simp [putBit, testBit, bitMask_getLsbD hn]
  · have hb : (bitMask n).getLsbD m = false := by simp [bitMask_getLsbD hn, h]
    have hw : m < 32 ∨ w.getLsbD m = false := by
      by_cases hm : m < 32
      · exact .inl hm
      · exact .inr (BitVec.getLsbD_of_ge w m (by omega))
    cases b
    · simp only [putBit, testBit, Bool.false_eq_true, if_false, BitVec.getLsbD_and, BitVec.getLsbD_not, hb, h]
      rcases hw with hw | hw
      · simp only [hw, decide_true, Bool.not_false, Bool.and_self, Bool.and_true]
      · simp only [hw, Bool.false_and]
    · simp [putBit, testBit, BitVec.getLsbD_or, hb, h]

/-- The word of one bit of a list of rows at distinct bits selects that row and leaves nothing. -/
theorem decodeBits_mask {rows : List (Nat × Instr)} (hd : (rows.map (·.1)).Nodup) {r : Nat × Instr} (hr : r ∈ rows) (hn : r.1 < 32) :
    decodeBits rows (bitMask r.1) = .ok (r.2, []) := by
  have hf : rows.find? (fun q => testBit (bitMask r.1) q.1) = some r := by
    induction rows with
    | nil => cases hr
    | cons q rows ih =>
      obtain ⟨hq, hd⟩ := List.nodup_cons.mp hd
      rcases List.mem_cons.mp hr with rfl | hr
      · simp [testBit, bitMask_getLsbD hn]
      · have : q.1 ≠ r.1 := fun e => hq (List.mem_map.mpr ⟨r, hr, e.symm⟩)
        have ih := ih hd hr
        simp only [testBit, bitMask_getLsbD hn] at ih ⊢
        simp [this, ih]
  have ha : (rows.any fun q => testBit (putBit (bitMask r.1) r.1 false) q.1) = false := by
    simp only [List.any_eq_false, testBit_putBit _ hn]
    intro q _
    by_cases h : q.1 = r.1 <;> simp [h, testBit, bitMask_getLsbD hn]
  simp [decodeBits, hf, ha]

/-! ## Well-formed layouts (00_scope R5) -/

/-- What a well-formed layout gives, place by place. -/
structure Layout.Apart (l : Layout) : Prop where
  bits : (Source.listing.map l.bit).Nodup
  bitLt : ∀ x, l.bit x < 32
  outBits : (OutCond.order.map l.outBit).Nodup
  outLt : ∀ c, l.outBit c < 32
  inBits : (InCond.order.map l.inBit).Nodup
  inLt : ∀ c, l.inBit c < 32
  rxLt : ∀ f ∈ l.rxFields, f.1 + f.2 ≤ 32
  rxApart : l.rxFields.Pairwise fun a b => apart a b = true
  codes : l.codes.Nodup
  codeLt : ∀ c ∈ l.codes, c < 16

theorem Layout.apart_of_wf {l : Layout} (h : l.wf = true) : l.Apart := by
  simp only [Layout.wf, Bool.and_eq_true, decide_eq_true_eq, List.all_eq_true] at h
  obtain ⟨⟨⟨⟨⟨⟨⟨⟨⟨h1, h2⟩, h3⟩, h4⟩, h5⟩, h6⟩, h7⟩, h8⟩, h9⟩, h10⟩ := h
  exact ⟨h1, fun x => h2 x (by cases x <;> decide), h3, fun c => h4 c (by cases c <;> decide), h5, fun c => h6 c (by cases c <;> decide),
    h7, h8, h9, h10⟩

/-- A function with distinct values on a list is one to one there. -/
theorem nodup_map_inj {α β : Type} {f : α → β} : ∀ {l : List α}, (l.map f).Nodup → ∀ {x y : α}, x ∈ l → y ∈ l → f x = f y → x = y
  | [], _, _, _, hx, _, _ => nomatch hx
  | a :: l, h, x, y, hx, hy, e => by
    obtain ⟨ha, hl⟩ := List.nodup_cons.mp h
    rcases List.mem_cons.mp hx with rfl | kx <;> rcases List.mem_cons.mp hy with rfl | ky
    · rfl
    · exact absurd (List.mem_map.mpr ⟨y, ky, e.symm⟩) ha
    · exact absurd (List.mem_map.mpr ⟨x, kx, e⟩) ha
    · exact nodup_map_inj hl kx ky e

/-- Distinct sources have distinct bits. -/
theorem Layout.Apart.bit_inj {l : Layout} (h : l.Apart) {x y : Source} (e : l.bit x = l.bit y) : x = y :=
  nodup_map_inj h.bits (by cases x <;> decide) (by cases y <;> decide) e

/-- Distinct OUT conditions have distinct bits. -/
theorem Layout.Apart.out_inj {l : Layout} (h : l.Apart) {c d : OutCond} (e : l.outBit c = l.outBit d) : c = d :=
  nodup_map_inj h.outBits (by cases c <;> decide) (by cases d <;> decide) e

/-- Distinct IN conditions have distinct bits. -/
theorem Layout.Apart.in_inj {l : Layout} (h : l.Apart) {c d : InCond} (e : l.inBit c = l.inBit d) : c = d :=
  nodup_map_inj h.inBits (by cases c <;> decide) (by cases d <;> decide) e

/-! ## Receive status words -/

/-- A bit of a field. -/
theorem field_testBit (w : Word) (lo len k : Nat) : (field w lo len).testBit k = (decide (k < len) && w.getLsbD (lo + k)) := by
  simp only [field, Nat.testBit_mod_two_pow, Nat.testBit_div_two_pow, BitVec.testBit_toNat, Nat.add_comm k lo]

/-- The field a shifted value stands in, whatever stands in places apart from it. -/
theorem field_or {n : Nat} (v : BitVec n) (w : Word) (lo : Nat) (hl : lo + n ≤ 32) (hw : ∀ k, k < n → w.getLsbD (lo + k) = false) :
    field (w ||| v.setWidth 32 <<< lo) lo n = v.toNat := by
  apply Nat.eq_of_testBit_eq
  intro k
  rw [field_testBit, BitVec.testBit_toNat]
  by_cases hk : k < n
  · have h1 : lo + k < 32 := by omega
    have h2 : ¬ lo + k < lo := by omega
    have h3 : k < 32 := by omega
    simp only [hk, decide_true, Bool.true_and, BitVec.getLsbD_or, hw k hk, Bool.false_or, BitVec.getLsbD_shiftLeft, BitVec.getLsbD_setWidth,
      h1, h2, decide_false, Bool.not_false, Nat.add_sub_cancel_left, h3]
  · simp [hk, BitVec.getLsbD_of_ge v k (by omega)]

/-- A shifted value has no bit in a place apart from it. -/
theorem shift_apart {n : Nat} (v : BitVec n) {lo a len : Nat} (h : apart (lo, n) (a, len) = true) {k : Nat} (hk : k < len) :
    (v.setWidth 32 <<< lo : Word).getLsbD (a + k) = false := by
  simp only [apart, decide_eq_true_eq] at h
  simp only [BitVec.getLsbD_shiftLeft, BitVec.getLsbD_setWidth]
  by_cases hlt : a + k < lo
  · simp [hlt]
  · simp [BitVec.getLsbD_of_ge v (a + k - lo) (by omega)]

theorem apart_comm (a b : Nat × Nat) : apart a b = apart b a := by simp only [apart, Or.comm]

theorem rxWord_fields {l : Layout} (hl : l.Apart) {c : Nat} (hc : c < 16) (e : BitVec 4) (n : BitVec 11) (d : BitVec 2) :
    rxStatusOf l (rxWord l c e n d) = ⟨e.toNat, n.toNat, d.toNat, c⟩ := by
  have hp := hl.rxApart
  simp only [Layout.rxFields, List.pairwise_cons, List.mem_cons, List.not_mem_nil, or_false, forall_eq_or_imp, forall_eq] at hp
  obtain ⟨⟨p1, p2, p3⟩, ⟨p4, p5⟩, p6, -⟩ := hp
  have hs := hl.rxLt
  simp only [Layout.rxFields, List.mem_cons, List.not_mem_nil, or_false, forall_eq_or_imp, forall_eq] at hs
  obtain ⟨s1, s2, s3, s4⟩ := hs
  have hcode : (BitVec.ofNat 32 c : Word) = (BitVec.ofNat 4 c).setWidth 32 := by
    apply BitVec.eq_of_toNat_eq
    simp
    omega
  have q1 := apart_comm _ _ ▸ p1
  have q2 := apart_comm _ _ ▸ p2
  have q3 := apart_comm _ _ ▸ p3
  have q4 := apart_comm _ _ ▸ p4
  have q5 := apart_comm _ _ ▸ p5
  have q6 := apart_comm _ _ ▸ p6
  simp only [rxStatusOf, rxWord, hcode, RxStatus.mk.injEq]
  refine ⟨?_, ?_, ?_, ?_⟩
  · refine field_or e _ _ s1 fun k hk => ?_
    simp only [BitVec.getLsbD_or, shift_apart _ q3 hk, shift_apart _ q2 hk, shift_apart _ q1 hk, Bool.or_self]
  · rw [BitVec.or_assoc, BitVec.or_comm _ (e.setWidth 32 <<< _), ← BitVec.or_assoc]
    refine field_or n _ _ s2 fun k hk => ?_
    simp only [BitVec.getLsbD_or, shift_apart _ q5 hk, shift_apart _ q4 hk, shift_apart _ p1 hk, Bool.or_self]
  · rw [BitVec.or_assoc _ (n.setWidth 32 <<< _), BitVec.or_assoc, BitVec.or_comm (d.setWidth 32 <<< _), ← BitVec.or_assoc]
    refine field_or d _ _ s3 fun k hk => ?_
    simp only [BitVec.getLsbD_or, shift_apart _ q6 hk, shift_apart _ p4 hk, shift_apart _ p2 hk, Bool.or_self]
  · rw [BitVec.or_assoc, BitVec.or_assoc, BitVec.or_comm]
    refine (field_or (BitVec.ofNat 4 c) _ _ s4 fun k hk => ?_).trans (by simp; omega)
    simp only [BitVec.getLsbD_or, shift_apart _ p6 hk, shift_apart _ p5 hk, shift_apart _ p3 hk, Bool.or_self]

/-! ## Client port words -/

theorem cbWord_cb {c e n : Nat} (hc : c < 16) (he : e < 256) (hn : n < 65536) : field (cbWord c e n) 28 4 = c := by
  simp only [field, cbWord, BitVec.toNat_ofNat]; omega

theorem cbWord_zero {c e n : Nat} (_ : c < 16) (he : e < 256) (hn : n < 65536) : field (cbWord c e n) 24 4 = 0 := by
  simp only [field, cbWord, BitVec.toNat_ofNat]; omega

theorem cbWord_epn {c e n : Nat} (_ : c < 16) (he : e < 256) (hn : n < 65536) : field (cbWord c e n) 16 8 = e := by
  simp only [field, cbWord, BitVec.toNat_ofNat]; omega

theorem cbWord_len {c e n : Nat} (_ : c < 16) (_ : e < 256) (hn : n < 65536) : field (cbWord c e n) 0 16 = n := by
  simp only [field, cbWord, BitVec.toNat_ofNat]; omega

/-- A request word's case, its other fields zero. -/
def cbCase (c e n : Nat) : Except Reject Instr :=
  if c = 1 then okIfZero (0 + n) (.cbSetup (BitVec.ofNat 8 e))
  else if c = 2 then okIfZero (0 + n) (.cbInData (BitVec.ofNat 8 e))
  else if c = 3 then okIfZero 0 (.cbOutData (BitVec.ofNat 8 e) (BitVec.ofNat 16 n))
  else if c = 4 then okIfZero (0 + n) (.cbStatus (BitVec.ofNat 8 e))
  else if c = 5 then okIfZero (0 + n) (.cbStatusComplete (BitVec.ofNat 8 e))
  else if c = 6 then okIfZero (0 + n + e) .cbBusReset
  else .error .unknownCallback

/-- A request word decodes by its callback number, its endpoint and its length. -/
theorem decodeCb_word {c e n : Nat} (hc : c < 16) (he : e < 256) (hn : n < 65536) : decodeCb (cbWord c e n) = cbCase c e n := by
  simp only [decodeCb, cbCase, cbWord_cb hc he hn, cbWord_zero hc he hn, cbWord_epn hc he hn, cbWord_len hc he hn]

theorem respWord_cb {c k l v : Nat} (hc : c < 16) (hk : k < 16) (hl : l < 2) (hv : v < 65536) :
    field (respWord c k l v) 28 4 = c := by
  simp only [field, respWord, BitVec.toNat_ofNat]; omega

theorem respWord_code {c k l v : Nat} (_ : c < 16) (hk : k < 16) (hl : l < 2) (hv : v < 65536) :
    field (respWord c k l v) 24 4 = k := by
  simp only [field, respWord, BitVec.toNat_ofNat]; omega

theorem respWord_zero {c k l v : Nat} (_ : c < 16) (_ : k < 16) (hl : l < 2) (hv : v < 65536) :
    field (respWord c k l v) 17 7 = 0 := by
  simp only [field, respWord, BitVec.toNat_ofNat]; omega

theorem respWord_last {c k l v : Nat} (_ : c < 16) (_ : k < 16) (hl : l < 2) (hv : v < 65536) :
    field (respWord c k l v) 16 1 = l := by
  simp only [field, respWord, BitVec.toNat_ofNat]; omega

theorem respWord_val {c k l v : Nat} (_ : c < 16) (_ : k < 16) (_ : l < 2) (hv : v < 65536) :
    field (respWord c k l v) 0 16 = v := by
  simp only [field, respWord, BitVec.toNat_ofNat]; omega

/-- A response word's case, its other fields zero. -/
def respCase (c k l v : Nat) : Except Reject Instr :=
  if c = 0 ∨ 6 < c then .error .unknownCallback
  else if c = 1 ∧ k = 0 then okIfZero (0 + l + v) .respSetupOk
  else if c = 1 ∧ k = 1 then okIfZero (0 + l) (.respSetupOkSetAddress (BitVec.ofNat 16 v))
  else if c = 1 ∧ k = 2 then okIfZero (0 + l + v) .respSetupError
  else if c = 2 ∧ k = 0 then okIfZero 0 (.respInDataPacket (BitVec.ofNat 16 v) (l == 1))
  else if c = 2 ∧ k = 1 then okIfZero (0 + l + v) .respInDataDelay
  else if c = 2 ∧ k = 2 then okIfZero (0 + l + v) .respInDataError
  else if c = 3 ∧ k = 0 then okIfZero (0 + l + v) .respOutDataOk
  else if c = 3 ∧ k = 1 then okIfZero (0 + l + v) .respOutDataHalted
  else if c = 3 ∧ k = 2 then okIfZero (0 + l + v) .respOutDataDelay
  else if c = 4 ∧ k = 0 then okIfZero (0 + l + v) .respStatusDone
  else if c = 5 ∧ k = 0 then okIfZero (0 + l + v) .respStatusCompleteDone
  else if c = 6 ∧ k = 0 then okIfZero (0 + l + v) .respBusResetDone
  else .error .unknownResponse

/-- A response word decodes by its callback number, its code, its `last` bit and its value. -/
theorem decodeResp_word {c k l v : Nat} (hc : c < 16) (hk : k < 16) (hl : l < 2) (hv : v < 65536) :
    decodeResp (respWord c k l v) = respCase c k l v := by
  simp only [decodeResp, respCase, respWord_cb hc hk hl hv, respWord_code hc hk hl hv, respWord_zero hc hk hl hv,
    respWord_last hc hk hl hv, respWord_val hc hk hl hv]

/-! ## The type field -/

theorem TType.ofCode_code (t : TType) : TType.ofCode t.code = some t := by cases t <;> rfl

theorem TType.code_lt (t : TType) : t.code < 65536 := by cases t <;> decide

end Sys2Proof
end

