-- ==== Sys2Proof/Laws/Bits.lean ====
section
/-! SUPPORT. Bits of a word after one bit is written, and entries of a list after each of a range is changed. -/

namespace Sys2Proof.Machine

/-- Writing 1 to acknowledge clears that bit. -/
theorem w1c_one (w : Word) (n : Nat) : w1c w n 1 = putBit w n false := rfl

/-- Bits written one after another, at distinct places or not: the last write of a place stands. -/
theorem testBit_foldl {α : Type} (bit : α → Nat) (g : α → Bool) : ∀ (l : List α) (w : Word) (m : Nat), (∀ x ∈ l, bit x < 32) →
    testBit (l.foldl (fun w x => putBit w (bit x) (g x)) w) m =
      match l.reverse.find? (fun x => m == bit x) with
      | some x => g x
      | none => testBit w m
  | [], _, _, _ => rfl
  | x :: l, w, m, h => by
    rw [List.foldl_cons, testBit_foldl bit g l _ m fun y hy => h y (List.mem_cons_of_mem _ hy),
      testBit_putBit w (h x (List.mem_cons_self ..)), List.reverse_cons, List.find?_append]
    cases l.reverse.find? (fun x => m == bit x) with
    | some y => rfl
    | none =>
      by_cases hx : m = bit x
      · simp [hx]
      · have : (m == bit x) = false := beq_false_of_ne hx
        simp [hx, List.find?, this]

/-- The same change made to every index of a range. -/
theorem modify_range {α : Type} (l : List α) (f : α → α) (n : Nat) :
    (List.range n).foldl (fun l i => l.modify i f) l = l.mapIdx fun i x => if i < n then f x else x := by
  induction n with
  | zero =>
    apply List.ext_getElem?
    intro j
    cases h : l[j]? <;> simp [h]
  | succ n ih =>
    rw [List.range_succ, List.foldl_append, ih]
    simp only [List.foldl_cons, List.foldl_nil]
    apply List.ext_getElem?
    intro j
    simp only [List.getElem?_modify, List.getElem?_mapIdx]
    by_cases h : n = j
    · subst h
      cases l[n]? <;> simp
    · have : (j < n + 1) ↔ j < n := by omega
      simp [h, this]

/-- The same change made to every index. -/
theorem modify_range_map {α : Type} (l : List α) (f : α → α) {n : Nat} (h : l.length ≤ n) :
    (List.range n).foldl (fun l i => l.modify i f) l = l.map f := by
  rw [modify_range]
  apply List.ext_getElem?
  intro j
  simp only [List.getElem?_mapIdx, List.getElem?_map]
  by_cases hj : j < l.length
  · simp [hj, show j < n by omega]
  · simp [hj]

/-- An entry of a list after the same change of distinct indices. -/
theorem getD_foldl_modify {α : Type} (f : α → α) (d : α) : ∀ (is : List Nat) (l : List α) (j : Nat), is.Nodup →
    (is.foldl (fun l i => l.modify i f) l).getD j d = if j ∈ is ∧ j < l.length then f (l.getD j d) else l.getD j d
  | [], l, j, _ => by simp
  | i :: is, l, j, h => by
    obtain ⟨hi, hn⟩ := List.nodup_cons.mp h
    rw [List.foldl_cons, getD_foldl_modify f d is _ j hn]
    simp only [List.getD_eq_getElem?_getD, List.getElem?_modify, List.length_modify, List.mem_cons]
    by_cases hj : i = j
    · subst hj
      by_cases hl : i < l.length <;> simp [hi, hl]
    · have hj' : ¬ j = i := fun e => hj e.symm
      simp [hj, hj']

/-- Changes of entries keep the length. -/
theorem length_foldl_modify {α : Type} (f : α → α) : ∀ (is : List Nat) (l : List α),
    (is.foldl (fun l i => l.modify i f) l).length = l.length
  | [], _ => rfl
  | i :: is, l => by rw [List.foldl_cons, length_foldl_modify f is]; simp

/-- A fitted list has as many entries as asked for. -/
@[simp] theorem fitList_length {α : Type} (n : Nat) (d : α) (l : List α) : (fitList n d l).length = n := by simp [fitList]

end Sys2Proof.Machine
end

