-- ==== Sys2Proof/Laws/State.lean ====
section
/-! SUPPORT. One lemma per field per update of the state, each true by unfolding. -/

namespace Sys2Proof.Machine

/-! ### logAccess -/

@[simp] theorem logAccess_cfg (a : Access) (s : State) : (logAccess a s).cfg = s.cfg := rfl
@[simp] theorem logAccess_ctrl (a : Access) (s : State) : (logAccess a s).ctrl = s.ctrl := rfl
@[simp] theorem logAccess_ep (a : Access) (s : State) : (logAccess a s).ep = s.ep := rfl
@[simp] theorem logAccess_devAddrPending (a : Access) (s : State) : (logAccess a s).devAddrPending = s.devAddrPending := rfl
@[simp] theorem logAccess_part (a : Access) (s : State) : (logAccess a s).part = s.part := rfl
@[simp] theorem logAccess_ri (a : Access) (s : State) : (logAccess a s).ri = s.ri := rfl
@[simp] theorem logAccess_clockOn (a : Access) (s : State) : (logAccess a s).clockOn = s.clockOn := rfl
@[simp] theorem logAccess_mem (a : Access) (s : State) : (logAccess a s).mem = s.mem := rfl
@[simp] theorem logAccess_client (a : Access) (s : State) : (logAccess a s).client = s.client := rfl
@[simp] theorem logAccess_result (a : Access) (s : State) : (logAccess a s).result = s.result := rfl
@[simp] theorem logAccess_inbox (a : Access) (s : State) : (logAccess a s).inbox = s.inbox := rfl
@[simp] theorem logAccess_moves (a : Access) (s : State) : (logAccess a s).moves = s.moves := rfl
@[simp] theorem logAccess_resetImages (a : Access) (s : State) : (logAccess a s).resetImages = s.resetImages := rfl
@[simp] theorem logAccess_trace (a : Access) (s : State) : (logAccess a s).trace = a :: s.trace := rfl
@[simp] theorem logAccess_freeCtr (a : Access) (s : State) : (logAccess a s).freeCtr = s.freeCtr := rfl

/-! ### envPoint -/

@[simp] theorem envPoint_cfg (s : State) : (envPoint s).cfg = s.cfg := rfl
@[simp] theorem envPoint_ctrl (s : State) : (envPoint s).ctrl = s.ctrl := rfl
@[simp] theorem envPoint_ep (s : State) : (envPoint s).ep = s.ep := rfl
@[simp] theorem envPoint_devAddrPending (s : State) : (envPoint s).devAddrPending = s.devAddrPending := rfl
@[simp] theorem envPoint_part (s : State) : (envPoint s).part = s.part := rfl
@[simp] theorem envPoint_ri (s : State) : (envPoint s).ri = s.ri.moved s.cfg.layout (nextMoves s) := rfl
@[simp] theorem envPoint_clockOn (s : State) : (envPoint s).clockOn = s.clockOn := rfl
@[simp] theorem envPoint_mem (s : State) : (envPoint s).mem = s.mem := rfl
@[simp] theorem envPoint_client (s : State) : (envPoint s).client = s.client := rfl
@[simp] theorem envPoint_result (s : State) : (envPoint s).result = s.result := rfl
@[simp] theorem envPoint_inbox (s : State) : (envPoint s).inbox = s.inbox := rfl
@[simp] theorem envPoint_moves (s : State) : (envPoint s).moves = s.moves.tail := rfl
@[simp] theorem envPoint_resetImages (s : State) : (envPoint s).resetImages = s.resetImages := rfl
@[simp] theorem envPoint_trace (s : State) : (envPoint s).trace = s.trace := rfl
@[simp] theorem envPoint_freeCtr (s : State) : (envPoint s).freeCtr = s.freeCtr := rfl

/-! ### putReg -/

@[simp] theorem putReg_cfg (f : Field) (v : Nat) (s : State) : (putReg f v s).cfg = s.cfg := rfl
@[simp] theorem putReg_ctrl (f : Field) (v : Nat) (s : State) : (putReg f v s).ctrl = s.ctrl := rfl
@[simp] theorem putReg_ep (f : Field) (v : Nat) (s : State) : (putReg f v s).ep = s.ep := rfl
@[simp] theorem putReg_devAddrPending (f : Field) (v : Nat) (s : State) :
    (putReg f v s).devAddrPending = s.devAddrPending := rfl
@[simp] theorem putReg_part (f : Field) (v : Nat) (s : State) : (putReg f v s).part = s.part := rfl
theorem inFifoRam_le (c : Config) (v : Nat) : inFifoRam c v ≤ c.fifoRamWords := Nat.min_le_right _ _

/-- What is within FIFO RAM is held whole (45 R278). -/
@[simp] theorem inFifoRam_eq {c : Config} {v : Nat} (h : v ≤ c.fifoRamWords) : inFifoRam c v = v := Nat.min_eq_left h

@[simp] theorem putReg_ri (f : Field) (v : Nat) (s : State) : (putReg f v s).ri = s.ri.write s.cfg f v := rfl
@[simp] theorem putReg_clockOn (f : Field) (v : Nat) (s : State) : (putReg f v s).clockOn = s.clockOn := rfl
@[simp] theorem putReg_mem (f : Field) (v : Nat) (s : State) : (putReg f v s).mem = s.mem := rfl
@[simp] theorem putReg_client (f : Field) (v : Nat) (s : State) : (putReg f v s).client = s.client := rfl
@[simp] theorem putReg_result (f : Field) (v : Nat) (s : State) : (putReg f v s).result = s.result := rfl
@[simp] theorem putReg_inbox (f : Field) (v : Nat) (s : State) : (putReg f v s).inbox = s.inbox := rfl
@[simp] theorem putReg_moves (f : Field) (v : Nat) (s : State) : (putReg f v s).moves = s.moves := rfl
@[simp] theorem putReg_resetImages (f : Field) (v : Nat) (s : State) : (putReg f v s).resetImages = s.resetImages := rfl
@[simp] theorem putReg_trace (f : Field) (v : Nat) (s : State) : (putReg f v s).trace = .write f v :: s.trace := rfl
@[simp] theorem putReg_freeCtr (f : Field) (v : Nat) (s : State) : (putReg f v s).freeCtr = s.freeCtr := rfl

/-! ### regWrite -/

@[simp] theorem regWrite_cfg (f : Field) (v : Nat) (s : State) : (regWrite f v s).cfg = s.cfg := rfl
@[simp] theorem regWrite_ctrl (f : Field) (v : Nat) (s : State) : (regWrite f v s).ctrl = s.ctrl := rfl
@[simp] theorem regWrite_ep (f : Field) (v : Nat) (s : State) : (regWrite f v s).ep = s.ep := rfl
@[simp] theorem regWrite_devAddrPending (f : Field) (v : Nat) (s : State) :
    (regWrite f v s).devAddrPending = s.devAddrPending := rfl
@[simp] theorem regWrite_part (f : Field) (v : Nat) (s : State) : (regWrite f v s).part = s.part := rfl
@[simp] theorem regWrite_ri (f : Field) (v : Nat) (s : State) :
    (regWrite f v s).ri = (envPoint s).ri.write s.cfg f v := rfl
@[simp] theorem regWrite_clockOn (f : Field) (v : Nat) (s : State) : (regWrite f v s).clockOn = s.clockOn := rfl
@[simp] theorem regWrite_mem (f : Field) (v : Nat) (s : State) : (regWrite f v s).mem = s.mem := rfl
@[simp] theorem regWrite_client (f : Field) (v : Nat) (s : State) : (regWrite f v s).client = s.client := rfl
@[simp] theorem regWrite_result (f : Field) (v : Nat) (s : State) : (regWrite f v s).result = s.result := rfl
@[simp] theorem regWrite_inbox (f : Field) (v : Nat) (s : State) : (regWrite f v s).inbox = s.inbox := rfl
@[simp] theorem regWrite_moves (f : Field) (v : Nat) (s : State) : (regWrite f v s).moves = s.moves.tail := rfl
@[simp] theorem regWrite_resetImages (f : Field) (v : Nat) (s : State) : (regWrite f v s).resetImages = s.resetImages := rfl
@[simp] theorem regWrite_trace (f : Field) (v : Nat) (s : State) : (regWrite f v s).trace = .write f v :: s.trace := rfl
@[simp] theorem regWrite_freeCtr (f : Field) (v : Nat) (s : State) : (regWrite f v s).freeCtr = s.freeCtr := rfl

/-! ### regRead -/

@[simp] theorem regRead_cfg (f : Field) (s : State) : (regRead f s).cfg = s.cfg := rfl
@[simp] theorem regRead_ctrl (f : Field) (s : State) : (regRead f s).ctrl = s.ctrl := rfl
@[simp] theorem regRead_ep (f : Field) (s : State) : (regRead f s).ep = s.ep := rfl
@[simp] theorem regRead_devAddrPending (f : Field) (s : State) : (regRead f s).devAddrPending = s.devAddrPending := rfl
@[simp] theorem regRead_part (f : Field) (s : State) : (regRead f s).part = s.part := rfl
@[simp] theorem regRead_ri (f : Field) (s : State) : (regRead f s).ri = (envPoint s).ri := rfl
@[simp] theorem regRead_clockOn (f : Field) (s : State) : (regRead f s).clockOn = s.clockOn := rfl
@[simp] theorem regRead_mem (f : Field) (s : State) : (regRead f s).mem = s.mem := rfl
@[simp] theorem regRead_client (f : Field) (s : State) : (regRead f s).client = s.client := rfl
@[simp] theorem regRead_result (f : Field) (s : State) : (regRead f s).result = s.result := rfl
@[simp] theorem regRead_inbox (f : Field) (s : State) : (regRead f s).inbox = s.inbox := rfl
@[simp] theorem regRead_moves (f : Field) (s : State) : (regRead f s).moves = s.moves.tail := rfl
@[simp] theorem regRead_resetImages (f : Field) (s : State) : (regRead f s).resetImages = s.resetImages := rfl
@[simp] theorem regRead_trace (f : Field) (s : State) : (regRead f s).trace = .read f :: s.trace := rfl
@[simp] theorem regRead_freeCtr (f : Field) (s : State) : (regRead f s).freeCtr = s.freeCtr := rfl

/-! ### storeByte -/

@[simp] theorem storeByte_cfg (a : Nat) (b : Byte) (s : State) : (storeByte a b s).cfg = s.cfg := rfl
@[simp] theorem storeByte_ctrl (a : Nat) (b : Byte) (s : State) : (storeByte a b s).ctrl = s.ctrl := rfl
@[simp] theorem storeByte_ep (a : Nat) (b : Byte) (s : State) : (storeByte a b s).ep = s.ep := rfl
@[simp] theorem storeByte_devAddrPending (a : Nat) (b : Byte) (s : State) : (storeByte a b s).devAddrPending = s.devAddrPending := rfl
@[simp] theorem storeByte_part (a : Nat) (b : Byte) (s : State) : (storeByte a b s).part = s.part := rfl
@[simp] theorem storeByte_ri (a : Nat) (b : Byte) (s : State) : (storeByte a b s).ri = s.ri := rfl
@[simp] theorem storeByte_clockOn (a : Nat) (b : Byte) (s : State) : (storeByte a b s).clockOn = s.clockOn := rfl
@[simp] theorem storeByte_mem (a : Nat) (b : Byte) (s : State) : (storeByte a b s).mem = s.mem.write a b := rfl
@[simp] theorem storeByte_client (a : Nat) (b : Byte) (s : State) : (storeByte a b s).client = s.client := rfl
@[simp] theorem storeByte_result (a : Nat) (b : Byte) (s : State) : (storeByte a b s).result = s.result := rfl
@[simp] theorem storeByte_inbox (a : Nat) (b : Byte) (s : State) : (storeByte a b s).inbox = s.inbox := rfl
@[simp] theorem storeByte_moves (a : Nat) (b : Byte) (s : State) : (storeByte a b s).moves = s.moves := rfl
@[simp] theorem storeByte_resetImages (a : Nat) (b : Byte) (s : State) : (storeByte a b s).resetImages = s.resetImages := rfl
@[simp] theorem storeByte_trace (a : Nat) (b : Byte) (s : State) : (storeByte a b s).trace = s.trace := rfl
@[simp] theorem storeByte_freeCtr (a : Nat) (b : Byte) (s : State) : (storeByte a b s).freeCtr = s.freeCtr := rfl

/-! ### storeFree -/

@[simp] theorem storeFree_cfg (a : Nat) (s : State) : (storeFree a s).cfg = s.cfg := rfl
@[simp] theorem storeFree_ctrl (a : Nat) (s : State) : (storeFree a s).ctrl = s.ctrl := rfl
@[simp] theorem storeFree_ep (a : Nat) (s : State) : (storeFree a s).ep = s.ep := rfl
@[simp] theorem storeFree_devAddrPending (a : Nat) (s : State) : (storeFree a s).devAddrPending = s.devAddrPending := rfl
@[simp] theorem storeFree_part (a : Nat) (s : State) : (storeFree a s).part = s.part := rfl
@[simp] theorem storeFree_ri (a : Nat) (s : State) : (storeFree a s).ri = s.ri := rfl
@[simp] theorem storeFree_clockOn (a : Nat) (s : State) : (storeFree a s).clockOn = s.clockOn := rfl
@[simp] theorem storeFree_mem (a : Nat) (s : State) : (storeFree a s).mem = s.mem.write a (Config.freeByte s.freeCtr) := rfl
@[simp] theorem storeFree_client (a : Nat) (s : State) : (storeFree a s).client = s.client := rfl
@[simp] theorem storeFree_result (a : Nat) (s : State) : (storeFree a s).result = s.result := rfl
@[simp] theorem storeFree_inbox (a : Nat) (s : State) : (storeFree a s).inbox = s.inbox := rfl
@[simp] theorem storeFree_moves (a : Nat) (s : State) : (storeFree a s).moves = s.moves := rfl
@[simp] theorem storeFree_resetImages (a : Nat) (s : State) : (storeFree a s).resetImages = s.resetImages := rfl
@[simp] theorem storeFree_trace (a : Nat) (s : State) : (storeFree a s).trace = s.trace := rfl
@[simp] theorem storeFree_freeCtr (a : Nat) (s : State) : (storeFree a s).freeCtr = s.freeCtr + 1 := rfl

/-! ### clientWrites -/

@[simp] theorem clientWrites_cfg (ws : List (BitVec 32 × Byte)) (s : State) : (clientWrites ws s).cfg = s.cfg := rfl
@[simp] theorem clientWrites_ctrl (ws : List (BitVec 32 × Byte)) (s : State) : (clientWrites ws s).ctrl = s.ctrl := rfl
@[simp] theorem clientWrites_ep (ws : List (BitVec 32 × Byte)) (s : State) : (clientWrites ws s).ep = s.ep := rfl
@[simp] theorem clientWrites_devAddrPending (ws : List (BitVec 32 × Byte)) (s : State) : (clientWrites ws s).devAddrPending = s.devAddrPending :=
  rfl
@[simp] theorem clientWrites_part (ws : List (BitVec 32 × Byte)) (s : State) : (clientWrites ws s).part = s.part := rfl
@[simp] theorem clientWrites_ri (ws : List (BitVec 32 × Byte)) (s : State) : (clientWrites ws s).ri = s.ri := rfl
@[simp] theorem clientWrites_clockOn (ws : List (BitVec 32 × Byte)) (s : State) : (clientWrites ws s).clockOn = s.clockOn := rfl
@[simp] theorem clientWrites_mem (ws : List (BitVec 32 × Byte)) (s : State) : (clientWrites ws s).mem = ws.foldl (fun m w => m.write w.1.toNat w.2) s.mem :=
  rfl
@[simp] theorem clientWrites_client (ws : List (BitVec 32 × Byte)) (s : State) : (clientWrites ws s).client = s.client := rfl
@[simp] theorem clientWrites_result (ws : List (BitVec 32 × Byte)) (s : State) : (clientWrites ws s).result = s.result := rfl
@[simp] theorem clientWrites_inbox (ws : List (BitVec 32 × Byte)) (s : State) : (clientWrites ws s).inbox = s.inbox := rfl
@[simp] theorem clientWrites_moves (ws : List (BitVec 32 × Byte)) (s : State) : (clientWrites ws s).moves = s.moves := rfl
@[simp] theorem clientWrites_resetImages (ws : List (BitVec 32 × Byte)) (s : State) : (clientWrites ws s).resetImages = s.resetImages := rfl
@[simp] theorem clientWrites_trace (ws : List (BitVec 32 × Byte)) (s : State) : (clientWrites ws s).trace = s.trace := rfl
@[simp] theorem clientWrites_freeCtr (ws : List (BitVec 32 × Byte)) (s : State) : (clientWrites ws s).freeCtr = s.freeCtr := rfl

/-! ### modifyEp -/

@[simp] theorem modifyEp_cfg (i : Nat) (f : Endpoint → Endpoint) (s : State) : (modifyEp i f s).cfg = s.cfg := rfl
@[simp] theorem modifyEp_ctrl (i : Nat) (f : Endpoint → Endpoint) (s : State) : (modifyEp i f s).ctrl = s.ctrl := rfl
@[simp] theorem modifyEp_ep (i : Nat) (f : Endpoint → Endpoint) (s : State) : (modifyEp i f s).ep = s.ep.modify i f := rfl
@[simp] theorem modifyEp_devAddrPending (i : Nat) (f : Endpoint → Endpoint) (s : State) : (modifyEp i f s).devAddrPending = s.devAddrPending := rfl
@[simp] theorem modifyEp_part (i : Nat) (f : Endpoint → Endpoint) (s : State) : (modifyEp i f s).part = s.part := rfl
@[simp] theorem modifyEp_ri (i : Nat) (f : Endpoint → Endpoint) (s : State) : (modifyEp i f s).ri = s.ri := rfl
@[simp] theorem modifyEp_clockOn (i : Nat) (f : Endpoint → Endpoint) (s : State) : (modifyEp i f s).clockOn = s.clockOn := rfl
@[simp] theorem modifyEp_mem (i : Nat) (f : Endpoint → Endpoint) (s : State) : (modifyEp i f s).mem = s.mem := rfl
@[simp] theorem modifyEp_client (i : Nat) (f : Endpoint → Endpoint) (s : State) : (modifyEp i f s).client = s.client := rfl
@[simp] theorem modifyEp_result (i : Nat) (f : Endpoint → Endpoint) (s : State) : (modifyEp i f s).result = s.result := rfl
@[simp] theorem modifyEp_inbox (i : Nat) (f : Endpoint → Endpoint) (s : State) : (modifyEp i f s).inbox = s.inbox := rfl
@[simp] theorem modifyEp_moves (i : Nat) (f : Endpoint → Endpoint) (s : State) : (modifyEp i f s).moves = s.moves := rfl
@[simp] theorem modifyEp_resetImages (i : Nat) (f : Endpoint → Endpoint) (s : State) : (modifyEp i f s).resetImages = s.resetImages := rfl
@[simp] theorem modifyEp_trace (i : Nat) (f : Endpoint → Endpoint) (s : State) : (modifyEp i f s).trace = s.trace := rfl
@[simp] theorem modifyEp_freeCtr (i : Nat) (f : Endpoint → Endpoint) (s : State) : (modifyEp i f s).freeCtr = s.freeCtr := rfl

/-! ### setSub -/

@[simp] theorem setSub_cfg (i : Nat) (x : Sub) (s : State) : (setSub i x s).cfg = s.cfg := rfl
@[simp] theorem setSub_ctrl (i : Nat) (x : Sub) (s : State) : (setSub i x s).ctrl = s.ctrl := rfl
@[simp] theorem setSub_ep (i : Nat) (x : Sub) (s : State) : (setSub i x s).ep = s.ep.modify i fun e => { e with sub := x } := rfl
@[simp] theorem setSub_devAddrPending (i : Nat) (x : Sub) (s : State) : (setSub i x s).devAddrPending = s.devAddrPending := rfl
@[simp] theorem setSub_part (i : Nat) (x : Sub) (s : State) : (setSub i x s).part = s.part := rfl
@[simp] theorem setSub_ri (i : Nat) (x : Sub) (s : State) : (setSub i x s).ri = s.ri := rfl
@[simp] theorem setSub_clockOn (i : Nat) (x : Sub) (s : State) : (setSub i x s).clockOn = s.clockOn := rfl
@[simp] theorem setSub_mem (i : Nat) (x : Sub) (s : State) : (setSub i x s).mem = s.mem := rfl
@[simp] theorem setSub_client (i : Nat) (x : Sub) (s : State) : (setSub i x s).client = s.client := rfl
@[simp] theorem setSub_result (i : Nat) (x : Sub) (s : State) : (setSub i x s).result = s.result := rfl
@[simp] theorem setSub_inbox (i : Nat) (x : Sub) (s : State) : (setSub i x s).inbox = s.inbox := rfl
@[simp] theorem setSub_moves (i : Nat) (x : Sub) (s : State) : (setSub i x s).moves = s.moves := rfl
@[simp] theorem setSub_resetImages (i : Nat) (x : Sub) (s : State) : (setSub i x s).resetImages = s.resetImages := rfl
@[simp] theorem setSub_trace (i : Nat) (x : Sub) (s : State) : (setSub i x s).trace = s.trace := rfl
@[simp] theorem setSub_freeCtr (i : Nat) (x : Sub) (s : State) : (setSub i x s).freeCtr = s.freeCtr := rfl

/-! ### setPending -/

@[simp] theorem setPending_cfg (i : Nat) (n : BitVec 16) (s : State) : (setPending i n s).cfg = s.cfg := rfl
@[simp] theorem setPending_ctrl (i : Nat) (n : BitVec 16) (s : State) : (setPending i n s).ctrl = s.ctrl := rfl
@[simp] theorem setPending_ep (i : Nat) (n : BitVec 16) (s : State) : (setPending i n s).ep = s.ep.modify i fun e => { e with pendingSize := n } :=
  rfl
@[simp] theorem setPending_devAddrPending (i : Nat) (n : BitVec 16) (s : State) : (setPending i n s).devAddrPending = s.devAddrPending := rfl
@[simp] theorem setPending_part (i : Nat) (n : BitVec 16) (s : State) : (setPending i n s).part = s.part := rfl
@[simp] theorem setPending_ri (i : Nat) (n : BitVec 16) (s : State) : (setPending i n s).ri = s.ri := rfl
@[simp] theorem setPending_clockOn (i : Nat) (n : BitVec 16) (s : State) : (setPending i n s).clockOn = s.clockOn := rfl
@[simp] theorem setPending_mem (i : Nat) (n : BitVec 16) (s : State) : (setPending i n s).mem = s.mem := rfl
@[simp] theorem setPending_client (i : Nat) (n : BitVec 16) (s : State) : (setPending i n s).client = s.client := rfl
@[simp] theorem setPending_result (i : Nat) (n : BitVec 16) (s : State) : (setPending i n s).result = s.result := rfl
@[simp] theorem setPending_inbox (i : Nat) (n : BitVec 16) (s : State) : (setPending i n s).inbox = s.inbox := rfl
@[simp] theorem setPending_moves (i : Nat) (n : BitVec 16) (s : State) : (setPending i n s).moves = s.moves := rfl
@[simp] theorem setPending_resetImages (i : Nat) (n : BitVec 16) (s : State) : (setPending i n s).resetImages = s.resetImages := rfl
@[simp] theorem setPending_trace (i : Nat) (n : BitVec 16) (s : State) : (setPending i n s).trace = s.trace := rfl
@[simp] theorem setPending_freeCtr (i : Nat) (n : BitVec 16) (s : State) : (setPending i n s).freeCtr = s.freeCtr := rfl

/-! ### setDir -/

@[simp] theorem setDir_cfg (i : Nat) (d : Dir) (s : State) : (setDir i d s).cfg = s.cfg := rfl
@[simp] theorem setDir_ctrl (i : Nat) (d : Dir) (s : State) : (setDir i d s).ctrl = s.ctrl := rfl
@[simp] theorem setDir_ep (i : Nat) (d : Dir) (s : State) : (setDir i d s).ep = s.ep.modify i fun e => { e with reqDir := d } := rfl
@[simp] theorem setDir_devAddrPending (i : Nat) (d : Dir) (s : State) : (setDir i d s).devAddrPending = s.devAddrPending := rfl
@[simp] theorem setDir_part (i : Nat) (d : Dir) (s : State) : (setDir i d s).part = s.part := rfl
@[simp] theorem setDir_ri (i : Nat) (d : Dir) (s : State) : (setDir i d s).ri = s.ri := rfl
@[simp] theorem setDir_clockOn (i : Nat) (d : Dir) (s : State) : (setDir i d s).clockOn = s.clockOn := rfl
@[simp] theorem setDir_mem (i : Nat) (d : Dir) (s : State) : (setDir i d s).mem = s.mem := rfl
@[simp] theorem setDir_client (i : Nat) (d : Dir) (s : State) : (setDir i d s).client = s.client := rfl
@[simp] theorem setDir_result (i : Nat) (d : Dir) (s : State) : (setDir i d s).result = s.result := rfl
@[simp] theorem setDir_inbox (i : Nat) (d : Dir) (s : State) : (setDir i d s).inbox = s.inbox := rfl
@[simp] theorem setDir_moves (i : Nat) (d : Dir) (s : State) : (setDir i d s).moves = s.moves := rfl
@[simp] theorem setDir_resetImages (i : Nat) (d : Dir) (s : State) : (setDir i d s).resetImages = s.resetImages := rfl
@[simp] theorem setDir_trace (i : Nat) (d : Dir) (s : State) : (setDir i d s).trace = s.trace := rfl
@[simp] theorem setDir_freeCtr (i : Nat) (d : Dir) (s : State) : (setDir i d s).freeCtr = s.freeCtr := rfl

/-! ### setInBuf -/

@[simp] theorem setInBuf_cfg (i : Nat) (b : Buf) (s : State) : (setInBuf i b s).cfg = s.cfg := rfl
@[simp] theorem setInBuf_ctrl (i : Nat) (b : Buf) (s : State) : (setInBuf i b s).ctrl = s.ctrl := rfl
@[simp] theorem setInBuf_ep (i : Nat) (b : Buf) (s : State) : (setInBuf i b s).ep = s.ep.modify i fun e => { e with inBuf := some b } :=
  rfl
@[simp] theorem setInBuf_devAddrPending (i : Nat) (b : Buf) (s : State) : (setInBuf i b s).devAddrPending = s.devAddrPending := rfl
@[simp] theorem setInBuf_part (i : Nat) (b : Buf) (s : State) : (setInBuf i b s).part = s.part := rfl
@[simp] theorem setInBuf_ri (i : Nat) (b : Buf) (s : State) : (setInBuf i b s).ri = s.ri := rfl
@[simp] theorem setInBuf_clockOn (i : Nat) (b : Buf) (s : State) : (setInBuf i b s).clockOn = s.clockOn := rfl
@[simp] theorem setInBuf_mem (i : Nat) (b : Buf) (s : State) : (setInBuf i b s).mem = s.mem := rfl
@[simp] theorem setInBuf_client (i : Nat) (b : Buf) (s : State) : (setInBuf i b s).client = s.client := rfl
@[simp] theorem setInBuf_result (i : Nat) (b : Buf) (s : State) : (setInBuf i b s).result = s.result := rfl
@[simp] theorem setInBuf_inbox (i : Nat) (b : Buf) (s : State) : (setInBuf i b s).inbox = s.inbox := rfl
@[simp] theorem setInBuf_moves (i : Nat) (b : Buf) (s : State) : (setInBuf i b s).moves = s.moves := rfl
@[simp] theorem setInBuf_resetImages (i : Nat) (b : Buf) (s : State) : (setInBuf i b s).resetImages = s.resetImages := rfl
@[simp] theorem setInBuf_trace (i : Nat) (b : Buf) (s : State) : (setInBuf i b s).trace = s.trace := rfl
@[simp] theorem setInBuf_freeCtr (i : Nat) (b : Buf) (s : State) : (setInBuf i b s).freeCtr = s.freeCtr := rfl

/-! ### setOutBuf -/

@[simp] theorem setOutBuf_cfg (i : Nat) (b : Buf) (s : State) : (setOutBuf i b s).cfg = s.cfg := rfl
@[simp] theorem setOutBuf_ctrl (i : Nat) (b : Buf) (s : State) : (setOutBuf i b s).ctrl = s.ctrl := rfl
@[simp] theorem setOutBuf_ep (i : Nat) (b : Buf) (s : State) : (setOutBuf i b s).ep = s.ep.modify i fun e => { e with outBuf := some b } :=
  rfl
@[simp] theorem setOutBuf_devAddrPending (i : Nat) (b : Buf) (s : State) : (setOutBuf i b s).devAddrPending = s.devAddrPending := rfl
@[simp] theorem setOutBuf_part (i : Nat) (b : Buf) (s : State) : (setOutBuf i b s).part = s.part := rfl
@[simp] theorem setOutBuf_ri (i : Nat) (b : Buf) (s : State) : (setOutBuf i b s).ri = s.ri := rfl
@[simp] theorem setOutBuf_clockOn (i : Nat) (b : Buf) (s : State) : (setOutBuf i b s).clockOn = s.clockOn := rfl
@[simp] theorem setOutBuf_mem (i : Nat) (b : Buf) (s : State) : (setOutBuf i b s).mem = s.mem := rfl
@[simp] theorem setOutBuf_client (i : Nat) (b : Buf) (s : State) : (setOutBuf i b s).client = s.client := rfl
@[simp] theorem setOutBuf_result (i : Nat) (b : Buf) (s : State) : (setOutBuf i b s).result = s.result := rfl
@[simp] theorem setOutBuf_inbox (i : Nat) (b : Buf) (s : State) : (setOutBuf i b s).inbox = s.inbox := rfl
@[simp] theorem setOutBuf_moves (i : Nat) (b : Buf) (s : State) : (setOutBuf i b s).moves = s.moves := rfl
@[simp] theorem setOutBuf_resetImages (i : Nat) (b : Buf) (s : State) : (setOutBuf i b s).resetImages = s.resetImages := rfl
@[simp] theorem setOutBuf_trace (i : Nat) (b : Buf) (s : State) : (setOutBuf i b s).trace = s.trace := rfl
@[simp] theorem setOutBuf_freeCtr (i : Nat) (b : Buf) (s : State) : (setOutBuf i b s).freeCtr = s.freeCtr := rfl

/-! ### setCtrl -/

@[simp] theorem setCtrl_cfg (c : CtrlState) (s : State) : (setCtrl c s).cfg = s.cfg := rfl
@[simp] theorem setCtrl_ctrl (c : CtrlState) (s : State) : (setCtrl c s).ctrl = c := rfl
@[simp] theorem setCtrl_ep (c : CtrlState) (s : State) : (setCtrl c s).ep = s.ep := rfl
@[simp] theorem setCtrl_devAddrPending (c : CtrlState) (s : State) : (setCtrl c s).devAddrPending = s.devAddrPending := rfl
@[simp] theorem setCtrl_part (c : CtrlState) (s : State) : (setCtrl c s).part = s.part := rfl
@[simp] theorem setCtrl_ri (c : CtrlState) (s : State) : (setCtrl c s).ri = s.ri := rfl
@[simp] theorem setCtrl_clockOn (c : CtrlState) (s : State) : (setCtrl c s).clockOn = s.clockOn := rfl
@[simp] theorem setCtrl_mem (c : CtrlState) (s : State) : (setCtrl c s).mem = s.mem := rfl
@[simp] theorem setCtrl_client (c : CtrlState) (s : State) : (setCtrl c s).client = s.client := rfl
@[simp] theorem setCtrl_result (c : CtrlState) (s : State) : (setCtrl c s).result = s.result := rfl
@[simp] theorem setCtrl_inbox (c : CtrlState) (s : State) : (setCtrl c s).inbox = s.inbox := rfl
@[simp] theorem setCtrl_moves (c : CtrlState) (s : State) : (setCtrl c s).moves = s.moves := rfl
@[simp] theorem setCtrl_resetImages (c : CtrlState) (s : State) : (setCtrl c s).resetImages = s.resetImages := rfl
@[simp] theorem setCtrl_trace (c : CtrlState) (s : State) : (setCtrl c s).trace = s.trace := rfl
@[simp] theorem setCtrl_freeCtr (c : CtrlState) (s : State) : (setCtrl c s).freeCtr = s.freeCtr := rfl

/-! ### stageAddr -/

@[simp] theorem stageAddr_cfg (a : BitVec 16) (s : State) : (stageAddr a s).cfg = s.cfg := rfl
@[simp] theorem stageAddr_ctrl (a : BitVec 16) (s : State) : (stageAddr a s).ctrl = s.ctrl := rfl
@[simp] theorem stageAddr_ep (a : BitVec 16) (s : State) : (stageAddr a s).ep = s.ep := rfl
@[simp] theorem stageAddr_devAddrPending (a : BitVec 16) (s : State) : (stageAddr a s).devAddrPending = a := rfl
@[simp] theorem stageAddr_part (a : BitVec 16) (s : State) : (stageAddr a s).part = s.part := rfl
@[simp] theorem stageAddr_ri (a : BitVec 16) (s : State) : (stageAddr a s).ri = s.ri := rfl
@[simp] theorem stageAddr_clockOn (a : BitVec 16) (s : State) : (stageAddr a s).clockOn = s.clockOn := rfl
@[simp] theorem stageAddr_mem (a : BitVec 16) (s : State) : (stageAddr a s).mem = s.mem := rfl
@[simp] theorem stageAddr_client (a : BitVec 16) (s : State) : (stageAddr a s).client = s.client := rfl
@[simp] theorem stageAddr_result (a : BitVec 16) (s : State) : (stageAddr a s).result = s.result := rfl
@[simp] theorem stageAddr_inbox (a : BitVec 16) (s : State) : (stageAddr a s).inbox = s.inbox := rfl
@[simp] theorem stageAddr_moves (a : BitVec 16) (s : State) : (stageAddr a s).moves = s.moves := rfl
@[simp] theorem stageAddr_resetImages (a : BitVec 16) (s : State) : (stageAddr a s).resetImages = s.resetImages := rfl
@[simp] theorem stageAddr_trace (a : BitVec 16) (s : State) : (stageAddr a s).trace = s.trace := rfl
@[simp] theorem stageAddr_freeCtr (a : BitVec 16) (s : State) : (stageAddr a s).freeCtr = s.freeCtr := rfl

/-! ### answer -/

@[simp] theorem answer_cfg (r : Res) (s : State) : (answer r s).cfg = s.cfg := rfl
@[simp] theorem answer_ctrl (r : Res) (s : State) : (answer r s).ctrl = s.ctrl := rfl
@[simp] theorem answer_ep (r : Res) (s : State) : (answer r s).ep = s.ep := rfl
@[simp] theorem answer_devAddrPending (r : Res) (s : State) : (answer r s).devAddrPending = s.devAddrPending := rfl
@[simp] theorem answer_part (r : Res) (s : State) : (answer r s).part = s.part := rfl
@[simp] theorem answer_ri (r : Res) (s : State) : (answer r s).ri = s.ri := rfl
@[simp] theorem answer_clockOn (r : Res) (s : State) : (answer r s).clockOn = s.clockOn := rfl
@[simp] theorem answer_mem (r : Res) (s : State) : (answer r s).mem = s.mem := rfl
@[simp] theorem answer_client (r : Res) (s : State) : (answer r s).client = s.client := rfl
@[simp] theorem answer_result (r : Res) (s : State) : (answer r s).result = some r := rfl
@[simp] theorem answer_inbox (r : Res) (s : State) : (answer r s).inbox = s.inbox := rfl
@[simp] theorem answer_moves (r : Res) (s : State) : (answer r s).moves = s.moves := rfl
@[simp] theorem answer_resetImages (r : Res) (s : State) : (answer r s).resetImages = s.resetImages := rfl
@[simp] theorem answer_trace (r : Res) (s : State) : (answer r s).trace = s.trace := rfl
@[simp] theorem answer_freeCtr (r : Res) (s : State) : (answer r s).freeCtr = s.freeCtr := rfl

/-! ### issueCb -/

@[simp] theorem issueCb_cfg (q : CbReq) (s : State) : (issueCb q s).cfg = s.cfg := rfl
@[simp] theorem issueCb_ctrl (q : CbReq) (s : State) : (issueCb q s).ctrl = s.ctrl := rfl
@[simp] theorem issueCb_ep (q : CbReq) (s : State) : (issueCb q s).ep = s.ep := rfl
@[simp] theorem issueCb_devAddrPending (q : CbReq) (s : State) : (issueCb q s).devAddrPending = s.devAddrPending := rfl
@[simp] theorem issueCb_part (q : CbReq) (s : State) : (issueCb q s).part = s.part := rfl
@[simp] theorem issueCb_ri (q : CbReq) (s : State) : (issueCb q s).ri = s.ri := rfl
@[simp] theorem issueCb_clockOn (q : CbReq) (s : State) : (issueCb q s).clockOn = s.clockOn := rfl
@[simp] theorem issueCb_mem (q : CbReq) (s : State) : (issueCb q s).mem = s.mem := rfl
@[simp] theorem issueCb_client (q : CbReq) (s : State) : (issueCb q s).client = { s.client with outstanding := some q, calls := q :: s.client.calls } :=
  rfl
@[simp] theorem issueCb_result (q : CbReq) (s : State) : (issueCb q s).result = s.result := rfl
@[simp] theorem issueCb_inbox (q : CbReq) (s : State) : (issueCb q s).inbox = s.inbox := rfl
@[simp] theorem issueCb_moves (q : CbReq) (s : State) : (issueCb q s).moves = s.moves := rfl
@[simp] theorem issueCb_resetImages (q : CbReq) (s : State) : (issueCb q s).resetImages = s.resetImages := rfl
@[simp] theorem issueCb_trace (q : CbReq) (s : State) : (issueCb q s).trace = s.trace := rfl
@[simp] theorem issueCb_freeCtr (q : CbReq) (s : State) : (issueCb q s).freeCtr = s.freeCtr := rfl

/-! ### clearCb -/

@[simp] theorem clearCb_cfg (s : State) : (clearCb s).cfg = s.cfg := rfl
@[simp] theorem clearCb_ctrl (s : State) : (clearCb s).ctrl = s.ctrl := rfl
@[simp] theorem clearCb_ep (s : State) : (clearCb s).ep = s.ep := rfl
@[simp] theorem clearCb_devAddrPending (s : State) : (clearCb s).devAddrPending = s.devAddrPending := rfl
@[simp] theorem clearCb_part (s : State) : (clearCb s).part = s.part := rfl
@[simp] theorem clearCb_ri (s : State) : (clearCb s).ri = s.ri := rfl
@[simp] theorem clearCb_clockOn (s : State) : (clearCb s).clockOn = s.clockOn := rfl
@[simp] theorem clearCb_mem (s : State) : (clearCb s).mem = s.mem := rfl
@[simp] theorem clearCb_client (s : State) : (clearCb s).client = { s.client with outstanding := none } := rfl
@[simp] theorem clearCb_result (s : State) : (clearCb s).result = s.result := rfl
@[simp] theorem clearCb_inbox (s : State) : (clearCb s).inbox = s.inbox := rfl
@[simp] theorem clearCb_moves (s : State) : (clearCb s).moves = s.moves := rfl
@[simp] theorem clearCb_resetImages (s : State) : (clearCb s).resetImages = s.resetImages := rfl
@[simp] theorem clearCb_trace (s : State) : (clearCb s).trace = s.trace := rfl
@[simp] theorem clearCb_freeCtr (s : State) : (clearCb s).freeCtr = s.freeCtr := rfl

/-! ### beginLayout -/

@[simp] theorem beginLayout_cfg (n : Nat) (s : State) : (beginLayout n s).cfg = s.cfg := rfl
@[simp] theorem beginLayout_ctrl (n : Nat) (s : State) : (beginLayout n s).ctrl = s.ctrl := rfl
@[simp] theorem beginLayout_ep (n : Nat) (s : State) : (beginLayout n s).ep = s.ep := rfl
@[simp] theorem beginLayout_devAddrPending (n : Nat) (s : State) : (beginLayout n s).devAddrPending = s.devAddrPending := rfl
@[simp] theorem beginLayout_part (n : Nat) (s : State) : (beginLayout n s).part = { rxSize := some n, tx := s.part.tx.map fun _ => none } :=
  rfl
@[simp] theorem beginLayout_ri (n : Nat) (s : State) : (beginLayout n s).ri = s.ri := rfl
@[simp] theorem beginLayout_clockOn (n : Nat) (s : State) : (beginLayout n s).clockOn = s.clockOn := rfl
@[simp] theorem beginLayout_mem (n : Nat) (s : State) : (beginLayout n s).mem = s.mem := rfl
@[simp] theorem beginLayout_client (n : Nat) (s : State) : (beginLayout n s).client = s.client := rfl
@[simp] theorem beginLayout_result (n : Nat) (s : State) : (beginLayout n s).result = s.result := rfl
@[simp] theorem beginLayout_inbox (n : Nat) (s : State) : (beginLayout n s).inbox = s.inbox := rfl
@[simp] theorem beginLayout_moves (n : Nat) (s : State) : (beginLayout n s).moves = s.moves := rfl
@[simp] theorem beginLayout_resetImages (n : Nat) (s : State) : (beginLayout n s).resetImages = s.resetImages := rfl
@[simp] theorem beginLayout_trace (n : Nat) (s : State) : (beginLayout n s).trace = s.trace := rfl
@[simp] theorem beginLayout_freeCtr (n : Nat) (s : State) : (beginLayout n s).freeCtr = s.freeCtr := rfl

/-! ### placeTx -/

@[simp] theorem placeTx_cfg (i : Nat) (t : TxPart) (s : State) : (placeTx i t s).cfg = s.cfg := rfl
@[simp] theorem placeTx_ctrl (i : Nat) (t : TxPart) (s : State) : (placeTx i t s).ctrl = s.ctrl := rfl
@[simp] theorem placeTx_ep (i : Nat) (t : TxPart) (s : State) : (placeTx i t s).ep = s.ep := rfl
@[simp] theorem placeTx_devAddrPending (i : Nat) (t : TxPart) (s : State) : (placeTx i t s).devAddrPending = s.devAddrPending := rfl
@[simp] theorem placeTx_part (i : Nat) (t : TxPart) (s : State) : (placeTx i t s).part = { s.part with tx := s.part.tx.modify i fun _ => some t } :=
  rfl
@[simp] theorem placeTx_ri (i : Nat) (t : TxPart) (s : State) : (placeTx i t s).ri = s.ri := rfl
@[simp] theorem placeTx_clockOn (i : Nat) (t : TxPart) (s : State) : (placeTx i t s).clockOn = s.clockOn := rfl
@[simp] theorem placeTx_mem (i : Nat) (t : TxPart) (s : State) : (placeTx i t s).mem = s.mem := rfl
@[simp] theorem placeTx_client (i : Nat) (t : TxPart) (s : State) : (placeTx i t s).client = s.client := rfl
@[simp] theorem placeTx_result (i : Nat) (t : TxPart) (s : State) : (placeTx i t s).result = s.result := rfl
@[simp] theorem placeTx_inbox (i : Nat) (t : TxPart) (s : State) : (placeTx i t s).inbox = s.inbox := rfl
@[simp] theorem placeTx_moves (i : Nat) (t : TxPart) (s : State) : (placeTx i t s).moves = s.moves := rfl
@[simp] theorem placeTx_resetImages (i : Nat) (t : TxPart) (s : State) : (placeTx i t s).resetImages = s.resetImages := rfl
@[simp] theorem placeTx_trace (i : Nat) (t : TxPart) (s : State) : (placeTx i t s).trace = s.trace := rfl
@[simp] theorem placeTx_freeCtr (i : Nat) (t : TxPart) (s : State) : (placeTx i t s).freeCtr = s.freeCtr := rfl

/-! ### resetCore -/

@[simp] theorem resetCore_cfg (s : State) : (resetCore s).cfg = s.cfg := rfl
@[simp] theorem resetCore_ctrl (s : State) : (resetCore s).ctrl = s.ctrl := rfl
@[simp] theorem resetCore_ep (s : State) : (resetCore s).ep = s.ep.map resetEndpoint := rfl
@[simp] theorem resetCore_devAddrPending (s : State) : (resetCore s).devAddrPending = 0 := rfl
@[simp] theorem resetCore_part (s : State) : (resetCore s).part = { rxSize := none, tx := s.part.tx.map fun _ => none } := rfl
@[simp] theorem resetCore_ri (s : State) : (resetCore s).ri = s.ri := rfl
@[simp] theorem resetCore_clockOn (s : State) : (resetCore s).clockOn = s.clockOn := rfl
@[simp] theorem resetCore_mem (s : State) : (resetCore s).mem = s.mem := rfl
@[simp] theorem resetCore_client (s : State) : (resetCore s).client = s.client := rfl
@[simp] theorem resetCore_result (s : State) : (resetCore s).result = s.result := rfl
@[simp] theorem resetCore_inbox (s : State) : (resetCore s).inbox = s.inbox := rfl
@[simp] theorem resetCore_moves (s : State) : (resetCore s).moves = s.moves := rfl
@[simp] theorem resetCore_resetImages (s : State) : (resetCore s).resetImages = s.resetImages := rfl
@[simp] theorem resetCore_trace (s : State) : (resetCore s).trace = s.trace := rfl
@[simp] theorem resetCore_freeCtr (s : State) : (resetCore s).freeCtr = s.freeCtr := rfl

/-! ### assertCoreReset -/

@[simp] theorem assertCoreReset_cfg (s : State) : (assertCoreReset s).cfg = s.cfg := rfl
@[simp] theorem assertCoreReset_ctrl (s : State) : (assertCoreReset s).ctrl = s.ctrl := rfl
@[simp] theorem assertCoreReset_ep (s : State) : (assertCoreReset s).ep = s.ep := rfl
@[simp] theorem assertCoreReset_devAddrPending (s : State) : (assertCoreReset s).devAddrPending = s.devAddrPending := rfl
@[simp] theorem assertCoreReset_part (s : State) : (assertCoreReset s).part = s.part := rfl
@[simp] theorem assertCoreReset_ri (s : State) :
    (assertCoreReset s).ri = (nextImage (envPoint s)).afterReset s.cfg.layout := rfl
@[simp] theorem assertCoreReset_clockOn (s : State) : (assertCoreReset s).clockOn = s.clockOn := rfl
@[simp] theorem assertCoreReset_mem (s : State) : (assertCoreReset s).mem = s.mem := rfl
@[simp] theorem assertCoreReset_client (s : State) : (assertCoreReset s).client = s.client := rfl
@[simp] theorem assertCoreReset_result (s : State) : (assertCoreReset s).result = s.result := rfl
@[simp] theorem assertCoreReset_inbox (s : State) : (assertCoreReset s).inbox = s.inbox := rfl
@[simp] theorem assertCoreReset_moves (s : State) : (assertCoreReset s).moves = s.moves.tail := rfl
@[simp] theorem assertCoreReset_resetImages (s : State) : (assertCoreReset s).resetImages = s.resetImages.tail := rfl
@[simp] theorem assertCoreReset_trace (s : State) : (assertCoreReset s).trace = .write .coreRst 1 :: s.trace := rfl
@[simp] theorem assertCoreReset_freeCtr (s : State) : (assertCoreReset s).freeCtr = s.freeCtr := rfl

/-! ### pushWord -/

@[simp] theorem pushWord_cfg (i : Nat) (w : Word) (s : State) : (pushWord i w s).cfg = s.cfg := rfl
@[simp] theorem pushWord_ctrl (i : Nat) (w : Word) (s : State) : (pushWord i w s).ctrl = s.ctrl := rfl
@[simp] theorem pushWord_ep (i : Nat) (w : Word) (s : State) : (pushWord i w s).ep = s.ep := rfl
@[simp] theorem pushWord_devAddrPending (i : Nat) (w : Word) (s : State) :
    (pushWord i w s).devAddrPending = s.devAddrPending := rfl
@[simp] theorem pushWord_part (i : Nat) (w : Word) (s : State) : (pushWord i w s).part = s.part := rfl
@[simp] theorem pushWord_ri (i : Nat) (w : Word) (s : State) :
    (pushWord i w s).ri = { s.ri with txq := s.ri.txq.modify i fun q => q ++ [w] } := rfl
@[simp] theorem pushWord_clockOn (i : Nat) (w : Word) (s : State) : (pushWord i w s).clockOn = s.clockOn := rfl
@[simp] theorem pushWord_mem (i : Nat) (w : Word) (s : State) : (pushWord i w s).mem = s.mem := rfl
@[simp] theorem pushWord_client (i : Nat) (w : Word) (s : State) : (pushWord i w s).client = s.client := rfl
@[simp] theorem pushWord_result (i : Nat) (w : Word) (s : State) : (pushWord i w s).result = s.result := rfl
@[simp] theorem pushWord_inbox (i : Nat) (w : Word) (s : State) : (pushWord i w s).inbox = s.inbox := rfl
@[simp] theorem pushWord_moves (i : Nat) (w : Word) (s : State) : (pushWord i w s).moves = s.moves := rfl
@[simp] theorem pushWord_resetImages (i : Nat) (w : Word) (s : State) : (pushWord i w s).resetImages = s.resetImages := rfl
@[simp] theorem pushWord_trace (i : Nat) (w : Word) (s : State) : (pushWord i w s).trace = .txPush i w :: s.trace := rfl
@[simp] theorem pushWord_freeCtr (i : Nat) (w : Word) (s : State) : (pushWord i w s).freeCtr = s.freeCtr := rfl

/-! ### txPush -/

@[simp] theorem txPush_cfg (i : Nat) (w : Word) (s : State) : (txPush i w s).cfg = s.cfg := rfl
@[simp] theorem txPush_ctrl (i : Nat) (w : Word) (s : State) : (txPush i w s).ctrl = s.ctrl := rfl
@[simp] theorem txPush_ep (i : Nat) (w : Word) (s : State) : (txPush i w s).ep = s.ep := rfl
@[simp] theorem txPush_devAddrPending (i : Nat) (w : Word) (s : State) : (txPush i w s).devAddrPending = s.devAddrPending := rfl
@[simp] theorem txPush_part (i : Nat) (w : Word) (s : State) : (txPush i w s).part = s.part := rfl
@[simp] theorem txPush_ri (i : Nat) (w : Word) (s : State) :
    (txPush i w s).ri = { (envPoint s).ri with txq := (envPoint s).ri.txq.modify i fun q => q ++ [w] } := rfl
@[simp] theorem txPush_clockOn (i : Nat) (w : Word) (s : State) : (txPush i w s).clockOn = s.clockOn := rfl
@[simp] theorem txPush_mem (i : Nat) (w : Word) (s : State) : (txPush i w s).mem = s.mem := rfl
@[simp] theorem txPush_client (i : Nat) (w : Word) (s : State) : (txPush i w s).client = s.client := rfl
@[simp] theorem txPush_result (i : Nat) (w : Word) (s : State) : (txPush i w s).result = s.result := rfl
@[simp] theorem txPush_inbox (i : Nat) (w : Word) (s : State) : (txPush i w s).inbox = s.inbox := rfl
@[simp] theorem txPush_moves (i : Nat) (w : Word) (s : State) : (txPush i w s).moves = s.moves.tail := rfl
@[simp] theorem txPush_resetImages (i : Nat) (w : Word) (s : State) : (txPush i w s).resetImages = s.resetImages := rfl
@[simp] theorem txPush_trace (i : Nat) (w : Word) (s : State) : (txPush i w s).trace = .txPush i w :: s.trace := rfl
@[simp] theorem txPush_freeCtr (i : Nat) (w : Word) (s : State) : (txPush i w s).freeCtr = s.freeCtr := rfl

/-! ### dropHead -/

@[simp] theorem dropHead_cfg (b : Bool) (s : State) : (dropHead b s).cfg = s.cfg := rfl
@[simp] theorem dropHead_ctrl (b : Bool) (s : State) : (dropHead b s).ctrl = s.ctrl := rfl
@[simp] theorem dropHead_ep (b : Bool) (s : State) : (dropHead b s).ep = s.ep := rfl
@[simp] theorem dropHead_devAddrPending (b : Bool) (s : State) : (dropHead b s).devAddrPending = s.devAddrPending := rfl
@[simp] theorem dropHead_part (b : Bool) (s : State) : (dropHead b s).part = s.part := rfl
@[simp] theorem dropHead_ri (b : Bool) (s : State) : (dropHead b s).ri = { s.ri with rxq := s.ri.rxq.tail, rxInStep := b } := rfl
@[simp] theorem dropHead_clockOn (b : Bool) (s : State) : (dropHead b s).clockOn = s.clockOn := rfl
@[simp] theorem dropHead_mem (b : Bool) (s : State) : (dropHead b s).mem = s.mem := rfl
@[simp] theorem dropHead_client (b : Bool) (s : State) : (dropHead b s).client = s.client := rfl
@[simp] theorem dropHead_result (b : Bool) (s : State) : (dropHead b s).result = s.result := rfl
@[simp] theorem dropHead_inbox (b : Bool) (s : State) : (dropHead b s).inbox = s.inbox := rfl
@[simp] theorem dropHead_moves (b : Bool) (s : State) : (dropHead b s).moves = s.moves := rfl
@[simp] theorem dropHead_resetImages (b : Bool) (s : State) : (dropHead b s).resetImages = s.resetImages := rfl
@[simp] theorem dropHead_trace (b : Bool) (s : State) : (dropHead b s).trace = s.trace := rfl
@[simp] theorem dropHead_freeCtr (b : Bool) (s : State) : (dropHead b s).freeCtr = s.freeCtr := rfl

/-! ### irqReturn -/

@[simp] theorem irqReturn_cfg (s : State) : (irqReturn s).cfg = s.cfg := rfl
@[simp] theorem irqReturn_ctrl (s : State) : (irqReturn s).ctrl = s.ctrl := rfl
@[simp] theorem irqReturn_ep (s : State) : (irqReturn s).ep = s.ep := rfl
@[simp] theorem irqReturn_devAddrPending (s : State) : (irqReturn s).devAddrPending = s.devAddrPending := rfl
@[simp] theorem irqReturn_part (s : State) : (irqReturn s).part = s.part := rfl
@[simp] theorem irqReturn_ri (s : State) : (irqReturn s).ri = s.ri := rfl
@[simp] theorem irqReturn_clockOn (s : State) : (irqReturn s).clockOn = s.clockOn := rfl
@[simp] theorem irqReturn_mem (s : State) : (irqReturn s).mem = s.mem := rfl
@[simp] theorem irqReturn_client (s : State) : (irqReturn s).client = s.client := rfl
@[simp] theorem irqReturn_result (s : State) : (irqReturn s).result = s.result := rfl
@[simp] theorem irqReturn_inbox (s : State) : (irqReturn s).inbox = s.inbox := rfl
@[simp] theorem irqReturn_moves (s : State) : (irqReturn s).moves = s.moves := rfl
@[simp] theorem irqReturn_resetImages (s : State) : (irqReturn s).resetImages = s.resetImages := rfl
@[simp] theorem irqReturn_trace (s : State) : (irqReturn s).trace = s.trace := rfl
@[simp] theorem irqReturn_freeCtr (s : State) : (irqReturn s).freeCtr = s.freeCtr := rfl

/-! ### programIn -/

@[simp] theorem programIn_cfg (i n : Nat) (s : State) : (programIn i n s).cfg = s.cfg := by
  simp [programIn]
@[simp] theorem programIn_ctrl (i n : Nat) (s : State) : (programIn i n s).ctrl = s.ctrl := by
  simp [programIn]
@[simp] theorem programIn_ep (i n : Nat) (s : State) : (programIn i n s).ep = s.ep := by
  simp [programIn]
@[simp] theorem programIn_devAddrPending (i n : Nat) (s : State) : (programIn i n s).devAddrPending = s.devAddrPending := by
  simp [programIn]
@[simp] theorem programIn_part (i n : Nat) (s : State) : (programIn i n s).part = s.part := by
  simp [programIn]
@[simp] theorem programIn_clockOn (i n : Nat) (s : State) : (programIn i n s).clockOn = s.clockOn := by
  simp [programIn]
@[simp] theorem programIn_mem (i n : Nat) (s : State) : (programIn i n s).mem = s.mem := by
  simp [programIn]
@[simp] theorem programIn_client (i n : Nat) (s : State) : (programIn i n s).client = s.client := by
  simp [programIn]
@[simp] theorem programIn_result (i n : Nat) (s : State) : (programIn i n s).result = s.result := by
  simp [programIn]
@[simp] theorem programIn_inbox (i n : Nat) (s : State) : (programIn i n s).inbox = s.inbox := by
  simp [programIn]
@[simp] theorem programIn_moves (i n : Nat) (s : State) : (programIn i n s).moves = s.moves.tail.tail.tail.tail := by
  simp [programIn]
@[simp] theorem programIn_resetImages (i n : Nat) (s : State) : (programIn i n s).resetImages = s.resetImages := by
  simp [programIn]
theorem programIn_trace (i n : Nat) (s : State) : (programIn i n s).trace =
      .write (.iep i .ena) 1 :: .write (.iep i .nak) 0 :: .write (.iep i .pktcnt) 1 :: .write (.iep i .xfrsiz) n :: s.trace := by
  simp [programIn]
@[simp] theorem programIn_freeCtr (i n : Nat) (s : State) : (programIn i n s).freeCtr = s.freeCtr := by
  simp [programIn]

/-! ### programOut -/

@[simp] theorem programOut_cfg (i n : Nat) (s : State) : (programOut i n s).cfg = s.cfg := by
  simp [programOut]
@[simp] theorem programOut_ctrl (i n : Nat) (s : State) : (programOut i n s).ctrl = s.ctrl := by
  simp [programOut]
@[simp] theorem programOut_ep (i n : Nat) (s : State) : (programOut i n s).ep = s.ep := by
  simp [programOut]
@[simp] theorem programOut_devAddrPending (i n : Nat) (s : State) : (programOut i n s).devAddrPending = s.devAddrPending := by
  simp [programOut]
@[simp] theorem programOut_part (i n : Nat) (s : State) : (programOut i n s).part = s.part := by
  simp [programOut]
@[simp] theorem programOut_clockOn (i n : Nat) (s : State) : (programOut i n s).clockOn = s.clockOn := by
  simp [programOut]
@[simp] theorem programOut_mem (i n : Nat) (s : State) : (programOut i n s).mem = s.mem := by
  simp [programOut]
@[simp] theorem programOut_client (i n : Nat) (s : State) : (programOut i n s).client = s.client := by
  simp [programOut]
@[simp] theorem programOut_result (i n : Nat) (s : State) : (programOut i n s).result = s.result := by
  simp [programOut]
@[simp] theorem programOut_inbox (i n : Nat) (s : State) : (programOut i n s).inbox = s.inbox := by
  simp [programOut]
@[simp] theorem programOut_moves (i n : Nat) (s : State) : (programOut i n s).moves = s.moves.tail.tail.tail.tail := by
  simp [programOut]
@[simp] theorem programOut_resetImages (i n : Nat) (s : State) : (programOut i n s).resetImages = s.resetImages := by
  simp [programOut]
theorem programOut_trace (i n : Nat) (s : State) : (programOut i n s).trace =
      .write (.oep i .ena) 1 :: .write (.oep i .nak) 0 :: .write (.oep i .pktcnt) 1 :: .write (.oep i .xfrsiz) n :: s.trace := by
  simp [programOut]
@[simp] theorem programOut_freeCtr (i n : Nat) (s : State) : (programOut i n s).freeCtr = s.freeCtr := by
  simp [programOut]

/-! ### armCtrlOut -/

@[simp] theorem armCtrlOut_cfg (s : State) : (armCtrlOut s).cfg = s.cfg := by
  simp [armCtrlOut]
@[simp] theorem armCtrlOut_ctrl (s : State) : (armCtrlOut s).ctrl = s.ctrl := by
  simp [armCtrlOut]
@[simp] theorem armCtrlOut_ep (s : State) : (armCtrlOut s).ep = s.ep := by
  simp [armCtrlOut]
@[simp] theorem armCtrlOut_devAddrPending (s : State) : (armCtrlOut s).devAddrPending = s.devAddrPending := by
  simp [armCtrlOut]
@[simp] theorem armCtrlOut_part (s : State) : (armCtrlOut s).part = s.part := by
  simp [armCtrlOut]
@[simp] theorem armCtrlOut_clockOn (s : State) : (armCtrlOut s).clockOn = s.clockOn := by
  simp [armCtrlOut]
@[simp] theorem armCtrlOut_mem (s : State) : (armCtrlOut s).mem = s.mem := by
  simp [armCtrlOut]
@[simp] theorem armCtrlOut_client (s : State) : (armCtrlOut s).client = s.client := by
  simp [armCtrlOut]
@[simp] theorem armCtrlOut_result (s : State) : (armCtrlOut s).result = s.result := by
  simp [armCtrlOut]
@[simp] theorem armCtrlOut_inbox (s : State) : (armCtrlOut s).inbox = s.inbox := by
  simp [armCtrlOut]
@[simp] theorem armCtrlOut_moves (s : State) : (armCtrlOut s).moves = s.moves.tail.tail.tail.tail.tail := by
  simp [armCtrlOut]
@[simp] theorem armCtrlOut_resetImages (s : State) : (armCtrlOut s).resetImages = s.resetImages := by
  simp [armCtrlOut]
theorem armCtrlOut_trace (s : State) : (armCtrlOut s).trace =
      .write (.oep 0 .ena) 1 :: .write (.oep 0 .nak) 0 :: .write (.oep 0 .xfrsiz) s.cfg.setupXfrsiz :: .write (.oep 0 .pktcnt) 1 :: .write (.oep 0 .stupcnt) s.cfg.setupCnt :: s.trace := by
  simp [armCtrlOut]
@[simp] theorem armCtrlOut_freeCtr (s : State) : (armCtrlOut s).freeCtr = s.freeCtr := by
  simp [armCtrlOut]

/-! ### stallBoth0 -/

@[simp] theorem stallBoth0_cfg (s : State) : (stallBoth0 s).cfg = s.cfg := by
  simp [stallBoth0]
@[simp] theorem stallBoth0_ctrl (s : State) : (stallBoth0 s).ctrl = s.ctrl := by
  simp [stallBoth0]
@[simp] theorem stallBoth0_ep (s : State) : (stallBoth0 s).ep = s.ep := by
  simp [stallBoth0]
@[simp] theorem stallBoth0_devAddrPending (s : State) : (stallBoth0 s).devAddrPending = s.devAddrPending := by
  simp [stallBoth0]
@[simp] theorem stallBoth0_part (s : State) : (stallBoth0 s).part = s.part := by
  simp [stallBoth0]
@[simp] theorem stallBoth0_clockOn (s : State) : (stallBoth0 s).clockOn = s.clockOn := by
  simp [stallBoth0]
@[simp] theorem stallBoth0_mem (s : State) : (stallBoth0 s).mem = s.mem := by
  simp [stallBoth0]
@[simp] theorem stallBoth0_client (s : State) : (stallBoth0 s).client = s.client := by
  simp [stallBoth0]
@[simp] theorem stallBoth0_result (s : State) : (stallBoth0 s).result = s.result := by
  simp [stallBoth0]
@[simp] theorem stallBoth0_inbox (s : State) : (stallBoth0 s).inbox = s.inbox := by
  simp [stallBoth0]
@[simp] theorem stallBoth0_moves (s : State) : (stallBoth0 s).moves = s.moves.tail.tail := by
  simp [stallBoth0]
@[simp] theorem stallBoth0_resetImages (s : State) : (stallBoth0 s).resetImages = s.resetImages := by
  simp [stallBoth0]
theorem stallBoth0_trace (s : State) : (stallBoth0 s).trace = .write (.oep 0 .stall) 1 :: .write (.iep 0 .stall) 1 :: s.trace := by
  simp [stallBoth0]
@[simp] theorem stallBoth0_freeCtr (s : State) : (stallBoth0 s).freeCtr = s.freeCtr := by
  simp [stallBoth0]

/-! ### setClock -/

@[simp] theorem setClock_cfg (b : Bool) (s : State) : (setClock b s).cfg = s.cfg := rfl
@[simp] theorem setClock_ctrl (b : Bool) (s : State) : (setClock b s).ctrl = s.ctrl := rfl
@[simp] theorem setClock_ep (b : Bool) (s : State) : (setClock b s).ep = s.ep := rfl
@[simp] theorem setClock_devAddrPending (b : Bool) (s : State) : (setClock b s).devAddrPending = s.devAddrPending := rfl
@[simp] theorem setClock_part (b : Bool) (s : State) : (setClock b s).part = s.part := rfl
@[simp] theorem setClock_ri (b : Bool) (s : State) : (setClock b s).ri = s.ri := rfl
@[simp] theorem setClock_clockOn (b : Bool) (s : State) : (setClock b s).clockOn = b := rfl
@[simp] theorem setClock_mem (b : Bool) (s : State) : (setClock b s).mem = s.mem := rfl
@[simp] theorem setClock_client (b : Bool) (s : State) : (setClock b s).client = s.client := rfl
@[simp] theorem setClock_result (b : Bool) (s : State) : (setClock b s).result = s.result := rfl
@[simp] theorem setClock_inbox (b : Bool) (s : State) : (setClock b s).inbox = s.inbox := rfl
@[simp] theorem setClock_moves (b : Bool) (s : State) : (setClock b s).moves = s.moves := rfl
@[simp] theorem setClock_resetImages (b : Bool) (s : State) : (setClock b s).resetImages = s.resetImages := rfl
@[simp] theorem setClock_trace (b : Bool) (s : State) : (setClock b s).trace = s.trace := rfl
@[simp] theorem setClock_freeCtr (b : Bool) (s : State) : (setClock b s).freeCtr = s.freeCtr := rfl

/-! ### riMoves -/

@[simp] theorem riMoves_cfg (m : RiMove) (s : State) : (riMoves m s).cfg = s.cfg := rfl
@[simp] theorem riMoves_ctrl (m : RiMove) (s : State) : (riMoves m s).ctrl = s.ctrl := rfl
@[simp] theorem riMoves_ep (m : RiMove) (s : State) : (riMoves m s).ep = s.ep := rfl
@[simp] theorem riMoves_devAddrPending (m : RiMove) (s : State) : (riMoves m s).devAddrPending = s.devAddrPending := rfl
@[simp] theorem riMoves_part (m : RiMove) (s : State) : (riMoves m s).part = s.part := rfl
@[simp] theorem riMoves_ri (m : RiMove) (s : State) : (riMoves m s).ri = RiMove.apply s.cfg.layout s.ri m := rfl
@[simp] theorem riMoves_clockOn (m : RiMove) (s : State) : (riMoves m s).clockOn = s.clockOn := rfl
@[simp] theorem riMoves_mem (m : RiMove) (s : State) : (riMoves m s).mem = s.mem := rfl
@[simp] theorem riMoves_client (m : RiMove) (s : State) : (riMoves m s).client = s.client := rfl
@[simp] theorem riMoves_result (m : RiMove) (s : State) : (riMoves m s).result = s.result := rfl
@[simp] theorem riMoves_inbox (m : RiMove) (s : State) : (riMoves m s).inbox = s.inbox := rfl
@[simp] theorem riMoves_moves (m : RiMove) (s : State) : (riMoves m s).moves = s.moves := rfl
@[simp] theorem riMoves_resetImages (m : RiMove) (s : State) : (riMoves m s).resetImages = s.resetImages := rfl
@[simp] theorem riMoves_trace (m : RiMove) (s : State) : (riMoves m s).trace = s.trace := rfl
@[simp] theorem riMoves_freeCtr (m : RiMove) (s : State) : (riMoves m s).freeCtr = s.freeCtr := rfl

/-! ### The Register Interface still -/

/-- With no move listed the Register Interface stays as it is. -/
theorem envPoint_still {s : State} (h : s.moves = []) : envPoint s = s := by
  cases s
  cases h
  rfl

/-- With no move listed a write is the write alone. -/
theorem regWrite_still (f : Field) (v : Nat) {s : State} (h : s.moves = []) : regWrite f v s = putReg f v s := by
  simp only [regWrite, envPoint_still h]

/-- With no move listed a read is the access alone. -/
theorem regRead_still (f : Field) {s : State} (h : s.moves = []) : regRead f s = logAccess (.read f) s := by
  simp only [regRead, envPoint_still h]

/-- With no move listed a push is the push alone. -/
theorem txPush_still (i : Nat) (w : Word) {s : State} (h : s.moves = []) : txPush i w s = pushWord i w s := by
  simp only [txPush, envPoint_still h]

/-! ### The endpoint array -/

theorem epAt_modify (l : List Endpoint) (i j : Nat) (f : Endpoint → Endpoint) (d : Endpoint) :
    (l.modify i f).getD j d = if i = j ∧ j < l.length then f (l.getD j d) else l.getD j d := by
  by_cases hj : j < l.length <;> by_cases hij : i = j <;> simp [hj, hij]

/-- `ep[j]` after a change of `ep[i]`. -/
theorem modifyEp_epAt (i j : Nat) (f : Endpoint → Endpoint) (s : State) :
    (modifyEp i f s).epAt j = if i = j ∧ j < s.ep.length then f (s.epAt j) else s.epAt j := by
  simp only [State.epAt, modifyEp, epAt_modify]

@[simp] theorem modifyEp_length (i : Nat) (f : Endpoint → Endpoint) (s : State) : (modifyEp i f s).ep.length = s.ep.length := by
  simp [modifyEp]

end Sys2Proof.Machine
end

