-- ==== Sys2Proof/Laws/Effects.lean ====
section
/-! SUPPORT. What each shared operation leaves, said once: the register helpers, the packet pushes, the outcome combinators.
Later proofs cite these and do not unfold the operations. -/

namespace Sys2Proof.Machine

/-! ## Lists -/

/-- Two changes of one entry are one change. -/
theorem modify_twice {α : Type} (l : List α) (i : Nat) (f g : α → α) :
    (l.modify i f).modify i g = l.modify i fun x => g (f x) := by
  apply List.ext_getElem?
  intro n
  simp only [List.getElem?_modify]
  by_cases h : i = n <;> simp [h]
  cases l[n]? <;> rfl

/-- A change of an entry by a function that leaves it as it is. -/
theorem modify_same {α : Type} (l : List α) (i : Nat) (f : α → α) (h : ∀ x, l[i]? = some x → f x = x) : l.modify i f = l := by
  apply List.ext_getElem?
  intro n
  simp only [List.getElem?_modify]
  by_cases e : i = n
  · subst e
    cases hx : l[i]? with
    | none => simp
    | some x => simp [h x hx]
  · simp [e]

/-- Two functions that agree on the entry make the same change. -/
theorem modify_congr {α : Type} (l : List α) (i : Nat) (f g : α → α) (h : ∀ x, l[i]? = some x → f x = g x) :
    l.modify i f = l.modify i g := by
  apply List.ext_getElem?
  intro n
  simp only [List.getElem?_modify]
  by_cases e : i = n
  · subst e
    cases hx : l[i]? with
    | none => simp
    | some x => simp [h x hx]
  · simp [e]

/-- An entry of a list with one entry changed. -/
theorem getD_modify {α : Type} (l : List α) (i n : Nat) (f : α → α) (d : α) :
    (l.modify i f).getD n d = if i = n ∧ n < l.length then f (l.getD n d) else l.getD n d := by
  simp only [List.getD_eq_getElem?_getD, List.getElem?_modify]
  by_cases e : i = n
  · subst e
    by_cases h : i < l.length <;> simp [h]
  · simp [e]

/-! ## Outcomes -/

@[simp] theorem andThen_next {α β : Type} (a : α) (f : α → M β) : andThen (.next a) f = f a := rfl
@[simp] theorem andThen_fault {α β : Type} (e : Fault) (f : α → M β) : andThen (.fault e) f = .fault e := rfl
@[simp] theorem andThen_refused {α β : Type} (e : Refusal) (f : α → M β) : andThen (.refused e) f = .refused e := rfl

/-- A composite goes on only where its first half did. -/
theorem andThen_eq_next {α β : Type} {x : M α} {f : α → M β} {b : β} (h : andThen x f = .next b) :
    ∃ a, x = .next a ∧ f a = .next b := by
  cases x with
  | next a => exact ⟨a, rfl, h⟩
  | fault e => cases h
  | refused e => cases h

/-- With the clock on the clock precondition is no condition. -/
@[simp] theorem clocked_on {α : Type} {s : State} (h : s.clockOn = true) (k : M α) : clocked s k = k := by simp [clocked, h]

/-- With the clock off an operation that touches a register is refused. -/
@[simp] theorem clocked_off {α : Type} {s : State} (h : s.clockOn = false) (k : M α) : clocked s k = .refused .clockOff := by
  simp [clocked, h]

/-- A clocked operation goes on only with the clock on. -/
theorem clocked_eq_next {α : Type} {s : State} {k : M α} {a : α} (h : clocked s k = .next a) :
    s.clockOn = true ∧ k = .next a := by
  cases hc : s.clockOn <;> simp [clocked, hc] at h ⊢
  exact h

/-- What a command leaves is its result word over what it did. -/
theorem finish_eq_next {x : M (Res × State)} {t : State} (h : finish x = .next t) :
    ∃ p, x = .next p ∧ t = answer p.1 p.2 := by
  obtain ⟨p, h1, h2⟩ := andThen_eq_next h
  exact ⟨p, h1, by cases h2; rfl⟩

@[simp] theorem finish_next (r : Res) (s : State) : finish (.next (r, s)) = .next (answer r s) := rfl
@[simp] theorem finish_fault (e : Fault) : finish (.fault e) = .fault e := rfl
@[simp] theorem finish_refused (e : Refusal) : finish (.refused e) = .refused e := rfl

/-! ## Register helpers (42 R203 to R206, 45 R270) -/

/-- What `ArmCtrlOut` leaves (42 R203). -/
theorem armCtrlOut_eq {s : State} (hm : s.moves = []) : armCtrlOut s = { s with
    ri := { s.ri with oep := s.ri.oep.modify 0 (OutRegs.armedForSetup s.cfg) }, trace := armForSetupWrites s.cfg ++ s.trace } := by
  conv => lhs; simp only [armCtrlOut, regWrite_still, putReg_moves, hm]
  simp only [putReg, logAccess, RegIf.write, modify_twice]
  rfl

/-- What `ArmOut` leaves, the buffer's length `n` (42 R205). -/
theorem programOut_eq (i n : Nat) {s : State} (hm : s.moves = []) : programOut i n s = { s with
    ri := { s.ri with oep := s.ri.oep.modify i (OutRegs.armed n) }, trace := armWrites i n ++ s.trace } := by
  conv => lhs; simp only [programOut, regWrite_still, putReg_moves, hm]
  simp only [putReg, logAccess, RegIf.write, modify_twice]
  rfl

/-- What the four writes of `StartIn` leave (42 R204). -/
theorem programIn_eq (i n : Nat) {s : State} (hm : s.moves = []) : programIn i n s = { s with
    ri := { s.ri with iep := s.ri.iep.modify i (InRegs.started n) }, trace := startWrites i n ++ s.trace } := by
  conv => lhs; simp only [programIn, regWrite_still, putReg_moves, hm]
  simp only [putReg, logAccess, RegIf.write, modify_twice]
  rfl

/-- What a packet's pushes leave (45 R270). -/
theorem pushAll_eq (i : Nat) (ws : List Word) {s : State} (hm : s.moves = []) : pushAll i ws s = { s with
    ri := { s.ri with txq := s.ri.txq.modify i fun q => q ++ ws }, trace := pushes i ws ++ s.trace } := by
  induction ws generalizing s with
  | nil =>
    simp only [pushAll, List.foldl_nil, pushes, List.map_nil, List.reverse_nil, List.nil_append, List.append_nil]
    rw [modify_same _ _ _ fun _ _ => rfl]
  | cons w ws ih =>
    have h : pushAll i (w :: ws) s = pushAll i ws (txPush i w s) := rfl
    rw [h, txPush_still i w hm, ih (s := pushWord i w s) hm]
    simp [pushWord, logAccess, modify_twice, pushes]

/-- `ArmOut` on an endpoint with its buffer (42 R205). -/
theorem armOut_next {i : Nat} {b : Buf} {s : State} (hb : (s.epAt i).outBuf = some b) (hc : s.clockOn = true)
    (hm : s.moves = []) : armOut i s = .next { s with
      ri := { s.ri with oep := s.ri.oep.modify i (OutRegs.armed b.len.toNat) }, trace := armWrites i b.len.toNat ++ s.trace } := by
  simp only [armOut, hb, clocked_on hc, programOut_eq i _ hm]

/-- The body of `WRITE_PACKET` where the packet can be sent (45 R270). -/
theorem pushPacket_next {i n : Nat} {b : Buf} {s : State} (hcap : words4 n ≤ partSize (s.part.tx.getD i none))
    (hsp : b.base.toNat + n ≤ 2 ^ 32) (hc : s.clockOn = true) (hm : s.moves = []) :
    pushPacket i b n s = .next { s with
      ri := { s.ri with txq := s.ri.txq.modify i fun q => q ++ wordsOf b n s }, trace := pushes i (wordsOf b n s) ++ s.trace } := by
  have h : ¬ partSize (s.part.tx.getD i none) < words4 n := by omega
  simp only [pushPacket, h, if_false, Buf.inSpace, hsp, decide_true, if_true, clocked_on hc, pushAll_eq i _ hm]
  rfl

/-- `StartIn` where the packet can be sent (42 R204). -/
theorem startIn_next {i n : Nat} {b : Buf} {s : State} (h : CanSend i n b s) (hc : s.clockOn = true) (hm : s.moves = []) :
    startIn i n s = .next { s with
      ri := { s.ri with
        iep := s.ri.iep.modify i (InRegs.started n), txq := s.ri.txq.modify i fun q => q ++ wordsOf b n s },
      trace := pushes i (wordsOf b n s) ++ startWrites i n ++ s.trace } := by
  simp only [startIn, h.buf, h.fits, if_true, h.reserved, clocked_on hc, programIn_eq i _ hm]
  rw [pushPacket_next (s := { s with
    ri := { s.ri with iep := s.ri.iep.modify i (InRegs.started n) }, trace := startWrites i n ++ s.trace })
    h.capacity h.space hc hm]
  simp [wordsOf]

/-- Setting `.act` where it is set already leaves the registers as they are. -/
theorem act_in_again {s : State} {i : Nat} (h : (s.ri.iepAt i).act = true) :
    s.ri.iep.modify i (fun r => { r with act := true }) = s.ri.iep := by
  apply modify_same
  intro x hx
  have : x.act = true := by simpa [RegIf.iepAt, hx] using h
  cases x
  simp_all

/-- Setting `.act` where it is set already leaves the registers as they are. -/
theorem act_out_again {s : State} {i : Nat} (h : (s.ri.oepAt i).act = true) :
    s.ri.oep.modify i (fun r => { r with act := true }) = s.ri.oep := by
  apply modify_same
  intro x hx
  have : x.act = true := by simpa [RegIf.oepAt, hx] using h
  cases x
  simp_all

/-- Endpoint 0 becomes a control endpoint if it is `Disabled` (42 R194, R195). -/
theorem startControl0_eq (s : State) : startControl0 s = { s with
    ep := if (s.epAt 0).sub = .disabled then s.ep.modify 0 fun e => { e with sub := .control .init } else s.ep } := by
  unfold startControl0
  by_cases h : (s.epAt 0).sub = .disabled <;> simp only [h, if_true, if_false] <;> rfl

/-- What activation of the IN side of endpoint 0 leaves (42 R194). -/
theorem activateIn0_eq {s : State} (hm : s.moves = []) : activateIn0 s = { s with
    ep := if (s.epAt 0).sub = .disabled then s.ep.modify 0 fun e => { e with sub := .control .init } else s.ep,
    ri := { s.ri with iep := s.ri.iep.modify 0 fun r => { r with act := true } },
    trace := (if (s.ri.iepAt 0).act then [.read (.iep 0 .act)] else [.write (.iep 0 .act) 1, .read (.iep 0 .act)]) ++ s.trace } := by
  unfold activateIn0
  by_cases ha : (s.ri.iepAt 0).act = true
  · simp only [regRead_still _ hm, logAccess_ri, ha, if_true, startControl0_eq, act_in_again ha]; rfl
  · simp only [regRead_still _ hm, logAccess_ri, ha, regWrite_still _ _ (s := logAccess _ s) hm, startControl0_eq]; rfl

/-- What activation of the OUT side of endpoint 0 leaves (42 R195). -/
theorem activateOut0_eq {s : State} (hm : s.moves = []) : activateOut0 s = { s with
    ep := if (s.epAt 0).sub = .disabled then s.ep.modify 0 fun e => { e with sub := .control .init } else s.ep,
    ri := { s.ri with oep := s.ri.oep.modify 0 fun r => { r with act := true } },
    trace := (if (s.ri.oepAt 0).act then [.read (.oep 0 .act)] else [.write (.oep 0 .act) 1, .read (.oep 0 .act)]) ++ s.trace } := by
  unfold activateOut0
  by_cases ha : (s.ri.oepAt 0).act = true
  · simp only [regRead_still _ hm, logAccess_ri, ha, if_true, startControl0_eq, act_out_again ha]; rfl
  · simp only [regRead_still _ hm, logAccess_ri, ha, regWrite_still _ _ (s := logAccess _ s) hm, startControl0_eq]; rfl

/-- Two changes of `ep[i]` agree where they agree on the endpoint. -/
theorem epAt_congr {s : State} {i : Nat} {f g : Endpoint → Endpoint} (h : f (s.epAt i) = g (s.epAt i)) :
    s.ep.modify i f = s.ep.modify i g := by
  apply modify_congr
  intro x hx
  have : s.epAt i = x := by simp [State.epAt, hx]
  rw [← this]
  exact h

/-- A packet of no bytes pushes nothing. -/
@[simp] theorem wordsOf_zero (b : Buf) (s : State) : wordsOf b 0 s = [] := rfl
@[simp] theorem pushes_nil (i : Nat) : pushes i [] = [] := rfl

/-- What the writes of `ACTIVATE_EP_IN` on an index above 0 leave (42 R194). -/
theorem activateInRegs_eq (i : Nat) (t : TType) (n : BitVec 16) {s : State} (hm : s.moves = []) : activateInRegs i t n s = { s with
    ep := s.ep.modify i fun e => { e with sub := initialIn t (s.epAt i).sub n }
    ri := { s.ri with
      iep := s.ri.iep.modify i fun r =>
        { r with eptyp := BitVec.ofNat 2 t.code, dpid := false, mps := n.toNat, txfnum := i, act := true }
      aintIep := s.ri.aintIep.modify i fun _ => true }
    trace := .write (.aintIep i) 1 :: .write (.iep i .act) 1 :: .write (.iep i .txfnum) i :: .write (.iep i .mps) n.toNat ::
      .write (.iep i .dpid) 0 :: .write (.iep i .eptyp) t.code :: s.trace } := by
  conv => lhs; simp only [activateInRegs, regWrite_still, putReg_moves, setSub_moves, hm]
  simp only [putReg, logAccess, setSub, modifyEp, RegIf.write, modify_twice]
  rfl

/-- What the writes of `ACTIVATE_EP_OUT` on an index above 0 leave before the arm (42 R195). -/
theorem activateOutRegs_eq (i : Nat) (t : TType) (n : BitVec 16) {s : State} (hm : s.moves = []) : activateOutRegs i t n s = { s with
    ep := s.ep.modify i fun e => { e with sub := initialOut t (s.epAt i).sub }
    ri := { s.ri with
      oep := s.ri.oep.modify i fun r => { r with eptyp := BitVec.ofNat 2 t.code, dpid := false, mps := n.toNat, act := true }
      aintOep := s.ri.aintOep.modify i fun _ => true }
    trace := .write (.aintOep i) 1 :: .write (.oep i .act) 1 :: .write (.oep i .mps) n.toNat :: .write (.oep i .dpid) 0 ::
      .write (.oep i .eptyp) t.code :: s.trace } := by
  conv => lhs; simp only [activateOutRegs, regWrite_still, putReg_moves, setSub_moves, hm]
  simp only [putReg, logAccess, setSub, modifyEp, RegIf.write, modify_twice]
  rfl

end Sys2Proof.Machine
end

