-- ==== Sys2Proof/Laws/PerInstr.lean ====
section
/-! SUPPORT. One lemma per instruction: decoding the words of its encoding, at its port, gives it back with nothing left
(spec 30_encoding R91 to R104). -/

namespace Sys2Proof.Laws.RoundTrip

/-- Under every well-formed layout, decoding the encoding of a well-formed instruction gives it back. -/
def Statement (i : Instr) : Prop :=
  ∀ l : Layout, l.wf = true → i.wellFormed = true → decode l (encode l i).1 (encode l i).2 = .ok (i, [])

/-- From the command decoder to the port decoder. -/
theorem ofCmd {l : Layout} {i : Instr} {ws : List Word} (h : decodeCmd ws = .ok i) : decode l .cmd ws = .ok (i, []) := by
  simp only [decode, whole, h, Except.map]

/-- The operands of a receive status word come back. -/
theorem ofRx {l : Layout} {c : Nat} {i : Instr} (hl : l.wf = true) (hc : c ∈ l.codes) (e : BitVec 4) (n : BitVec 11) (d : BitVec 2)
    (h : (if c = l.dataUpdate then .ok (.rxDataUpdate e n d)
          else if c = l.setupComplete then .ok (.rxSetupComplete e n d)
          else if c = l.setupUpdate then .ok (.rxSetupUpdate e n d)
          else .error .unnamedPktsts) = (.ok i : Except Reject Instr)) :
    decode l .rxsts [rxWord l c e n d] = .ok (i, []) := by
  have ha := l.apart_of_wf hl
  have hd : decodeRx l (rxWord l c e n d) = .ok i := by
    simp only [decodeRx, rxWord_fields ha (ha.codeLt c hc), BitVec.ofNat_toNat, BitVec.setWidth_eq]
    exact h
  simp only [decode, oneWord, whole, hd, Except.map]

/-- A source's word selects that source. -/
theorem ofSource {l : Layout} (hl : l.wf = true) (x : Source) : decode l .gintsts [bitMask (l.bit x)] = .ok (x.instr, []) := by
  have ha := l.apart_of_wf hl
  exact decodeBits_mask (rows := sourceRows l) (by simpa [sourceRows, Function.comp_def] using ha.bits) (r := (l.bit x, x.instr))
    (List.mem_map.mpr ⟨x, by cases x <;> decide, rfl⟩) (ha.bitLt x)

/-- An OUT condition's word selects that condition. -/
theorem ofOut {l : Layout} (hl : l.wf = true) (i : Nat) (c : OutCond) :
    decode l (.doepint i) [bitMask (l.outBit c)] = .ok (c.instr i, []) := by
  have ha := l.apart_of_wf hl
  exact decodeBits_mask (rows := outRows l i) (by simpa [outRows, Function.comp_def] using ha.outBits) (r := (l.outBit c, c.instr i))
    (List.mem_map.mpr ⟨c, by cases c <;> decide, rfl⟩) (ha.outLt c)

/-- An IN condition's word selects that condition. -/
theorem ofIn {l : Layout} (hl : l.wf = true) (i : Nat) (c : InCond) :
    decode l (.diepint i) [bitMask (l.inBit c)] = .ok (c.instr i, []) := by
  have ha := l.apart_of_wf hl
  exact decodeBits_mask (rows := inRows l i) (by simpa [inRows, Function.comp_def] using ha.inBits) (r := (l.inBit c, c.instr i))
    (List.mem_map.mpr ⟨c, by cases c <;> decide, rfl⟩) (ha.inLt c)

/-- From the request decoder to the port decoder. -/
theorem ofCb {l : Layout} {i : Instr} {w : Word} (h : decodeCb w = .ok i) : decode l .cb [w] = .ok (i, []) := by
  simp only [decode, oneWord, whole, h, Except.map]

/-- From the response decoder to the port decoder. -/
theorem ofResp {l : Layout} {i : Instr} {w : Word} (h : decodeResp w = .ok i) : decode l .resp [w] = .ok (i, []) := by
  simp only [decode, oneWord, whole, h, Except.map]

/-- The three named codes are distinct. -/
theorem codes_complete {l : Layout} (hl : l.wf = true) : l.setupComplete ≠ l.dataUpdate := by
  have h := (l.apart_of_wf hl).codes
  simp only [Layout.codes, List.nodup_cons, List.mem_cons, List.not_mem_nil] at h
  omega

theorem codes_update {l : Layout} (hl : l.wf = true) : l.setupUpdate ≠ l.dataUpdate := by
  have h := (l.apart_of_wf hl).codes
  simp only [Layout.codes, List.nodup_cons, List.mem_cons, List.not_mem_nil] at h
  omega

theorem codes_update2 {l : Layout} (hl : l.wf = true) : l.setupUpdate ≠ l.setupComplete := by
  have h := (l.apart_of_wf hl).codes
  simp only [Layout.codes, List.nodup_cons, List.mem_cons, List.not_mem_nil] at h
  omega

theorem enable (speed : Speed) : Statement (.enable speed) := fun _ _ _ => by
  cases speed <;> exact ofCmd (decodeCmd_one (by decide) (by decide) (by decide) rfl rfl)

theorem start : Statement (.start) := fun _ _ _ =>
  ofCmd (decodeCmd_one (by decide) (by decide) (by decide) rfl rfl)

theorem detach : Statement (.detach) := fun _ _ _ =>
  ofCmd (decodeCmd_one (by decide) (by decide) (by decide) rfl rfl)

theorem setAddress (a : BitVec 16) : Statement (.setAddress a) := fun _ _ _ =>
  ofCmd (decodeCmd_one (by decide) (by decide) a.isLt rfl (by simp [ifZero]))

theorem assignCtrlBuf (len : BitVec 16) (base : Word) : Statement (.assignCtrlBuf len base) := fun _ _ _ =>
  ofCmd (decodeCmd_two (by decide) (by decide) len.isLt rfl (by simp [ifZero]))

theorem assignInBuf (i : BitVec 8) (len : BitVec 16) (base : Word) : Statement (.assignInBuf i len base) := fun _ _ _ =>
  ofCmd (decodeCmd_two (by decide) i.isLt len.isLt rfl (by simp))

theorem assignOutBuf (i : BitVec 8) (len : BitVec 16) (base : Word) : Statement (.assignOutBuf i len base) := fun _ _ _ =>
  ofCmd (decodeCmd_two (by decide) i.isLt len.isLt rfl (by simp))

theorem activateEpIn (i : BitVec 8) (t : TType) : Statement (.activateEpIn i t) := fun _ _ _ =>
  ofCmd (decodeCmd_one (by decide) i.isLt t.code_lt rfl (by simp [TType.ofCode_code]))

theorem activateEpOut (i : BitVec 8) (t : TType) : Statement (.activateEpOut i t) := fun _ _ _ =>
  ofCmd (decodeCmd_one (by decide) i.isLt t.code_lt rfl (by simp [TType.ofCode_code]))

theorem disableEpIn (i : BitVec 8) : Statement (.disableEpIn i) := fun _ _ _ =>
  ofCmd (decodeCmd_one (by decide) i.isLt (by decide) rfl (by simp [ifZero]))

theorem disableEpOut (i : BitVec 8) : Statement (.disableEpOut i) := fun _ _ _ =>
  ofCmd (decodeCmd_one (by decide) i.isLt (by decide) rfl (by simp [ifZero]))

theorem stallEpIn (i : BitVec 8) : Statement (.stallEpIn i) := fun _ _ _ =>
  ofCmd (decodeCmd_one (by decide) i.isLt (by decide) rfl (by simp [ifZero]))

theorem stallEpOut (i : BitVec 8) : Statement (.stallEpOut i) := fun _ _ _ =>
  ofCmd (decodeCmd_one (by decide) i.isLt (by decide) rfl (by simp [ifZero]))

theorem clearStallIn (i : BitVec 8) : Statement (.clearStallIn i) := fun _ _ _ =>
  ofCmd (decodeCmd_one (by decide) i.isLt (by decide) rfl (by simp [ifZero]))

theorem clearStallOut (i : BitVec 8) : Statement (.clearStallOut i) := fun _ _ _ =>
  ofCmd (decodeCmd_one (by decide) i.isLt (by decide) rfl (by simp [ifZero]))

theorem setRxFifo (size : BitVec 16) : Statement (.setRxFifo size) := fun _ _ _ =>
  ofCmd (decodeCmd_one (by decide) (by decide) size.isLt rfl (by simp [ifZero]))

theorem setTxFifo (i : BitVec 8) (size : BitVec 16) : Statement (.setTxFifo i size) := fun _ _ _ =>
  ofCmd (decodeCmd_one (by decide) i.isLt size.isLt rfl (by simp))

theorem writePacket (i : BitVec 8) (len : BitVec 16) : Statement (.writePacket i len) := fun _ _ _ =>
  ofCmd (decodeCmd_one (by decide) i.isLt len.isLt rfl (by simp))

theorem readPacket (i : BitVec 8) (len : BitVec 16) : Statement (.readPacket i len) := fun _ _ _ =>
  ofCmd (decodeCmd_one (by decide) i.isLt len.isLt rfl (by simp))

theorem irq : Statement (.irq) := fun _ _ _ =>
  ofCmd (decodeCmd_one (by decide) (by decide) (by decide) rfl rfl)

theorem srcMmis : Statement (.srcMmis) := fun _ hl _ => ofSource hl .mmis

theorem srcRxflvl : Statement (.srcRxflvl) := fun _ hl _ => ofSource hl .rxflvl

theorem srcOepint : Statement (.srcOepint) := fun _ hl _ => ofSource hl .oepint

theorem srcIepint : Statement (.srcIepint) := fun _ hl _ => ofSource hl .iepint

theorem srcWkup : Statement (.srcWkup) := fun _ hl _ => ofSource hl .wkup

theorem srcSusp : Statement (.srcSusp) := fun _ hl _ => ofSource hl .susp

theorem srcLpm : Statement (.srcLpm) := fun _ hl _ => ofSource hl .lpm

theorem srcUsbrst : Statement (.srcUsbrst) := fun _ hl _ => ofSource hl .usbrst

theorem srcEnumdne : Statement (.srcEnumdne) := fun _ hl _ => ofSource hl .enumdne

theorem srcSof : Statement (.srcSof) := fun _ hl _ => ofSource hl .sof

theorem srcIisoixfr : Statement (.srcIisoixfr) := fun _ hl _ => ofSource hl .iisoixfr

theorem srcIisooxfr : Statement (.srcIisooxfr) := fun _ hl _ => ofSource hl .iisooxfr

theorem srcSrq : Statement (.srcSrq) := fun _ hl _ => ofSource hl .srq

theorem srcOtg : Statement (.srcOtg) := fun _ hl _ => ofSource hl .otg

theorem oepXfrc (i : Nat) : Statement (.oepXfrc i) := fun _ hl _ => ofOut hl i .xfrc

theorem oepStup (i : Nat) : Statement (.oepStup i) := fun _ hl _ => ofOut hl i .stup

theorem oepOtepdis (i : Nat) : Statement (.oepOtepdis i) := fun _ hl _ => ofOut hl i .otepdis

theorem oepStsphsrx (i : Nat) : Statement (.oepStsphsrx i) := fun _ hl _ => ofOut hl i .stsphsrx

theorem oepNak (i : Nat) : Statement (.oepNak i) := fun _ hl _ => ofOut hl i .nak

theorem iepXfrc (i : Nat) : Statement (.iepXfrc i) := fun _ hl _ => ofIn hl i .xfrc

theorem iepToc (i : Nat) : Statement (.iepToc i) := fun _ hl _ => ofIn hl i .toc

theorem iepIttxfe (i : Nat) : Statement (.iepIttxfe i) := fun _ hl _ => ofIn hl i .ittxfe

theorem iepInepne (i : Nat) : Statement (.iepInepne i) := fun _ hl _ => ofIn hl i .inepne

theorem iepEpdisd (i : Nat) : Statement (.iepEpdisd i) := fun _ hl _ => ofIn hl i .epdisd

theorem iepTxfe (i : Nat) : Statement (.iepTxfe i) := fun _ hl _ => ofIn hl i .txfe

theorem rxDataUpdate (e : BitVec 4) (bcnt : BitVec 11) (dpid : BitVec 2) : Statement (.rxDataUpdate e bcnt dpid) :=
  fun l hl _ => ofRx hl (by simp [Layout.codes]) e bcnt dpid (by simp)

theorem rxSetupComplete (e : BitVec 4) (bcnt : BitVec 11) (dpid : BitVec 2) : Statement (.rxSetupComplete e bcnt dpid) :=
  fun l hl _ => ofRx hl (by simp [Layout.codes]) e bcnt dpid (by simp [codes_complete hl])

theorem rxSetupUpdate (e : BitVec 4) (bcnt : BitVec 11) (dpid : BitVec 2) : Statement (.rxSetupUpdate e bcnt dpid) :=
  fun l hl _ => ofRx hl (by simp [Layout.codes]) e bcnt dpid (by simp [codes_update hl, codes_update2 hl])

theorem cbSetup (e : BitVec 8) : Statement (.cbSetup e) := fun _ _ _ =>
  ofCb ((decodeCb_word (by decide) e.isLt (by decide)).trans (by simp [cbCase, okIfZero]))

theorem cbInData (e : BitVec 8) : Statement (.cbInData e) := fun _ _ _ =>
  ofCb ((decodeCb_word (by decide) e.isLt (by decide)).trans (by simp [cbCase, okIfZero]))

theorem cbOutData (e : BitVec 8) (len : BitVec 16) : Statement (.cbOutData e len) := fun _ _ _ =>
  ofCb ((decodeCb_word (by decide) e.isLt len.isLt).trans (by simp [cbCase, okIfZero]))

theorem cbStatus (e : BitVec 8) : Statement (.cbStatus e) := fun _ _ _ =>
  ofCb ((decodeCb_word (by decide) e.isLt (by decide)).trans (by simp [cbCase, okIfZero]))

theorem cbStatusComplete (e : BitVec 8) : Statement (.cbStatusComplete e) := fun _ _ _ =>
  ofCb ((decodeCb_word (by decide) e.isLt (by decide)).trans (by simp [cbCase, okIfZero]))

theorem cbBusReset : Statement (.cbBusReset) := fun _ _ _ => ofCb rfl

theorem respSetupOk : Statement (.respSetupOk) := fun _ _ _ => ofResp rfl

theorem respSetupOkSetAddress (a : BitVec 16) : Statement (.respSetupOkSetAddress a) := fun _ _ _ =>
  ofResp ((decodeResp_word (by decide) (by decide) (by decide) a.isLt).trans (by simp [respCase, okIfZero]))

theorem respSetupError : Statement (.respSetupError) := fun _ _ _ => ofResp rfl

theorem respInDataPacket (size : BitVec 16) (last : Bool) : Statement (.respInDataPacket size last) := fun _ _ _ =>
  ofResp ((decodeResp_word (by decide) (by decide) (Bool.toNat_lt last) size.isLt).trans (by cases last <;> simp [respCase, okIfZero]))

theorem respInDataDelay : Statement (.respInDataDelay) := fun _ _ _ => ofResp rfl

theorem respInDataError : Statement (.respInDataError) := fun _ _ _ => ofResp rfl

theorem respOutDataOk : Statement (.respOutDataOk) := fun _ _ _ => ofResp rfl

theorem respOutDataHalted : Statement (.respOutDataHalted) := fun _ _ _ => ofResp rfl

theorem respOutDataDelay : Statement (.respOutDataDelay) := fun _ _ _ => ofResp rfl

theorem respStatusDone : Statement (.respStatusDone) := fun _ _ _ => ofResp rfl

theorem respStatusCompleteDone : Statement (.respStatusCompleteDone) := fun _ _ _ => ofResp rfl

theorem respBusResetDone : Statement (.respBusResetDone) := fun _ _ _ => ofResp rfl

theorem resOk : Statement (.resOk) := fun _ _ _ => rfl

theorem resConfigurationError : Statement (.resConfigurationError) := fun _ _ _ => rfl

theorem resHardwareTimeout : Statement (.resHardwareTimeout) := fun _ _ _ => rfl

theorem resUnsupportedFeature : Statement (.resUnsupportedFeature) := fun _ _ _ => rfl

end Sys2Proof.Laws.RoundTrip
end

