-- ==== Sys2Proof/Laws/Callbacks.lean ====
section
/-! SUPPORT. How a callback is answered inside the operation that makes it (spec 20_memory R72, 30_encoding R101): a listed answer
reaches the CORE as the response its word encodes. -/

namespace Sys2Proof.Machine

/-- Every response instruction is well-formed and has its word at the response port, the same under every layout. -/
theorem resp_shape {i : Instr} (h : (respOfInstr i).isSome = true) :
    i.wellFormed = true ∧ (∀ l, encode l i = encode Layout.default i) ∧ (encode Layout.default i).1 = .resp ∧
      Laws.RoundTrip.Statement i := by
  cases i with
  | respSetupOk => exact ⟨rfl, fun _ => rfl, rfl, Laws.RoundTrip.respSetupOk⟩
  | respSetupOkSetAddress a => exact ⟨rfl, fun _ => rfl, rfl, Laws.RoundTrip.respSetupOkSetAddress a⟩
  | respSetupError => exact ⟨rfl, fun _ => rfl, rfl, Laws.RoundTrip.respSetupError⟩
  | respInDataPacket n l => exact ⟨rfl, fun _ => rfl, rfl, Laws.RoundTrip.respInDataPacket n l⟩
  | respInDataDelay => exact ⟨rfl, fun _ => rfl, rfl, Laws.RoundTrip.respInDataDelay⟩
  | respInDataError => exact ⟨rfl, fun _ => rfl, rfl, Laws.RoundTrip.respInDataError⟩
  | respOutDataOk => exact ⟨rfl, fun _ => rfl, rfl, Laws.RoundTrip.respOutDataOk⟩
  | respOutDataHalted => exact ⟨rfl, fun _ => rfl, rfl, Laws.RoundTrip.respOutDataHalted⟩
  | respOutDataDelay => exact ⟨rfl, fun _ => rfl, rfl, Laws.RoundTrip.respOutDataDelay⟩
  | respStatusDone => exact ⟨rfl, fun _ => rfl, rfl, Laws.RoundTrip.respStatusDone⟩
  | respStatusCompleteDone => exact ⟨rfl, fun _ => rfl, rfl, Laws.RoundTrip.respStatusCompleteDone⟩
  | respBusResetDone => exact ⟨rfl, fun _ => rfl, rfl, Laws.RoundTrip.respBusResetDone⟩
  | _ => cases h

/-- The typed response of a response instruction's word (30_encoding R101). -/
theorem respOfWord_of {l : Layout} {i : Instr} {r : Resp} {w : Word} (hr : respOfInstr i = some r) (hw : (encode l i).2 = [w]) :
    respOfWord w = some r := by
  obtain ⟨hwf, hl, hp, hs⟩ := resp_shape (i := i) (by simp [hr])
  rw [hl] at hw
  have hd := hs Layout.default (by decide) hwf
  simp only [hp, hw, decode, oneWord, whole] at hd
  unfold respOfWord
  cases h : decodeResp w with
  | ok j => simp [h, Except.map] at hd; subst hd; exact hr
  | error e => simp [h, Except.map] at hd

/-- With no request outstanding nothing is awaited. -/
theorem settle_done {s : State} (h : s.client.outstanding = none) : ∀ n, settle n s = .next s
  | 0 => rfl
  | _ + 1 => by simp only [settle, h]

/-- A listed answer: the Client's writes, then the response, then whatever request follows. -/
theorem settle_answer {l : Layout} {s : State} {q : CbReq} {a : ClientAnswer} {more : List ClientAnswer} {i : Instr} {r : Resp}
    (hq : s.client.outstanding = some q) (ha : s.client.answers = a :: more) (hr : respOfInstr i = some r)
    (hw : (encode l i).2 = [a.word]) (n : Nat) :
    settle (n + 1) s = andThen
      (deliver r { s with mem := memAfter a s.mem, client := { s.client with answers := more } }) (settle n) := by
  simp only [settle, hq, clientAnswer, ha, respOfWord_of hr hw]
  rfl

end Sys2Proof.Machine
end

