-- ==== Sys2Proof/Laws/Init.lean ====
section
/-! SUPPORT. The parts of `ENABLE` with the Register Interface still: the polls, `DeviceInit`, the FIFO layout
(spec 40 R121 to R125; 30_encoding R106). -/

namespace Sys2Proof.Machine

/-- A poll that never succeeds makes exactly as many reads as it is given (40 R121). -/
theorem poll_idle_no (n : Nat) : ∀ s : State, s.moves = [] → s.ri.ahbIdle = false →
    pollUntil readIdle 1 n s = (false, { s with trace := List.replicate n (.read .ahbIdle) ++ s.trace }) := by
  induction n with
  | zero => intro s _ _; rfl
  | succ n ih =>
    intro s hm hi
    have h1 : readIdle s = (0, { s with trace := .read .ahbIdle :: s.trace }) := by
      simp only [readIdle, regRead_still _ hm, RegIf.peek, logAccess_ri, hi]
      rfl
    simp only [pollUntil, h1]
    rw [if_neg (by decide), ih _ (by exact hm) (by exact hi)]
    simp only [List.replicate_succ', List.append_assoc, List.cons_append, List.nil_append]

/-- A poll of AHB idle that succeeds at its first read (40 R121). -/
theorem poll_idle_yes {s : State} {n : Nat} (hn : 1 ≤ n) (hm : s.moves = []) (hi : s.ri.ahbIdle = true) :
    pollUntil readIdle 1 n s = (true, { s with trace := .read .ahbIdle :: s.trace }) := by
  obtain ⟨n, rfl⟩ : ∃ k, n = k + 1 := ⟨n - 1, by omega⟩
  have h1 : readIdle s = (1, { s with trace := .read .ahbIdle :: s.trace }) := by
    simp only [readIdle, regRead_still _ hm, RegIf.peek, logAccess_ri, hi]
    rfl
  simp only [pollUntil, h1, if_true]

/-- A poll of a self-clearing bit is over at its first read (20_memory R79). -/
theorem poll_self {s : State} (f : Field) {n : Nat} (hn : 1 ≤ n) (hm : s.moves = []) :
    pollUntil (readSelfClear f) 0 n s = (true, { s with ri := s.ri.write s.cfg f 0, trace := .read f :: s.trace }) := by
  obtain ⟨n, rfl⟩ : ∃ k, n = k + 1 := ⟨n - 1, by omega⟩
  have hu : unfinishedNext s = false := by simp [unfinishedNext, nextMoves, hm]
  have h1 : readSelfClear f s = (0, { s with ri := s.ri.write s.cfg f 0, trace := .read f :: s.trace }) := by
    simp only [readSelfClear, hu, regRead_still _ hm]
    rfl
  simp only [pollUntil, h1, if_true]

/-- An IN endpoint's registers after `DeviceInit` (40 R123). -/
def initIn (l : Layout) (r : InRegs) : InRegs := InCond.order.foldl (fun x c => x.acked l c) r.clearCtl

/-- An OUT endpoint's registers after `DeviceInit` (40 R123). -/
def initOut (l : Layout) (r : OutRegs) : OutRegs := OutCond.order.foldl (fun x c => x.acked l c) r.clearCtl

/-- The endpoint part of `DeviceInit` for one endpoint (40 R123). -/
theorem initEndpointRegs_eq {s : State} (i : Nat) (hm : s.moves = []) : ∃ l, initEndpointRegs s i = { s with
    ri := { s.ri with iep := s.ri.iep.modify i (initIn s.cfg.layout), oep := s.ri.oep.modify i (initOut s.cfg.layout) }, trace := l ++ s.trace } :=
  ⟨[.write (.oepCond i .nak) 1, .write (.oepCond i .stsphsrx) 1, .write (.oepCond i .otepdis) 1, .write (.oepCond i .stup) 1,
      .write (.oepCond i .xfrc) 1, .write (.iepCond i .txfe) 1, .write (.iepCond i .epdisd) 1, .write (.iepCond i .inepne) 1,
      .write (.iepCond i .ittxfe) 1, .write (.iepCond i .toc) 1, .write (.iepCond i .xfrc) 1, .write (.oepCtl i) 0,
      .write (.iepCtl i) 0], by
    conv => lhs; simp only [initEndpointRegs, clearOutFlags, clearInFlags, InCond.order, OutCond.order, List.foldl_cons,
      List.foldl_nil, regWrite_still, putReg_moves, hm]
    simp only [putReg, logAccess, RegIf.write, modify_twice]
    rfl⟩

/-- The endpoint part of `DeviceInit` over a list of endpoints (40 R123). -/
theorem initEndpoints_eq (l : List Nat) : ∀ s : State, s.moves = [] → ∃ tr, l.foldl initEndpointRegs s = { s with
    ri := { s.ri with
      iep := l.foldl (fun l i => l.modify i (initIn s.cfg.layout)) s.ri.iep,
      oep := l.foldl (fun l i => l.modify i (initOut s.cfg.layout)) s.ri.oep },
    trace := tr ++ s.trace } := by
  induction l with
  | nil => intro s _; exact ⟨[], rfl⟩
  | cons i l ih =>
    intro s hm
    obtain ⟨tr, h⟩ := initEndpointRegs_eq i hm
    obtain ⟨tr2, h2⟩ := ih (initEndpointRegs s i) (by rw [h]; exact hm)
    refine ⟨tr2 ++ tr, ?_⟩
    rw [List.foldl_cons, h2, h]
    simp only [List.foldl_cons, List.append_assoc]

/-- `FlushFifos` empties every queue (40 R124). -/
theorem flushFifos_eq {s : State} (hr : 1 ≤ s.cfg.retryCeiling) (hm : s.moves = []) : ∃ tr, flushFifos s = (.ok, { s with
    ri := { s.ri with
      txfFlush := false, rxfFlush := false, rxq := [], rxInStep := true, txq := s.ri.txq.map fun _ => [] },
    trace := tr ++ s.trace }) := by
  have h1 := poll_self (s := putReg .txfFlush 1 s) .txfFlush hr hm
  have h2 := poll_self (s := putReg .rxfFlush 1 { putReg .txfFlush 1 s with
    ri := (putReg .txfFlush 1 s).ri.write s.cfg .txfFlush 0, trace := .read .txfFlush :: (putReg .txfFlush 1 s).trace })
    .rxfFlush hr hm
  refine ⟨[.read .rxfFlush, .write .rxfFlush 1, .read .txfFlush, .write .txfFlush 1], ?_⟩
  simp only [flushFifos]
  rw [regWrite_still _ _ hm, h1]
  simp only [if_true]
  rw [regWrite_still _ _ (by exact hm)]
  erw [h2]
  simp only [if_true]
  rfl

/-- `SetBaselineMask` writes the fourteen mask bits (40 R125). -/
theorem setBaselineMask_eq {s : State} (hm : s.moves = []) : ∃ tr, setBaselineMask s = { s with
    ri := { s.ri with intmsk := Source.listing.foldl (fun w x => putBit w (s.cfg.layout.bit x) (isBaseline x)) s.ri.intmsk },
    trace := tr ++ s.trace } := by
  refine ⟨(Source.listing.map fun x => Access.write (.intmskBit x) (isBaseline x).toNat).reverse, ?_⟩
  conv => lhs; simp only [setBaselineMask, Source.listing, List.foldl_cons, List.foldl_nil, regWrite_still, putReg_moves, hm]
  simp only [putReg, logAccess, RegIf.write]
  rfl

/-- The fourteen mask bits after `SetBaselineMask` (40 R125). -/
theorem baseline_bit {l : Layout} (hl : l.Apart) (w : Word) (x : Source) :
    testBit (Source.listing.foldl (fun w x => putBit w (l.bit x) (isBaseline x)) w) (l.bit x) = isBaseline x := by
  rw [testBit_foldl l.bit isBaseline Source.listing w (l.bit x) fun y _ => hl.bitLt y]
  have h : Source.listing.reverse.find? (fun y => l.bit x == l.bit y) = some x := by
    have he : (fun y => l.bit x == l.bit y) = fun y => x == y := by
      funext y
      by_cases e : x = y
      · simp [e]
      · have : l.bit x ≠ l.bit y := fun h => e (hl.bit_inj h)
        rw [beq_false_of_ne this, beq_false_of_ne e]
    rw [he]
    cases x <;> rfl
  rw [h]

/-- `DeviceInit` (40 R123). -/
theorem deviceInit_eq {s : State} (hr : 1 ≤ s.cfg.retryCeiling) (hm : s.moves = []) (hi : s.ri.iep.length ≤ s.cfg.nEp)
    (ho : s.ri.oep.length ≤ s.cfg.nEp) : ∃ tr, deviceInit s = (.ok, { s with
      ri := { s.ri with
        iep := s.ri.iep.map (initIn s.cfg.layout), oep := s.ri.oep.map (initOut s.cfg.layout), txfFlush := false, rxfFlush := false, rxq := [],
        rxInStep := true, txq := s.ri.txq.map fun _ => [],
        intmsk := Source.listing.foldl (fun w x => putBit w (s.cfg.layout.bit x) (isBaseline x)) s.ri.intmsk },
      trace := tr ++ s.trace }) := by
  obtain ⟨t1, h1⟩ := initEndpoints_eq (List.range s.cfg.nEp) s hm
  rw [modify_range_map _ _ hi, modify_range_map _ _ ho] at h1
  obtain ⟨t2, h2⟩ := flushFifos_eq (s := (List.range s.cfg.nEp).foldl initEndpointRegs s) (by rw [h1]; exact hr)
    (by rw [h1]; exact hm)
  simp only [deviceInit, h2, if_true]
  rw [h1]
  obtain ⟨t3, h3⟩ := setBaselineMask_eq (s := { s with
    ri := { s.ri with
      iep := s.ri.iep.map (initIn s.cfg.layout), oep := s.ri.oep.map (initOut s.cfg.layout), txfFlush := false, rxfFlush := false, rxq := [],
      rxInStep := true, txq := s.ri.txq.map fun _ => [] },
    trace := t2 ++ (t1 ++ s.trace) }) hm
  refine ⟨t3 ++ (t2 ++ t1), ?_⟩
  rw [h3]
  simp only [List.append_assoc]

end Sys2Proof.Machine
end

