-- ==== Sys2Proof/Laws/Memory.lean ====
section
/-! SUPPORT. The laws of client buffer memory: a read after a write, and the canonical form every write keeps
(spec 20_memory R61; log 13). -/

namespace Sys2Proof.Machine

/-- Every address of a canonical memory that starts at `lo` and reads as something else than an unlisted one is at least `lo`. -/
theorem Memory.read_below {lo : Nat} : ∀ {m : Memory}, Memory.wfFrom lo m = true → ∀ a, a < lo → m.read a = unlistedByte
  | [], _, _, _ => rfl
  | (k, v) :: m, h, a, ha => by
    simp only [Memory.wfFrom, Bool.and_eq_true, decide_eq_true_eq] at h
    have hk : k ≠ a := by omega
    simp only [Memory.read, hk, if_false]
    exact Memory.read_below h.2 a (by omega)

/-- A read of the byte just stored, and of every other one. -/
theorem Memory.read_write {lo : Nat} : ∀ {m : Memory}, Memory.wfFrom lo m = true → ∀ a b c,
    (m.write a b).read c = if c = a then b else m.read c
  | [], _, a, b, c => by
    by_cases hb : b = unlistedByte <;> by_cases hc : c = a <;> simp [Memory.write, Memory.read, hb, hc, eq_comm]
    exact fun h => absurd h.symm hc
  | (k, v) :: m, h, a, b, c => by
    simp only [Memory.wfFrom, Bool.and_eq_true, decide_eq_true_eq] at h
    obtain ⟨⟨hlo, hv⟩, hm⟩ := h
    have ih := Memory.read_write hm a b c
    have below := Memory.read_below hm
    simp only [Memory.write]
    by_cases h1 : a < k
    · by_cases hb : b = unlistedByte
      · by_cases hc : c = a
        · have : k ≠ c := by omega
          simp [h1, hb, hc, Memory.read, below a (by omega), show k ≠ a by omega]
        · simp [h1, hb, hc]
      · by_cases hc : c = a
        · simp [h1, hb, hc, Memory.read]
        · simp [h1, hb, hc, Memory.read, show a ≠ c from fun h => hc h.symm]
    · by_cases h2 : a = k
      · by_cases hb : b = unlistedByte
        · by_cases hc : c = a
          · simp [h2, hb, hc, below k (by omega)]
          · simp [h2, hb, Memory.read, show c ≠ k by omega, show k ≠ c by omega]
        · by_cases hc : c = a
          · simp [h2, hb, hc, Memory.read]
          · simp [h2, hb, Memory.read, show c ≠ k by omega, show k ≠ c by omega]
      · by_cases hc : k = c
        · subst hc
          simp [h1, h2, Memory.read, show k ≠ a from fun h => h2 h.symm]
        · simp [h1, h2, Memory.read, hc, ih]

/-- A write keeps the canonical form. -/
theorem Memory.wfFrom_write {lo : Nat} : ∀ {m : Memory}, Memory.wfFrom lo m = true → ∀ a b, lo ≤ a →
    Memory.wfFrom lo (m.write a b) = true
  | [], _, a, b, ha => by
    by_cases hb : b = unlistedByte <;> simp [Memory.write, Memory.wfFrom, hb, ha]
  | (k, v) :: m, h, a, b, ha => by
    have h' := h
    simp only [Memory.wfFrom, Bool.and_eq_true, decide_eq_true_eq] at h
    obtain ⟨⟨hlo, hv⟩, hm⟩ := h
    simp only [Memory.write]
    by_cases h1 : a < k
    · by_cases hb : b = unlistedByte
      · simpa [h1, hb] using h'
      · simp only [h1, hb, if_true, if_false, Memory.wfFrom, Bool.and_eq_true, decide_eq_true_eq]
        exact ⟨⟨ha, by simpa using hb⟩, ⟨by omega, hv⟩, hm⟩
    · by_cases h2 : a = k
      · by_cases hb : b = unlistedByte
        · simp only [h2, hb, if_true, Nat.lt_irrefl, if_false]
          exact Memory.wfFrom_mono hm (by omega)
        · simp only [h2, hb, if_true, Nat.lt_irrefl, if_false, Memory.wfFrom, Bool.and_eq_true, decide_eq_true_eq]
          exact ⟨⟨by omega, by simpa using hb⟩, hm⟩
      · simp only [h1, h2, if_false, Memory.wfFrom, Bool.and_eq_true, decide_eq_true_eq]
        exact ⟨⟨hlo, hv⟩, Memory.wfFrom_write hm a b (by omega)⟩
where
  Memory.wfFrom_mono {lo lo' : Nat} : ∀ {m : Memory}, Memory.wfFrom lo m = true → lo' ≤ lo → Memory.wfFrom lo' m = true
    | [], _, _ => rfl
    | (k, v) :: m, h, hl => by
      simp only [Memory.wfFrom, Bool.and_eq_true, decide_eq_true_eq] at h ⊢
      exact ⟨⟨by omega, h.1.2⟩, h.2⟩

theorem Memory.wf_write {m : Memory} (h : m.wf = true) (a : Nat) (b : Byte) : (m.write a b).wf = true :=
  Memory.wfFrom_write h a b (Nat.zero_le a)

theorem Memory.read_write_same {m : Memory} (h : m.wf = true) (a : Nat) (b : Byte) : (m.write a b).read a = b := by
  simp [Memory.read_write h]

/-- A write leaves every other address alone, in any memory. -/
theorem Memory.read_write_other {a c : Nat} (hc : c ≠ a) (b : Byte) : ∀ m : Memory, (m.write a b).read c = m.read c
  | [] => by
    by_cases hb : b = unlistedByte <;> simp [Memory.write, Memory.read, hb, show a ≠ c from fun h => hc h.symm]
  | (k, v) :: m => by
    have ih := Memory.read_write_other hc b m
    have hac : a ≠ c := fun h => hc h.symm
    simp only [Memory.write]
    by_cases h1 : a < k
    · by_cases hb : b = unlistedByte <;> simp [h1, hb, Memory.read, hac]
    · by_cases h2 : a = k
      · subst h2
        by_cases hb : b = unlistedByte <;> simp [hb, Memory.read, hac]
      · simp only [h1, h2, if_false, Memory.read, ih]

/-- A write lists no address that was not listed but its own. -/
theorem Memory.mem_write : ∀ {m : Memory} {a : Nat} {b : Byte} {c : Host.Cell}, c ∈ m.write a b → c = (a, b) ∨ c ∈ m
  | [], a, b, c, h => by
    by_cases hb : b = unlistedByte <;> simp [Memory.write, hb] at h
    exact .inl h
  | (k, v) :: m, a, b, c, h => by
    simp only [Memory.write] at h
    by_cases h1 : a < k
    · by_cases hb : b = unlistedByte
      · simp only [h1, hb, if_true] at h
        exact .inr h
      · simp only [h1, hb, if_true, if_false] at h
        exact List.mem_cons.mp h
    · by_cases h2 : a = k
      · by_cases hb : b = unlistedByte
        · simp only [h2, hb, if_true, Nat.lt_irrefl, if_false] at h
          exact .inr (List.mem_cons_of_mem _ h)
        · simp only [h2, hb, if_true, Nat.lt_irrefl, if_false] at h
          rcases List.mem_cons.mp h with h | h
          · exact .inl (by rw [h, h2])
          · exact .inr (List.mem_cons_of_mem _ h)
      · simp only [h1, h2, if_false, List.mem_cons] at h
        rcases h with h | h
        · exact .inr (by simp [h])
        · rcases Memory.mem_write h with h | h
          · exact .inl h
          · exact .inr (by simp [h])

/-- Memory with nothing listed is canonical. -/
theorem Memory.wf_nil : Memory.wf [] = true := rfl

/-- The memory of the machine after power-on is canonical. -/
theorem reset_memoryCanonical : MemoryCanonical State.reset := ⟨rfl, by intro c h; cases h⟩

/-- A byte stored inside the address space keeps memory canonical. -/
theorem MemoryCanonical.storeByte {s : State} (h : MemoryCanonical s) {a : Nat} (ha : a < 2 ^ 32) (b : Byte) :
    MemoryCanonical (storeByte a b s) := by
  refine ⟨Memory.wf_write h.1 a b, fun c hc => ?_⟩
  rcases Memory.mem_write hc with rfl | hc
  · exact ha
  · exact h.2 c hc

/-- The Client's writes keep memory canonical. -/
theorem MemoryCanonical.clientWrites {s : State} (h : MemoryCanonical s) (ws : List (BitVec 32 × Byte)) :
    MemoryCanonical (clientWrites ws s) := by
  induction ws generalizing s with
  | nil => exact h
  | cons w ws ih => exact ih (MemoryCanonical.storeByte h w.1.isLt w.2)

end Sys2Proof.Machine
end

