-- ==== Sys2Proof/Laws/Packet.lean ====
section
/-! SUPPORT. What a packet copy from the receive FIFO to client memory leaves (spec 45 R271, R273), said once for `READ_PACKET`
and the two receive branches that copy; and what `Pack` and `Unpack` give. -/

namespace Sys2Proof.Machine

/-! ## Pops -/

/-- The head of a queue that is not empty, where the Register Interface answers no value of its own (20_memory R79). -/
theorem takeHead_cons {s : State} {x : RxItem} {q : List RxItem} (hq : s.ri.rxq = x :: q) (status : Bool) :
    takeHead status false s = (x.word, { s with
      ri := { s.ri with rxq := q, rxInStep := s.ri.rxInStep && x.isStatus == status } }) := by
  simp only [takeHead, hq, Bool.false_and, Bool.false_eq_true, if_false, dropHead, List.tail_cons]

/-- A pop from a queue in step whose head is a data word, the Register Interface still. -/
theorem rxPop_data {s : State} {w : Word} {q : List RxItem} (hq : s.ri.rxq = .data w :: q) (hs : s.ri.rxInStep = true)
    (hm : s.moves = []) : rxPop s = (w, { s with ri := { s.ri with rxq := q }, trace := .rxPop :: s.trace }) := by
  have ha : anyWordNext s = false := by simp [anyWordNext, nextMoves, hm]
  simp only [rxPop, envPoint_still hm, ha]
  rw [takeHead_cons (s := logAccess .rxPop s) hq]
  cases s with
  | mk cfg ctrl ep dap part ri => cases ri; cases hs; rfl

/-- A pop from a queue in step whose head is a status word, the Register Interface still. -/
theorem popStatus_status {s : State} {w : Word} {q : List RxItem} (hq : s.ri.rxq = .status w :: q) (hs : s.ri.rxInStep = true)
    (hm : s.moves = []) : popStatus s = (w, { s with ri := { s.ri with rxq := q }, trace := .read .rxstsp :: s.trace }) := by
  have ha : anyWordNext s = false := by simp [anyWordNext, nextMoves, hm]
  simp only [popStatus, regRead_still _ hm, ha]
  rw [takeHead_cons (s := logAccess (.read .rxstsp) s) hq]
  cases s with
  | mk cfg ctrl ep dap part ri => cases ri; cases hs; rfl

/-! ## Stores -/

/-- What stores to `n` addresses from `a` on leave of the rest of a memory: every other address as before, the canonical form
where it was, no listed address but the old ones and those stored to. -/
structure StoredIn (a n : Nat) (m m' : Memory) : Prop where
  other : ∀ x, x < a ∨ a + n ≤ x → m'.read x = m.read x
  wf : m.wf = true → m'.wf = true
  listed : ∀ c, c ∈ m' → c ∈ m ∨ (a ≤ c.1 ∧ c.1 < a + n)

/-- No store. -/
theorem StoredIn.refl (a : Nat) (m : Memory) : StoredIn a 0 m m := ⟨fun _ _ => rfl, id, fun _ h => .inl h⟩

/-- One store. -/
theorem StoredIn.write (a : Nat) (b : Byte) (m : Memory) : StoredIn a 1 m (m.write a b) where
  other x h := Memory.read_write_other (by omega) b m
  wf h := Memory.wf_write h a b
  listed c h := by
    rcases Memory.mem_write h with rfl | h
    · exact .inr ⟨Nat.le_refl _, by simp⟩
    · exact .inl h

/-- Stores to a range, then to the range behind it. -/
theorem StoredIn.trans {a n k : Nat} {m m' m'' : Memory} (h : StoredIn a n m m') (h' : StoredIn (a + n) k m' m'') :
    StoredIn a (n + k) m m'' where
  other x hx := by rw [h'.other x (by omega), h.other x (by omega)]
  wf := h'.wf ∘ h.wf
  listed c hc := by
    rcases h'.listed c hc with hc | hc
    · rcases h.listed c hc with hc | hc
      · exact .inl hc
      · exact .inr (by omega)
    · exact .inr (by omega)

/-- One lane of a popped word (45 R271). -/
theorem storeLane_eq (a n : Nat) (w : Word) (j : Nat) (s : State) :
    ∃ m c, storeLane a n w j s = { s with mem := m, freeCtr := c } ∧ StoredIn (a + j) 1 s.mem m ∧
      (j < n → s.mem.wf = true → m.read (a + j) = unpack s.cfg.byteOrder w j) := by
  unfold storeLane
  by_cases h : j < n
  · simp only [h, if_true]
    exact ⟨_, s.freeCtr, rfl, .write _ _ _, fun _ hw => Memory.read_write_same hw _ _⟩
  · simp only [h, if_false]
    exact ⟨_, _, rfl, .write _ _ _, fun h' => h'.elim⟩

/-- The four bytes of a popped word (45 R271). -/
theorem storeWord_eq (a n : Nat) (w : Word) (s : State) :
    ∃ m c, storeWord a n w s = { s with mem := m, freeCtr := c } ∧ StoredIn a 4 s.mem m ∧
      (s.mem.wf = true → ∀ j, j < 4 → j < n → m.read (a + j) = unpack s.cfg.byteOrder w j) := by
  obtain ⟨m0, c0, e0, s0, r0⟩ := storeLane_eq a n w 0 s
  obtain ⟨m1, c1, e1, s1, r1⟩ := storeLane_eq a n w 1 { s with mem := m0, freeCtr := c0 }
  obtain ⟨m2, c2, e2, s2, r2⟩ := storeLane_eq a n w 2 { s with mem := m1, freeCtr := c1 }
  obtain ⟨m3, c3, e3, s3, r3⟩ := storeLane_eq a n w 3 { s with mem := m2, freeCtr := c2 }
  refine ⟨m3, c3, by simp only [storeWord, e0, e1, e2, e3], ((s0.trans s1).trans s2).trans s3, fun hw j hj hn => ?_⟩
  have w0 := s0.wf hw
  have w1 := s1.wf w0
  have w2 := s2.wf w1
  match j, hj with
  | 0, _ => rw [s3.other _ (by omega), s2.other _ (by omega), s1.other _ (by omega)]; exact r0 hn hw
  | 1, _ => rw [s3.other _ (by omega), s2.other _ (by omega)]; exact r1 hn w0
  | 2, _ => rw [s3.other _ (by omega)]; exact r2 hn w1
  | 3, _ => exact r3 hn w2

/-- A packet's words popped and stored (45 R271): the words gone from the queue, the packet's bytes at their places, every
address outside the stored words as before. -/
theorem popWords_eq : ∀ (k a n : Nat) (ws : List Word) (rest : List RxItem) (s : State),
    s.ri.rxq = ws.map .data ++ rest → ws.length = k → s.ri.rxInStep = true → s.moves = [] →
    ∃ m c, popWords k a n s = { s with
        ri := { s.ri with rxq := rest }, mem := m, freeCtr := c, trace := List.replicate k .rxPop ++ s.trace } ∧
      StoredIn a (4 * k) s.mem m ∧
      (s.mem.wf = true → ∀ j, j < n → j < 4 * k → m.read (a + j) = packetByte s.cfg.byteOrder ws j)
  | 0, a, n, ws, rest, s, hq, hl, _, _ => by
    have : ws = [] := List.length_eq_zero_iff.mp hl
    subst this
    refine ⟨s.mem, s.freeCtr, ?_, .refl _ _, fun _ j _ h => absurd h (by omega)⟩
    simp only [popWords, List.replicate_zero, List.nil_append]
    have : s.ri.rxq = rest := by simpa using hq
    rw [← this]
  | k + 1, a, n, [], rest, s, _, hl, _, _ => by simp at hl
  | k + 1, a, n, w :: ws, rest, s, hq, hl, hs, hm => by
    obtain ⟨m1, c1, e1, st1, r1⟩ := storeWord_eq a n w
      { s with ri := { s.ri with rxq := ws.map .data ++ rest }, trace := .rxPop :: s.trace }
    obtain ⟨m2, c2, e2, st2, r2⟩ := popWords_eq k (a + 4) (n - 4) ws rest
      { s with ri := { s.ri with rxq := ws.map .data ++ rest }, trace := .rxPop :: s.trace, mem := m1, freeCtr := c1 }
      rfl (by simpa using hl) hs hm
    refine ⟨m2, c2, ?_, ?_, fun hw j hj hk => ?_⟩
    · simp only [popWords, rxPop_data (w := w) (q := ws.map .data ++ rest) (by simpa using hq) hs hm, e1, e2]
      simp only [List.replicate_succ', List.append_assoc, List.cons_append, List.nil_append]
    · have := st1.trans st2
      rwa [show 4 + 4 * k = 4 * (k + 1) by omega] at this
    · by_cases h4 : j < 4
      · rw [st2.other _ (by omega), r1 hw j h4 hj]
        simp only [packetByte, Nat.div_eq_of_lt h4, Nat.mod_eq_of_lt h4, List.getD_cons_zero]
      · have := r2 (st1.wf hw) (j - 4) (by omega) (by omega)
        rw [show a + 4 + (j - 4) = a + j by omega] at this
        rw [this]
        simp only [packetByte]
        rw [show j / 4 = (j - 4) / 4 + 1 by omega, show j % 4 = (j - 4) % 4 by omega, List.getD_cons_succ]

/-- A received packet copied to its buffer (45 R271). -/
theorem popPacket_next {b : Buf} {n : Nat} {ws : List Word} {rest : List RxItem} {s : State} (hc : s.clockOn = true)
    (hsp : b.base.toNat + 4 * words4 n ≤ 2 ^ 32) (hp : HoldsPacket n ws rest s) (hw : s.mem.wf = true) :
    ∃ m c, popPacket b n s = .next { s with
        ri := { s.ri with rxq := rest }, mem := m, freeCtr := c, trace := List.replicate (words4 n) .rxPop ++ s.trace } ∧
      StoredIn b.base.toNat (4 * words4 n) s.mem m ∧
      ∀ j, j < n → m.read (b.base.toNat + j) = packetByte s.cfg.byteOrder ws j := by
  obtain ⟨m, c, e, st, r⟩ := popWords_eq (words4 n) b.base.toNat n ws rest s hp.queue hp.count hp.inStep hp.still
  refine ⟨m, c, ?_, st, fun j hj => r hw j hj (by simp only [words4]; omega)⟩
  simp only [popPacket, Buf.inSpace, hsp, decide_true, if_true, clocked_on hc, e]

/-! ## Packing -/

theorem words4_add (n : Nat) : words4 (n + 4) = words4 n + 1 := by simp only [words4]; omega

/-- `Pack` gives `ceil(n/4)` words (45 R272, R278). -/
theorem pack_length (o : ByteOrder) : ∀ bs : List Byte, (pack o bs).length = words4 bs.length
  | [] => rfl
  | [_] => by simp [pack, words4]
  | [_, _] => by simp [pack, words4]
  | [_, _, _] => by simp [pack, words4]
  | a :: b :: c :: d :: rest => by
    simp only [pack, List.length_cons, pack_length o rest, words4]
    omega

/-- A byte of a packed word (45 R272, R273). -/
theorem unpack_packWord (o : ByteOrder) (b0 b1 b2 b3 : Byte) (j : Nat) (hj : j < 4) :
    unpack o (packWord o b0 b1 b2 b3) j = [b0, b1, b2, b3].getD j 0 := by
  have h0 := b0.isLt
  have h1 := b1.isLt
  have h2 := b2.isLt
  have h3 := b3.isLt
  apply BitVec.eq_of_toNat_eq
  match j, hj with
  | 0, _ | 1, _ | 2, _ | 3, _ =>
    cases o <;> simp [unpack, packWord, field] <;> omega

/-- `Unpack` undoes `Pack` (45 R273). -/
theorem packetByte_pack (o : ByteOrder) : ∀ (bs : List Byte) (j : Nat), j < bs.length → packetByte o (pack o bs) j = bs.getD j 0
  | [], j, h => absurd h (by simp)
  | [a], j, h => by
    have : j = 0 := by simpa using h
    subst this
    exact unpack_packWord o a 0 0 0 0 (by omega)
  | [a, b], j, h => by
    have h : j < 2 := h
    have := unpack_packWord o a b 0 0 j (by omega)
    simp only [packetByte, pack, Nat.div_eq_of_lt (show j < 4 by omega), Nat.mod_eq_of_lt (show j < 4 by omega), List.getD_cons_zero, this]
    match j, h with
    | 0, _ | 1, _ => rfl
  | [a, b, c], j, h => by
    have h : j < 3 := h
    have := unpack_packWord o a b c 0 j (by omega)
    simp only [packetByte, pack, Nat.div_eq_of_lt (show j < 4 by omega), Nat.mod_eq_of_lt (show j < 4 by omega), List.getD_cons_zero, this]
    match j, h with
    | 0, _ | 1, _ | 2, _ => rfl
  | a :: b :: c :: d :: rest, j, h => by
    by_cases h4 : j < 4
    · have := unpack_packWord o a b c d j h4
      simp only [packetByte, pack, Nat.div_eq_of_lt h4, Nat.mod_eq_of_lt h4, List.getD_cons_zero, this]
      match j, h4 with
      | 0, _ | 1, _ | 2, _ | 3, _ => rfl
    · have := packetByte_pack o rest (j - 4) (by simp only [List.length_cons] at h; omega)
      simp only [packetByte, pack] at this ⊢
      rw [show j / 4 = (j - 4) / 4 + 1 by omega, show j % 4 = (j - 4) % 4 by omega, List.getD_cons_succ, this]
      rw [show j = (j - 4) + 1 + 1 + 1 + 1 by omega]
      simp

end Sys2Proof.Machine
end

