-- ==== Sys2Proof/Laws/Sim.lean ====
section
/-! SUPPORT. Said once: two runs of an operation from states alike but for registers, moves and accesses stay alike, for every
likeness the register accesses keep. What the Register Interface writes by itself, and the accesses made before, are two such
likenesses (20_memory R77). -/

namespace Sys2Proof.Machine

/-- Outcomes alike: the same stop, or values alike. -/
def Both {α : Type} (R : α → α → Prop) : M α → M α → Prop
  | .next a, .next b => R a b
  | .fault e, .fault e' => e = e'
  | .refused e, .refused e' => e = e'
  | _, _ => False

theorem Both.andThen {α β : Type} {R : α → α → Prop} {T : β → β → Prop} {x y : M α} {f g : α → M β} (h : Both R x y)
    (k : ∀ a b, R a b → Both T (f a) (g b)) : Both T (andThen x f) (andThen y g) := by
  cases x <;> cases y <;> first | exact k _ _ h | exact h | exact h.elim

theorem Both.ite {α : Type} {R : α → α → Prop} {c d : Prop} [Decidable c] [Decidable d] (e : c ↔ d) {x x' y y' : M α}
    (h : Both R x y) (k : Both R x' y') : Both R (if c then x else x') (if d then y else y') := by
  by_cases hc : c
  · rw [if_pos hc, if_pos (e.mp hc)]; exact h
  · rw [if_neg hc, if_neg fun hd => hc (e.mpr hd)]; exact k

theorem Both.clocked {α : Type} {R : α → α → Prop} {s u : State} {x y : M α} (hc : u.clockOn = s.clockOn) (h : Both R x y) :
    Both R (clocked s x) (clocked u y) := by
  unfold Machine.clocked
  rw [hc]
  split
  · exact h
  · rfl

/-- A likeness of states that differ in registers, moves and accesses only, which the register accesses keep. -/
structure Sim (Q : State → State → Prop) : Prop where
  form : ∀ {s u}, Q s u → ∃ r m t, u = { s with ri := r, moves := m, trace := t }
  write : ∀ {s u}, Q s u → ∀ f v, Q (regWrite f v s) (regWrite f v u)
  read : ∀ {s u}, Q s u → ∀ f, Q (regRead f s) (regRead f u)
  push : ∀ {s u}, Q s u → ∀ i w, Q (txPush i w s) (txPush i w u)
  frame : ∀ {s u s' u' : State}, Q s u → s'.cfg = s.cfg → s'.ri = s.ri → s'.moves = s.moves → s'.trace = s.trace →
    u' = { s' with ri := u.ri, moves := u.moves, trace := u.trace } → Q s' u'
  actIn : ∀ {s u}, Q s u → ∀ i, (u.ri.iepAt i).act = (s.ri.iepAt i).act
  actOut : ∀ {s u}, Q s u → ∀ i, (u.ri.oepAt i).act = (s.ri.oepAt i).act

/-- A result and a state, alike. -/
def Pair (Q : State → State → Prop) (p q : Res × State) : Prop := p.1 = q.1 ∧ Q p.2 q.2

namespace Sim

/-- A choice between states, made alike. -/
theorem choose {Q : State → State → Prop} {c : Prop} [Decidable c] {a b a' b' : State} (h : Q a b) (k : Q a' b') :
    Q (if c then a else a') (if c then b else b') := by
  split
  · exact h
  · exact k

/-- One operation for each of a list. -/
theorem foldl {Q : State → State → Prop} {α : Type} {f : State → α → State} (hf : ∀ {s u} a, Q s u → Q (f s a) (f u a)) :
    ∀ (l : List α) {s u : State}, Q s u → Q (l.foldl f s) (l.foldl f u)
  | [], _, _, h => h
  | a :: l, _, _, h => foldl hf l (hf a h)

variable {Q : State → State → Prop} (hQ : Sim Q)
include hQ

/-- A command's end. -/
theorem finish {x y : M (Res × State)} (k : Both (Pair Q) x y) : Both Q (finish x) (finish y) :=
  k.andThen fun p q hp => by
    obtain ⟨a, s⟩ := p
    obtain ⟨b, u⟩ := q
    obtain ⟨rfl, hs⟩ := hp
    obtain ⟨r, m, t, rfl⟩ := hQ.form hs
    exact hQ.frame hs rfl rfl rfl rfl rfl

section
variable {s u : State} (h : Q s u)
include h

theorem clockEq : u.clockOn = s.clockOn := by obtain ⟨r, m, t, rfl⟩ := hQ.form h; rfl
theorem epEq : u.ep = s.ep := by obtain ⟨r, m, t, rfl⟩ := hQ.form h; rfl
theorem cfgEq : u.cfg = s.cfg := by obtain ⟨r, m, t, rfl⟩ := hQ.form h; rfl
theorem clientEq : u.client = s.client := by obtain ⟨r, m, t, rfl⟩ := hQ.form h; rfl

theorem setSub (i : Nat) (x : Sub) : Q (setSub i x s) (setSub i x u) := by
  obtain ⟨r, m, t, rfl⟩ := hQ.form h; exact hQ.frame h rfl rfl rfl rfl rfl
theorem setPending (i : Nat) (n : BitVec 16) : Q (setPending i n s) (setPending i n u) := by
  obtain ⟨r, m, t, rfl⟩ := hQ.form h; exact hQ.frame h rfl rfl rfl rfl rfl
theorem setInBuf (i : Nat) (b : Buf) : Q (setInBuf i b s) (setInBuf i b u) := by
  obtain ⟨r, m, t, rfl⟩ := hQ.form h; exact hQ.frame h rfl rfl rfl rfl rfl
theorem setOutBuf (i : Nat) (b : Buf) : Q (setOutBuf i b s) (setOutBuf i b u) := by
  obtain ⟨r, m, t, rfl⟩ := hQ.form h; exact hQ.frame h rfl rfl rfl rfl rfl
theorem issueCb (q : CbReq) : Q (issueCb q s) (issueCb q u) := by
  obtain ⟨r, m, t, rfl⟩ := hQ.form h; exact hQ.frame h rfl rfl rfl rfl rfl
theorem clearCb : Q (clearCb s) (clearCb u) := by
  obtain ⟨r, m, t, rfl⟩ := hQ.form h; exact hQ.frame h rfl rfl rfl rfl rfl
theorem answer (r : Res) : Q (answer r s) (answer r u) := by
  obtain ⟨r, m, t, rfl⟩ := hQ.form h; exact hQ.frame h rfl rfl rfl rfl rfl
theorem stageAddr (a : BitVec 16) : Q (stageAddr a s) (stageAddr a u) := by
  obtain ⟨r, m, t, rfl⟩ := hQ.form h; exact hQ.frame h rfl rfl rfl rfl rfl
theorem setCtrl (c : CtrlState) : Q (setCtrl c s) (setCtrl c u) := by
  obtain ⟨r, m, t, rfl⟩ := hQ.form h; exact hQ.frame h rfl rfl rfl rfl rfl
theorem beginLayout (n : Nat) : Q (beginLayout n s) (beginLayout n u) := by
  obtain ⟨r, m, t, rfl⟩ := hQ.form h; exact hQ.frame h rfl rfl rfl rfl rfl
theorem placeTx (i : Nat) (x : TxPart) : Q (placeTx i x s) (placeTx i x u) := by
  obtain ⟨r, m, t, rfl⟩ := hQ.form h; exact hQ.frame h rfl rfl rfl rfl rfl

theorem armCtrlOut : Q (armCtrlOut s) (armCtrlOut u) := by
  unfold Machine.armCtrlOut
  rw [hQ.cfgEq h]
  exact hQ.write (hQ.write (hQ.write (hQ.write (hQ.write h _ _) _ _) _ _) _ _) _ _

theorem programIn (i n : Nat) : Q (programIn i n s) (programIn i n u) :=
  hQ.write (hQ.write (hQ.write (hQ.write h _ _) _ _) _ _) _ _

theorem programOut (i n : Nat) : Q (programOut i n s) (programOut i n u) :=
  hQ.write (hQ.write (hQ.write (hQ.write h _ _) _ _) _ _) _ _

theorem writeDevAddr : Q (writeDevAddr s) (writeDevAddr u) := by
  have e : u.devAddrPending = s.devAddrPending ∧ u.cfg = s.cfg := by obtain ⟨r, m, t, rfl⟩ := hQ.form h; exact ⟨rfl, rfl⟩
  unfold Machine.writeDevAddr
  rw [e.1, e.2]
  exact hQ.write h _ _

end

/-- The words of a packet pushed. -/
theorem pushAll (i : Nat) : ∀ (ws : List Word) {s u : State}, Q s u → Q (pushAll i ws s) (pushAll i ws u)
  | [], _, _, h => h
  | w :: ws, _, _, h => pushAll i ws (hQ.push h i w)

section
variable {s u : State} (h : Q s u)
include h

theorem pushPacket (i : Nat) (b : Buf) (n : Nat) : Both Q (pushPacket i b n s) (pushPacket i b n u) := by
  obtain ⟨r, m, t, rfl⟩ := hQ.form h
  unfold Machine.pushPacket
  dsimp only
  split
  · rfl
  · split
    · exact .clocked rfl (hQ.pushAll i _ h)
    · rfl

theorem startIn (i n : Nat) : Both Q (startIn i n s) (startIn i n u) := by
  obtain ⟨r, m, t, rfl⟩ := hQ.form h
  simp only [Machine.startIn, State.epAt]
  split
  · rfl
  · split
    · split
      · exact .clocked rfl (hQ.pushPacket (hQ.programIn h i n) i _ n)
      · rfl
    · rfl

theorem armOut (i : Nat) : Both Q (armOut i s) (armOut i u) := by
  obtain ⟨r, m, t, rfl⟩ := hQ.form h
  simp only [Machine.armOut, State.epAt]
  split
  · rfl
  · exact .clocked rfl (hQ.programOut h i _)

theorem toInit : Q (toInit s) (toInit u) := hQ.armCtrlOut (hQ.setSub h _ _)

theorem ctrlError : Both Q (ctrlError s) (ctrlError u) :=
  .clocked (hQ.clockEq h) (hQ.toInit (hQ.write (hQ.write h _ _) _ _))

/-! ## Answers -/

theorem onSetup (a : SetupAnswer) : Both Q (onSetup a s) (onSetup a u) := by
  obtain ⟨r, m, t, rfl⟩ := hQ.form h
  unfold Machine.onSetup
  dsimp only [State.epAt]
  split
  · split
    · refine .clocked rfl (hQ.startIn (hQ.setSub ?_ _ _) 0 0)
      dsimp only
      split
      · exact hQ.writeDevAddr (hQ.stageAddr h _)
      · exact hQ.stageAddr h _
    · exact .ite Iff.rfl (.ite Iff.rfl ((hQ.startIn h 0 0).andThen fun _ _ k => hQ.issueCb k _)
        (.ite Iff.rfl (hQ.issueCb (hQ.setSub h _ _) _) (hQ.armOut (hQ.setSub h _ _) 0))) rfl
    · exact hQ.ctrlError h
  · rfl

theorem onCtrlIn (a : InAnswer) : Both Q (onCtrlIn a s) (onCtrlIn a u) := by
  cases a with
  | packet size last =>
    obtain ⟨r, m, t, rfl⟩ := hQ.form h
    unfold Machine.onCtrlIn
    dsimp only [State.epAt]
    refine .ite Iff.rfl ((hQ.startIn h 0 _).andThen fun _ _ k => ?_) rfl
    cases last
    · exact k
    · exact hQ.armCtrlOut (hQ.setSub k _ _)
  | delay => exact h
  | error => exact hQ.ctrlError h

theorem stallIn (i : Nat) : Both Q (clocked s (.next (regWrite (.iep i .stall) 1 s))) (clocked u (.next (regWrite (.iep i .stall) 1 u))) :=
  .clocked (hQ.clockEq h) (hQ.write h _ _)

theorem onBulkIn (i : Nat) (bout : OutSub) (a : InAnswer) : Both Q (onBulkIn i bout a s) (onBulkIn i bout a u) := by
  cases a with
  | packet size last =>
    obtain ⟨r, m, t, rfl⟩ := hQ.form h
    unfold Machine.onBulkIn
    exact .ite Iff.rfl ((hQ.startIn h i _).andThen fun _ _ k => hQ.setSub k _ _) rfl
  | delay => exact h
  | error => exact hQ.stallIn h i

theorem onIntIn (i : Nat) (mps : BitVec 16) (a : InAnswer) : Both Q (onIntIn i mps a s) (onIntIn i mps a u) := by
  cases a with
  | packet size last =>
    simp only [Machine.onIntIn]
    split
    · exact (hQ.startIn h i _).andThen fun _ _ k => hQ.setSub k _ _
    · rfl
  | delay => exact h
  | error => exact hQ.stallIn h i

theorem onIn (i : Nat) (a : InAnswer) : Both Q (onIn i a s) (onIn i a u) := by
  obtain ⟨r, m, t, rfl⟩ := hQ.form h
  unfold Machine.onIn
  dsimp only [State.epAt]
  split
  · split
    · exact hQ.onCtrlIn h a
    · rfl
  · exact hQ.onBulkIn h i _ a
  · exact hQ.onIntIn h i _ a
  all_goals rfl

theorem onCtrlOut (a : OutAnswer) : Both Q (onCtrlOut a s) (onCtrlOut a u) := by
  cases a with
  | ok => exact hQ.startIn (hQ.setSub h _ _) 0 0
  | halted => exact .clocked (hQ.clockEq h) (hQ.toInit (hQ.write h _ _))
  | delay => exact .clocked (hQ.clockEq h) (hQ.toInit (hQ.write h _ _))

theorem onBulkOut (i : Nat) (bin : InSub) (a : OutAnswer) : Both Q (onBulkOut i bin a s) (onBulkOut i bin a u) := by
  cases a with
  | ok => exact hQ.armOut (hQ.setSub h _ _) i
  | delay => exact hQ.setSub h _ _
  | halted => exact .clocked (hQ.clockEq h) (hQ.armOut (hQ.setSub (hQ.write h _ _) _ _) i)

theorem onOut (i : Nat) (a : OutAnswer) : Both Q (onOut i a s) (onOut i a u) := by
  obtain ⟨r, m, t, rfl⟩ := hQ.form h
  unfold Machine.onOut
  dsimp only [State.epAt]
  split
  · split
    · exact hQ.onCtrlOut h a
    · rfl
  · exact hQ.onBulkOut h i _ a
  · exact hQ.onBulkOut h i _ a
  all_goals rfl

theorem onStatusComplete : Both Q (onStatusComplete s) (onStatusComplete u) := by
  obtain ⟨r, m, t, rfl⟩ := hQ.form h
  unfold Machine.onStatusComplete
  dsimp only [State.epAt]
  split
  · exact .clocked (hQ.clockEq h) (hQ.toInit h)
  all_goals rfl

theorem deliver (r : Resp) : Both Q (deliver r s) (deliver r u) := by
  have k := hQ.clearCb h
  obtain ⟨r', m, t, rfl⟩ := hQ.form h
  unfold Machine.deliver
  dsimp only
  split
  · exact hQ.onSetup k _
  · exact hQ.onIn k _ _
  · exact hQ.onOut k _ _
  · exact hQ.issueCb k _
  · exact hQ.onStatusComplete k
  · exact k
  · rfl

theorem clientAnswer (q : CbReq) : (clientAnswer q u).1 = (clientAnswer q s).1 ∧ Q (clientAnswer q s).2 (clientAnswer q u).2 := by
  obtain ⟨r, m, t, rfl⟩ := hQ.form h
  simp only [Machine.clientAnswer]
  split
  · exact ⟨rfl, hQ.frame h rfl rfl rfl rfl rfl⟩
  · exact ⟨rfl, hQ.frame h rfl rfl rfl rfl rfl⟩

end

theorem settle : ∀ (n : Nat) {s u : State}, Q s u → Both Q (settle n s) (settle n u)
  | 0, _, _, h => h
  | n + 1, s, u, h => by
    simp only [Machine.settle, clientEq hQ h]
    split
    · exact h
    · rename_i q _
      obtain ⟨e, k⟩ := clientAnswer hQ h q
      revert e k
      generalize Machine.clientAnswer q s = x
      generalize Machine.clientAnswer q u = y
      obtain ⟨a, s'⟩ := x
      obtain ⟨b, u'⟩ := y
      rintro rfl k
      cases b with
      | none => rfl
      | some r => exact (deliver hQ k r).andThen fun _ _ k => settle n k

section
variable {s u : State} (h : Q s u)
include h

theorem answered : Both Q (answered s) (answered u) := hQ.settle 3 h

/-! ## Conditions -/

theorem outCond (c : OutCond) (i : Nat) : Both Q (outCond c i s) (outCond c i u) := by
  have ho : Both Q (reOffer i s) (reOffer i u) := by
    obtain ⟨r, m, t, rfl⟩ := hQ.form h
    unfold reOffer
    dsimp only [State.epAt, bulkOutDeliver]
    split
    · exact hQ.answered (hQ.issueCb h _)
    all_goals exact h
  cases c with
  | xfrc =>
    obtain ⟨r, m, t, rfl⟩ := hQ.form h
    unfold Machine.outCond outXfrc
    dsimp only [State.epAt, ctrlOutStep, statusDone, bulkOutDeliver]
    split
    · exact .ite Iff.rfl (hQ.answered (hQ.issueCb h _)) h
    · exact .ite Iff.rfl (hQ.answered (hQ.issueCb h _)) h
    · exact hQ.answered (hQ.issueCb h _)
    all_goals exact h
  | stup =>
    simp only [Machine.outCond, outStup]
    split
    · have k : Both Q (ctrlSetup s) (ctrlSetup u) := by
        obtain ⟨r, m, t, rfl⟩ := hQ.form h
        unfold ctrlSetup
        dsimp only [State.epAt]
        split
        · refine .ite Iff.rfl (hQ.issueCb ?_ _) rfl
          unfold abandon
          split
          · exact h
          · exact hQ.setSub h _ _
        · rfl
      exact k.andThen fun _ _ k => hQ.answered k
    · rfl
  | otepdis => exact ho
  | stsphsrx => exact h
  | nak => exact ho

theorem serveOut (c : OutCond) (i : Nat) : Both Q (serveOut c i s) (serveOut c i u) :=
  (hQ.outCond h c i).andThen fun _ _ k => hQ.write k _ _

/-- The IN-token mismatch reads `.ena`, the others no register. -/
theorem inCond (c : InCond) (i : Nat) (hp : c = .ittxfe → Both Q (pollIfIdle0 s) (pollIfIdle0 u)) :
    Both Q (inCond c i s) (inCond c i u) := by
  cases c with
  | xfrc =>
    obtain ⟨r, m, t, rfl⟩ := hQ.form h
    unfold Machine.inCond inXfrc
    dsimp only [State.epAt, ctrlInStep, statusDone]
    split
    · exact .ite Iff.rfl (hQ.answered (hQ.issueCb h _)) h
    · exact .ite Iff.rfl (hQ.answered (hQ.issueCb h _)) h
    · split
      · dsimp only [setAddressDone]
        split
        · exact hQ.toInit (hQ.writeDevAddr h)
        · exact hQ.toInit h
      · exact h
    · exact hQ.setSub h _ _
    · exact hQ.setSub h _ _
    all_goals exact h
  | ittxfe =>
    obtain ⟨r, m, t, rfl⟩ := hQ.form h
    unfold Machine.inCond inIttxfe
    dsimp only [State.epAt, pollIn]
    split
    · split
      · exact hp rfl
      · exact h
    · exact hQ.answered (hQ.issueCb h _)
    · exact hQ.answered (hQ.issueCb h _)
    all_goals exact h
  | toc => exact h
  | inepne => exact h
  | epdisd => exact h
  | txfe => exact h

theorem serveIn (c : InCond) (i : Nat) (hp : c = .ittxfe → Both Q (pollIfIdle0 s) (pollIfIdle0 u)) :
    Both Q (serveIn c i s) (serveIn c i u) :=
  (hQ.inCond h c i hp).andThen fun _ _ k => hQ.write k _ _


/-! ## Commands -/

theorem writePacket (i n : Nat) : Both (Pair Q) (writePacket i n s) (writePacket i n u) := by
  obtain ⟨r, m, t, rfl⟩ := hQ.form h
  unfold Machine.writePacket
  dsimp only [State.epAt]
  refine .ite Iff.rfl ?_ ⟨rfl, h⟩
  split
  · exact ⟨rfl, h⟩
  · exact .ite Iff.rfl (.ite Iff.rfl ((hQ.pushPacket h i _ n).andThen fun _ _ k => ⟨rfl, k⟩) ⟨rfl, h⟩) ⟨rfl, h⟩

theorem setRxFifo (n : Nat) : Both (Pair Q) (setRxFifo n s) (setRxFifo n u) := by
  obtain ⟨r, m, t, rfl⟩ := hQ.form h
  exact .ite Iff.rfl (.ite Iff.rfl (.clocked rfl ⟨rfl, hQ.beginLayout (hQ.write h _ _) n⟩) ⟨rfl, h⟩) rfl

theorem setTxFifo (i n : Nat) : Both (Pair Q) (setTxFifo i n s) (setTxFifo i n u) := by
  obtain ⟨r, m, t, rfl⟩ := hQ.form h
  exact .ite Iff.rfl (.ite Iff.rfl (.ite Iff.rfl (.ite Iff.rfl (.clocked rfl
    ⟨rfl, hQ.placeTx (hQ.write (hQ.write h _ _) _ _) i _⟩) ⟨rfl, h⟩) rfl) ⟨rfl, h⟩) rfl

theorem assignCtrlBuf (b : Buf) : Both (Pair Q) (assignCtrlBuf b s) (assignCtrlBuf b u) := by
  obtain ⟨r, m, t, rfl⟩ := hQ.form h
  exact .ite Iff.rfl (.ite Iff.rfl ⟨rfl, hQ.setOutBuf (hQ.setInBuf h 0 b) 0 b⟩ rfl) ⟨rfl, h⟩

theorem assignInBuf (i : Nat) (b : Buf) : Both (Pair Q) (assignInBuf i b s) (assignInBuf i b u) := by
  obtain ⟨r, m, t, rfl⟩ := hQ.form h
  exact .ite Iff.rfl (.ite Iff.rfl (.ite Iff.rfl ⟨rfl, hQ.setSub (hQ.setInBuf h i b) i _⟩ rfl) ⟨rfl, h⟩) ⟨rfl, h⟩

theorem assignOutBuf (i : Nat) (b : Buf) : Both (Pair Q) (assignOutBuf i b s) (assignOutBuf i b u) := by
  obtain ⟨r, m, t, rfl⟩ := hQ.form h
  exact .ite Iff.rfl (.ite Iff.rfl (.ite Iff.rfl ⟨rfl, hQ.setOutBuf h i b⟩ rfl) ⟨rfl, h⟩) ⟨rfl, h⟩

theorem startControl0 : Q (startControl0 s) (startControl0 u) := by
  simp only [Machine.startControl0, State.epAt, hQ.epEq h]
  exact choose (hQ.setSub h _ _) h

theorem activateIn0 : Q (activateIn0 s) (activateIn0 u) := by
  have k := hQ.read h (.iep 0 .act)
  unfold Machine.activateIn0
  dsimp only
  rw [hQ.actIn k]
  split
  · exact hQ.startControl0 k
  · exact hQ.startControl0 (hQ.write k _ _)

theorem activateOut0 : Q (activateOut0 s) (activateOut0 u) := by
  have k := hQ.read h (.oep 0 .act)
  unfold Machine.activateOut0
  dsimp only
  rw [hQ.actOut k]
  split
  · exact hQ.startControl0 k
  · exact hQ.startControl0 (hQ.write k _ _)

theorem activateInRegs (i : Nat) (t : TType) (n : BitVec 16) : Q (activateInRegs i t n s) (activateInRegs i t n u) := by
  simp only [Machine.activateInRegs, State.epAt, hQ.epEq h]
  exact hQ.write (hQ.write (hQ.write (hQ.write (hQ.write (hQ.setSub (hQ.write h _ _) _ _) _ _) _ _) _ _) _ _) _ _

theorem activateOutRegs (i : Nat) (t : TType) (n : BitVec 16) : Q (activateOutRegs i t n s) (activateOutRegs i t n u) := by
  simp only [Machine.activateOutRegs, State.epAt, hQ.epEq h]
  exact hQ.write (hQ.write (hQ.write (hQ.write (hQ.setSub (hQ.write h _ _) _ _) _ _) _ _) _ _) _ _

theorem activateIn (t : TType) (i : Nat) : Both (Pair Q) (activateIn t i s) (activateIn t i u) := by
  obtain ⟨r, m, tr, rfl⟩ := hQ.form h
  unfold Machine.activateIn
  dsimp only [State.epAt]
  refine .ite Iff.rfl (.ite Iff.rfl ⟨rfl, h⟩ ?_) ⟨rfl, h⟩
  split
  · exact ⟨rfl, h⟩
  · exact .ite Iff.rfl rfl (.ite Iff.rfl (.clocked rfl ⟨rfl, hQ.activateIn0 h⟩) (.ite Iff.rfl rfl (.ite Iff.rfl
      (.ite Iff.rfl (.clocked rfl ⟨rfl, hQ.activateInRegs h i t _⟩) rfl) ⟨rfl, h⟩)))

theorem activateOut (t : TType) (i : Nat) : Both (Pair Q) (activateOut t i s) (activateOut t i u) := by
  obtain ⟨r, m, tr, rfl⟩ := hQ.form h
  unfold Machine.activateOut
  dsimp only [State.epAt]
  refine .ite Iff.rfl (.ite Iff.rfl ⟨rfl, h⟩ ?_) ⟨rfl, h⟩
  split
  · exact ⟨rfl, h⟩
  · exact .ite Iff.rfl rfl (.ite Iff.rfl (.clocked rfl ⟨rfl, hQ.activateOut0 h⟩) (.ite Iff.rfl rfl (.ite Iff.rfl rfl
      (.ite Iff.rfl (.clocked rfl ((hQ.armOut (hQ.activateOutRegs h i t _) i).andThen fun _ _ k => ⟨rfl, k⟩)) rfl))))

theorem onEndpoint (i : Nat) {f : State → State} (hf : Q (f s) (f u)) : Both (Pair Q) (onEndpoint i f s) (onEndpoint i f u) := by
  obtain ⟨r, m, t, rfl⟩ := hQ.form h
  exact .ite Iff.rfl (.clocked rfl ⟨rfl, hf⟩) ⟨rfl, h⟩

theorem disableBoth (i : Nat) : Q (disableBoth i s) (disableBoth i u) := hQ.setPending (hQ.setSub h _ _) _ _

theorem dropInSide (i : Nat) : Q (dropInSide i s) (dropInSide i u) := by
  have k := hQ.write (hQ.write (hQ.write (hQ.write h (.iep i .nak) 1) (.iep i .ena) 0) (.iep i .act) 0) (.aintIep i) 0
  unfold Machine.dropInSide
  dsimp only [State.epAt]
  rw [hQ.epEq k]
  have k2 := fun x => hQ.read (hQ.setSub k i x) (.oep i .act)
  rw [hQ.actOut (k2 _)]
  exact choose (k2 _) (hQ.disableBoth (k2 _) i)

theorem dropOutSub (i : Nat) : Q (dropOutSub i s) (dropOutSub i u) := by
  simp only [Machine.dropOutSub, State.epAt, hQ.epEq h]
  exact choose (hQ.setPending (hQ.setSub h _ _) _ _) (hQ.setSub h _ _)

theorem dropOutSide (i : Nat) : Q (dropOutSide i s) (dropOutSide i u) := by
  have k := hQ.write (hQ.write (hQ.write (hQ.write h (.oep i .nak) 1) (.oep i .ena) 0) (.oep i .act) 0) (.aintOep i) 0
  have k2 := hQ.read (hQ.dropOutSub k i) (.iep i .act)
  simp only [Machine.dropOutSide]
  rw [hQ.actIn k2]
  split
  · exact k2
  · exact hQ.disableBoth k2 i

theorem clearStallIn (i : Nat) : Q (clearStallInRegs i s) (clearStallInRegs i u) := by
  simp only [clearStallInRegs]
  split
  · exact hQ.write h _ _
  · exact hQ.write (hQ.write h _ _) _ _

theorem clearStallOut (i : Nat) : Q (clearStallOutRegs i s) (clearStallOutRegs i u) := by
  simp only [clearStallOutRegs]
  split
  · exact hQ.write h _ _
  · exact hQ.write (hQ.write h _ _) _ _

theorem request (q : CbReq) : Both Q (request q s) (request q u) := by
  simp only [Machine.request, hQ.clientEq h]
  split
  · exact hQ.issueCb h q
  · rfl

theorem requestControl (e : Nat) (q : CbReq) : Both Q (requestControl e q s) (requestControl e q u) :=
  .ite Iff.rfl (hQ.request h q) rfl

theorem clearInFlags (i : Nat) : Q (clearInFlags i s) (clearInFlags i u) :=
  foldl (Q := Q) (f := fun t c => regWrite (.iepCond i c) 1 t) (fun c k => hQ.write k (.iepCond i c) 1) InCond.order h

theorem clearOutFlags (i : Nat) : Q (clearOutFlags i s) (clearOutFlags i u) :=
  foldl (Q := Q) (f := fun t c => regWrite (.oepCond i c) 1 t) (fun c k => hQ.write k (.oepCond i c) 1) OutCond.order h

theorem busResetRegs (i : Nat) : Q (Machine.busResetRegs s i) (Machine.busResetRegs u i) :=
  hQ.write (hQ.write (hQ.clearOutFlags (hQ.clearInFlags h i) i) _ _) _ _

theorem busReset : Q (busReset s) (busReset u) := by
  have k1 := foldl (Q := Q) (f := Machine.busResetRegs) (fun i k => hQ.busResetRegs k i) (List.range s.cfg.nEp) h
  have k2 := foldl (Q := Q) (f := busResetEndpoint) (fun i k => hQ.disableBoth (hQ.write (hQ.write (hQ.write (hQ.write k _ _) _ _) _ _) _ _) i)
    ((List.range s.cfg.nEp).drop 1) k1
  have k3 : ∀ {a b : State}, Q a b → Q (busResetControl a) (busResetControl b) := fun {a b} k => by
    simp only [busResetControl, State.epAt, hQ.epEq k]
    split
    · exact hQ.setSub k _ _
    all_goals exact k
  unfold Machine.busReset
  rw [hQ.cfgEq h]
  exact hQ.armCtrlOut (hQ.write (hQ.stageAddr (hQ.setPending (k3 k2) _ _) _) _ _)

theorem enumdne : Both Q (handleEnumdne s) (handleEnumdne u) := by
  unfold handleEnumdne
  rw [hQ.cfgEq h]
  refine (hQ.activateIn (hQ.write h _ _) _ _).andThen fun p q k => ?_
  rw [k.1]
  split
  · refine (hQ.activateOut k.2 _ _).andThen fun p q k => ?_
    rw [k.1]
    split
    · exact hQ.armCtrlOut k.2
    · rfl
  · rfl

/-- The sources whose handler reads no register the Register Interface writes. -/
theorem serve (x : Source) (hx : x ≠ .rxflvl ∧ x ≠ .oepint ∧ x ≠ .iepint) : Both Q (serve x s) (serve x u) := by
  have k : Both Q (handler x s) (handler x u) := by
    cases x with
    | rxflvl => exact absurd rfl hx.1
    | oepint => exact absurd rfl hx.2.1
    | iepint => exact absurd rfl hx.2.2
    | usbrst => exact hQ.answered (hQ.issueCb (hQ.busReset h) _)
    | enumdne => exact hQ.enumdne h
    | _ => exact h
  exact k.andThen fun _ _ k => hQ.write k _ _

end

end Sim

end Sys2Proof.Machine
end

