-- ==== Sys2Proof/Laws/Touch.lean ====
section
/-! SUPPORT. Said once: everything an instruction other than `ENABLE`, `START` and `DETACH` can do to the state, as a chain of
small guarded changes. Invariants are proved over the changes and not over the instructions. -/

namespace Sys2Proof.Machine

variable {w : Config}

/-- A change of the Register Interface that activates no endpoint, keeps every type field and every list's length, and the number
fields within their ranges. -/
structure Soft (w : Config) (r r' : RegIf) : Prop where
  txf : r'.txf.length = r.txf.length
  aintIep : r'.aintIep.length = r.aintIep.length
  aintOep : r'.aintOep.length = r.aintOep.length
  iepLen : r'.iep.length = r.iep.length
  oepLen : r'.oep.length = r.oep.length
  txq : r'.txq.length = r.txq.length
  iep : ∀ i, (r'.iepAt i).eptyp = (r.iepAt i).eptyp ∧ ((r'.iepAt i).act = true → (r.iepAt i).act = true)
  oep : ∀ i, (r'.oepAt i).eptyp = (r.oepAt i).eptyp ∧ ((r'.oepAt i).act = true → (r.oepAt i).act = true)
  range : r.InRange w → r'.InRange w

theorem Soft.refl (r : RegIf) : Soft w r r := ⟨rfl, rfl, rfl, rfl, rfl, rfl, fun _ => ⟨rfl, id⟩, fun _ => ⟨rfl, id⟩, id⟩

theorem Soft.trans {a b c : RegIf} (h : Soft w a b) (k : Soft w b c) : Soft w a c where
  txf := k.txf.trans h.txf
  aintIep := k.aintIep.trans h.aintIep
  aintOep := k.aintOep.trans h.aintOep
  iepLen := k.iepLen.trans h.iepLen
  oepLen := k.oepLen.trans h.oepLen
  txq := k.txq.trans h.txq
  iep i := ⟨(k.iep i).1.trans (h.iep i).1, (h.iep i).2 ∘ (k.iep i).2⟩
  oep i := ⟨(k.oep i).1.trans (h.oep i).1, (h.oep i).2 ∘ (k.oep i).2⟩
  range := k.range ∘ h.range

/-- A change of an IN endpoint's registers that activates nothing and keeps the type. -/
theorem Soft.iepMod (r : RegIf) (i : Nat) (f : InRegs → InRegs) (h : ∀ x, (f x).eptyp = x.eptyp ∧ ((f x).act = true → x.act = true)) :
    Soft w r { r with iep := r.iep.modify i f } where
  txf := rfl
  aintIep := rfl
  aintOep := rfl
  iepLen := by simp
  range h := ⟨h.addr, h.rxfSize, h.txf⟩
  oepLen := rfl
  txq := rfl
  iep j := by
    simp only [RegIf.iepAt, getD_modify]
    split
    · exact h _
    · exact ⟨rfl, id⟩
  oep _ := ⟨rfl, id⟩

/-- A change of an OUT endpoint's registers that activates nothing and keeps the type. -/
theorem Soft.oepMod (r : RegIf) (i : Nat) (f : OutRegs → OutRegs)
    (h : ∀ x, (f x).eptyp = x.eptyp ∧ ((f x).act = true → x.act = true)) : Soft w r { r with oep := r.oep.modify i f } where
  txf := rfl
  aintIep := rfl
  aintOep := rfl
  iepLen := rfl
  oepLen := by simp
  range h := ⟨h.addr, h.rxfSize, h.txf⟩
  txq := rfl
  iep _ := ⟨rfl, id⟩
  oep j := by
    simp only [RegIf.oepAt, getD_modify]
    split
    · exact h _
    · exact ⟨rfl, id⟩

/-- A change that leaves the endpoint registers alone. -/
theorem Soft.rest {r r' : RegIf} (h1 : r'.txf.length = r.txf.length) (h2 : r'.aintIep.length = r.aintIep.length)
    (h3 : r'.aintOep.length = r.aintOep.length) (h4 : r'.txq.length = r.txq.length) (hi : r'.iep = r.iep) (ho : r'.oep = r.oep)
    (ha : r.InRange w → r'.InRange w := by exact fun h => ⟨h.addr, h.rxfSize, h.txf⟩) : Soft w r r' :=
  ⟨h1, h2, h3, by rw [hi], by rw [ho], h4, fun i => by rw [show r'.iepAt i = r.iepAt i from by simp only [RegIf.iepAt, hi]]; exact ⟨rfl, id⟩,
    fun i => by rw [show r'.oepAt i = r.oepAt i from by simp only [RegIf.oepAt, ho]]; exact ⟨rfl, id⟩, ha⟩

/-- Every move of the Register Interface is soft (20_memory R77). -/
theorem Soft.move (l : Layout) (r : RegIf) (m : RiMove) : Soft w r (RiMove.apply l r m) := by
  cases m with
  | oepFlag i n => exact .oepMod r i _ fun _ => ⟨rfl, id⟩
  | iepFlag i n => exact .iepMod r i _ fun _ => ⟨rfl, id⟩
  | iepDone i => exact .iepMod r i _ fun _ => ⟨rfl, id⟩
  | oepDone i => exact .oepMod r i _ fun _ => ⟨rfl, id⟩
  | iepNak i b => exact .iepMod r i _ fun _ => ⟨rfl, id⟩
  | oepNak i b => exact .oepMod r i _ fun _ => ⟨rfl, id⟩
  | iepDpid i b => exact .iepMod r i _ fun _ => ⟨rfl, id⟩
  | oepDpid i b => exact .oepMod r i _ fun _ => ⟨rfl, id⟩
  | raise n => exact .rest rfl rfl rfl rfl rfl rfl
  | gate w => exact .rest rfl rfl rfl rfl rfl rfl
  | receive w ds => exact .rest rfl rfl rfl rfl rfl rfl
  | drain i n => exact .rest rfl rfl rfl (by simp [RiMove.apply]) rfl rfl
  | idle b => exact .rest rfl rfl rfl rfl rfl rfl
  | setup ds =>
    have h1 : Soft w r { r with rxq := r.rxq ++ .status (rxWord l l.setupUpdate 0 8 0) :: ds.map .data } :=
      .rest rfl rfl rfl rfl rfl rfl
    exact (h1.trans (.iepMod _ 0 (fun e => { e with stall := false }) fun _ => ⟨rfl, id⟩)).trans
      (.oepMod _ 0 (fun e => { e with stall := false }) fun _ => ⟨rfl, id⟩)
  | unfinished => exact .refl r
  | anyWord => exact .refl r
  | loopback i => exact .rest rfl rfl rfl (by simp [RiMove.apply]) rfl rfl

theorem Soft.moves (l : Layout) : ∀ (ms : List RiMove) (r : RegIf), Soft w r (r.moved l ms)
  | [], r => .refl r
  | m :: ms, r => (Soft.move l r m).trans (Soft.moves l ms _)

/-- The fields whose write is soft whatever the value: all but the whole control word, `.act` and `.eptyp`. -/
def Field.soft : Field → Bool
  | .iepCtl _ | .oepCtl _ | .iep _ .act | .iep _ .eptyp | .oep _ .act | .oep _ .eptyp => false
  | _ => true

/-- A write of a soft field. -/
theorem Soft.write {f : Field} (h : f.soft = true) (c : Config) (v : Nat) (r : RegIf) : Soft c r (r.write c f v) := by
  cases f with
  | iepCtl i => cases h
  | oepCtl i => cases h
  | iep i g => cases g <;> first | exact .iepMod r i _ fun _ => ⟨rfl, id⟩ | cases h
  | oep i g => cases g <;> first | exact .oepMod r i _ fun _ => ⟨rfl, id⟩ | cases h
  | iepCond i x => exact .iepMod r i _ fun _ => ⟨rfl, id⟩
  | oepCond i x => exact .oepMod r i _ fun _ => ⟨rfl, id⟩
  | rxfFlush =>
    simp only [RegIf.write]
    split <;> exact .rest rfl rfl rfl rfl rfl rfl
  | txfFlush =>
    simp only [RegIf.write]
    split
    · exact .rest rfl rfl rfl (by simp) rfl rfl
    · exact .rest rfl rfl rfl rfl rfl rfl
  | rxfSize => exact .rest rfl rfl rfl rfl rfl rfl fun k => ⟨k.addr, inFifoRam_le c v, k.txf⟩
  | txfStart i =>
    refine .rest (by simp [RegIf.write]) rfl rfl rfl rfl rfl fun k => ⟨k.addr, k.rxfSize, fun j => ?_⟩
    simp only [RegIf.write, getD_modify]
    split
    · exact ⟨inFifoRam_le c v, (k.txf j).2⟩
    · exact k.txf j
  | txfSize i =>
    refine .rest (by simp [RegIf.write]) rfl rfl rfl rfl rfl fun k => ⟨k.addr, k.rxfSize, fun j => ?_⟩
    simp only [RegIf.write, getD_modify]
    split
    · exact ⟨(k.txf j).1, inFifoRam_le c v⟩
    · exact k.txf j
  | aintIep i => exact .rest rfl (by simp [RegIf.write]) rfl rfl rfl rfl
  | aintOep i => exact .rest rfl rfl (by simp [RegIf.write]) rfl rfl rfl
  | addr => exact .rest rfl rfl rfl rfl rfl rfl fun k => ⟨Nat.mod_lt _ (Nat.two_pow_pos _), k.rxfSize, k.txf⟩
  | _ => exact .rest rfl rfl rfl rfl rfl rfl

/-- Clearing `.act` is soft. -/
theorem Soft.actInOff (c : Config) (i : Nat) (r : RegIf) : Soft w r (r.write c (.iep i .act) 0) :=
  .iepMod r i _ fun _ => ⟨rfl, fun h => nomatch h⟩
theorem Soft.actOutOff (c : Config) (i : Nat) (r : RegIf) : Soft w r (r.write c (.oep i .act) 0) :=
  .oepMod r i _ fun _ => ⟨rfl, fun h => nomatch h⟩

/-- A change soft but for IN endpoint `i`, whose activation and type are left open. -/
structure OnIn (w : Config) (i : Nat) (r r' : RegIf) : Prop where
  txf : r'.txf.length = r.txf.length
  aintIep : r'.aintIep.length = r.aintIep.length
  aintOep : r'.aintOep.length = r.aintOep.length
  iepLen : r'.iep.length = r.iep.length
  oepLen : r'.oep.length = r.oep.length
  txq : r'.txq.length = r.txq.length
  iep : ∀ j, j ≠ i → (r'.iepAt j).eptyp = (r.iepAt j).eptyp ∧ ((r'.iepAt j).act = true → (r.iepAt j).act = true)
  oep : ∀ j, (r'.oepAt j).eptyp = (r.oepAt j).eptyp ∧ ((r'.oepAt j).act = true → (r.oepAt j).act = true)
  range : r.InRange w → r'.InRange w

/-- A change soft but for OUT endpoint `i`, whose activation and type are left open. -/
structure OnOut (w : Config) (i : Nat) (r r' : RegIf) : Prop where
  txf : r'.txf.length = r.txf.length
  aintIep : r'.aintIep.length = r.aintIep.length
  aintOep : r'.aintOep.length = r.aintOep.length
  iepLen : r'.iep.length = r.iep.length
  oepLen : r'.oep.length = r.oep.length
  txq : r'.txq.length = r.txq.length
  iep : ∀ j, (r'.iepAt j).eptyp = (r.iepAt j).eptyp ∧ ((r'.iepAt j).act = true → (r.iepAt j).act = true)
  oep : ∀ j, j ≠ i → (r'.oepAt j).eptyp = (r.oepAt j).eptyp ∧ ((r'.oepAt j).act = true → (r.oepAt j).act = true)
  range : r.InRange w → r'.InRange w

theorem Soft.onIn {r r' : RegIf} (h : Soft w r r') (i : Nat) : OnIn w i r r' :=
  ⟨h.txf, h.aintIep, h.aintOep, h.iepLen, h.oepLen, h.txq, fun j _ => h.iep j, h.oep, h.range⟩

theorem Soft.onOut {r r' : RegIf} (h : Soft w r r') (i : Nat) : OnOut w i r r' :=
  ⟨h.txf, h.aintIep, h.aintOep, h.iepLen, h.oepLen, h.txq, h.iep, fun j _ => h.oep j, h.range⟩

theorem OnIn.trans {i : Nat} {a b c : RegIf} (h : OnIn w i a b) (k : OnIn w i b c) : OnIn w i a c where
  txf := k.txf.trans h.txf
  aintIep := k.aintIep.trans h.aintIep
  aintOep := k.aintOep.trans h.aintOep
  iepLen := k.iepLen.trans h.iepLen
  oepLen := k.oepLen.trans h.oepLen
  txq := k.txq.trans h.txq
  iep j hj := ⟨(k.iep j hj).1.trans (h.iep j hj).1, (h.iep j hj).2 ∘ (k.iep j hj).2⟩
  oep j := ⟨(k.oep j).1.trans (h.oep j).1, (h.oep j).2 ∘ (k.oep j).2⟩
  range := k.range ∘ h.range

theorem OnOut.trans {i : Nat} {a b c : RegIf} (h : OnOut w i a b) (k : OnOut w i b c) : OnOut w i a c where
  txf := k.txf.trans h.txf
  aintIep := k.aintIep.trans h.aintIep
  aintOep := k.aintOep.trans h.aintOep
  iepLen := k.iepLen.trans h.iepLen
  oepLen := k.oepLen.trans h.oepLen
  txq := k.txq.trans h.txq
  iep j := ⟨(k.iep j).1.trans (h.iep j).1, (h.iep j).2 ∘ (k.iep j).2⟩
  oep j hj := ⟨(k.oep j hj).1.trans (h.oep j hj).1, (h.oep j hj).2 ∘ (k.oep j hj).2⟩
  range := k.range ∘ h.range

/-- Any change of IN endpoint `i`. -/
theorem OnIn.mod (r : RegIf) (i : Nat) (f : InRegs → InRegs) : OnIn w i r { r with iep := r.iep.modify i f } where
  txf := rfl
  aintIep := rfl
  aintOep := rfl
  iepLen := by simp
  range h := ⟨h.addr, h.rxfSize, h.txf⟩
  oepLen := rfl
  txq := rfl
  iep j hj := by
    simp only [RegIf.iepAt, getD_modify, Ne.symm hj, false_and, if_false]
    exact ⟨trivial, id⟩
  oep _ := ⟨rfl, id⟩

/-- Any change of OUT endpoint `i`. -/
theorem OnOut.mod (r : RegIf) (i : Nat) (f : OutRegs → OutRegs) : OnOut w i r { r with oep := r.oep.modify i f } where
  txf := rfl
  aintIep := rfl
  aintOep := rfl
  iepLen := rfl
  oepLen := by simp
  range h := ⟨h.addr, h.rxfSize, h.txf⟩
  txq := rfl
  iep _ := ⟨rfl, id⟩
  oep j hj := by
    simp only [RegIf.oepAt, getD_modify, Ne.symm hj, false_and, if_false]
    exact ⟨trivial, id⟩

/-! ## The changes -/

/-- One state comes from another by the changes instructions make. -/
inductive Touch : State → State → Prop where
  | refl (s : State) : Touch s s
  | trans {s t u : State} : Touch s t → Touch t u → Touch s u
  /-- anything that is neither the endpoint array, the partition, the lifecycle state, client memory nor the registers -/
  | aux {s t : State} : t.cfg = s.cfg → t.ctrl = s.ctrl → t.ep = s.ep → t.part = s.part → t.ri = s.ri → t.mem = s.mem → Touch s t
  /-- the registers, softly -/
  | ri (s : State) (r : RegIf) : Soft s.cfg s.ri r → Touch s { s with ri := r }
  /-- client memory, inside the address space -/
  | mem (s : State) (m : Memory) : (s.mem.wf = true → m.wf = true) → (∀ c ∈ m, c ∈ s.mem ∨ c.1 < 2 ^ 32) →
      Touch s { s with mem := m }
  /-- an endpoint that keeps its tag and has its buffers still -/
  | ep (s : State) (i : Nat) (f : Endpoint → Endpoint) : (f (s.epAt i)).sub.tag = (s.epAt i).sub.tag →
      (buffersOf (s.epAt i) ≠ none → buffersOf (f (s.epAt i)) ≠ none) → (SizesFit (s.epAt i) → SizesFit (f (s.epAt i))) →
      Touch s (modifyEp i f s)
  /-- an endpoint `Disabled`, neither of its directions active -/
  | off (s : State) (i : Nat) : (1 ≤ i → (s.ri.iepAt i).act = false ∧ (s.ri.oepAt i).act = false) → Touch s (disableBoth i s)
  /-- the activation of one direction of a data endpoint -/
  | actIn (s u : State) (i : Nat) (t : TType) (b1 b2 : Buf) : 1 ≤ i → i < s.cfg.nEp → t = .bulk ∨ t = .interrupt →
      s.ctrl ≠ .disabled → buffersOf (s.epAt i) = some (b1, b2) → (s.epAt i).sub.admits t = true →
      OnIn s.cfg i s.ri u.ri → ((u.ri.iepAt i).act = true → (u.ri.iepAt i).eptyp = BitVec.ofNat 2 t.code) →
      u = { setSub i (initialIn t (s.epAt i).sub b1.len) s with ri := u.ri, moves := u.moves, trace := u.trace } → Touch s u
  | actOut (s u : State) (i : Nat) (b1 b2 : Buf) : 1 ≤ i → i < s.cfg.nEp → s.ctrl ≠ .disabled →
      buffersOf (s.epAt i) = some (b1, b2) → (s.epAt i).sub.admits .bulk = true →
      OnOut s.cfg i s.ri u.ri → ((u.ri.oepAt i).act = true → (u.ri.oepAt i).eptyp = 2) →
      u = { setSub i (initialOut .bulk (s.epAt i).sub) s with ri := u.ri, moves := u.moves, trace := u.trace } → Touch s u
  /-- the activation of one direction of endpoint 0 -/
  | act0In (s u : State) (p : Buf × Buf) : s.ctrl ≠ .disabled → buffersOf (s.epAt 0) = some p → OnIn s.cfg 0 s.ri u.ri →
      (u.ri.iepAt 0).eptyp = (s.ri.iepAt 0).eptyp →
      u = { startControl0 s with ri := u.ri, moves := u.moves, trace := u.trace } → Touch s u
  | act0Out (s u : State) (p : Buf × Buf) : s.ctrl ≠ .disabled → buffersOf (s.epAt 0) = some p → OnOut s.cfg 0 s.ri u.ri →
      (u.ri.oepAt 0).eptyp = (s.ri.oepAt 0).eptyp →
      u = { startControl0 s with ri := u.ri, moves := u.moves, trace := u.trace } → Touch s u
  /-- the partition, while it is open -/
  | layout (s : State) (n : Nat) : partitionOpen s = true → n ≤ s.cfg.fifoRamWords → Touch s (beginLayout n s)
  | place (s : State) (i n : Nat) : partitionOpen s = true → nextInOrder i s.part = true →
      layoutOffset i s.part + n ≤ s.cfg.fifoRamWords → Touch s (placeTx i ⟨layoutOffset i s.part, n⟩ s)

/-! ## The operations -/

theorem Touch.log (a : Access) (s : State) : Touch s (logAccess a s) := .aux rfl rfl rfl rfl rfl rfl

/-- The registers softly, and anything `aux` allows. -/
theorem Touch.riAux {s t : State} (h : Soft s.cfg s.ri t.ri) (h1 : t.cfg = s.cfg) (h2 : t.ctrl = s.ctrl) (h3 : t.ep = s.ep)
    (h4 : t.part = s.part) (h5 : t.mem = s.mem) : Touch s t :=
  .trans (.ri s t.ri h) (.aux h1 h2 h3 h4 rfl h5)

theorem Touch.env (s : State) : Touch s (envPoint s) := .riAux (Soft.moves _ _ s.ri) rfl rfl rfl rfl rfl

theorem Touch.put {f : Field} (h : f.soft = true) (v : Nat) (s : State) : Touch s (putReg f v s) :=
  .riAux (Soft.write h _ v s.ri) rfl rfl rfl rfl rfl

theorem Touch.write {f : Field} (h : f.soft = true) (v : Nat) (s : State) : Touch s (regWrite f v s) := .trans (.env s) (.put h v _)

theorem Touch.actInOff (i : Nat) (s : State) : Touch s (regWrite (.iep i .act) 0 s) :=
  .trans (.env s) (.riAux (Soft.actInOff s.cfg i _) rfl rfl rfl rfl rfl)

theorem Touch.actOutOff (i : Nat) (s : State) : Touch s (regWrite (.oep i .act) 0 s) :=
  .trans (.env s) (.riAux (Soft.actOutOff s.cfg i _) rfl rfl rfl rfl rfl)

theorem Touch.read (f : Field) (s : State) : Touch s (regRead f s) := .trans (.env s) (.log _ _)

theorem Touch.txPush (i : Nat) (w : Word) (s : State) : Touch s (txPush i w s) :=
  .trans (.env s) (.riAux (.rest rfl rfl rfl (by simp) rfl rfl) rfl rfl rfl rfl rfl)

theorem Touch.pushAll (i : Nat) : ∀ (ws : List Word) (s : State), Touch s (pushAll i ws s)
  | [], s => .refl s
  | w :: ws, s => .trans (.txPush i w s) (Touch.pushAll i ws _)

theorem Touch.issueCb (q : CbReq) (s : State) : Touch s (issueCb q s) := .aux rfl rfl rfl rfl rfl rfl

theorem Touch.clearCb (s : State) : Touch s (clearCb s) := .aux rfl rfl rfl rfl rfl rfl

theorem Touch.answer (r : Res) (s : State) : Touch s (answer r s) := .aux rfl rfl rfl rfl rfl rfl

theorem Touch.freeWord (s : State) : Touch s (freeWord s).2 := .aux rfl rfl rfl rfl rfl rfl

theorem Touch.dropHead (b : Bool) (s : State) : Touch s (dropHead b s) := .ri s _ (.rest rfl rfl rfl rfl rfl rfl)

theorem Touch.takeHead (status any : Bool) (s : State) : Touch s (takeHead status any s).2 := by
  simp only [Machine.takeHead]
  split
  · exact .freeWord s
  · split
    · exact .trans (.dropHead _ s) (.freeWord _)
    · exact .dropHead _ s

theorem Touch.popStatus (s : State) : Touch s (popStatus s).2 := .trans (.read _ s) (.takeHead _ _ _)

theorem Touch.rxPop (s : State) : Touch s (rxPop s).2 := .trans (.env s) (.trans (.log _ _) (.takeHead _ _ _))

theorem Touch.storeWord {a : Nat} (h : a + 4 ≤ 2 ^ 32) (n : Nat) (w : Word) (s : State) : Touch s (storeWord a n w s) := by
  obtain ⟨m, c, e, st, -⟩ := storeWord_eq a n w s
  rw [e]
  refine .trans (.mem s m st.wf fun x hx => ?_) (.aux rfl rfl rfl rfl rfl rfl)
  rcases st.listed x hx with hx | hx
  · exact .inl hx
  · exact .inr (by omega)

theorem Touch.popWords : ∀ (k a n : Nat) (s : State), a + 4 * k ≤ 2 ^ 32 → Touch s (popWords k a n s)
  | 0, _, _, s, _ => .refl s
  | k + 1, a, n, s, h =>
    .trans (.rxPop s) (.trans (.storeWord (by omega) n _ _) (Touch.popWords k (a + 4) (n - 4) _ (by omega)))

theorem Touch.popPacket {b : Buf} {n : Nat} {s t : State} (h : popPacket b n s = .next t) : Touch s t := by
  unfold Machine.popPacket at h
  split at h
  · rename_i hs
    obtain ⟨-, h⟩ := clocked_eq_next h
    cases h
    exact .popWords _ _ _ _ (by simpa [Buf.inSpace] using hs)
  · cases h

theorem Touch.pushPacket {i n : Nat} {b : Buf} {s t : State} (h : pushPacket i b n s = .next t) : Touch s t := by
  unfold Machine.pushPacket at h
  split at h
  · cases h
  · split at h
    · obtain ⟨-, h⟩ := clocked_eq_next h
      cases h
      exact .pushAll _ _ _
    · cases h

theorem Touch.armCtrlOut (s : State) : Touch s (armCtrlOut s) :=
  .trans (.write rfl _ s) (.trans (.write rfl _ _) (.trans (.write rfl _ _) (.trans (.write rfl _ _) (.write rfl _ _))))

theorem Touch.programIn (i n : Nat) (s : State) : Touch s (programIn i n s) :=
  .trans (.write rfl _ s) (.trans (.write rfl _ _) (.trans (.write rfl _ _) (.write rfl _ _)))

theorem Touch.programOut (i n : Nat) (s : State) : Touch s (programOut i n s) :=
  .trans (.write rfl _ s) (.trans (.write rfl _ _) (.trans (.write rfl _ _) (.write rfl _ _)))

theorem Touch.startIn {i n : Nat} {s t : State} (h : startIn i n s = .next t) : Touch s t := by
  unfold Machine.startIn at h
  split at h
  · cases h
  · split at h
    · split at h
      · obtain ⟨-, h⟩ := clocked_eq_next h
        exact .trans (.programIn i n s) (.pushPacket h)
      · cases h
    · cases h

theorem Touch.armOut {i : Nat} {s t : State} (h : armOut i s = .next t) : Touch s t := by
  unfold Machine.armOut at h
  split at h
  · cases h
  · obtain ⟨-, h⟩ := clocked_eq_next h
    cases h
    exact .programOut _ _ _

end Sys2Proof.Machine
end

