-- ==== Sys2Proof/Laws/TouchExec.lean ====
section
/-! SUPPORT. Every instruction other than `ENABLE`, `START` and `DETACH` is a chain of the changes of `Touch`. -/

namespace Sys2Proof.Machine

/-! ## Endpoint descriptors -/

/-- A change of the sub-state that keeps the tag and whose sizes fit. -/
theorem Touch.setSub {s : State} {i : Nat} {x : Sub} (ht : x.tag = (s.epAt i).sub.tag)
    (hs : SizesFit (s.epAt i) → SizesFit { s.epAt i with sub := x }) : Touch s (Machine.setSub i x s) :=
  .ep s i _ ht id hs

/-- Nothing pending fits wherever what was pending did. -/
theorem SizesFit.pendingZero {e : Endpoint} (h : SizesFit e) : SizesFit { e with pendingSize := 0 } := by
  have hz : ∀ b, fitsBuf e.pendingSize b → fitsBuf 0 b := fun b hb => by
    cases b with
    | none => exact hb
    | some b => exact Nat.zero_le _
  unfold SizesFit at h ⊢
  cases hs : e.sub with
  | bulk bin bout =>
    rw [hs] at h
    refine ⟨h.1, ?_⟩
    cases bout with
    | init => trivial
    | outDelay => exact hz _ h.2
    | outData n => exact ⟨h.2.1, hz _ h.2.2⟩
  | interrupt x m => rw [hs] at h; exact h
  | control c => trivial
  | disabled => trivial

theorem Touch.pendingZero (i : Nat) (s : State) : Touch s (setPending i 0 s) := .ep s i _ rfl id SizesFit.pendingZero

/-- A sub-state of the control endpoint after another. -/
theorem Touch.setControl {s : State} {c c' : CtrlSub} (h : (s.epAt 0).sub = .control c) : Touch s (Machine.setSub 0 (.control c') s) :=
  Touch.setSub (x := .control c') (by rw [h]; rfl) (fun _ => trivial)

theorem actIn_off (i : Nat) (s : State) : ((regWrite (.iep i .act) 0 s).ri.iepAt i).act = false := by
  simp only [regWrite_ri, RegIf.write, RegIf.iepAt, getD_modify]
  split
  · rfl
  · rename_i h
    simp only [true_and, Nat.not_lt] at h
    rw [List.getD_eq_getElem?_getD, List.getElem?_eq_none h]
    rfl

theorem actOut_off (i : Nat) (s : State) : ((regWrite (.oep i .act) 0 s).ri.oepAt i).act = false := by
  simp only [regWrite_ri, RegIf.write, RegIf.oepAt, getD_modify]
  split
  · rfl
  · rename_i h
    simp only [true_and, Nat.not_lt] at h
    rw [List.getD_eq_getElem?_getD, List.getElem?_eq_none h]
    rfl

/-- What is not active stays so under a soft change. -/
theorem Soft.inOff {w : Config} {r r' : RegIf} (h : Soft w r r') {i : Nat} (k : (r.iepAt i).act = false) : (r'.iepAt i).act = false :=
  Bool.eq_false_iff.mpr fun e => by simp [(h.iep i).2 e] at k

theorem Soft.outOff {w : Config} {r r' : RegIf} (h : Soft w r r') {i : Nat} (k : (r.oepAt i).act = false) : (r'.oepAt i).act = false :=
  Bool.eq_false_iff.mpr fun e => by simp [(h.oep i).2 e] at k

theorem Soft.regRead (f : Field) (s : State) : Soft s.cfg s.ri (regRead f s).ri := Soft.moves s.cfg.layout _ s.ri

/-! ## Activation -/

theorem Soft.regWrite {f : Field} (h : f.soft = true) (v : Nat) (s : State) : Soft s.cfg s.ri (regWrite f v s).ri :=
  (Soft.moves s.cfg.layout _ s.ri).trans (Soft.write h _ v _)

theorem OnIn.regWrite (i : Nat) (f : InField) {w : Config} (v : Nat) (s : State) : OnIn w i s.ri (regWrite (.iep i f) v s).ri :=
  ((Soft.moves s.cfg.layout _ s.ri).onIn i).trans (OnIn.mod _ i _)

theorem OnOut.regWrite (i : Nat) (f : OutField) {w : Config} (v : Nat) (s : State) : OnOut w i s.ri (regWrite (.oep i f) v s).ri :=
  ((Soft.moves s.cfg.layout _ s.ri).onOut i).trans (OnOut.mod _ i _)

/-- IN endpoint `i` has the type code `c`, or does not exist. -/
def InTyped (i : Nat) (c : BitVec 2) (r : RegIf) : Prop := (r.iepAt i).eptyp = c ∨ r.iep.length ≤ i

/-- OUT endpoint `i` has the type code `c`, or does not exist. -/
def OutTyped (i : Nat) (c : BitVec 2) (r : RegIf) : Prop := (r.oepAt i).eptyp = c ∨ r.oep.length ≤ i

theorem InTyped.soft {w : Config} {i : Nat} {c : BitVec 2} {r r' : RegIf} (h : InTyped i c r) (k : Soft w r r') : InTyped i c r' := by
  simpa only [InTyped, (k.iep i).1, k.iepLen] using h

theorem OutTyped.soft {w : Config} {i : Nat} {c : BitVec 2} {r r' : RegIf} (h : OutTyped i c r) (k : Soft w r r') : OutTyped i c r' := by
  simpa only [OutTyped, (k.oep i).1, k.oepLen] using h

theorem InTyped.put (i v : Nat) (s : State) : InTyped i (BitVec.ofNat 2 v) (regWrite (.iep i .eptyp) v s).ri := by
  simp only [InTyped, regWrite_ri, RegIf.write, RegIf.iepAt, getD_modify, List.length_modify, true_and]
  by_cases h : i < (envPoint s).ri.iep.length
  · rw [if_pos h]; exact .inl rfl
  · exact .inr (by omega)

theorem OutTyped.put (i v : Nat) (s : State) : OutTyped i (BitVec.ofNat 2 v) (regWrite (.oep i .eptyp) v s).ri := by
  simp only [OutTyped, regWrite_ri, RegIf.write, RegIf.oepAt, getD_modify, List.length_modify, true_and]
  by_cases h : i < (envPoint s).ri.oep.length
  · rw [if_pos h]; exact .inl rfl
  · exact .inr (by omega)

/-- Writing `.act` keeps the type. -/
theorem act_eptyp_in (i v : Nat) (s : State) : ((regWrite (.iep i .act) v s).ri.iepAt i).eptyp = (s.ri.iepAt i).eptyp := by
  rw [← ((Soft.moves (w := s.cfg) s.cfg.layout (nextMoves s) s.ri).iep i).1]
  simp only [regWrite_ri, RegIf.write, RegIf.iepAt, getD_modify, envPoint_ri]
  split <;> rfl

theorem act_eptyp_out (i v : Nat) (s : State) : ((regWrite (.oep i .act) v s).ri.oepAt i).eptyp = (s.ri.oepAt i).eptyp := by
  rw [← ((Soft.moves (w := s.cfg) s.cfg.layout (nextMoves s) s.ri).oep i).1]
  simp only [regWrite_ri, RegIf.write, RegIf.oepAt, getD_modify, envPoint_ri]
  split <;> rfl

theorem InTyped.act {i : Nat} {c : BitVec 2} {s : State} (h : InTyped i c s.ri) (v : Nat) : InTyped i c (regWrite (.iep i .act) v s).ri := by
  simpa only [InTyped, act_eptyp_in, (OnIn.regWrite (w := s.cfg) i .act v s).iepLen] using h

theorem OutTyped.act {i : Nat} {c : BitVec 2} {s : State} (h : OutTyped i c s.ri) (v : Nat) : OutTyped i c (regWrite (.oep i .act) v s).ri := by
  simpa only [OutTyped, act_eptyp_out, (OnOut.regWrite (w := s.cfg) i .act v s).oepLen] using h

/-- An endpoint that does not exist is not active. -/
theorem InTyped.here {i : Nat} {c : BitVec 2} {r : RegIf} (h : InTyped i c r) (ha : (r.iepAt i).act = true) : (r.iepAt i).eptyp = c := by
  rcases h with h | h
  · exact h
  · simp [RegIf.iepAt, List.getD_eq_getElem?_getD, List.getElem?_eq_none h, InRegs.zero] at ha

theorem OutTyped.here {i : Nat} {c : BitVec 2} {r : RegIf} (h : OutTyped i c r) (ha : (r.oepAt i).act = true) : (r.oepAt i).eptyp = c := by
  rcases h with h | h
  · exact h
  · simp [RegIf.oepAt, List.getD_eq_getElem?_getD, List.getElem?_eq_none h, OutRegs.zero] at ha

/-- What stands after the type of IN endpoint `i` is written, as the writes of an activation go on. -/
structure InRun (i : Nat) (c : BitVec 2) (s u : State) : Prop where
  on : OnIn s.cfg i s.ri u.ri
  typed : InTyped i c u.ri
  same : u = { s with ri := u.ri, moves := u.moves, trace := u.trace }

/-- The same of OUT endpoint `i`. -/
structure OutRun (i : Nat) (c : BitVec 2) (s u : State) : Prop where
  on : OnOut s.cfg i s.ri u.ri
  typed : OutTyped i c u.ri
  same : u = { s with ri := u.ri, moves := u.moves, trace := u.trace }

theorem same_write {s u : State} (h : u = { s with ri := u.ri, moves := u.moves, trace := u.trace }) (f : Field) (v : Nat) :
    regWrite f v u = { s with
      ri := (regWrite f v u).ri, moves := (regWrite f v u).moves, trace := (regWrite f v u).trace } := by
  generalize hr : (regWrite f v u).ri = r
  rw [h] at hr ⊢
  rw [← hr]
  rfl

theorem InRun.write {i : Nat} {c : BitVec 2} {s u : State} (h : InRun i c s u) {f : Field} (hf : f.soft = true) (v : Nat) :
    InRun i c s (regWrite f v u) :=
  have hu : u.cfg = s.cfg := by rw [h.same]
  have k := Soft.regWrite hf v u
  ⟨h.on.trans (Soft.onIn (hu ▸ k) i), h.typed.soft k, same_write h.same f v⟩

theorem InRun.act {i : Nat} {c : BitVec 2} {s u : State} (h : InRun i c s u) (v : Nat) : InRun i c s (regWrite (.iep i .act) v u) :=
  ⟨h.on.trans (OnIn.regWrite i .act v u), h.typed.act v, same_write h.same _ v⟩

theorem OutRun.write {i : Nat} {c : BitVec 2} {s u : State} (h : OutRun i c s u) {f : Field} (hf : f.soft = true) (v : Nat) :
    OutRun i c s (regWrite f v u) :=
  have hu : u.cfg = s.cfg := by rw [h.same]
  have k := Soft.regWrite hf v u
  ⟨h.on.trans (Soft.onOut (hu ▸ k) i), h.typed.soft k, same_write h.same f v⟩

theorem OutRun.act {i : Nat} {c : BitVec 2} {s u : State} (h : OutRun i c s u) (v : Nat) : OutRun i c s (regWrite (.oep i .act) v u) :=
  ⟨h.on.trans (OnOut.regWrite i .act v u), h.typed.act v, same_write h.same _ v⟩

theorem InRun.start (i v : Nat) (x : Sub) (s : State) :
    InRun i (BitVec.ofNat 2 v) (setSub i x s) (setSub i x (regWrite (.iep i .eptyp) v s)) :=
  ⟨OnIn.regWrite i .eptyp v s, InTyped.put i v s, rfl⟩

theorem OutRun.start (i v : Nat) (x : Sub) (s : State) :
    OutRun i (BitVec.ofNat 2 v) (setSub i x s) (setSub i x (regWrite (.oep i .eptyp) v s)) :=
  ⟨OnOut.regWrite i .eptyp v s, OutTyped.put i v s, rfl⟩

theorem Touch.activateInRegs {s : State} {i : Nat} {t : TType} {b1 b2 : Buf} (h1 : 1 ≤ i) (hi : i < s.cfg.nEp)
    (ht : t = .bulk ∨ t = .interrupt) (hc : s.ctrl ≠ .disabled) (hb : buffersOf (s.epAt i) = some (b1, b2))
    (ha : (s.epAt i).sub.admits t = true) : Touch s (Machine.activateInRegs i t b1.len s) := by
  have h := (((((InRun.start i t.code (initialIn t (s.epAt i).sub b1.len) s).write (f := .iep i .dpid) rfl 0).write
    (f := .iep i .mps) rfl b1.len.toNat).write (f := .iep i .txfnum) rfl i).act 1).write (f := .aintIep i) rfl 1
  unfold Machine.activateInRegs
  exact .actIn s _ i t b1 b2 h1 hi ht hc hb ha h.on (fun k => h.typed.here k) h.same

theorem Touch.activateOutRegs {s : State} {i : Nat} {b1 b2 : Buf} (h1 : 1 ≤ i) (hi : i < s.cfg.nEp)
    (hc : s.ctrl ≠ .disabled) (hb : buffersOf (s.epAt i) = some (b1, b2))
    (ha : (s.epAt i).sub.admits .bulk = true) : Touch s (Machine.activateOutRegs i .bulk b2.len s) := by
  have h := ((((OutRun.start i TType.bulk.code (initialOut .bulk (s.epAt i).sub) s).write (f := .oep i .dpid) rfl 0).write
    (f := .oep i .mps) rfl b2.len.toNat).act 1).write (f := .aintOep i) rfl 1
  unfold Machine.activateOutRegs
  exact .actOut s _ i b1 b2 h1 hi hc hb ha h.on (fun k => h.typed.here k) h.same

/-- `startControl0` changes the descriptors alone, by what `ep[0]` is. -/
theorem startControl0_of {s u : State} (h1 : u = { s with ri := u.ri, moves := u.moves, trace := u.trace }) :
    startControl0 u = { startControl0 s with ri := u.ri, moves := u.moves, trace := u.trace } := by
  have he : u.epAt 0 = s.epAt 0 := by rw [h1]; rfl
  unfold startControl0
  rw [he]
  split
  · generalize u.ri = r, u.moves = m, u.trace = tr at h1
    subst h1
    rfl
  · exact h1

theorem Touch.activateIn0 {s : State} {p : Buf × Buf} (hc : s.ctrl ≠ .disabled) (hb : buffersOf (s.epAt 0) = some p) :
    Touch s (Machine.activateIn0 s) := by
  have hr : Soft s.cfg s.ri (regRead (.iep 0 .act) s).ri := Soft.moves s.cfg.layout _ s.ri
  have key : ∀ u : State, u = { s with ri := u.ri, moves := u.moves, trace := u.trace } → OnIn s.cfg 0 s.ri u.ri →
      (u.ri.iepAt 0).eptyp = (s.ri.iepAt 0).eptyp → Touch s (startControl0 u) := fun u h1 h2 h3 => by
    have hu : (startControl0 u).ri = u.ri := by unfold startControl0; split <;> rfl
    exact .act0In s _ p hc hb (by rw [hu]; exact h2) (by rw [hu]; exact h3) (by rw [startControl0_of h1])
  simp only [Machine.activateIn0]
  split
  · exact key _ rfl (hr.onIn 0) (hr.iep 0).1
  · exact key _ rfl ((hr.onIn 0).trans (OnIn.regWrite 0 .act 1 _)) ((act_eptyp_in 0 1 _).trans (hr.iep 0).1)

theorem Touch.activateOut0 {s : State} {p : Buf × Buf} (hc : s.ctrl ≠ .disabled) (hb : buffersOf (s.epAt 0) = some p) :
    Touch s (Machine.activateOut0 s) := by
  have hr : Soft s.cfg s.ri (regRead (.oep 0 .act) s).ri := Soft.moves s.cfg.layout _ s.ri
  have key : ∀ u : State, u = { s with ri := u.ri, moves := u.moves, trace := u.trace } → OnOut s.cfg 0 s.ri u.ri →
      (u.ri.oepAt 0).eptyp = (s.ri.oepAt 0).eptyp → Touch s (startControl0 u) := fun u h1 h2 h3 => by
    have hu : (startControl0 u).ri = u.ri := by unfold startControl0; split <;> rfl
    exact .act0Out s _ p hc hb (by rw [hu]; exact h2) (by rw [hu]; exact h3) (by rw [startControl0_of h1])
  simp only [Machine.activateOut0]
  split
  · exact key _ rfl (hr.onOut 0) (hr.oep 0).1
  · exact key _ rfl ((hr.onOut 0).trans (OnOut.regWrite 0 .act 1 _)) ((act_eptyp_out 0 1 _).trans (hr.oep 0).1)

/-! ## Commands -/

theorem Touch.assignCtrlBuf {b : Buf} {s : State} {p : Res × State} (h : assignCtrlBuf b s = .next p) : Touch s p.2 := by
  unfold Machine.assignCtrlBuf at h
  split at h
  · rename_i hv
    split at h
    · rename_i hs
      cases h
      simp only [setOutBuf, setInBuf, modifyEp, modify_twice]
      refine .ep s 0 _ rfl (fun _ => by simp [buffersOf, hv]) fun _ => ?_
      rcases hs with hs | hs <;> simp only [SizesFit, hs]
    · cases h
  · cases h
    exact .refl s

theorem Touch.assignInBuf {i : Nat} {b : Buf} {s : State} {p : Res × State} (h : assignInBuf i b s = .next p) : Touch s p.2 := by
  unfold Machine.assignInBuf at h
  split at h
  · split at h
    · rename_i hv
      split at h
      · rename_i hs
        cases h
        simp only [Machine.setSub, setInBuf, modifyEp, modify_twice]
        refine .ep s i _ ?_ (fun hb => ?_) fun hf => ?_
        · cases (s.epAt i).sub <;> rfl
        · revert hb
          simp only [buffersOf]
          cases (s.epAt i).outBuf with
          | none => cases (s.epAt i).inBuf <;> exact fun hb => absurd rfl hb
          | some b2 =>
            cases (s.epAt i).inBuf with
            | none => intro hb; exact absurd rfl hb
            | some b1 =>
              cases h1 : b1.valid <;> cases h2 : b2.valid <;> simp [hv, h1, h2]
        · unfold SizesFit at hf ⊢
          cases hsub : (s.epAt i).sub with
          | bulk bin bout =>
            rw [hsub] at hf hs
            cases bin with
            | init => exact ⟨trivial, hf.2⟩
            | busy n => cases hs
          | interrupt x m =>
            rw [hsub] at hs
            cases x with
            | init => exact ⟨⟨b, rfl, rfl⟩, trivial⟩
            | busy n => cases hs
          | control c => trivial
          | disabled => trivial
      · cases h
    · cases h
      exact .refl s
  · cases h
    exact .refl s

theorem Touch.assignOutBuf {i : Nat} {b : Buf} {s : State} {p : Res × State} (h : assignOutBuf i b s = .next p) : Touch s p.2 := by
  unfold Machine.assignOutBuf at h
  split at h
  · split at h
    · rename_i hv
      split at h
      · rename_i hs
        cases h
        refine .ep s i _ rfl (fun hb => ?_) fun hf => ?_
        · revert hb
          simp only [buffersOf]
          cases (s.epAt i).inBuf with
          | none => intro hb; exact absurd rfl hb
          | some b1 =>
            cases (s.epAt i).outBuf with
            | none => intro hb; exact absurd rfl hb
            | some b2 =>
              cases h1 : b1.valid <;> cases h2 : b2.valid <;> simp [hv, h1, h2]
        · unfold SizesFit at hf ⊢
          cases hsub : (s.epAt i).sub with
          | bulk bin bout =>
            rw [hsub] at hf hs
            cases bout with
            | init => exact ⟨hf.1, trivial⟩
            | outDelay => cases hs
            | outData n => cases hs
          | interrupt x m => rw [hsub] at hf; exact hf
          | control c => trivial
          | disabled => trivial
      · cases h
    · cases h
      exact .refl s
  · cases h
    exact .refl s

theorem Touch.activateIn {t : TType} {i : Nat} {s : State} {p : Res × State} (h : activateIn t i s = .next p) : Touch s p.2 := by
  unfold Machine.activateIn at h
  split at h
  · rename_i hi
    split at h
    · cases h
      exact .refl s
    · rename_i hiso
      split at h
      · cases h
        exact .refl s
      · rename_i b1 b2 hb
        split at h
        · cases h
        · rename_i hc
          split at h
          · rename_i h0
            obtain ⟨-, h⟩ := clocked_eq_next h
            cases h
            exact .activateIn0 hc (by rw [← h0]; exact hb)
          · split at h
            · cases h
            · rename_i h0 hctl
              split at h
              · split at h
                · rename_i ha
                  obtain ⟨-, h⟩ := clocked_eq_next h
                  cases h
                  exact .activateInRegs (by omega) hi
                    (by cases t <;> first | exact absurd rfl hiso | exact absurd rfl hctl | exact .inl rfl | exact .inr rfl) hc hb ha
                · cases h
              · cases h
                exact .refl s
  · cases h
    exact .refl s

theorem Touch.activateOut {t : TType} {i : Nat} {s : State} {p : Res × State} (h : activateOut t i s = .next p) :
    Touch s p.2 := by
  unfold Machine.activateOut at h
  split at h
  · rename_i hi
    split at h
    · cases h
      exact .refl s
    · rename_i hiso
      split at h
      · cases h
        exact .refl s
      · rename_i b1 b2 hb
        split at h
        · cases h
        · rename_i hc
          split at h
          · rename_i h0
            obtain ⟨-, h⟩ := clocked_eq_next h
            cases h
            exact .activateOut0 hc (by rw [← h0]; exact hb)
          · split at h
            · cases h
            · split at h
              · cases h
              · rename_i h0 hctl hint
                split at h
                · rename_i ha
                  obtain ⟨-, h⟩ := clocked_eq_next h
                  obtain ⟨u, hu, h⟩ := andThen_eq_next h
                  cases h
                  cases t with
                  | bulk => exact .trans (.activateOutRegs (by omega) hi hc hb ha) (.armOut hu)
                  | control => exact absurd rfl hctl
                  | isochronous => exact absurd rfl hiso
                  | interrupt => exact absurd rfl hint
                · cases h
  · cases h
    exact .refl s

theorem SizesFit.dropIn {e : Endpoint} (h : SizesFit e) : SizesFit { e with sub := e.sub.dropIn } := by
  unfold SizesFit at h ⊢
  cases hs : e.sub with
  | bulk bin bout => rw [hs] at h; exact ⟨trivial, h.2⟩
  | interrupt x m => rw [hs] at h; exact ⟨h.1, trivial⟩
  | control c => trivial
  | disabled => trivial

theorem SizesFit.dropOut {e : Endpoint} (h : SizesFit e) : SizesFit { e with sub := e.sub.dropOut } := by
  unfold SizesFit at h ⊢
  cases hs : e.sub with
  | bulk bin bout => rw [hs] at h; exact ⟨h.1, trivial⟩
  | interrupt x m => rw [hs] at h; exact h
  | control c => trivial
  | disabled => trivial

theorem Sub.dropIn_tag (x : Sub) : x.dropIn.tag = x.tag := by cases x <;> rfl
theorem Sub.dropOut_tag (x : Sub) : x.dropOut.tag = x.tag := by cases x <;> rfl

theorem Touch.dropInSide (i : Nat) (s : State) : Touch s (dropInSide i s) := by
  have h1 : Touch s (regWrite (.aintIep i) 0 (regWrite (.iep i .act) 0 (regWrite (.iep i .ena) 0 (regWrite (.iep i .nak) 1 s)))) :=
    .trans (.write rfl _ _) (.trans (.write rfl _ _) (.trans (.actInOff i _) (.write rfl _ _)))
  have hact := actIn_off i (regWrite (.iep i .ena) 0 (regWrite (.iep i .nak) 1 s))
  simp only [Machine.dropInSide]
  have h2 := Touch.trans h1 (Touch.trans (Touch.setSub (i := i) (Sub.dropIn_tag _) SizesFit.dropIn) (.read (.oep i .act) _))
  split
  · exact h2
  · rename_i ho
    exact .trans h2 (.off _ i fun _ => ⟨(Soft.regRead _ _).inOff ((Soft.regWrite (f := .aintIep i) rfl 0 _).inOff hact), by simpa using ho⟩)

theorem Touch.dropOutSide (i : Nat) (s : State) : Touch s (dropOutSide i s) := by
  have h1 : Touch s (regWrite (.aintOep i) 0 (regWrite (.oep i .act) 0 (regWrite (.oep i .ena) 0 (regWrite (.oep i .nak) 1 s)))) :=
    .trans (.write rfl _ _) (.trans (.write rfl _ _) (.trans (.actOutOff i _) (.write rfl _ _)))
  have hact := actOut_off i (regWrite (.oep i .ena) 0 (regWrite (.oep i .nak) 1 s))
  have hsub : ∀ t : State, Touch t (dropOutSub i t) ∧ (dropOutSub i t).ri = t.ri := fun t => by
    have hs := Touch.setSub (i := i) (s := t) (Sub.dropOut_tag _) SizesFit.dropOut
    simp only [dropOutSub]
    split
    · exact ⟨.trans hs (.pendingZero i _), rfl⟩
    · exact ⟨hs, rfl⟩
  simp only [Machine.dropOutSide]
  have h2 := Touch.trans h1 (Touch.trans (hsub _).1 (.read (.iep i .act) _))
  split
  · exact h2
  · rename_i ho
    refine .trans h2 (.off _ i fun _ => ⟨by simpa using ho, ?_⟩)
    refine (Soft.regRead _ _).outOff ?_
    rw [(hsub _).2]
    exact (Soft.regWrite (f := .aintOep i) rfl 0 _).outOff hact

theorem Touch.onEndpoint {i : Nat} {f : State → State} (hf : ∀ s, Touch s (f s)) {s : State} {p : Res × State}
    (h : onEndpoint i f s = .next p) : Touch s p.2 := by
  unfold Machine.onEndpoint at h
  split at h
  · obtain ⟨-, h⟩ := clocked_eq_next h
    cases h
    exact hf s
  · cases h
    exact .refl s

theorem Touch.clearStallIn (i : Nat) (s : State) : Touch s (clearStallInRegs i s) := by
  simp only [clearStallInRegs]
  split
  · exact .write rfl _ _
  · exact .trans (.write rfl _ _) (.write rfl _ _)

theorem Touch.clearStallOut (i : Nat) (s : State) : Touch s (clearStallOutRegs i s) := by
  simp only [clearStallOutRegs]
  split
  · exact .write rfl _ _
  · exact .trans (.write rfl _ _) (.write rfl _ _)

theorem Touch.writePacket {i n : Nat} {s : State} {p : Res × State} (h : writePacket i n s = .next p) : Touch s p.2 := by
  unfold Machine.writePacket at h
  split at h
  · split at h
    · cases h
      exact .refl s
    · split at h
      · split at h
        · obtain ⟨t, ht, h⟩ := andThen_eq_next h
          cases h
          exact .pushPacket ht
        · cases h
          exact .refl s
      · cases h
        exact .refl s
  · cases h
    exact .refl s

theorem Touch.readPacket {i n : Nat} {s : State} {p : Res × State} (h : readPacket i n s = .next p) : Touch s p.2 := by
  unfold Machine.readPacket at h
  split at h
  · split at h
    · cases h
      exact .refl s
    · split at h
      · obtain ⟨t, ht, h⟩ := andThen_eq_next h
        cases h
        exact .popPacket ht
      · cases h
        exact .refl s
  · cases h
    exact .refl s

theorem Touch.layoutRx {n : Nat} {s : State} {p : Res × State} (ho : partitionOpen s = true) (h : layoutRx n s = .next p) :
    Touch s p.2 := by
  unfold Machine.layoutRx at h
  split at h
  · rename_i hn
    obtain ⟨-, h⟩ := clocked_eq_next h
    cases h
    exact .trans (.write rfl _ _) (.layout _ n ho hn)
  · cases h
    exact .refl s

theorem Touch.layoutTx {i n : Nat} {s : State} {p : Res × State} (ho : partitionOpen s = true) (h : layoutTx i n s = .next p) :
    Touch s p.2 := by
  unfold Machine.layoutTx at h
  split at h
  · split at h
    · rename_i hord
      split at h
      · rename_i hn
        obtain ⟨-, h⟩ := clocked_eq_next h
        cases h
        exact .trans (.write rfl _ _) (.trans (.write rfl _ _) (.place _ i n ho hord hn))
      · cases h
        exact .refl s
    · cases h
  · cases h
    exact .refl s

theorem Touch.writeDevAddr (s : State) : Touch s (writeDevAddr s) := .write rfl _ _

theorem Touch.stageAddr (a : BitVec 16) (s : State) : Touch s (stageAddr a s) := .aux rfl rfl rfl rfl rfl rfl

/-! ## Control protocol and data endpoints -/

/-- Pushes change the transmit FIFO and the record of accesses alone. -/
theorem pushAll_same (i : Nat) : ∀ (ws : List Word) (s : State), (pushAll i ws s).ep = s.ep ∧ (pushAll i ws s).clockOn = s.clockOn
  | [], _ => ⟨rfl, rfl⟩
  | w :: ws, s => pushAll_same i ws (txPush i w s)

theorem pushPacket_ep {i n : Nat} {b : Buf} {s t : State} (h : pushPacket i b n s = .next t) : t.ep = s.ep ∧ t.clockOn = s.clockOn := by
  unfold pushPacket at h
  split at h
  · cases h
  · split at h
    · obtain ⟨-, h⟩ := clocked_eq_next h
      cases h
      exact pushAll_same _ _ _
    · cases h

/-- `StartIn` leaves the descriptors alone and starts only what fits. -/
theorem startIn_ep {i n : Nat} {s t : State} (h : startIn i n s = .next t) :
    t.ep = s.ep ∧ ∃ b, (s.epAt i).inBuf = some b ∧ n ≤ b.len.toNat := by
  unfold startIn at h
  split at h
  · cases h
  · rename_i b hb
    split at h
    · rename_i hn
      split at h
      · obtain ⟨-, h⟩ := clocked_eq_next h
        exact ⟨by rw [(pushPacket_ep h).1, programIn_ep], b, hb, hn⟩
      · cases h
    · cases h

theorem takeHead_ep (status any : Bool) (s : State) : (takeHead status any s).2.ep = s.ep := by
  simp only [takeHead]
  split
  · rfl
  · split <;> rfl

theorem popWords_ep : ∀ (k a n : Nat) (s : State), (popWords k a n s).ep = s.ep
  | 0, _, _, _ => rfl
  | k + 1, a, n, s => by
    simp only [popWords]
    rw [popWords_ep k]
    obtain ⟨m, c, e, -⟩ := storeWord_eq a n (rxPop s).1 (rxPop s).2
    rw [e]
    exact takeHead_ep _ _ _

theorem popPacket_ep {b : Buf} {n : Nat} {s t : State} (h : popPacket b n s = .next t) : t.ep = s.ep := by
  unfold popPacket at h
  split at h
  · obtain ⟨-, h⟩ := clocked_eq_next h
    cases h
    exact popWords_ep _ _ _ _
  · cases h

theorem Touch.toInit {s : State} {c : CtrlSub} (h : (s.epAt 0).sub = .control c) : Touch s (toInit s) :=
  .trans (.setControl h) (.armCtrlOut _)

theorem Touch.ctrlError {s t : State} {c : CtrlSub} (h : (s.epAt 0).sub = .control c) (ht : ctrlError s = .next t) : Touch s t := by
  unfold Machine.ctrlError at ht
  obtain ⟨-, ht⟩ := clocked_eq_next ht
  cases ht
  exact .trans (.write rfl _ _) (.trans (.write rfl _ _) (.toInit (c := c) h))

theorem Touch.onSetup {a : SetupAnswer} {s t : State} (h : onSetup a s = .next t) : Touch s t := by
  unfold Machine.onSetup at h
  split at h
  · rename_i c b hs hb
    cases a with
    | okSetAddress n =>
      obtain ⟨-, h⟩ := clocked_eq_next h
      refine .trans (.stageAddr n s) ?_
      by_cases ht : s.cfg.addrTiming = .immediate
      · simp only [ht, if_true] at h
        exact .trans (.writeDevAddr _) (.trans (.setControl (c := c) hs) (.startIn h))
      · simp only [ht, if_false] at h
        exact .trans (.setControl (c := c) hs) (.startIn h)
    | ok =>
      simp only at h
      split at h
      · split at h
        · obtain ⟨u, hu, h⟩ := andThen_eq_next h
          cases h
          exact .trans (.startIn hu) (.issueCb _ _)
        · split at h
          · cases h
            exact .trans (.setControl (c := c) hs) (.issueCb _ _)
          · exact .trans (.setControl (c := c) hs) (.armOut h)
      · cases h
    | error => exact .ctrlError hs h
  · cases h

theorem Touch.onCtrlIn {a : InAnswer} {s t : State} {c : CtrlSub} (hs : (s.epAt 0).sub = .control c) (h : onCtrlIn a s = .next t) :
    Touch s t := by
  cases a with
  | packet size last =>
    simp only [Machine.onCtrlIn] at h
    split at h
    · obtain ⟨u, hu, h⟩ := andThen_eq_next h
      cases h
      have he := (startIn_ep hu).1
      simp only [lastPacket]
      split
      · exact .trans (.startIn hu) (.trans (.setControl (c := c) (by simp only [State.epAt, he]; exact hs)) (.armCtrlOut _))
      · exact .startIn hu
    · cases h
  | delay =>
    cases h
    exact .refl s
  | error => exact .ctrlError hs h

theorem Touch.onCtrlOut {a : OutAnswer} {s t : State} {c : CtrlSub} (hs : (s.epAt 0).sub = .control c)
    (h : onCtrlOut a s = .next t) : Touch s t := by
  cases a with
  | ok => exact .trans (.setControl (c := c) hs) (.startIn h)
  | halted =>
    simp only [Machine.onCtrlOut, ctrlOutRejected] at h
    obtain ⟨-, h⟩ := clocked_eq_next h
    cases h
    exact .trans (.write rfl _ _) (.toInit (c := c) hs)
  | delay =>
    simp only [Machine.onCtrlOut, ctrlOutRejected] at h
    obtain ⟨-, h⟩ := clocked_eq_next h
    cases h
    exact .trans (.write rfl _ _) (.toInit (c := c) hs)

theorem Touch.onBulkIn {i : Nat} {bout : OutSub} {a : InAnswer} {s t : State} (hs : (s.epAt i).sub = .bulk .init bout)
    (h : onBulkIn i bout a s = .next t) : Touch s t := by
  cases a with
  | packet size last =>
    simp only [Machine.onBulkIn] at h
    split at h
    · obtain ⟨u, hu, h⟩ := andThen_eq_next h
      cases h
      obtain ⟨he, b, hb, hn⟩ := startIn_ep hu
      have hu' : u.epAt i = s.epAt i := by simp only [State.epAt, he]
      refine .trans (.startIn hu) (.setSub (by rw [hu', hs]; rfl) fun hf => ?_)
      rw [hu'] at hf ⊢
      simp only [SizesFit, hs, hb, fitsBuf] at hf ⊢
      exact ⟨hn, hf.2⟩
    · cases h
  | delay =>
    cases h
    exact .refl s
  | error =>
    obtain ⟨-, h⟩ := clocked_eq_next h
    cases h
    exact .write rfl _ _

theorem Touch.onIntIn {i : Nat} {mps : BitVec 16} {a : InAnswer} {s t : State} (hs : (s.epAt i).sub = .interrupt .init mps)
    (h : onIntIn i mps a s = .next t) : Touch s t := by
  cases a with
  | packet size last =>
    simp only [Machine.onIntIn] at h
    split at h
    · obtain ⟨u, hu, h⟩ := andThen_eq_next h
      cases h
      obtain ⟨he, b, hb, hn⟩ := startIn_ep hu
      have hu' : u.epAt i = s.epAt i := by simp only [State.epAt, he]
      refine .trans (.startIn hu) (.setSub (by rw [hu', hs]; rfl) fun hf => ?_)
      rw [hu'] at hf ⊢
      simp only [SizesFit, hs] at hf ⊢
      exact ⟨hf.1, by simp only [hb, fitsBuf]; exact hn⟩
    · cases h
  | delay =>
    cases h
    exact .refl s
  | error =>
    obtain ⟨-, h⟩ := clocked_eq_next h
    cases h
    exact .write rfl _ _

theorem Touch.onIn {i : Nat} {a : InAnswer} {s t : State} (h : onIn i a s = .next t) : Touch s t := by
  unfold Machine.onIn at h
  split at h
  · rename_i hs
    split at h
    · rename_i h0
      subst h0
      exact .onCtrlIn hs h
    · cases h
  · rename_i hs
    exact .onBulkIn hs h
  · rename_i hs
    exact .onIntIn hs h
  all_goals cases h

/-- The packet of a bulk OUT half that holds one is within its buffer. -/
theorem SizesFit.held {e : Endpoint} {bin : InSub} (hs : e.sub = .bulk bin .outDelay ∨ ∃ n, e.sub = .bulk bin (.outData n))
    (h : SizesFit e) : SizesFit { e with sub := .bulk bin .outDelay } ∧ SizesFit { e with sub := .bulk bin .init } := by
  unfold SizesFit at h ⊢
  rcases hs with hs | ⟨n, hs⟩
  · rw [hs] at h
    exact ⟨h, h.1, trivial⟩
  · rw [hs] at h
    exact ⟨⟨h.1, h.2.2⟩, h.1, trivial⟩

theorem Touch.onBulkOut {i : Nat} {bin : InSub} {a : OutAnswer} {s t : State}
    (hs : (s.epAt i).sub = .bulk bin .outDelay ∨ ∃ n, (s.epAt i).sub = .bulk bin (.outData n))
    (h : onBulkOut i bin a s = .next t) : Touch s t := by
  have ht (y : OutSub) : Sub.tag (.bulk bin y) = (s.epAt i).sub.tag := by
    rcases hs with hs | ⟨n, hs⟩ <;> rw [hs] <;> rfl
  cases a with
  | ok => exact .trans (.setSub (ht _) fun hf => (SizesFit.held hs hf).2) (.armOut h)
  | delay =>
    cases h
    exact .setSub (ht _) fun hf => (SizesFit.held hs hf).1
  | halted =>
    obtain ⟨-, h⟩ := clocked_eq_next h
    refine .trans (.write (f := .oep i .stall) rfl 1 s) (.trans ?_ (.armOut h))
    exact .setSub (ht _) fun hf => (SizesFit.held hs hf).2

theorem Touch.onOut {i : Nat} {a : OutAnswer} {s t : State} (h : onOut i a s = .next t) : Touch s t := by
  unfold Machine.onOut at h
  split at h
  · rename_i hs
    split at h
    · rename_i h0
      subst h0
      exact .onCtrlOut hs h
    · cases h
  · rename_i hs
    exact .onBulkOut (.inr ⟨_, hs⟩) h
  · rename_i hs
    exact .onBulkOut (.inl hs) h
  all_goals cases h

theorem Touch.deliver {r : Resp} {s t : State} (h : deliver r s = .next t) : Touch s t := by
  unfold Machine.deliver at h
  split at h
  · exact .trans (.clearCb s) (.onSetup h)
  · exact .trans (.clearCb s) (.onIn h)
  · exact .trans (.clearCb s) (.onOut h)
  · cases h
    exact .trans (.clearCb s) (.issueCb _ _)
  · unfold onStatusComplete at h
    split at h
    · rename_i c hs
      obtain ⟨-, h⟩ := clocked_eq_next h
      cases h
      exact .trans (.clearCb s) (.toInit (c := c) hs)
    all_goals cases h
  · cases h
    exact .clearCb s
  · cases h

theorem Touch.clientWrites (ws : List (BitVec 32 × Byte)) (s : State) : Touch s (clientWrites ws s) := by
  refine .mem s _ (fun h => ?_) (fun c hc => ?_)
  · generalize s.mem = m at h ⊢
    induction ws generalizing m with
    | nil => exact h
    | cons w ws ih => exact ih _ (Memory.wf_write h _ _)
  · generalize s.mem = m at hc ⊢
    induction ws generalizing m with
    | nil => exact .inl hc
    | cons w ws ih =>
      rcases ih _ hc with h | h
      · rcases Memory.mem_write h with rfl | h
        · exact .inr w.1.isLt
        · exact .inl h
      · exact .inr h

theorem Touch.clientAnswer (q : CbReq) (s : State) : Touch s (clientAnswer q s).2 := by
  unfold Machine.clientAnswer
  split
  · rename_i a rest _
    exact .trans (t := { s with client := { s.client with answers := rest } }) (.aux rfl rfl rfl rfl rfl rfl) (.clientWrites _ _)
  · exact .trans (t := { s with freeCtr := s.freeCtr + 1 }) (.aux rfl rfl rfl rfl rfl rfl) (.clientWrites _ _)

theorem Touch.settle : ∀ (n : Nat) {s t : State}, settle n s = .next t → Touch s t
  | 0, s, _, h => by cases h; exact .refl s
  | n + 1, s, t, h => by
    simp only [Machine.settle] at h
    split at h
    · cases h
      exact .refl s
    · rename_i q _
      split at h
      · rename_i r u hu
        obtain ⟨v, hv, h⟩ := andThen_eq_next h
        have hc : Touch s u := by
          have := Touch.clientAnswer q s
          rwa [hu] at this
        exact .trans hc (.trans (.deliver hv) (Touch.settle n h))
      · cases h

theorem Touch.answered {s t : State} (h : answered s = .next t) : Touch s t := .settle 3 h

/-! ## Receive branches and conditions -/

theorem receiveBuf_some {e : Nat} {n : BitVec 16} {s : State} {b : Buf} (h : receiveBuf e n s = some b) :
    (s.epAt e).outBuf = some b ∧ n.toNat ≤ b.len.toNat := by
  unfold receiveBuf at h
  split at h
  · split at h
    · rename_i hb
      split at h
      · rename_i hn
        cases h
        exact ⟨hb, hn⟩
      · cases h
    · cases h
  · cases h

theorem Sub.dataArrived_tag (x : Sub) (n : BitVec 16) : (x.dataArrived n).tag = x.tag := by
  cases x with
  | bulk bin bout => cases bout <;> rfl
  | _ => rfl

theorem Touch.rxDataUpdate {e : Nat} {n : BitVec 16} {s t : State} (h : rxDataUpdate e n s = .next t) : Touch s t := by
  unfold Machine.rxDataUpdate at h
  split at h
  · cases h
  · rename_i b hb
    obtain ⟨ho, hn⟩ := receiveBuf_some hb
    split at h
    · rename_i htk
      obtain ⟨u, hu, h⟩ := andThen_eq_next h
      cases h
      have hue : Touch s u ∧ u.ep = s.ep := by
        split at hu
        · cases hu
          exact ⟨.refl s, rfl⟩
        · exact ⟨.popPacket hu, popPacket_ep hu⟩
      have hx : u.epAt e = s.epAt e := by simp only [State.epAt, hue.2]
      refine .trans hue.1 ?_
      simp only [Machine.setSub, setPending, modifyEp, modify_twice]
      refine .ep u e _ (Sub.dataArrived_tag _ _) id fun hf => ?_
      rw [hx] at hf ⊢
      unfold SizesFit at hf ⊢
      cases hs : (s.epAt e).sub with
      | bulk bin bout =>
        rw [hs] at hf htk
        cases bout with
        | init => exact ⟨hf.1, by simp only [fitsBuf, ho]; exact ⟨hn, hn⟩⟩
        | outDelay => cases htk
        | outData m => cases htk
      | interrupt x m => rw [hs] at hf; exact hf
      | control c => trivial
      | disabled => trivial
    · cases h

theorem Touch.rxSetupUpdate {e : Nat} {n : BitVec 16} {s t : State} (h : rxSetupUpdate e n s = .next t) : Touch s t := by
  unfold Machine.rxSetupUpdate at h
  split at h
  · cases h
  · rename_i b hb
    obtain ⟨ho, hn⟩ := receiveBuf_some hb
    split at h
    · obtain ⟨u, hu, h⟩ := andThen_eq_next h
      cases h
      have hx : u.epAt e = s.epAt e := by simp only [State.epAt, popPacket_ep hu]
      refine .trans (.popPacket hu) ?_
      simp only [setDir, setPending, modifyEp, modify_twice]
      refine .ep u e _ rfl id fun hf => ?_
      rw [hx] at hf ⊢
      unfold SizesFit at hf ⊢
      cases hs : (s.epAt e).sub with
      | bulk bin bout =>
        rw [hs] at hf
        refine ⟨hf.1, ?_⟩
        cases bout with
        | init => trivial
        | outDelay => simp only [fitsBuf, ho]; exact hn
        | outData m => exact ⟨hf.2.1, by simp only [fitsBuf, ho]; exact hn⟩
      | interrupt x m => rw [hs] at hf; exact hf
      | control c => trivial
      | disabled => trivial
    · cases h

theorem Touch.rxBranch {w : Word} {s t : State} (h : rxBranch w s = .next t) : Touch s t := by
  simp only [Machine.rxBranch] at h
  split at h
  · cases h
    exact .refl s
  · split at h
    · exact .rxDataUpdate h
    · split at h
      · exact .rxSetupUpdate h
      · cases h
        exact .refl s

theorem Touch.reOffer {i : Nat} {s t : State} (h : reOffer i s = .next t) : Touch s t := by
  unfold Machine.reOffer at h
  split at h
  · exact .trans (.issueCb _ s) (.answered h)
  all_goals
    cases h
    exact .refl s

theorem Touch.ctrlSetup {s t : State} (h : ctrlSetup s = .next t) : Touch s t := by
  unfold Machine.ctrlSetup at h
  split at h
  · rename_i c b hs hb
    split at h
    · cases h
      refine .trans ?_ (.issueCb _ _)
      unfold abandon
      split
      · exact .refl s
      · exact .setControl hs
    · cases h
  · cases h

theorem Touch.outCond {c : OutCond} {i : Nat} {s t : State} (h : outCond c i s = .next t) : Touch s t := by
  cases c with
  | xfrc =>
    simp only [Machine.outCond, outXfrc] at h
    split at h
    · split at h
      · exact .trans (.issueCb _ s) (.answered h)
      · cases h; exact .refl s
    · split at h
      · exact .trans (.issueCb _ s) (.answered h)
      · cases h; exact .refl s
    · exact .trans (.issueCb _ s) (.answered h)
    all_goals
      cases h
      exact .refl s
  | stup =>
    simp only [Machine.outCond, outStup] at h
    split at h
    · obtain ⟨u, hu, h⟩ := andThen_eq_next h
      exact .trans (.ctrlSetup hu) (.answered h)
    · cases h
  | otepdis => exact .reOffer h
  | stsphsrx => cases h; exact .refl s
  | nak => exact .reOffer h

theorem Touch.serveOut {c : OutCond} {i : Nat} {s t : State} (h : serveOut c i s = .next t) : Touch s t := by
  obtain ⟨u, hu, h⟩ := andThen_eq_next h
  cases h
  exact .trans (.outCond hu) (.write rfl _ _)

theorem Touch.inXfrc {i : Nat} {s t : State} (h : inXfrc i s = .next t) : Touch s t := by
  unfold Machine.inXfrc at h
  split at h
  · split at h
    · exact .trans (.issueCb _ s) (.answered h)
    · cases h; exact .refl s
  · split at h
    · exact .trans (.issueCb _ s) (.answered h)
    · cases h; exact .refl s
  · rename_i hs
    split at h
    · rename_i h0
      subst h0
      cases h
      unfold setAddressDone
      split
      · exact .trans (.writeDevAddr s) (.toInit (c := .setAddress) hs)
      · exact .toInit hs
    · cases h; exact .refl s
  · rename_i bout hs
    cases h
    refine .setSub (by rw [hs]; rfl) fun hf => ?_
    unfold SizesFit at hf ⊢
    rw [hs] at hf
    exact ⟨trivial, hf.2⟩
  · rename_i mps hs
    cases h
    refine .setSub (by rw [hs]; rfl) fun hf => ?_
    unfold SizesFit at hf ⊢
    rw [hs] at hf
    exact ⟨hf.1, trivial⟩
  all_goals
    cases h
    exact .refl s

theorem Touch.inIttxfe {i : Nat} {s t : State} (h : inIttxfe i s = .next t) : Touch s t := by
  unfold Machine.inIttxfe at h
  split at h
  · split at h
    · simp only [pollIfIdle0] at h
      split at h
      · cases h
        exact .read _ s
      · exact .trans (.read _ s) (.trans (.issueCb _ _) (.answered h))
    · cases h; exact .refl s
  · exact .trans (.issueCb _ s) (.answered h)
  · exact .trans (.issueCb _ s) (.answered h)
  all_goals
    cases h
    exact .refl s

theorem Touch.serveIn {c : InCond} {i : Nat} {s t : State} (h : serveIn c i s = .next t) : Touch s t := by
  obtain ⟨u, hu, h⟩ := andThen_eq_next h
  cases h
  refine .trans ?_ (.write rfl _ _)
  cases c with
  | xfrc => exact .inXfrc hu
  | ittxfe => exact .inIttxfe hu
  | _ => cases hu; exact .refl s

theorem Touch.scanOut {i : Nat} {s t : State} (h : scanOut i s = .next t) : Touch s t := by
  have key : ∀ (f : Word) (cs : List OutCond) (s t : State), serveOuts f i cs s = .next t → Touch s t := by
    intro f cs
    induction cs with
    | nil => intro s t h; cases h; exact .refl s
    | cons c cs ih =>
      intro s t h
      simp only [serveOuts] at h
      split at h
      · obtain ⟨u, hu, h⟩ := andThen_eq_next h
        exact .trans (.serveOut hu) (ih u t h)
      · exact ih s t h
  exact .trans (.read _ s) (key _ _ _ _ h)

theorem Touch.scanIn {i : Nat} {s t : State} (h : scanIn i s = .next t) : Touch s t := by
  have key : ∀ (f : Word) (cs : List InCond) (s t : State), serveIns f i cs s = .next t → Touch s t := by
    intro f cs
    induction cs with
    | nil => intro s t h; cases h; exact .refl s
    | cons c cs ih =>
      intro s t h
      simp only [serveIns] at h
      split at h
      · obtain ⟨u, hu, h⟩ := andThen_eq_next h
        exact .trans (.serveIn hu) (ih u t h)
      · exact ih s t h
  exact .trans (.read _ s) (key _ _ _ _ h)

theorem Touch.forEach {f : Nat → State → M State} (hf : ∀ i s t, f i s = .next t → Touch s t) :
    ∀ (l : List Nat) {s t : State}, forEach f l s = .next t → Touch s t
  | [], s, _, h => by cases h; exact .refl s
  | i :: l, s, t, h => by
    obtain ⟨u, hu, h⟩ := andThen_eq_next h
    exact .trans (hf i s u hu) (Touch.forEach hf l h)

/-! ## Global sources -/

theorem Touch.foldl {f : State → Nat → State} (hf : ∀ s i, Touch s (f s i)) : ∀ (l : List Nat) (s : State), Touch s (l.foldl f s)
  | [], s => .refl s
  | i :: l, s => .trans (hf s i) (Touch.foldl hf l _)

theorem Touch.clearInFlags (i : Nat) (s : State) : Touch s (clearInFlags i s) := by
  unfold Machine.clearInFlags
  generalize InCond.order = l
  induction l generalizing s with
  | nil => exact .refl s
  | cons c l ih => exact .trans (.write rfl _ _) (ih _)

theorem Touch.clearOutFlags (i : Nat) (s : State) : Touch s (clearOutFlags i s) := by
  unfold Machine.clearOutFlags
  generalize OutCond.order = l
  induction l generalizing s with
  | nil => exact .refl s
  | cons c l ih => exact .trans (.write rfl _ _) (ih _)

theorem Touch.busResetEndpoint (s : State) (i : Nat) : Touch s (busResetEndpoint s i) := by
  unfold Machine.busResetEndpoint
  generalize h1 : regWrite (.iep i .act) 0 s = s1
  generalize h2 : regWrite (.oep i .act) 0 s1 = s2
  have a1 : (s1.ri.iepAt i).act = false := h1 ▸ actIn_off i s
  have a2 : (s2.ri.oepAt i).act = false := h2 ▸ actOut_off i s1
  have e2 : Soft s1.cfg s1.ri s2.ri := h2 ▸ (Soft.moves s1.cfg.layout _ s1.ri).trans (Soft.actOutOff s1.cfg i _)
  have e3 : Soft s2.cfg s2.ri (regWrite (.aintOep i) 0 (regWrite (.aintIep i) 0 s2)).ri :=
    (Soft.regWrite (f := .aintIep i) rfl 0 s2).trans (Soft.regWrite (f := .aintOep i) rfl 0 (regWrite (.aintIep i) 0 s2))
  have hq : ((regWrite (.aintOep i) 0 (regWrite (.aintIep i) 0 s2)).ri.iepAt i).act = false ∧
      ((regWrite (.aintOep i) 0 (regWrite (.aintIep i) 0 s2)).ri.oepAt i).act = false :=
    ⟨e3.inOff (e2.inOff a1), e3.outOff a2⟩
  have t1 : Touch s s1 := h1 ▸ Touch.actInOff i s
  have t2 : Touch s1 s2 := h2 ▸ Touch.actOutOff i s1
  exact .trans t1 (.trans t2
    (.trans (.write rfl 0 s2) (.trans (.write rfl 0 _) (.off _ i fun _ => hq))))

theorem Touch.busReset (s : State) : Touch s (busReset s) := by
  have h1 : Touch s ((List.range s.cfg.nEp).foldl busResetRegs s) := .foldl (fun s i =>
    .trans (.clearInFlags i s) (.trans (.clearOutFlags i _) (.trans (.write rfl _ _) (.write rfl _ _)))) _ _
  refine .trans h1 (.trans (.foldl Touch.busResetEndpoint ((List.range s.cfg.nEp).drop 1) _) ?_)
  refine .trans ?_ (.trans (.pendingZero 0 _) (.trans (.stageAddr 0 _) (.trans (.write rfl _ _) (.armCtrlOut _))))
  unfold busResetControl
  split
  · rename_i c hs
    exact .setControl hs
  all_goals exact .refl _

theorem Touch.handler {x : Source} {s t : State} (h : handler x s = .next t) : Touch s t := by
  cases x with
  | rxflvl =>
    obtain ⟨u, hu, h⟩ := andThen_eq_next h
    cases h
    exact .trans (.write rfl _ _) (.trans (.popStatus _) (.trans (.rxBranch hu) (.write rfl _ _)))
  | oepint => exact .forEach (fun _ _ _ => .scanOut) _ h
  | iepint => exact .forEach (fun _ _ _ => .scanIn) _ h
  | usbrst => exact .trans (.busReset s) (.trans (.issueCb _ _) (.answered h))
  | enumdne =>
    obtain ⟨p1, hp1, h⟩ := andThen_eq_next h
    refine .trans (.write rfl _ _) (.trans (.activateIn hp1) ?_)
    split at h
    · obtain ⟨p2, hp2, h⟩ := andThen_eq_next h
      split at h
      · cases h
        exact .trans (.activateOut hp2) (.armCtrlOut _)
      · cases h
    · cases h
  | _ => cases h; exact .refl s

theorem Touch.serve {x : Source} {s t : State} (h : serve x s = .next t) : Touch s t := by
  obtain ⟨u, hu, h⟩ := andThen_eq_next h
  cases h
  exact .trans (.handler hu) (.write rfl _ _)

theorem Touch.serveAll (p : Word) : ∀ (l : List Source) {s t : State}, serveAll p l s = .next t → Touch s t
  | [], s, _, h => by cases h; exact .refl s
  | x :: l, s, t, h => by
    simp only [Machine.serveAll] at h
    split at h
    · obtain ⟨u, hu, h⟩ := andThen_eq_next h
      exact .trans (.serve hu) (Touch.serveAll p l h)
    · exact Touch.serveAll p l h

theorem Touch.irq {s t : State} (h : execIrq s = .next t) : Touch s t := by
  obtain ⟨-, h⟩ := clocked_eq_next h
  obtain ⟨u, hu, h⟩ := andThen_eq_next h
  cases h
  exact .trans (.trans (.read _ s) (.read _ _)) (.serveAll _ _ hu)

/-! ## Instructions -/

theorem Touch.finish {x : M (Res × State)} {s t : State} (hx : ∀ p, x = .next p → Touch s p.2) (h : finish x = .next t) :
    Touch s t := by
  obtain ⟨p, hp, rfl⟩ := finish_eq_next h
  exact .trans (hx p hp) (.answer _ _)

theorem Touch.clockedServe {x : Source} {s t : State} (h : clocked s (Machine.serve x s) = .next t) : Touch s t :=
  Touch.serve (clocked_eq_next h).2

theorem Touch.onRegs {i : Nat} {s t : State} {k : M State} (hk : k = .next t → Touch s t) (h : onRegs i s k = .next t) : Touch s t := by
  unfold Machine.onRegs at h
  split at h
  · exact hk (clocked_eq_next h).2
  · cases h

theorem Touch.request {q : CbReq} {s t : State} (h : request q s = .next t) : Touch s t := by
  unfold Machine.request at h
  split at h
  · cases h
    exact .issueCb _ s
  · cases h

theorem Touch.requestControl {e : Nat} {q : CbReq} {s t : State} (h : requestControl e q s = .next t) : Touch s t := by
  unfold Machine.requestControl at h
  split at h
  · exact .request h
  · cases h

/-- Every instruction but the three of the lifecycle is a chain of `Touch` changes. -/
theorem exec_touch {i : Instr} {s t : State} (h : exec i s = .next t) (he : ∀ v, i ≠ .enable v) (hs : i ≠ .start)
    (hd : i ≠ .detach) : Touch s t := by
  cases i with
  | enable v => exact absurd rfl (he v)
  | start => exact absurd rfl hs
  | detach => exact absurd rfl hd
  | setAddress a =>
    simp only [exec, execSetAddress] at h
    split at h
    · cases h
      exact .trans (.stageAddr a s) (.answer _ _)
    · obtain ⟨-, h⟩ := clocked_eq_next h
      cases h
      exact .trans (.stageAddr a s) (.trans (.writeDevAddr _) (.answer _ _))
  | assignCtrlBuf len base => exact .finish (fun _ => .assignCtrlBuf) h
  | assignInBuf k len base => exact .finish (fun _ => .assignInBuf) h
  | assignOutBuf k len base => exact .finish (fun _ => .assignOutBuf) h
  | activateEpIn k t => exact .finish (fun _ => .activateIn) h
  | activateEpOut k t => exact .finish (fun _ => .activateOut) h
  | disableEpIn k => exact .finish (fun _ => .onEndpoint (.dropInSide _)) h
  | disableEpOut k => exact .finish (fun _ => .onEndpoint (.dropOutSide _)) h
  | stallEpIn k => exact .finish (fun _ => .onEndpoint fun _ => .write rfl _ _) h
  | stallEpOut k => exact .finish (fun _ => .onEndpoint fun _ => .write rfl _ _) h
  | clearStallIn k => exact .finish (fun _ => .onEndpoint (.clearStallIn _)) h
  | clearStallOut k => exact .finish (fun _ => .onEndpoint (.clearStallOut _)) h
  | setRxFifo n =>
    refine .finish (fun p hp => ?_) h
    unfold setRxFifo at hp
    split at hp
    · rename_i ho
      exact .layoutRx ho hp
    · cases hp
  | setTxFifo k n =>
    refine .finish (fun p hp => ?_) h
    unfold setTxFifo at hp
    split at hp
    · rename_i ho
      exact .layoutTx ho hp
    · cases hp
  | writePacket k n => exact .finish (fun _ => .writePacket) h
  | readPacket k n => exact .finish (fun _ => .readPacket) h
  | irq => exact .irq h
  | srcMmis => exact .clockedServe h
  | srcRxflvl => exact .clockedServe h
  | srcOepint => exact .clockedServe h
  | srcIepint => exact .clockedServe h
  | srcWkup => exact .clockedServe h
  | srcSusp => exact .clockedServe h
  | srcLpm => exact .clockedServe h
  | srcUsbrst => exact .clockedServe h
  | srcEnumdne => exact .clockedServe h
  | srcSof => exact .clockedServe h
  | srcIisoixfr => exact .clockedServe h
  | srcIisooxfr => exact .clockedServe h
  | srcSrq => exact .clockedServe h
  | srcOtg => exact .clockedServe h
  | oepXfrc k => exact .onRegs .serveOut h
  | oepStup k => exact .onRegs .serveOut h
  | oepOtepdis k => exact .onRegs .serveOut h
  | oepStsphsrx k => exact .onRegs .serveOut h
  | oepNak k => exact .onRegs .serveOut h
  | iepXfrc k => exact .onRegs .serveIn h
  | iepToc k => exact .onRegs .serveIn h
  | iepIttxfe k => exact .onRegs .serveIn h
  | iepInepne k => exact .onRegs .serveIn h
  | iepEpdisd k => exact .onRegs .serveIn h
  | iepTxfe k => exact .onRegs .serveIn h
  | rxDataUpdate e n d => exact .rxDataUpdate h
  | rxSetupComplete e n d => cases h; exact .refl s
  | rxSetupUpdate e n d => exact .rxSetupUpdate h
  | cbSetup e => exact .requestControl h
  | cbInData e => exact .request h
  | cbOutData e n => exact .request h
  | cbStatus e => exact .requestControl h
  | cbStatusComplete e => exact .requestControl h
  | cbBusReset => exact .request h
  | respSetupOk => exact .deliver h
  | respSetupOkSetAddress a => exact .deliver h
  | respSetupError => exact .deliver h
  | respInDataPacket n l => exact .deliver h
  | respInDataDelay => exact .deliver h
  | respInDataError => exact .deliver h
  | respOutDataOk => exact .deliver h
  | respOutDataHalted => exact .deliver h
  | respOutDataDelay => exact .deliver h
  | respStatusDone => exact .deliver h
  | respStatusCompleteDone => exact .deliver h
  | respBusResetDone => exact .deliver h
  | resOk => cases h; exact .answer _ s
  | resConfigurationError => cases h; exact .answer _ s
  | resHardwareTimeout => cases h; exact .answer _ s
  | resUnsupportedFeature => cases h; exact .answer _ s

end Sys2Proof.Machine
end

