-- ==== Sys2Proof/Laws/Steps.lean ====
section
/-! SUPPORT. Said once: what `ENABLE` can do, and what a step can do. -/

namespace Sys2Proof.Machine

/-! ## `ENABLE` -/

/-- Only the Register Interface changes, softly; anything that no invariant speaks of may change. -/
structure RegOnly (s t : State) : Prop where
  ri : Soft s.cfg s.ri t.ri
  cfg : t.cfg = s.cfg
  ctrl : t.ctrl = s.ctrl
  ep : t.ep = s.ep
  part : t.part = s.part
  mem : t.mem = s.mem

theorem RegOnly.refl (s : State) : RegOnly s s := ⟨.refl _, rfl, rfl, rfl, rfl, rfl⟩

theorem RegOnly.trans {s t u : State} (h : RegOnly s t) (k : RegOnly t u) : RegOnly s u :=
  ⟨h.ri.trans (h.cfg ▸ k.ri), k.cfg.trans h.cfg, k.ctrl.trans h.ctrl, k.ep.trans h.ep, k.part.trans h.part, k.mem.trans h.mem⟩

theorem RegOnly.write {f : Field} (h : f.soft = true) (v : Nat) (s : State) : RegOnly s (regWrite f v s) :=
  ⟨Soft.regWrite h v s, rfl, rfl, rfl, rfl, rfl⟩

theorem RegOnly.read (f : Field) (s : State) : RegOnly s (regRead f s) := ⟨Soft.regRead f s, rfl, rfl, rfl, rfl, rfl⟩

theorem RegOnly.readSelfClear {f : Field} (h : f.soft = true) (s : State) : RegOnly s (readSelfClear f s).2 := by
  simp only [Machine.readSelfClear]
  split
  · exact .read f s
  · exact .trans (.read f s) ⟨Soft.write h s.cfg 0 _, rfl, rfl, rfl, rfl, rfl⟩

theorem RegOnly.poll {rd : State → Nat × State} (h : ∀ s, RegOnly s (rd s).2) (v : Nat) :
    ∀ (n : Nat) (s : State), RegOnly s (pollUntil rd v n s).2
  | 0, s => .refl s
  | n + 1, s => by
    simp only [pollUntil]
    split
    · exact h s
    · exact .trans (h s) (RegOnly.poll h v n _)

theorem RegOnly.flushFifos (s : State) : RegOnly s (flushFifos s).2 := by
  have h1 := RegOnly.trans (.write (f := .txfFlush) rfl 1 s)
    (.poll (RegOnly.readSelfClear (f := .txfFlush) rfl) 0 s.cfg.retryCeiling _)
  simp only [Machine.flushFifos]
  split
  · refine .trans h1 ?_
    have h2 := fun u => RegOnly.trans (.write (f := .rxfFlush) rfl 1 u)
      (.poll (RegOnly.readSelfClear (f := .rxfFlush) rfl) 0 s.cfg.retryCeiling _)
    split <;> exact h2 _
  · exact h1

theorem RegOnly.setBaselineMask (s : State) : RegOnly s (setBaselineMask s) := by
  unfold Machine.setBaselineMask
  generalize Source.listing = l
  induction l generalizing s with
  | nil => exact .refl s
  | cons x l ih => exact .trans (.write rfl _ _) (ih _)

/-- Neither direction of any endpoint is active, and every type field is 0. -/
def Cleared (r : RegIf) : Prop :=
  ∀ i, (r.iepAt i).act = false ∧ (r.iepAt i).eptyp = 0 ∧ (r.oepAt i).act = false ∧ (r.oepAt i).eptyp = 0

theorem Cleared.soft {w : Config} {r r' : RegIf} (h : Cleared r) (k : Soft w r r') : Cleared r' := fun i => by
  obtain ⟨h1, h2, h3, h4⟩ := h i
  refine ⟨?_, (k.iep i).1.trans h2, ?_, (k.oep i).1.trans h4⟩
  · cases ha : (r'.iepAt i).act with
    | false => rfl
    | true => rw [(k.iep i).2 ha] at h1; cases h1
  · cases ha : (r'.oepAt i).act with
    | false => rfl
    | true => rw [(k.oep i).2 ha] at h3; cases h3

/-- Every list of the Register Interface has one entry per endpoint. -/
structure RegIf.Sized (n : Nat) (r : RegIf) : Prop where
  txf : r.txf.length = n
  aintIep : r.aintIep.length = n
  aintOep : r.aintOep.length = n
  iep : r.iep.length = n
  oep : r.oep.length = n
  txq : r.txq.length = n

theorem RegIf.Sized.soft {w : Config} {n : Nat} {r r' : RegIf} (h : r.Sized n) (k : Soft w r r') : r'.Sized n :=
  ⟨k.txf.trans h.txf, k.aintIep.trans h.aintIep, k.aintOep.trans h.aintOep, k.iepLen.trans h.iep, k.oepLen.trans h.oep, k.txq.trans h.txq⟩

theorem nextImage_sized (s : State) : (nextImage s).Sized s.cfg.nEp := by
  unfold nextImage
  split
  · constructor <;> simp [RegIf.referenceImage, RegIf.zero]
  · constructor <;> simp [RegIf.fit]

/-- A reset image's number fields are within their ranges, whatever the environment gave (10_state R42, 45 R278). -/
theorem nextImage_inRange (s : State) : (nextImage s).InRange s.cfg := by
  unfold nextImage
  split
  · refine ⟨Nat.two_pow_pos _, Nat.zero_le _, fun i => ?_⟩
    have h : ((RegIf.zero s.cfg.nEp).txf.getD i ⟨0, 0⟩) = ⟨0, 0⟩ := by
      simp only [RegIf.zero, List.getD_eq_getElem?_getD, List.getElem?_replicate]
      split <;> rfl
    simp only [RegIf.referenceImage, h]
    exact ⟨Nat.zero_le _, Nat.zero_le _⟩
  · rename_i r _ _
    refine ⟨Nat.mod_lt _ (Nat.two_pow_pos _), inFifoRam_le _ _, fun i => ?_⟩
    simp only [RegIf.fit, List.getD_eq_getElem?_getD, List.getElem?_map]
    cases (fitList s.cfg.nEp ⟨0, 0⟩ r.txf)[i]? with
    | none => exact ⟨Nat.zero_le _, Nat.zero_le _⟩
    | some x => exact ⟨inFifoRam_le _ _, inFifoRam_le _ _⟩

/-- The laid-out partition is within FIFO RAM and contiguous. -/
def PartOk (s : State) : Prop := PartitionFits s ∧ PartitionContiguous s

theorem placeTx_ok {i n : Nat} {s : State} (h : PartOk s) (ho : nextInOrder i s.part = true)
    (hn : layoutOffset i s.part + n ≤ s.cfg.fifoRamWords) : PartOk (placeTx i ⟨layoutOffset i s.part, n⟩ s) := by
  obtain ⟨hf, hc⟩ := h
  simp only [nextInOrder, Bool.and_eq_true] at ho
  obtain ⟨-, hd⟩ := ho
  have hz : ∀ l : List (Option TxPart), l.all Option.isNone = true → (l.map partSize).sum = 0 := by
    intro l
    induction l with
    | nil => intro _; rfl
    | cons x l ih =>
      intro h
      simp only [List.all_cons, Bool.and_eq_true] at h
      cases x with
      | none => simpa [partSize] using ih h.2
      | some t => cases h.1
  have htake : ∀ j, j ≤ i → layoutOffset j (placeTx i ⟨layoutOffset i s.part, n⟩ s).part = layoutOffset j s.part := by
    intro j hj
    simp only [layoutOffset, placeTx]
    congr 3
    apply List.ext_getElem?
    intro k
    simp only [List.getElem?_take, List.getElem?_modify]
    by_cases hk : k < j
    · simp [hk, show ¬ i = k by omega]
    · simp [hk]
  refine ⟨?_, ?_⟩
  · by_cases hl : i < s.part.tx.length
    · simp only [PartitionFits, FifoPart.total, placeTx]
      have hsplit : s.part.tx.modify i (fun _ => some ⟨layoutOffset i s.part, n⟩) =
          s.part.tx.take i ++ some ⟨layoutOffset i s.part, n⟩ :: s.part.tx.drop (i + 1) := by
        rw [List.modify_eq_take_cons_drop hl]
      have hdrop : ((s.part.tx.drop (i + 1)).map partSize).sum = 0 := by
        apply hz
        rw [List.all_eq_true] at hd ⊢
        intro x hx
        apply hd
        rw [List.drop_eq_getElem_cons hl]
        exact List.mem_cons_of_mem _ hx
      rw [hsplit, List.map_append, List.sum_append, List.map_cons, List.sum_cons, hdrop]
      simp only [layoutOffset, partSize] at hn ⊢
      omega
    · have : (placeTx i ⟨layoutOffset i s.part, n⟩ s).part = s.part := by
        simp only [placeTx]
        rw [List.modify_eq_self (by omega)]
      simp only [PartitionFits, this]
      exact hf
  · intro j t ht
    simp only [placeTx, getD_modify] at ht
    split at ht
    · rename_i hj
      cases ht
      rw [← hj.1, htake _ (Nat.le_refl _)]
    · rename_i hj
      rcases Nat.lt_or_ge j i with hji | hji
      · rw [htake j (by omega)]
        exact hc j t ht
      · exfalso
        have hm : some t ∈ s.part.tx.drop i := by
          have hlen : j < s.part.tx.length := by
            apply Decidable.byContradiction
            intro hlen
            rw [List.getD_eq_getElem?_getD, List.getElem?_eq_none (by omega)] at ht
            cases ht
          rw [List.mem_drop_iff_getElem]
          refine ⟨j - i, by omega, ?_⟩
          rw [List.getD_eq_getElem?_getD, List.getElem?_eq_getElem hlen] at ht
          simpa [show i + (j - i) = j by omega] using ht
        have := List.all_eq_true.mp hd _ hm
        cases this

theorem beginLayout_ok {n : Nat} {s : State} (hn : n ≤ s.cfg.fifoRamWords) : PartOk (beginLayout n s) := by
  have hz : ∀ l : List (Option TxPart), ((l.map fun _ => (none : Option TxPart)).map partSize).sum = 0 := by
    intro l
    induction l with
    | nil => rfl
    | cons x l ih => simpa [partSize] using ih
  refine ⟨?_, fun i t ht => ?_⟩
  · simp only [PartitionFits, FifoPart.total, beginLayout, hz]
    simpa using hn
  · simp only [beginLayout, List.getD_eq_getElem?_getD, List.getElem?_map] at ht
    cases h : s.part.tx[i]? <;> simp [h] at ht

/-- What `INIT_FIFOS` does: registers softly, and a partition that fits. -/
structure LaidOut (s t : State) : Prop where
  ri : Soft s.cfg s.ri t.ri
  cfg : t.cfg = s.cfg
  ctrl : t.ctrl = s.ctrl
  ep : t.ep = s.ep
  mem : t.mem = s.mem
  len : t.part.tx.length = s.part.tx.length
  part : PartOk s → PartOk t

theorem LaidOut.refl (s : State) : LaidOut s s := ⟨.refl _, rfl, rfl, rfl, rfl, rfl, id⟩

theorem LaidOut.trans {s t u : State} (h : LaidOut s t) (k : LaidOut t u) : LaidOut s u :=
  ⟨h.ri.trans (h.cfg ▸ k.ri), k.cfg.trans h.cfg, k.ctrl.trans h.ctrl, k.ep.trans h.ep, k.mem.trans h.mem, k.len.trans h.len, k.part ∘ h.part⟩

theorem LaidOut.layoutRx {n : Nat} {s : State} {p : Res × State} (h : layoutRx n s = .next p) : LaidOut s p.2 := by
  unfold Machine.layoutRx at h
  split at h
  · rename_i hn
    obtain ⟨-, h⟩ := clocked_eq_next h
    cases h
    exact ⟨Soft.regWrite (f := .rxfSize) rfl n s, rfl, rfl, rfl, rfl, by simp [beginLayout], fun _ => beginLayout_ok hn⟩
  · cases h
    exact .refl s

theorem LaidOut.layoutTx {i n : Nat} {s : State} {p : Res × State} (h : layoutTx i n s = .next p) : LaidOut s p.2 := by
  unfold Machine.layoutTx at h
  split at h
  · split at h
    · rename_i ho
      split at h
      · rename_i hn
        obtain ⟨-, h⟩ := clocked_eq_next h
        cases h
        exact ⟨(Soft.regWrite (f := .txfStart i) rfl (layoutOffset i s.part) s).trans (Soft.regWrite (f := .txfSize i) rfl n (regWrite (.txfStart i) (layoutOffset i s.part) s)), rfl, rfl, rfl, rfl, by simp [placeTx],
          fun hp => placeTx_ok (s := regWrite (.txfSize i) n (regWrite (.txfStart i) (layoutOffset i s.part) s)) hp ho hn⟩
      · cases h
        exact .refl s
    · cases h
  · cases h
    exact .refl s

theorem LaidOut.layoutTxAll : ∀ (l : List Nat) {s : State} {p : Res × State}, layoutTxAll l s = .next p → LaidOut s p.2
  | [], s, _, h => by cases h; exact .refl s
  | i :: l, s, p, h => by
    obtain ⟨q, hq, h⟩ := andThen_eq_next h
    split at h
    · exact .trans (.layoutTx hq) (LaidOut.layoutTxAll l h)
    · cases h
      exact .layoutTx hq

theorem LaidOut.initFifos {s : State} {p : Res × State} (h : initFifos s = .next p) : LaidOut s p.2 := by
  obtain ⟨q, hq, h⟩ := andThen_eq_next h
  split at h
  · exact .trans (.layoutRx hq) (.layoutTxAll _ h)
  · cases h
    exact .layoutRx hq

/-- What `ENABLE full` from `Disabled` can do. -/
structure Reinit (s t : State) : Prop where
  cfg : t.cfg = s.cfg
  mem : t.mem = s.mem
  len : t.part.tx.length = s.part.tx.length
  part : PartOk s → PartOk t
  sized : s.ri.Sized s.cfg.nEp → t.ri.Sized s.cfg.nEp
  range : FieldsInRange s → FieldsInRange t
  ep : t.ep = s.ep ∨ t.ep = s.ep.map resetEndpoint
  done : t.ctrl = .disabled ∨ t.ctrl = .initialized ∧ t.ep = s.ep.map resetEndpoint ∧ Cleared t.ri

theorem Reinit.before {s t : State} (hc : s.ctrl = .disabled) (h : RegOnly s t) : Reinit s t :=
  ⟨h.cfg, h.mem, by rw [h.part], fun hp => by
      refine ⟨?_, ?_⟩
      · simp only [PartitionFits, h.part, h.cfg]; exact hp.1
      · simp only [PartitionContiguous, h.part]; exact hp.2,
    fun hz => hz.soft h.ri, fun ha => by simpa only [FieldsInRange, h.cfg] using h.ri.range ha, .inl h.ep, .inl (h.ctrl.trans hc)⟩

theorem assertCoreReset_sized (s : State) : (assertCoreReset s).ri.Sized s.cfg.nEp :=
  have h := nextImage_sized (envPoint s)
  ⟨h.txf, h.aintIep, h.aintOep, h.iep, h.oep, h.txq⟩

theorem assertCoreReset_inRange (s : State) : FieldsInRange (assertCoreReset s) :=
  have h := nextImage_inRange (envPoint s)
  ⟨h.addr, h.rxfSize, h.txf⟩

theorem resetCore_partOk (s : State) : PartOk (resetCore s) := by
  have := beginLayout_ok (n := 0) (s := s) (Nat.zero_le _)
  refine ⟨?_, ?_⟩
  · have h := this.1
    simp only [PartitionFits, FifoPart.total, beginLayout, resetCore] at h ⊢
    simpa using h
  · intro i t ht
    have h := this.2 i t ht
    simpa [layoutOffset, beginLayout, resetCore] using h

/-- Only the registers change, and what is cleared stays so. -/
structure Kept (s u : State) : Prop where
  same : u = { s with ri := u.ri, moves := u.moves, trace := u.trace }
  sized : ∀ n, s.ri.Sized n → u.ri.Sized n
  range : FieldsInRange s → u.ri.InRange s.cfg
  iep : ∀ j, (s.ri.iepAt j).act = false ∧ (s.ri.iepAt j).eptyp = 0 → (u.ri.iepAt j).act = false ∧ (u.ri.iepAt j).eptyp = 0
  oep : ∀ j, (s.ri.oepAt j).act = false ∧ (s.ri.oepAt j).eptyp = 0 → (u.ri.oepAt j).act = false ∧ (u.ri.oepAt j).eptyp = 0

theorem Kept.refl (s : State) : Kept s s := ⟨rfl, fun _ h => h, id, fun _ h => h, fun _ h => h⟩

theorem Kept.trans {s t u : State} (h : Kept s t) (k : Kept t u) : Kept s u where
  same := by
    have h1 := h.same
    have h2 := k.same
    generalize u.ri = r, u.moves = m, u.trace = tr at h2
    subst h2
    generalize t.ri = r', t.moves = m', t.trace = tr' at h1
    subst h1
    rfl
  sized n hn := k.sized n (h.sized n hn)
  range ha := by
    have e : t.cfg = s.cfg := by rw [h.same]
    rw [← e]
    exact k.range (by simpa only [FieldsInRange, e] using h.range ha)
  iep j hj := k.iep j (h.iep j hj)
  oep j hj := k.oep j (h.oep j hj)

theorem Kept.soft {s u : State} (hs : u = { s with ri := u.ri, moves := u.moves, trace := u.trace }) (h : Soft s.cfg s.ri u.ri) : Kept s u :=
  ⟨hs, fun _ k => k.soft h, h.range, fun j k => ⟨h.inOff k.1, (h.iep j).1.trans k.2⟩, fun j k => ⟨h.outOff k.1, (h.oep j).1.trans k.2⟩⟩

theorem Kept.write {f : Field} (h : f.soft = true) (v : Nat) (s : State) : Kept s (regWrite f v s) := .soft rfl (Soft.regWrite h v s)

/-- The control word of an IN endpoint cleared. -/
theorem Kept.iepCtl (i : Nat) (s : State) : Kept s (regWrite (.iepCtl i) 0 s) ∧
    ((regWrite (.iepCtl i) 0 s).ri.iepAt i).act = false ∧ ((regWrite (.iepCtl i) 0 s).ri.iepAt i).eptyp = 0 := by
  have he : Kept s (envPoint s) := .soft rfl (Soft.moves s.cfg.layout _ s.ri)
  have h : ∀ j, (i = j ∨ ((envPoint s).ri.iepAt j).act = false ∧ ((envPoint s).ri.iepAt j).eptyp = 0) →
      ((regWrite (.iepCtl i) 0 s).ri.iepAt j).act = false ∧ ((regWrite (.iepCtl i) 0 s).ri.iepAt j).eptyp = 0 := fun j hj => by
    simp only [regWrite_ri, RegIf.write, RegIf.iepAt, getD_modify]
    by_cases hl : j < (envPoint s).ri.iep.length
    · by_cases hij : i = j
      · simp only [hij, hl, and_self, if_true]; exact ⟨rfl, rfl⟩
      · simp only [hij, false_and, if_false]; exact hj.resolve_left hij
    · rw [if_neg fun k => hl k.2, List.getD_eq_getElem?_getD, List.getElem?_eq_none (by omega)]; exact ⟨rfl, rfl⟩
  exact ⟨⟨rfl, fun n hn => have k := he.sized n hn; ⟨k.txf, k.aintIep, k.aintOep, by simpa [RegIf.write] using k.iep, k.oep, k.txq⟩,
    fun ha => have k := he.range ha; ⟨k.addr, k.rxfSize, k.txf⟩,
    fun j hj => h j (.inr (he.iep j hj)), fun j hj => he.oep j hj⟩, h i (.inl rfl)⟩

/-- The control word of an OUT endpoint cleared. -/
theorem Kept.oepCtl (i : Nat) (s : State) : Kept s (regWrite (.oepCtl i) 0 s) ∧
    ((regWrite (.oepCtl i) 0 s).ri.oepAt i).act = false ∧ ((regWrite (.oepCtl i) 0 s).ri.oepAt i).eptyp = 0 := by
  have he : Kept s (envPoint s) := .soft rfl (Soft.moves s.cfg.layout _ s.ri)
  have h : ∀ j, (i = j ∨ ((envPoint s).ri.oepAt j).act = false ∧ ((envPoint s).ri.oepAt j).eptyp = 0) →
      ((regWrite (.oepCtl i) 0 s).ri.oepAt j).act = false ∧ ((regWrite (.oepCtl i) 0 s).ri.oepAt j).eptyp = 0 := fun j hj => by
    simp only [regWrite_ri, RegIf.write, RegIf.oepAt, getD_modify]
    by_cases hl : j < (envPoint s).ri.oep.length
    · by_cases hij : i = j
      · simp only [hij, hl, and_self, if_true]; exact ⟨rfl, rfl⟩
      · simp only [hij, false_and, if_false]; exact hj.resolve_left hij
    · rw [if_neg fun k => hl k.2, List.getD_eq_getElem?_getD, List.getElem?_eq_none (by omega)]; exact ⟨rfl, rfl⟩
  exact ⟨⟨rfl, fun n hn => have k := he.sized n hn; ⟨k.txf, k.aintIep, k.aintOep, k.iep, by simpa [RegIf.write] using k.oep, k.txq⟩,
    fun ha => have k := he.range ha; ⟨k.addr, k.rxfSize, k.txf⟩,
    fun j hj => he.iep j hj, fun j hj => h j (.inr (he.oep j hj))⟩, h i (.inl rfl)⟩

theorem Kept.foldWrite {α : Type} (f : α → Field) (hf : ∀ a, (f a).soft = true) (v : Nat) : ∀ (l : List α) (s : State),
    Kept s (l.foldl (fun t a => regWrite (f a) v t) s)
  | [], s => .refl s
  | a :: l, s => .trans (.write (hf a) v s) (Kept.foldWrite f hf v l _)

/-- The endpoint part of `DeviceInit` for one endpoint clears that endpoint. -/
theorem Kept.initEndpoint (s : State) (i : Nat) : Kept s (initEndpointRegs s i) ∧
    (((initEndpointRegs s i).ri.iepAt i).act = false ∧ ((initEndpointRegs s i).ri.iepAt i).eptyp = 0) ∧
    ((initEndpointRegs s i).ri.oepAt i).act = false ∧ ((initEndpointRegs s i).ri.oepAt i).eptyp = 0 := by
  obtain ⟨h1, c1⟩ := Kept.iepCtl i s
  obtain ⟨h2, c2⟩ := Kept.oepCtl i (regWrite (.iepCtl i) 0 s)
  have h3 : Kept (regWrite (.oepCtl i) 0 (regWrite (.iepCtl i) 0 s)) (initEndpointRegs s i) :=
    .trans (.foldWrite (fun c => .iepCond i c) (fun _ => rfl) 1 _ _) (.foldWrite (fun c => .oepCond i c) (fun _ => rfl) 1 _ _)
  exact ⟨h1.trans (h2.trans h3), h3.iep i (h2.iep i c1), h3.oep i c2⟩

theorem Kept.initEndpoints (l : List Nat) (s : State) : Kept s (l.foldl initEndpointRegs s) ∧ ∀ i ∈ l,
    (((l.foldl initEndpointRegs s).ri.iepAt i).act = false ∧ ((l.foldl initEndpointRegs s).ri.iepAt i).eptyp = 0) ∧
    ((l.foldl initEndpointRegs s).ri.oepAt i).act = false ∧ ((l.foldl initEndpointRegs s).ri.oepAt i).eptyp = 0 := by
  induction l generalizing s with
  | nil => exact ⟨.refl s, fun _ h => nomatch h⟩
  | cons i l ih =>
    rw [List.foldl_cons]
    have h1 := Kept.initEndpoint s i
    revert h1
    generalize initEndpointRegs s i = u
    intro h1
    obtain ⟨h1, c1, c2⟩ := h1
    obtain ⟨h2, c⟩ := ih u
    refine ⟨h1.trans h2, fun j hj => ?_⟩
    rcases List.mem_cons.mp hj with rfl | hj
    · exact ⟨h2.iep _ c1, h2.oep _ c2⟩
    · exact c j hj

/-- The endpoint part of `DeviceInit` clears every endpoint. -/
theorem initEndpoints_cleared {s : State} (hz : s.ri.Sized s.cfg.nEp) :
    Cleared ((List.range s.cfg.nEp).foldl initEndpointRegs s).ri ∧
    ((List.range s.cfg.nEp).foldl initEndpointRegs s).ri.Sized s.cfg.nEp := by
  obtain ⟨h, c⟩ := Kept.initEndpoints (List.range s.cfg.nEp) s
  have hs := h.sized _ hz
  refine ⟨fun i => ?_, hs⟩
  by_cases hi : i < s.cfg.nEp
  · obtain ⟨⟨c1, c2⟩, c3, c4⟩ := c i (List.mem_range.mpr hi)
    exact ⟨c1, c2, c3, c4⟩
  · have h1 := hs.iep
    have h2 := hs.oep
    rw [RegIf.iepAt, RegIf.oepAt, List.getD_eq_getElem?_getD, List.getD_eq_getElem?_getD, List.getElem?_eq_none (by omega),
      List.getElem?_eq_none (by omega)]
    exact ⟨rfl, rfl, rfl, rfl⟩

theorem enableFromDisabled_reinit {s : State} {p : Res × State} (hc : s.ctrl = .disabled) (h : enableFromDisabled s = .next p) :
    Reinit s p.2 := by
  have h1 : RegOnly s (enablePrelude s) :=
    .trans (t := regWrite .gintEn 0 { s with clockOn := true })
      ⟨Soft.regWrite (f := .gintEn) rfl 0 { s with clockOn := true }, rfl, rfl, rfl, rfl, rfl⟩ (.write rfl _ _)
  unfold enableFromDisabled at h
  have hcr : ∀ u, (u = enablePrelude s) → ((coreSoftReset u).1 = .ok → ∃ w, (coreSoftReset u).2 = resetCore w ∧ w.ri.Sized s.cfg.nEp ∧ FieldsInRange w ∧
      w.cfg = s.cfg ∧ w.ctrl = s.ctrl ∧ w.ep = s.ep ∧ w.part = s.part ∧ w.mem = s.mem) ∧
      ((coreSoftReset u).1 ≠ .ok → Reinit s (coreSoftReset u).2) := by
    intro u hu
    subst hu
    have hi : RegOnly s (pollUntil readIdle 1 (enablePrelude s).cfg.retryCeiling (enablePrelude s)).2 :=
      .trans h1 (.poll (fun s => .read _ s) _ _ _)
    simp only [coreSoftReset]
    revert hi
    generalize pollUntil readIdle 1 (enablePrelude s).cfg.retryCeiling (enablePrelude s) = r1
    intro hi
    by_cases ha : r1.1 = true
    · rw [if_pos ha]
      have hz := assertCoreReset_sized r1.2
      rw [hi.cfg] at hz
      have hd := assertCoreReset_inRange r1.2
      have h2 := RegOnly.poll (RegOnly.readSelfClear (f := .coreRst) rfl) 0 (enablePrelude s).cfg.retryCeiling (assertCoreReset r1.2)
      revert h2
      generalize pollUntil (readSelfClear .coreRst) 0 (enablePrelude s).cfg.retryCeiling (assertCoreReset r1.2) = r2
      intro h2
      have e1 : r2.2.cfg = s.cfg := h2.cfg.trans hi.cfg
      have e2 : r2.2.ctrl = s.ctrl := h2.ctrl.trans hi.ctrl
      have e3 : r2.2.ep = s.ep := h2.ep.trans hi.ep
      have e4 : r2.2.part = s.part := h2.part.trans hi.part
      have e5 : r2.2.mem = s.mem := h2.mem.trans hi.mem
      have hd2 : FieldsInRange r2.2 := by
        unfold FieldsInRange
        rw [h2.cfg]
        exact h2.ri.range hd
      by_cases hb : r2.1 = true
      · rw [if_pos hb]
        exact ⟨fun _ => ⟨r2.2, rfl, hz.soft h2.ri, hd2, e1, e2, e3, e4, e5⟩, fun h => absurd rfl h⟩
      · rw [if_neg hb]
        refine ⟨fun h => (by cases h), fun _ => ⟨e1, e5, by rw [e4], fun hp => ?_, fun _ => hz.soft h2.ri, fun _ => hd2, .inl e3, .inl (e2.trans hc)⟩⟩
        refine ⟨?_, ?_⟩
        · simp only [PartitionFits, e4, e1]; exact hp.1
        · simp only [PartitionContiguous, e4]; exact hp.2
    · rw [if_neg ha]
      exact ⟨fun h => (by cases h), fun _ => .before hc hi⟩
  obtain ⟨hok, hno⟩ := hcr _ rfl
  revert h hok hno
  generalize coreSoftReset (enablePrelude s) = r1
  intro h hok hno
  simp only at h
  by_cases ho : r1.1 = .ok
  · rw [if_pos ho] at h
    obtain ⟨w, hw, hz, hw2, e1, e2, e3, e4, e5⟩ := hok ho
    rw [hw] at h
    have hd : ∃ v, (∃ m tr, v = { regWrite .devRole 1 (resetCore w) with ri := v.ri, moves := m, trace := tr }) ∧ Cleared v.ri ∧ v.ri.Sized s.cfg.nEp ∧
        v.ri.InRange s.cfg ∧
        RegOnly v (deviceInit (regWrite .devRole 1 (resetCore w))).2 := by
      have hz' : (regWrite .devRole 1 (resetCore w)).ri.Sized (regWrite .devRole 1 (resetCore w)).cfg.nEp := by
        show RegIf.Sized w.cfg.nEp _
        rw [e1]
        exact RegIf.Sized.soft (r := w.ri) hz (Soft.regWrite (f := .devRole) rfl 1 (resetCore w))
      obtain ⟨k1, k2⟩ := initEndpoints_cleared hz'
      refine ⟨_, ?_, k1, by rw [← e1]; exact k2, ?_, ?_⟩
      · exact ⟨_, _, (Kept.initEndpoints _ _).1.same⟩
      · rw [← e1]
        exact (Kept.initEndpoints _ (regWrite .devRole 1 (resetCore w))).1.range (Soft.regWrite (f := .devRole) rfl 1 (resetCore w) |>.range hw2)
      · simp only [deviceInit]
        split
        · exact .trans (.flushFifos _) (.setBaselineMask _)
        · exact .flushFifos _
    obtain ⟨v, ⟨m, tr, hv⟩, hcl, hsz, hav, hr⟩ := hd
    have f1 : v.cfg = s.cfg := by rw [hv]; exact e1
    have f2 : v.ctrl = s.ctrl := by rw [hv]; exact e2
    have f3 : v.ep = s.ep.map resetEndpoint := by rw [hv, ← e3]; rfl
    have f5 : v.mem = s.mem := by rw [hv]; exact e5
    have f4 : v.part = (resetCore w).part := by rw [hv]; rfl
    have hpv : PartOk v := by
      have := resetCore_partOk w
      refine ⟨?_, ?_⟩
      · have h := this.1
        simp only [PartitionFits, f4, f1] at h ⊢
        rw [← e1]; exact h
      · have h := this.2
        simp only [PartitionContiguous, f4] at h ⊢
        exact h
    have hlv : v.part.tx.length = s.part.tx.length := by rw [f4, ← e4]; simp [resetCore]
    have hwid : ∀ t, LaidOut (deviceInit (regWrite .devRole 1 (resetCore w))).2 t → FieldsInRange t := fun t k => by
      unfold FieldsInRange
      rw [k.cfg]
      refine k.ri.range ?_
      rw [hr.cfg]
      refine hr.ri.range ?_
      rw [f1]
      exact hav
    have done : ∀ t, LaidOut (deviceInit (regWrite .devRole 1 (resetCore w))).2 t → Reinit s t := fun t k =>
      ⟨k.cfg.trans (hr.cfg.trans f1), k.mem.trans (hr.mem.trans f5), by rw [k.len, hr.part, hlv],
        fun _ => k.part ⟨by simp only [PartitionFits, hr.part, hr.cfg]; exact hpv.1,
          by simp only [PartitionContiguous, hr.part]; exact hpv.2⟩,
        fun _ => (hsz.soft hr.ri).soft k.ri, fun _ => hwid t k, .inr (k.ep.trans (hr.ep.trans f3)), .inl (k.ctrl.trans (hr.ctrl.trans (f2.trans hc)))⟩
    by_cases hok2 : (deviceInit (regWrite .devRole 1 (resetCore w))).1 = .ok
    · rw [if_pos hok2] at h
      obtain ⟨q, hq, h⟩ := andThen_eq_next h
      have k := LaidOut.initFifos hq
      unfold enableEnd at h
      split at h
      · cases h
        have d := done _ k
        exact ⟨d.cfg, d.mem, d.len, d.part, d.sized, d.range, d.ep, .inr ⟨rfl, k.ep.trans (hr.ep.trans f3), (hcl.soft hr.ri).soft k.ri⟩⟩
      · cases h
        exact done _ k
    · rw [if_neg hok2] at h
      cases h
      exact done _ (.refl _)
  · rw [if_neg ho] at h
    cases h
    exact hno ho

theorem enable_cases {v : Speed} {s t : State} (h : exec (.enable v) s = .next t) :
    Touch s t ∨ (v = .full ∧ s.ctrl = .disabled ∧ ∃ p : Res × State, Reinit s p.2 ∧ t = answer p.1 p.2) := by
  obtain ⟨p, hp, rfl⟩ := finish_eq_next h
  cases v with
  | low => cases hp; exact .inl (.answer _ _)
  | full =>
    simp only [enableCore] at hp
    split at hp
    · rename_i hc
      exact .inr ⟨rfl, hc, p, enableFromDisabled_reinit hc hp, rfl⟩
    · cases hp
      exact .inl (.answer _ _)

/-! ## A step -/

/-- Everything a step can do: changes of `Touch`, or an instruction after one. -/
theorem step_cases {s t : State} (h : step s = .next t) :
    Touch s t ∨ ∃ (i : Instr) (l : List Input), exec i { s with inbox := l } = .next t := by
  unfold step nextOperation at h
  split at h
  · rename_i hin
    simp only [idle] at h
    split at h
    · exact .inr ⟨.irq, s.inbox, h⟩
    · cases h
      exact .inl (.refl s)
  · rename_i x rest hin
    cases x with
    | port p ws =>
      simp only [takeInput, takePort] at h
      split at h
      · cases h
      · split at h
        · exact .inr ⟨_, _, h⟩
        · have hs : Touch s (putBack p [] rest s) := .aux rfl rfl rfl rfl rfl rfl
          refine .inl ?_
          simp only [rejected] at h
          split at h <;> first
            | (cases h; exact hs)
            | (cases h; exact .trans hs (.answer _ _))
            | cases h
    | move m => cases h; exact .inl (.riAux (Soft.move _ _ _) rfl rfl rfl rfl rfl)
    | event e =>
      simp only [takeInput, takeEvent] at h
      split at h
      · cases h
      · cases h
        exact .inl (.riAux (Soft.moves _ _ _) rfl rfl rfl rfl rfl)
    | interrupts =>
      simp only [takeInput, takeInterrupts] at h
      split at h
      · cases h
      · split at h
        · exact .inr ⟨.irq, s.inbox, h⟩
        · cases h
          exact .inl (.aux rfl rfl rfl rfl rfl rfl)
    | clientWrite a b =>
      cases h
      refine .inl (.trans (t := { s with inbox := rest }) (.aux rfl rfl rfl rfl rfl rfl) ?_)
      exact .mem { s with inbox := rest } _ (fun hw => Memory.wf_write hw _ _) fun c hc => by
        rcases Memory.mem_write hc with rfl | hc
        · exact .inr a.isLt
        · exact .inl hc
    | clock on => cases h; exact .inl (.aux rfl rfl rfl rfl rfl rfl)

end Sys2Proof.Machine
end

