-- ==== Sys2Proof/Tests/Slice0.lean ====
section
/-! SUPPORT. Tests: ill-formed terms, words written out from the encodings of spec 30_encoding, one step on a small state with the
result taken from spec 95_test_vectors, and a witness for the hypotheses of each statement. -/

namespace Sys2Proof.Tests

open Sys2Proof.Machine

/-! ## Well-formedness refuses -/

theorem test_wf_condition_index :
    Instr.wellFormed (.oepXfrc 256) = false ∧ Instr.wellFormed (.oepStup 256) = false ∧
    Instr.wellFormed (.oepOtepdis 256) = false ∧ Instr.wellFormed (.oepStsphsrx 256) = false ∧
    Instr.wellFormed (.oepNak 256) = false ∧ Instr.wellFormed (.iepXfrc 256) = false ∧ Instr.wellFormed (.iepToc 256) = false ∧
    Instr.wellFormed (.iepIttxfe 256) = false ∧ Instr.wellFormed (.iepInepne 256) = false ∧
    Instr.wellFormed (.iepEpdisd 256) = false ∧ Instr.wellFormed (.iepTxfe 256) = false ∧
    Instr.wellFormed (.oepXfrc 255) = true := by decide

theorem test_wf_control_callback_endpoint :
    Instr.wellFormed (.cbSetup 1) = false ∧ Instr.wellFormed (.cbStatus 255) = false ∧
    Instr.wellFormed (.cbStatusComplete 1) = false ∧ Instr.wellFormed (.cbSetup 0) = true := by decide

/-- Layouts with two places that coincide, or a place outside its word or code (30_encoding R96). -/
theorem test_wf_layout :
    Layout.wf { Layout.default with mmis := 4 } = false ∧ Layout.wf { Layout.default with otg := 32 } = false ∧
    Layout.wf { Layout.default with outStup := 0 } = false ∧ Layout.wf { Layout.default with outNak := 32 } = false ∧
    Layout.wf { Layout.default with inTxfe := 6 } = false ∧ Layout.wf { Layout.default with inToc := 32 } = false ∧
    Layout.wf { Layout.default with rxPktsts := 29 } = false ∧ Layout.wf { Layout.default with rxDpid := 14 } = false ∧
    Layout.wf { Layout.default with setupUpdate := 4 } = false ∧ Layout.wf { Layout.default with dataUpdate := 16 } = false ∧
    Layout.wf Layout.default = true := by decide

/-- Parameters 00_scope R5 does not admit. -/
theorem test_wf_config :
    Config.wf { Config.vectors with nEp := 0 } = false ∧ Config.wf { Config.vectors with retryCeiling := 0 } = false ∧
    Config.wf { Config.vectors with layout := { Layout.default with mmis := 4 } } = false ∧
    Config.wf { Config.vectors with handlerOrder := [.mmis, .mmis] } = false := by decide

/-! ## Decoding: words written out from the tables of 30_encoding R93 to R101 -/

theorem test_decode_lifecycle :
    decode Layout.default .cmd [0x01000000] = .ok (.enable .full, []) ∧ decode Layout.default .cmd [0x01000001] = .ok (.enable .low, []) ∧
    decode Layout.default .cmd [0x02000000] = .ok (.start, []) ∧ decode Layout.default .cmd [0x03000000] = .ok (.detach, []) ∧
    decode Layout.default .cmd [0x0400FFFF] = .ok (.setAddress 0xFFFF, []) ∧ decode Layout.default .cmd [0x80000000] = .ok (.irq, []) :=
  ⟨rfl, rfl, rfl, rfl, rfl, rfl⟩

theorem test_decode_buffers :
    decode Layout.default .cmd [0x10000040, 0x20000000] = .ok (.assignCtrlBuf 64 0x20000000, []) ∧
    decode Layout.default .cmd [0x11FF8000, 0xFFFFFFFF] = .ok (.assignInBuf 255 0x8000 0xFFFFFFFF, []) ∧
    decode Layout.default .cmd [0x12010008, 0x00000001] = .ok (.assignOutBuf 1 8 1, []) := ⟨rfl, rfl, rfl⟩

theorem test_decode_endpoints :
    decode Layout.default .cmd [0x20010002] = .ok (.activateEpIn 1 .bulk, []) ∧ decode Layout.default .cmd [0x21FF0003] = .ok (.activateEpOut 255 .interrupt, []) ∧
    decode Layout.default .cmd [0x22030000] = .ok (.disableEpIn 3, []) ∧ decode Layout.default .cmd [0x23030000] = .ok (.disableEpOut 3, []) ∧
    decode Layout.default .cmd [0x24010000] = .ok (.stallEpIn 1, []) ∧ decode Layout.default .cmd [0x25020000] = .ok (.stallEpOut 2, []) ∧
    decode Layout.default .cmd [0x26010000] = .ok (.clearStallIn 1, []) ∧ decode Layout.default .cmd [0x27000000] = .ok (.clearStallOut 0, []) :=
  ⟨rfl, rfl, rfl, rfl, rfl, rfl, rfl, rfl⟩

theorem test_decode_fifos :
    decode Layout.default .cmd [0x30000080] = .ok (.setRxFifo 128, []) ∧ decode Layout.default .cmd [0x31010040] = .ok (.setTxFifo 1 64, []) ∧
    decode Layout.default .cmd [0x40010005] = .ok (.writePacket 1 5, []) ∧ decode Layout.default .cmd [0x41010005] = .ok (.readPacket 1 5, []) :=
  ⟨rfl, rfl, rfl, rfl⟩

/-- Bits of the default layout, one at a time (30_encoding R96). -/
theorem test_decode_sources :
    decode Layout.default .gintsts [0x00000002] = .ok (.srcMmis, []) ∧ decode Layout.default .gintsts [0x00000010] = .ok (.srcRxflvl, []) ∧
    decode Layout.default .gintsts [0x00080000] = .ok (.srcOepint, []) ∧ decode Layout.default .gintsts [0x00040000] = .ok (.srcIepint, []) ∧
    decode Layout.default .gintsts [0x80000000] = .ok (.srcWkup, []) ∧ decode Layout.default .gintsts [0x00000800] = .ok (.srcSusp, []) ∧
    decode Layout.default .gintsts [0x08000000] = .ok (.srcLpm, []) ∧ decode Layout.default .gintsts [0x00001000] = .ok (.srcUsbrst, []) ∧
    decode Layout.default .gintsts [0x00002000] = .ok (.srcEnumdne, []) ∧ decode Layout.default .gintsts [0x00000008] = .ok (.srcSof, []) ∧
    decode Layout.default .gintsts [0x00100000] = .ok (.srcIisoixfr, []) ∧ decode Layout.default .gintsts [0x00200000] = .ok (.srcIisooxfr, []) ∧
    decode Layout.default .gintsts [0x40000000] = .ok (.srcSrq, []) ∧ decode Layout.default .gintsts [0x00000004] = .ok (.srcOtg, []) :=
  ⟨rfl, rfl, rfl, rfl, rfl, rfl, rfl, rfl, rfl, rfl, rfl, rfl, rfl, rfl⟩

/-- Vector E-8: the sources of one word, one after another in the order of listing; a bit of no source alone is refused. -/
theorem test_decode_sources_in_order :
    decode Layout.default .gintsts [0x00083010] = .ok (.srcRxflvl, [0x00083000]) ∧ decode Layout.default .gintsts [0x00083000] = .ok (.srcOepint, [0x00003000]) ∧
    decode Layout.default .gintsts [0x00003000] = .ok (.srcUsbrst, [0x00002000]) ∧ decode Layout.default .gintsts [0x00000001] = .error .nothingServed :=
  ⟨rfl, rfl, rfl, rfl⟩

theorem test_decode_conditions :
    decode Layout.default (.doepint 3) [0x00000001] = .ok (.oepXfrc 3, []) ∧ decode Layout.default (.doepint 0) [0x00000008] = .ok (.oepStup 0, []) ∧
    decode Layout.default (.doepint 1) [0x00000010] = .ok (.oepOtepdis 1, []) ∧ decode Layout.default (.doepint 1) [0x00000020] = .ok (.oepStsphsrx 1, []) ∧
    decode Layout.default (.doepint 1) [0x00002000] = .ok (.oepNak 1, []) ∧ decode Layout.default (.diepint 3) [0x00000001] = .ok (.iepXfrc 3, []) ∧
    decode Layout.default (.diepint 1) [0x00000008] = .ok (.iepToc 1, []) ∧ decode Layout.default (.diepint 1) [0x00000010] = .ok (.iepIttxfe 1, []) ∧
    decode Layout.default (.diepint 1) [0x00000040] = .ok (.iepInepne 1, []) ∧ decode Layout.default (.diepint 1) [0x00000002] = .ok (.iepEpdisd 1, []) ∧
    decode Layout.default (.diepint 1) [0x00000080] = .ok (.iepTxfe 1, []) ∧
    decode Layout.default (.doepint 0) [0x00000009] = .ok (.oepXfrc 0, [0x00000008]) :=
  ⟨rfl, rfl, rfl, rfl, rfl, rfl, rfl, rfl, rfl, rfl, rfl, rfl⟩

/-- Vectors E-10 and E-11, the SETUP-complete word of 95 section 0, and every field at its largest. -/
theorem test_decode_receive_status :
    decode Layout.default .rxsts [0x00040051] = .ok (.rxDataUpdate 1 5 0, []) ∧ decode Layout.default .rxsts [0x000C0080] = .ok (.rxSetupUpdate 0 8 0, []) ∧
    decode Layout.default .rxsts [0x00080000] = .ok (.rxSetupComplete 0 0 0, []) ∧
    decode Layout.default .rxsts [0x0005FFFF] = .ok (.rxDataUpdate 15 2047 3, []) ∧ decode Layout.default .rxsts [0x00020000] = .error .unnamedPktsts :=
  ⟨rfl, rfl, rfl, rfl, rfl⟩

theorem test_decode_callbacks :
    decode Layout.default .cb [0x10000000] = .ok (.cbSetup 0, []) ∧ decode Layout.default .cb [0x20010000] = .ok (.cbInData 1, []) ∧
    decode Layout.default .cb [0x3001001F] = .ok (.cbOutData 1 31, []) ∧ decode Layout.default .cb [0x40000000] = .ok (.cbStatus 0, []) ∧
    decode Layout.default .cb [0x50000000] = .ok (.cbStatusComplete 0, []) ∧ decode Layout.default .cb [0x60000000] = .ok (.cbBusReset, []) ∧
    decode Layout.default .cb [0x70000000] = .error .unknownCallback := ⟨rfl, rfl, rfl, rfl, rfl, rfl, rfl⟩

theorem test_decode_responses :
    decode Layout.default .resp [0x10000000] = .ok (.respSetupOk, []) ∧ decode Layout.default .resp [0x11000005] = .ok (.respSetupOkSetAddress 5, []) ∧
    decode Layout.default .resp [0x12000000] = .ok (.respSetupError, []) ∧ decode Layout.default .resp [0x20010012] = .ok (.respInDataPacket 18 true, []) ∧
    decode Layout.default .resp [0x20000010] = .ok (.respInDataPacket 16 false, []) ∧ decode Layout.default .resp [0x21000000] = .ok (.respInDataDelay, []) ∧
    decode Layout.default .resp [0x22000000] = .ok (.respInDataError, []) ∧ decode Layout.default .resp [0x30000000] = .ok (.respOutDataOk, []) ∧
    decode Layout.default .resp [0x31000000] = .ok (.respOutDataHalted, []) ∧ decode Layout.default .resp [0x32000000] = .ok (.respOutDataDelay, []) ∧
    decode Layout.default .resp [0x40000000] = .ok (.respStatusDone, []) ∧ decode Layout.default .resp [0x50000000] = .ok (.respStatusCompleteDone, []) ∧
    decode Layout.default .resp [0x60000000] = .ok (.respBusResetDone, []) ∧ decode Layout.default .resp [0x13000000] = .error .unknownResponse :=
  ⟨rfl, rfl, rfl, rfl, rfl, rfl, rfl, rfl, rfl, rfl, rfl, rfl, rfl, rfl⟩

theorem test_decode_results :
    decode Layout.default .res [0] = .ok (.resOk, []) ∧ decode Layout.default .res [1] = .ok (.resConfigurationError, []) ∧
    decode Layout.default .res [2] = .ok (.resHardwareTimeout, []) ∧ decode Layout.default .res [3] = .ok (.resUnsupportedFeature, []) ∧
    decode Layout.default .res [4] = .error .unknownResult := ⟨rfl, rfl, rfl, rfl, rfl⟩

/-- Vectors E-1 to E-3 and 30_encoding R104. -/
theorem test_decode_rejects :
    decode Layout.default .cmd [0x05000000] = .error .unknownOpcode ∧ decode Layout.default .cmd [0x02000001] = .error .nonZeroField ∧
    decode Layout.default .cmd [0x01000002] = .error .nonZeroField ∧ decode Layout.default .cmd [0x25040001] = .error .nonZeroField ∧
    decode Layout.default .cmd [0x10000040] = .error .wrongLength ∧ decode Layout.default .cmd [0x02000000, 0] = .error .wrongLength ∧
    decode Layout.default .cmd [] = .error .wrongLength := ⟨rfl, rfl, rfl, rfl, rfl, rfl, rfl⟩

/-- Another layout: the bits say what it says (00_scope R5). -/
theorem test_decode_other_layout :
    decode { Layout.default with mmis := 4, rxflvl := 1 } .gintsts [0x00000002] = .ok (.srcRxflvl, []) ∧
    decode { Layout.default with rxDpid := 4, rxBcnt := 6 } .rxsts [0x00040141] = .ok (.rxDataUpdate 1 5 0, []) ∧
    encode { Layout.default with inXfrc := 9 } (.iepXfrc 2) = (.diepint 2, [0x00000200]) := ⟨rfl, rfl, rfl⟩

theorem test_table_words :
    decodeTableWord 32 0x20010002 = some (.activateEpIn 1 .bulk) ∧
    decodeTableWord 64 0x2000000010000040 = some (.assignCtrlBuf 64 0x20000000) := by decide

/-! ## One step, on small states -/

/-- A check of the next state, false where the step stops. -/
def ok (x : M State) (p : State → Bool) : Bool :=
  match x with
  | .next t => p t
  | .fault _ => false
  | .refused _ => false

/-- The control buffer and the buffers of the data endpoints of 95 section 2.6. -/
def ctrlBuf : Buf := ⟨0x20000000, 64⟩
def inBuf1 : Buf := ⟨0x20000100, 64⟩
def outBuf1 : Buf := ⟨0x20000140, 64⟩

/-- State V-INIT of 95 section 2.2, with the registers nothing tests left as at power-on. -/
def vInit : State := { State.reset with
  ctrl := .initialized, clockOn := true,
  part := ⟨some 128, [some ⟨128, 32⟩, some ⟨160, 64⟩, some ⟨224, 32⟩, some ⟨256, 32⟩]⟩
  ep := State.reset.ep.modify 0 fun e => { e with inBuf := some ctrlBuf, outBuf := some ctrlBuf }
  ri := { State.reset.ri with phyFs := true, devRole := true, intmsk := 0x803C3810, rxfSize := 128 } }

/-- An endpoint with both buffers and a sub-state. -/
def endpoint (b1 b2 : Buf) (x : Sub) (n : BitVec 16) : Endpoint := ⟨some b1, some b2, n, .h2d, x⟩

/-- V-INIT with endpoint 0 in a control sub-state, `n` bytes pending, a direction. -/
def ctrlAt (c : CtrlSub) (n : BitVec 16) (d : Dir) : State :=
  { vInit with ctrl := .started, ep := vInit.ep.modify 0 fun _ => ⟨some ctrlBuf, some ctrlBuf, n, d, .control c⟩ }

/-- V-INIT with endpoint 1 in a sub-state, `n` bytes pending. -/
def dataAt (x : Sub) (n : BitVec 16) : State :=
  { vInit with ctrl := .started, ep := vInit.ep.modify 1 fun _ => endpoint inBuf1 outBuf1 x n }

/-- Answers the Client will give, in order. -/
def answering (ws : List Word) (s : State) : State :=
  { s with client := { s.client with answers := ws.map fun w => ⟨[], w⟩ } }

/-- A callback in progress. -/
def during (q : CbReq) (s : State) : State := { s with client := { s.client with outstanding := some q } }

/-- Bytes of memory from an address on, rising. -/
def bytesAt (a : Nat) (bs : List Byte) (s : State) : State := { s with mem := bs.zipIdx.map fun x => (a + x.2, x.1) }

/-- Items waiting in the receive queue. -/
def received (q : List RxItem) (s : State) : State := { s with ri := { s.ri with rxq := q } }

/-- V-INIT: the accesses of `ENABLE full`, the end state (95 section 2.2). -/
theorem test_enable : ok (exec (.enable .full) State.reset) (fun t =>
    t.ctrl == .initialized && t.clockOn && t.ri.intmsk == 0x803C3810 && t.ri.phyFs && t.ri.devRole && !t.ri.gintEn &&
    t.part == ⟨some 128, [some ⟨128, 32⟩, some ⟨160, 64⟩, some ⟨224, 32⟩, some ⟨256, 32⟩]⟩ && t.result == some .ok) = true := by
  decide +kernel

/-- K-6: the partition does not fit. -/
theorem test_enable_partition_too_large :
    ok (exec (.enable .full) (State.powerOn { Config.vectors with txFifoWords := [32, 64, 64, 64] })) (fun t =>
      t.result == some .configurationError && t.ctrl == .disabled && t.part.tx.getD 3 none == none) = true := by decide +kernel

/-- E-4. -/
theorem test_enable_low : ok (exec (.enable .low) State.reset) (fun t => t.result == some .unsupportedFeature && t.trace == []) = true := by
  decide

/-- K-7, K-8. -/
theorem test_start : ok (exec .start vInit) (fun t =>
    t.ctrl == .started && t.ri.gintEn && t.ri.connect && t.result == some .ok) = true ∧
    exec .start State.reset = .refused .startNotInitialized := ⟨by decide, rfl⟩

/-- K-10, K-11. -/
theorem test_detach : ok (exec .detach { vInit with ctrl := .started }) (fun t =>
    t.ctrl == .initialized && !t.ri.gintEn && !t.ri.connect) = true ∧ exec .detach vInit = .refused .detachNotStarted :=
  ⟨by decide, rfl⟩

/-- K-12. -/
theorem test_setAddress_deferred : ok (exec (.setAddress 5) State.reset) (fun t => t.devAddrPending == 5 && t.ri.addr == 0) = true := by
  decide

/-- K-13. -/
theorem test_setAddress_immediate :
    ok (exec (.setAddress 0x185) { State.powerOn { Config.vectors with addrTiming := .immediate } with clockOn := true })
      (fun t => t.devAddrPending == 0x185 && t.ri.addr == 5) = true := by decide

/-- M-1, M-2. -/
theorem test_assignCtrlBuf :
    ok (exec (.assignCtrlBuf 64 0x20000000) State.reset) (fun t =>
      (t.epAt 0).inBuf == some ctrlBuf && (t.epAt 0).outBuf == some ctrlBuf && t.trace == []) = true ∧
    ok (exec (.assignCtrlBuf 4 0x20000000) State.reset) (fun t =>
      t.result == some .configurationError && (t.epAt 0).inBuf == none) = true := by decide

/-- M-3, M-4. -/
theorem test_assignInBuf :
    ok (exec (.assignInBuf 1 8 0xFFFFFFF8) State.reset) (fun t =>
      t.result == some .ok && (t.epAt 1).inBuf == some ⟨0xFFFFFFF8, 8⟩ && (t.epAt 1).outBuf == none) = true ∧
    ok (exec (.assignInBuf 1 8 0xFFFFFFF9) State.reset) (fun t => t.result == some .configurationError) = true := by decide

/-- 42 R191: the interrupt payload follows the buffer. -/
theorem test_assignInBuf_interrupt :
    ok (exec (.assignInBuf 1 16 0x20000100) (dataAt (.interrupt .init 64) 0)) (fun t => (t.epAt 1).sub == .interrupt .init 16) =
      true := by decide

/-- S2, M-5. -/
theorem test_assignOutBuf :
    ok (exec (.assignOutBuf 1 8 0x20000140) State.reset) (fun t => (t.epAt 1).outBuf == some ⟨0x20000140, 8⟩) = true ∧
    ok (exec (.assignOutBuf 1 15 0x20000140) State.reset) (fun t => t.result == some .configurationError) = true := by decide

/-- M-14. -/
theorem test_activateEpIn : ok (exec (.activateEpIn 1 .bulk) { dataAt .disabled 0 with ctrl := .initialized }) (fun t =>
    t.ri.iepAt 1 == { InRegs.zero with eptyp := 2, mps := 64, txfnum := 1, act := true } && t.ri.aintIep.getD 1 false &&
    (t.epAt 1).sub == .bulk .init .init) = true := by decide

/-- M-10, M-11. -/
theorem test_activateEpIn_errors :
    ok (exec (.activateEpIn 1 .isochronous) vInit) (fun t => t.result == some .unsupportedFeature) = true ∧
    ok (exec (.activateEpIn 1 .bulk) vInit) (fun t => t.result == some .configurationError) = true := by decide

/-- M-15. -/
theorem test_activateEpOut : ok (exec (.activateEpOut 1 .bulk) (dataAt (.bulk (.busy 5) .init) 0)) (fun t =>
    t.ri.oepAt 1 == { OutRegs.zero with eptyp := 2, mps := 64, act := true, xfrsiz := 64, pktcnt := 1, ena := true } &&
    t.ri.aintOep.getD 1 false && (t.epAt 1).sub == .bulk (.busy 5) .init) = true := by decide

/-- M-18. -/
theorem test_activateEpOut_interrupt : exec (.activateEpOut 1 .interrupt) (dataAt .disabled 0) = .refused .interruptOut := rfl

/-- M-26. -/
theorem test_disableEpIn :
    ok (exec (.disableEpIn 1) { dataAt (.bulk (.busy 5) .init) 0 with
      ri := { vInit.ri with oep := vInit.ri.oep.modify 1 fun r => { r with act := true } } }) (fun t =>
        (t.epAt 1).sub == .bulk .init .init && (t.ri.iepAt 1).nak && !(t.ri.iepAt 1).act) = true := by decide

/-- M-27. -/
theorem test_disableEpOut : ok (exec (.disableEpOut 1) (dataAt (.bulk .init .outDelay) 5)) (fun t =>
    t.epAt 1 == endpoint inBuf1 outBuf1 .disabled 0 && (t.ri.oepAt 1).nak) = true := by decide

/-- M-23. -/
theorem test_stall : ok (exec (.stallEpIn 1) vInit) (fun t => (t.ri.iepAt 1).stall && !(t.ri.oepAt 1).stall) = true ∧
    ok (exec (.stallEpOut 1) vInit) (fun t => (t.ri.oepAt 1).stall && !(t.ri.iepAt 1).stall) = true ∧
    ok (exec (.stallEpOut 4) vInit) (fun t => t.result == some .configurationError) = true := by decide

/-- M-24, M-25. -/
theorem test_clearStall :
    ok (exec (.clearStallIn 1) { vInit with ri := { vInit.ri with iep := vInit.ri.iep.map fun r => { r with stall := true, dpid := true } } })
      (fun t => !(t.ri.iepAt 1).stall && !(t.ri.iepAt 1).dpid) = true ∧
    ok (exec (.clearStallOut 0) { vInit with ri := { vInit.ri with oep := vInit.ri.oep.map fun r => { r with stall := true, dpid := true } } })
      (fun t => !(t.ri.oepAt 0).stall && (t.ri.oepAt 0).dpid) = true := by decide

/-- 45 R274: `SET_RX_FIFO 128`, `SET_RX_FIFO 321`. -/
theorem test_setRxFifo :
    ok (exec (.setRxFifo 128) vInit) (fun t => t.ri.rxfSize == 128 && t.part == ⟨some 128, [none, none, none, none]⟩) = true ∧
    ok (exec (.setRxFifo 321) vInit) (fun t => t.result == some .configurationError && t.part == vInit.part) = true := by decide

/-- 45 R275: `{160, 64}`; then 65 words that would need 321. -/
theorem test_setTxFifo :
    ok (exec (.setTxFifo 1 64) { vInit with part := ⟨some 128, [some ⟨128, 32⟩, none, none, none]⟩ }) (fun t =>
      t.part.tx.getD 1 none == some ⟨160, 64⟩ && t.ri.txf.getD 1 ⟨0, 0⟩ == ⟨160, 64⟩) = true ∧
    ok (exec (.setTxFifo 3 65) { vInit with part := ⟨some 128, [some ⟨128, 32⟩, some ⟨160, 64⟩, some ⟨224, 32⟩, none]⟩ }) (fun t =>
      t.result == some .configurationError) = true := by decide

/-- 45 R270's example; F-1. -/
theorem test_writePacket :
    ok (exec (.writePacket 1 5) (bytesAt 0x20000100 [0x11, 0x22, 0x33, 0x44, 0x55] (dataAt .disabled 0))) (fun t =>
      t.ri.txq.getD 1 [] == [0x11223344, 0x55000000]) = true ∧
    ok (exec (.writePacket 1 65) (dataAt .disabled 0)) (fun t => t.result == some .configurationError) = true := by decide

/-- 45 R271 with a whole number of words. -/
theorem test_readPacket :
    ok (exec (.readPacket 1 4) (received [.data 0x11223344, .data 0x55000000] (dataAt .disabled 0))) (fun t =>
      t.mem == [(0x20000140, 0x11), (0x20000141, 0x22), (0x20000142, 0x33), (0x20000143, 0x44)] &&
      t.ri.rxq == [.data 0x55000000]) = true := by decide

/-- 45 R272, R273: the vectors of 95 section 2.7. -/
theorem test_pack :
    pack .big [0x11, 0x22, 0x33, 0x44, 0x55] = [0x11223344, 0x55000000] ∧
    pack .little [1, 2, 3, 4, 5, 6, 7] = [0x04030201, 0x00070605] ∧
    unpack .big 0x80060001 0 = 0x80 ∧ unpack .little 0x80060001 3 = 0x80 := by decide

/-- I-1: a spurious invocation; I-2. -/
theorem test_irq :
    ok (exec .irq vInit) (fun t => t.trace == [.read .intmsk, .read .intsts] && t.ri == vInit.ri) = true ∧
    ok (exec .irq { vInit with ri := { vInit.ri with intsts := 0x00000808 } }) (fun t => t.ri.intsts == 0x00000008) = true := by decide

/-- 41 R143, R162 to R164, R167 to R171: acknowledged, and nothing else. -/
theorem test_sources_no_action :
    noActionSources.all (fun x => ok (exec x.instr { vInit with ri := { vInit.ri with intsts := 0xFFFFFFFF } }) (fun t =>
      t.ri.intsts == putBit 0xFFFFFFFF (Layout.default.bit x) false && t.ep == vInit.ep && t.ctrl == .initialized)) = true := by decide

/-- I-5. -/
theorem test_rxflvl_setup :
    ok (exec .srcRxflvl (received [.status 0x000C0080, .data 0x80060001, .data 0x00004000] (ctrlAt .init 0 .h2d))) (fun t =>
      t.mem.read 0x20000000 == 0x80 && t.mem.read 0x20000006 == 0x40 && (t.epAt 0).pendingSize == 8 && (t.epAt 0).reqDir == .d2h &&
      t.ri.rxq == [] && testBit t.ri.intmsk 4 && t.client.calls == []) = true := by decide

/-- I-4: an unnamed code is discarded. -/
theorem test_rxflvl_other : ok (exec .srcRxflvl (received [.status 0x00020000] vInit)) (fun t =>
    t.ri.rxq == [] && t.ep == vInit.ep && t.mem == []) = true := by decide

/-- 41 R149: two conditions of one endpoint in one read, both acknowledged. -/
theorem test_oepint :
    ok (exec .srcOepint { vInit with ri := { vInit.ri with oep := vInit.ri.oep.modify 2 fun r => { r with int := 0x4021 } } }) (fun t =>
      (t.ri.oepAt 2).int == 0x4000) = true := by decide

theorem test_iepint :
    ok (exec .srcIepint { vInit with ri := { vInit.ri with iep := vInit.ri.iep.modify 3 fun r => { r with int := 0x10CB } } }) (fun t =>
      (t.ri.iepAt 3).int == 0x1000) = true := by decide

/-- V-RESET, first `IRQ`. -/
theorem test_usbrst :
    ok (exec .srcUsbrst (answering [0x60000000] { dataAt (.bulk (.busy 5) .outDelay) 5 with
      devAddrPending := 5, ri := { vInit.ri with addr := 5, intsts := 0x1000 } })) (fun t =>
        t.ri.addr == 0 && t.devAddrPending == 0 && t.epAt 1 == endpoint inBuf1 outBuf1 .disabled 0 && (t.epAt 0).sub == .disabled &&
        t.client.calls == [.busReset] && (t.ri.oepAt 0).stupcnt == 3 && (t.ri.oepAt 0).xfrsiz == 24 && t.ri.intsts == 0) = true := by decide

/-- V-RESET, second `IRQ`; I-13. -/
theorem test_enumdne :
    ok (exec .srcEnumdne vInit) (fun t => (t.epAt 0).sub == .control .init && (t.ri.iepAt 0).act && (t.ri.oepAt 0).act &&
      (t.ri.oepAt 0).ena && (t.ri.oepAt 0).stupcnt == 3 && t.client.calls == []) = true ∧
    exec .srcEnumdne { State.reset with ctrl := .started, clockOn := true } = .refused .enumWithoutBuffers := ⟨by decide, rfl⟩

/-- B-8. -/
theorem test_oepXfrc_bulk :
    ok (exec (.oepXfrc 1) (answering [0x30000000] (dataAt (.bulk .init (.outData 5)) 5))) (fun t =>
      (t.epAt 1).sub == .bulk .init .init && t.client.calls == [.outData 1 5] && (t.ri.oepAt 1).xfrsiz == 64 && (t.ri.oepAt 1).ena) =
      true := by decide

/-- P2, last step: the end of a control read. -/
theorem test_oepXfrc_status :
    ok (exec (.oepXfrc 0) (answering [0x40000000, 0x50000000] (ctrlAt .readStatus 0 .d2h))) (fun t =>
      (t.epAt 0).sub == .control .init && t.client.calls == [.statusComplete 0, .status 0] && (t.ri.oepAt 0).ena) = true := by decide

/-- C-1. -/
theorem test_oepStup :
    ok (exec (.oepStup 0) (answering [0x10000000, 0x40000000, 0x50000000] (bytesAt 0x20000000 [0, 9, 1] (ctrlAt .init 8 .h2d)))) (fun t =>
      t.client.calls == [.statusComplete 0, .status 0, .setup 0] && (t.epAt 0).sub == .control .init && (t.ri.iepAt 0).ena &&
      (t.ri.iepAt 0).xfrsiz == 0 && t.ri.txq.getD 0 [] == []) = true := by decide

/-- C-11, I-10. -/
theorem test_oepStup_refused :
    exec (.oepStup 0) (ctrlAt .init 0 .h2d) = .refused .setupNotEightBytes ∧ exec (.oepStup 1) vInit = .refused .noControlEndpoint :=
  ⟨rfl, rfl⟩

/-- B-10. -/
theorem test_oepOtepdis :
    ok (exec (.oepOtepdis 1) (answering [0x30000000] (dataAt (.bulk .init .outDelay) 5))) (fun t =>
      (t.epAt 1).sub == .bulk .init .init && t.client.calls == [.outData 1 5] && (t.ri.oepAt 1).ena) = true := by decide

theorem test_oepStsphsrx : ok (exec (.oepStsphsrx 0) (ctrlAt .readStatus 0 .d2h)) (fun t =>
    (t.epAt 0).sub == .control .readStatus && t.client.calls == []) = true := by decide

/-- B-11, the first of the two. -/
theorem test_oepNak :
    ok (exec (.oepNak 1) (answering [0x32000000] (dataAt (.bulk .init .outDelay) 5))) (fun t =>
      (t.epAt 1).sub == .bulk .init .outDelay && t.client.calls == [.outData 1 5] && !(t.ri.oepAt 1).ena) = true := by decide

/-- B-3. -/
theorem test_iepXfrc_bulk : ok (exec (.iepXfrc 1) (dataAt (.bulk (.busy 5) .outDelay) 5)) (fun t =>
    (t.epAt 1).sub == .bulk .init .outDelay && t.client.calls == []) = true := by decide

/-- C-3. -/
theorem test_iepXfrc_address :
    ok (exec (.iepXfrc 0) { ctrlAt .setAddress 8 .h2d with devAddrPending := 5 }) (fun t =>
      t.ri.addr == 5 && (t.epAt 0).sub == .control .init && (t.ri.oepAt 0).ena && t.client.calls == []) = true := by decide

/-- B-1. -/
theorem test_iepIttxfe_bulk :
    ok (exec (.iepIttxfe 1) (answering [0x20010005] (bytesAt 0x20000100 [0x11, 0x22, 0x33, 0x44, 0x55] (dataAt (.bulk .init .init) 0))))
      (fun t => (t.epAt 1).sub == .bulk (.busy 5) .init && t.ri.txq.getD 1 [] == [0x11223344, 0x55000000] && (t.ri.iepAt 1).xfrsiz == 5 &&
        (t.ri.iepAt 1).ena) = true := by decide

/-- B-16. -/
theorem test_iepIttxfe_too_long :
    exec (.iepIttxfe 1) (answering [0x20000011] (dataAt (.interrupt .init 16) 0)) = .refused .packetTooLong := rfl

theorem test_iep_no_action :
    [Instr.iepToc 1, .iepInepne 1, .iepEpdisd 1, .iepTxfe 1].all (fun i => ok (exec i (dataAt (.bulk (.busy 5) .init) 0)) (fun t =>
      (t.epAt 1).sub == .bulk (.busy 5) .init && t.client.calls == [])) = true := by decide

/-- B-7, with a whole number of words; B-13. -/
theorem test_rxDataUpdate :
    ok (exec (.rxDataUpdate 1 4 0) (received [.data 0x11223344] (dataAt (.bulk .init .init) 0))) (fun t =>
      t.mem.read 0x20000143 == 0x44 && (t.epAt 1).pendingSize == 4 && (t.epAt 1).sub == .bulk .init (.outData 4)) = true ∧
    exec (.rxDataUpdate 1 4 0) (dataAt (.bulk .init (.outData 4)) 4) = .refused .receiveNotTakable := ⟨by decide, rfl⟩

/-- I-6. -/
theorem test_rxSetupComplete : ok (exec (.rxSetupComplete 0 0 0) vInit) (fun t => t == vInit) = true := by decide

/-- The host-to-device direction (43 R234, `0x21`). -/
theorem test_rxSetupUpdate :
    ok (exec (.rxSetupUpdate 0 8 0) (received [.data 0x21060001, .data 0x00004000] (ctrlAt .init 0 .d2h))) (fun t =>
      (t.epAt 0).reqDir == .h2d && (t.epAt 0).pendingSize == 8 && t.mem.read 0x20000000 == 0x21) = true := by decide

/-- 30_encoding R100: the request goes out; 60 R314: not inside another. -/
theorem test_callback_requests :
    [(Instr.cbSetup 0, CbReq.setup 0), (.cbInData 1, .inData 1), (.cbOutData 1 31, .outData 1 31), (.cbStatus 0, .status 0),
      (.cbStatusComplete 0, .statusComplete 0), (.cbBusReset, .busReset)].all (fun x =>
        ok (exec x.1 vInit) (fun t => t.client.outstanding == some x.2 && t.client.calls == [x.2])) = true ∧
    exec .cbBusReset (during (.setup 0) vInit) = .refused .insideCallback := ⟨by decide, rfl⟩

/-- C-2: the length is tested before the direction; then a request with data. -/
theorem test_respSetupOk :
    ok (exec .respSetupOk (during (.setup 0) (ctrlAt .init 8 .d2h))) (fun t => t.client.outstanding == some (.status 0)) = true ∧
    ok (exec .respSetupOk (during (.setup 0) (bytesAt 0x20000000 [0x80, 6, 0, 1, 0, 0, 0x40] (ctrlAt .init 8 .d2h)))) (fun t =>
      (t.epAt 0).sub == .control .readIn && t.client.outstanding == some (.inData 0)) = true := by decide

/-- C-3. -/
theorem test_respSetupOkSetAddress :
    ok (exec (.respSetupOkSetAddress 5) (during (.setup 0) (ctrlAt .init 8 .h2d))) (fun t =>
      t.devAddrPending == 5 && t.ri.addr == 0 && (t.epAt 0).sub == .control .setAddress && (t.ri.iepAt 0).ena) = true := by decide

/-- C-9. -/
theorem test_respSetupError :
    ok (exec .respSetupError (during (.setup 0) (ctrlAt .init 8 .d2h))) (fun t =>
      (t.ri.iepAt 0).stall && (t.ri.oepAt 0).stall && (t.epAt 0).sub == .control .init) = true := by decide

/-- P2, the last packet of the data stage; C-7. -/
theorem test_respInDataPacket :
    ok (exec (.respInDataPacket 2 true) (during (.inData 0) (bytesAt 0x20000000 [3, 1] (ctrlAt .readIn 8 .d2h)))) (fun t =>
      t.ri.txq.getD 0 [] == [0x03010000] && (t.epAt 0).sub == .control .readStatus && (t.ri.oepAt 0).stupcnt == 3) = true ∧
    exec (.respInDataPacket 65 true) (during (.inData 0) (ctrlAt .readIn 8 .d2h)) = .refused .packetTooLong := ⟨by decide, rfl⟩

/-- B-4, B-5. -/
theorem test_respInData_delay_error :
    ok (exec .respInDataDelay (during (.inData 1) (dataAt (.bulk .init .init) 0))) (fun t => t.ri == vInit.ri && t.ep == (dataAt (.bulk .init .init) 0).ep) =
      true ∧
    ok (exec .respInDataError (during (.inData 1) (dataAt (.bulk .init .init) 0))) (fun t =>
      (t.ri.iepAt 1).stall && !(t.ri.oepAt 1).stall && (t.epAt 1).sub == .bulk .init .init) = true := by decide

/-- P3; B-9, B-12. -/
theorem test_respOutData :
    ok (exec .respOutDataOk (during (.outData 0 5) (ctrlAt .writeOut 5 .h2d))) (fun t =>
      (t.epAt 0).sub == .control .readStatus && (t.ri.iepAt 0).ena) = true ∧
    ok (exec .respOutDataHalted (during (.outData 1 5) (dataAt (.bulk .init (.outData 5)) 5))) (fun t =>
      (t.ri.oepAt 1).stall && (t.ri.oepAt 1).ena && (t.epAt 1).sub == .bulk .init .init) = true ∧
    ok (exec .respOutDataDelay (during (.outData 1 5) (dataAt (.bulk .init (.outData 5)) 5))) (fun t =>
      !(t.ri.oepAt 1).ena && (t.epAt 1).sub == .bulk .init .outDelay && (t.epAt 1).pendingSize == 5) = true := by decide

/-- 43 R229. -/
theorem test_respStatus :
    ok (exec .respStatusDone (during (.status 0) (ctrlAt .readStatus 0 .d2h))) (fun t =>
      t.client.outstanding == some (.statusComplete 0) && (t.epAt 0).sub == .control .readStatus) = true ∧
    ok (exec .respStatusCompleteDone (during (.statusComplete 0) (ctrlAt .readStatus 0 .d2h))) (fun t =>
      t.client.outstanding == none && (t.epAt 0).sub == .control .init && (t.ri.oepAt 0).ena) = true ∧
    ok (exec .respBusResetDone (during .busReset vInit)) (fun t => t.client.outstanding == none) = true ∧
    exec .respStatusDone (during (.setup 0) vInit) = .refused .clientContract := ⟨by decide, by decide, by decide, rfl⟩

/-- 30_encoding R94. -/
theorem test_results :
    ok (exec .resOk vInit) (fun t => t.result == some .ok) = true ∧
    ok (exec .resConfigurationError vInit) (fun t => t.result == some .configurationError) = true ∧
    ok (exec .resHardwareTimeout vInit) (fun t => t.result == some .hardwareTimeout) = true ∧
    ok (exec .resUnsupportedFeature vInit) (fun t => t.result == some .unsupportedFeature) = true := by decide

/-- A placed word is what the very next step runs; an unassigned opcode is answered. -/
theorem test_step :
    ok (step (vInit.withFetchWord 32 0x02000000)) (fun t => t.ctrl == .started && t.inbox == []) = true ∧
    ok (step (State.reset.withFetchWord 64 0x2000000010000040)) (fun t => (t.epAt 0).inBuf == some ctrlBuf) = true ∧
    ok (step (State.reset.withFetchWord 32 0x05000000)) (fun t => t.result == some .unsupportedFeature && t.ep == State.reset.ep) = true := by
  decide

/-- Vector I-5's entry and the shorthand it is part of (20_memory R81): three events, `IRQ` behind each. -/
theorem test_event_setup :
    ok (step { vInit with inbox := [.event (.setup [0x80, 6, 0, 1, 0, 0, 0x40, 0]), .clock false] }) (fun t =>
      t.inbox == [.event (.rx 0 6 [0x80, 6, 0, 1, 0, 0, 0x40, 0]), .event (.rx 0 4 []), .event (.oep 0 .stup), .clock false]) = true ∧
    ok (step { vInit with inbox := [.event (.rx 0 6 [0x80, 6, 0, 1, 0, 0, 0x40, 0])] }) (fun t =>
      t.ri.rxq == [.status 0x000C0080, .data 0x80060001, .data 0x00004000] && t.inbox == [.interrupts]) = true ∧
    ok (step { vInit with inbox := [.event (.rx 0 4 [])] }) (fun t => t.ri.rxq == [.status 0x00080000]) = true := by decide

/-- 20_memory R81: transfer-complete takes `.ena` away, and on an IN endpoint the packet left for the bus. -/
theorem test_event_conditions :
    ok (step { vInit with
      inbox := [.event (.oep 1 .xfrc)], ri := { vInit.ri with oep := vInit.ri.oep.modify 1 fun r => { r with ena := true } } }) (fun t =>
        (t.ri.oepAt 1).int == 1 && !(t.ri.oepAt 1).ena) = true ∧
    ok (step { vInit with
      inbox := [.event (.iep 1 .xfrc)], ri := { vInit.ri with
        txq := [[], [7], [8], []], iep := vInit.ri.iep.modify 1 fun r => { r with ena := true } } }) (fun t =>
          (t.ri.iepAt 1).int == 1 && !(t.ri.iepAt 1).ena && t.ri.txq == [[], [], [8], []]) = true := by decide

/-- I-2, I-3: `IRQ` follows an event before the rest of the inbox while the line is asserted, and not for a masked source. -/
theorem test_event_interrupts :
    (let s := { vInit with inbox := [.interrupts, .clock false], ri := { vInit.ri with gintEn := true, intsts := 0x800 } }
     ok (step s) (fun t => t.ri.intsts == 0 && t.inbox == s.inbox && t.clockOn)) = true ∧
    (let s := { vInit with inbox := [.interrupts, .clock false], ri := { vInit.ri with gintEn := true, intsts := 0x8 } }
     ok (step s) (fun t => t.ri.intsts == 0x8 && t.inbox == [.clock false])) = true := by decide

/-- 20_memory R81, 40 R130: the IRQ that follows an event with the clock off is refused, not dropped. -/
theorem test_interrupt_with_clock_off :
    step { vInit with inbox := [.interrupts], clockOn := false, ri := { vInit.ri with gintEn := true, intsts := 0x800 } } =
      .refused .clockOff := rfl

/-- 42 R202, 43 R228: a SETUP packet arrives, endpoint 0's STALL bits go, endpoint 1's stays; the status word is vector I-5's. -/
theorem test_setup_clears_stall :
    (let r := { vInit.ri with iep := vInit.ri.iep.map fun e => { e with stall := true }, oep := vInit.ri.oep.map fun e => { e with stall := true } }
     let t := RiMove.apply Layout.default r (.setup [0x80060001, 0x00004000])
     !(t.iepAt 0).stall && !(t.oepAt 0).stall && (t.iepAt 1).stall && (t.oepAt 1).stall &&
       t.rxq == [.status 0x000C0080, .data 0x80060001, .data 0x00004000]) = true := by decide

/-- 10_state R42: the device address holds `ADDR_WIDTH` bits, 7 in the vectors, also in a reset image. -/
theorem test_addr_width :
    (regWrite .addr 0x185 vInit).ri.addr = 5 ∧
    (nextImage { State.reset with resetImages := [{ RegIf.zero 4 with addr := 0x185 }] }).addr = 5 := by decide

/-- 45 R278: a reset image's FIFO fields are bounded by `FIFO_RAM_WORDS`, 320 in the vectors, and kept whole below it. -/
theorem test_fifo_fields_in_ram :
    (let r := nextImage { State.reset with resetImages := [{ RegIf.zero 4 with rxfSize := 321, txf := [⟨5, 9999⟩, ⟨320, 7⟩] }] }
     r.rxfSize = 320 ∧ r.txf = [⟨5, 320⟩, ⟨320, 7⟩, ⟨0, 0⟩, ⟨0, 0⟩]) := by decide

/-- 20_memory R79: a pop returns the head whatever its kind. -/
theorem test_pop_head :
    (popStatus (received [.data 0x42] vInit)).1 = 0x42 ∧ (popStatus (received [.data 0x42] vInit)).2.ri.rxq = [] ∧
    (rxPop (received [.status 0x43, .data 0x44] vInit)).1 = 0x43 := by decide

/-- 20_memory R77 E1: a level bit shown stays shown while its cause stands. E4: a move lands before a write. -/
theorem test_moves :
    (let s := received [.status 0] vInit
     testBit ((RiMove.apply s.cfg.layout s.ri (.gate 0)).status s.cfg.layout) 4) = true ∧
    (regWrite .trdt 1 { vInit with moves := [[.raise 5]] }).ri.intsts = 0x20 := by decide

/-- 70 R345, 41 R172: whatever the core soft reset leaves, `Ok` means interrupts masked and only the baseline sources unmasked. -/
theorem test_enable_masks_interrupts :
    ok (exec (.enable .full) { State.reset with resetImages := [{ RegIf.zero 4 with gintEn := true, intmsk := 0xFFFFFFFF }] }) (fun t =>
      t.result == some .ok && !t.ri.gintEn && t.ri.intmsk == 0x803C3810) = true := by decide +kernel

/-! ## Witnesses: each statement's hypotheses, met together -/

/-- The shape of the states above. -/
theorem shaped_vInit : Shaped vInit := ⟨rfl, rfl, rfl, rfl, rfl, rfl, rfl, rfl⟩

/-- FIFO 1 has 16 words: the packet of the whole buffer fills it. -/
def tightPart : FifoPart := ⟨some 128, [some ⟨128, 1⟩, some ⟨129, 16⟩, none, none]⟩

def tightFifo (x : Sub) : State := { dataAt x 0 with part := tightPart }

/-- The condition words of endpoint 1, with a packet received, one in flight, and an answer. -/
def scanned (o i a : Word) : State :=
  let s := answering [a] (dataAt (.bulk (.busy 5) (.outData 5)) 5)
  { s with ri := { s.ri with
    oep := s.ri.oep.modify 1 fun r => { r with int := o }, iep := s.ri.iep.modify 1 fun r => { r with int := i } } }

/-- The address reaches the hardware when it is staged. -/
def immediately (s : State) : State := { s with cfg := { s.cfg with addrTiming := .immediate } }

theorem canSend_tight {s : State} (h : (s.epAt 1).inBuf = some inBuf1) (hp : s.part = tightPart) : CanSend 1 64 inBuf1 s :=
  ⟨h, by decide, by rw [hp]; rfl, by rw [hp]; decide, by decide⟩

theorem canSend_ctrl {s : State} (h : (s.epAt 0).inBuf = some ctrlBuf) (hp : s.part = vInit.part) : CanSend 0 0 ctrlBuf s :=
  ⟨h, by decide, by rw [hp]; rfl, by rw [hp]; decide, by decide⟩

/-- The packet of the whole control buffer. -/
theorem canSend_full {s : State} (h : (s.epAt 0).inBuf = some ctrlBuf) (hp : s.part = vInit.part) : CanSend 0 64 ctrlBuf s :=
  ⟨h, by decide, by rw [hp]; rfl, by rw [hp]; decide, by decide⟩

/-- An outcome checked is a next state. -/
theorem ok_next {x : M State} {p : State → Bool} (h : ok x p = true) : ∃ t, x = .next t ∧ p t = true := by
  cases x with
  | next t => exact ⟨t, rfl, h⟩
  | fault e => cases h
  | refused e => cases h

/-- The default layout and another; the endpoint index at its largest. -/
theorem witness_DecodeEncodeAgree : Layout.default.wf = true ∧ Layout.wf { Layout.default with mmis := 4, rxflvl := 1 } = true ∧
    Instr.wellFormed (.oepXfrc 255) = true ∧ Instr.wellFormed (.cbSetup 0) = true ∧
    Instr.wellFormed (.assignInBuf 255 0xFFFF 0xFFFFFFFF) = true := by decide

theorem witness_EncodeDecodeAgree :
    decode Layout.default .cmd [0x11FFFFFF, 0xFFFFFFFF] = .ok (.assignInBuf 255 0xFFFF 0xFFFFFFFF, []) ∧
    decode Layout.default .cb [0x30FFFFFF] = .ok (.cbOutData 255 0xFFFF, []) ∧ decode Layout.default .resp [0x2001FFFF] = .ok (.respInDataPacket 0xFFFF true, []) ∧
    decode Layout.default .res [3] = .ok (.resUnsupportedFeature, []) := ⟨rfl, rfl, rfl, rfl⟩

/-- Each clause of the illegal command words. -/
theorem witness_IllegalCommandWordAnswersUnsupported :
    State.reset.client.outstanding = none ∧
    field 0x00000000 24 8 ∉ [0x01, 0x02, 0x03, 0x04, 0x10, 0x11, 0x12, 0x20, 0x21, 0x22, 0x23, 0x24, 0x25, 0x26, 0x27, 0x30, 0x31, 0x40,
      0x41, 0x80] ∧
    (field 0x01000002 24 8 = 0x01 ∧ field 0x01000002 1 23 ≠ 0) ∧ (field 0x80000001 24 8 ∈ [0x02, 0x03, 0x80] ∧ field 0x80000001 0 24 ≠ 0) ∧
    (field 0x30010000 24 8 ∈ [0x04, 0x30] ∧ field 0x30010000 16 8 ≠ 0) ∧ (field 0x10FF0008 24 8 = 0x10 ∧ field 0x10FF0008 16 8 ≠ 0) ∧
    (field 0x21000004 24 8 ∈ [0x20, 0x21] ∧ field 0x21000004 2 14 ≠ 0) ∧
    (field 0x27000001 24 8 ∈ [0x22, 0x23, 0x24, 0x25, 0x26, 0x27] ∧ field 0x27000001 0 16 ≠ 0) := by decide

theorem witness_StepRunsDecodedInstruction :
    (let s := { vInit with inbox := [.port .cmd [0x02000000]] }
     s.inbox = .port .cmd [0x02000000] :: [] ∧ s.client.outstanding = none ∧
     decode s.cfg.layout .cmd [0x02000000] = .ok (.start, []) ∧ s.cfg.layout = Layout.default) ∧
    decodeTableWord 32 0x02000000 = some .start := ⟨⟨rfl, rfl, rfl, rfl⟩, by decide⟩

/-- Each clause; of the events the latched source, the receive entry of the last endpoint number, and one of every other form. -/
theorem witness_StepsBetweenOperations :
    (let s := { vInit with ri := { vInit.ri with gintEn := true, intsts := 0x800 } }
     s.inbox = [] ∧ s.clockOn = true ∧ s.ri.gintEn = true ∧ s.ri.status s.cfg.layout &&& s.ri.intmsk ≠ 0 ∧
     s.client.outstanding = none ∧ ({ s with clockOn := false } : State).clockOn = false) ∧
    (let s := { vInit with inbox := [.interrupts], ri := { vInit.ri with gintEn := true, intsts := 0x800 } }
     s.inbox = .interrupts :: [] ∧ s.client.outstanding = none ∧ s.clockOn = true ∧ s.ri.gintEn = true ∧
     s.ri.status s.cfg.layout &&& s.ri.intmsk ≠ 0) ∧
    (let s := { vInit with inbox := [.interrupts] }
     s.inbox = .interrupts :: [] ∧ s.client.outstanding = none ∧ s.ri.gintEn = false) ∧
    ([.busReset, .enumDone, .src .susp, .rx 15 15 [], .oep 3 .nak, .iep 3 .txfe, .setup [], .out 15 [], .loopback 3].all fun e =>
      (let s := { vInit with inbox := [.event e] }
       s.inbox == [.event e] && s.client.outstanding.isNone)) = true ∧
    (Source.susp ≠ .rxflvl ∧ Source.susp ≠ .oepint ∧ Source.susp ≠ .iepint) ∧
    (let s := { during .busReset vInit with inbox := [.event .busReset] }
     s.inbox = .event .busReset :: [] ∧ s.client.outstanding ≠ none) ∧
    (vInit.inbox = [] ∧ vInit.ri.gintEn = false) ∧
    (let s := { during .busReset vInit with inbox := [.port .cmd [0x80000000]] }
     s.inbox = .port .cmd [0x80000000] :: [] ∧ s.client.outstanding ≠ none ∧ Port.cmd ≠ .resp) := by decide

theorem witness_EnableRejectsLowSpeedAndIsIdempotent : vInit.ctrl ≠ .disabled := by decide

/-- A partition that fills FIFO RAM, and a single read allowed; then `Ok` after an image that leaves interrupts enabled. -/
theorem witness_EnableInitializes :
    (let s := State.powerOn { Config.vectors with fifoRamWords := 288, retryCeiling := 1 }
    s.ctrl = .disabled ∧ Shaped s ∧ s.moves = [] ∧ s.ri.ahbIdle = true ∧ 1 ≤ s.cfg.retryCeiling ∧
     s.cfg.layout.wf = true ∧
     s.cfg.rxFifoWords + ((List.range s.cfg.nEp).map fun i => s.cfg.txFifoWords.getD i 0).sum ≤ s.cfg.fifoRamWords ∧ s.resetImages = []) ∧
    (let s := { State.reset with resetImages := [{ RegIf.zero 4 with gintEn := true, intmsk := 0xFFFFFFFF }] }
     s.ctrl = .disabled ∧ s.cfg.layout.wf = true ∧ s.part.tx.length = s.cfg.nEp ∧
     ∃ t, exec (.enable .full) s = .next t ∧
       (t.result == some .ok && !t.ri.gintEn && t.ri.intmsk == 0x803C3810) = true) :=
  ⟨⟨rfl, ⟨rfl, rfl, rfl, rfl, rfl, rfl, rfl, rfl⟩, rfl, rfl, by decide, by decide, by decide, rfl⟩, rfl, by decide, rfl,
    ok_next test_enable_masks_interrupts⟩

theorem witness_EnableTimesOutWhenBusIsNeverIdle :
    let s := { State.reset with ri := { State.reset.ri with ahbIdle := false } }
    s.ctrl = .disabled ∧ s.moves = [] ∧ s.ri.ahbIdle = false := ⟨rfl, rfl, rfl⟩

theorem witness_StartAndDetach :
    (vInit.ctrl = .initialized ∧ vInit.clockOn = true ∧ vInit.moves = []) ∧
    (let s := { vInit with ctrl := .started }
     s.ctrl = .started ∧ s.clockOn = true ∧ s.moves = []) ∧
    State.reset.ctrl ≠ .initialized ∧ vInit.ctrl ≠ .started ∧
    (let s := { vInit with clockOn := false }
     s.ctrl = .initialized ∧ s.clockOn = false) ∧
    (let s := { vInit with ctrl := .started, clockOn := false }
     s.ctrl = .started ∧ s.clockOn = false) := by decide

theorem witness_SetAddressStages :
    State.reset.cfg.addrTiming = .deferred ∧
    (let s := { State.powerOn { Config.vectors with addrTiming := .immediate } with clockOn := true }
     s.cfg.addrTiming = .immediate ∧ s.clockOn = true ∧ s.moves = []) ∧
    (let s := State.powerOn { Config.vectors with addrTiming := .immediate }
     s.cfg.addrTiming = .immediate ∧ s.clockOn = false) := by decide

theorem witness_LifecycleStateWriters :
    (∃ t, exec .irq vInit = .next t) ∧ LegalCtrl State.reset ∧ ∃ t, step State.reset = .next t := ⟨⟨_, rfl⟩, .inl rfl, ⟨_, rfl⟩⟩

theorem witness_PartitionFixedOnceStarted :
    ∃ t, exec .detach { vInit with ctrl := .started } = .next t ∧ ({ vInit with ctrl := .started } : State).ctrl = .started :=
  ⟨_, rfl, rfl⟩

theorem witness_AssignControlBuffer :
    (Buf.mk 0xFFFFFFF9 8).valid = false ∧
    ((Buf.mk 0xFFFFFFF8 8).valid = true ∧ (State.reset.epAt 0).sub = .disabled) ∧
    ((Buf.mk 0 0x8000).valid = true ∧ ((ctrlAt .init 0 .h2d).epAt 0).sub = .control .init) ∧
    ((Buf.mk 0 8).valid = true ∧ ((ctrlAt .readIn 8 .d2h).epAt 0).sub ≠ .disabled ∧
      ((ctrlAt .readIn 8 .d2h).epAt 0).sub ≠ .control .init) := by decide

theorem witness_AssignDataBuffers :
    vInit.cfg.nEp ≤ (4 : BitVec 8).toNat ∧ (Buf.mk 0 7).valid = false ∧
    ((3 : BitVec 8).toNat < vInit.cfg.nEp ∧ (Buf.mk 0 8).valid = true ∧ (vInit.epAt 3).sub = .disabled) ∧
    (((dataAt (.bulk .init .outDelay) 0).epAt 1).sub = .bulk .init .outDelay) ∧
    (((dataAt (.interrupt .init 64) 0).epAt 1).sub = .interrupt .init 64) ∧
    (((dataAt (.bulk (.busy 5) .init) 0).epAt 1).sub = .bulk (.busy 5) .init) ∧
    (((dataAt (.bulk .init (.outData 5)) 5).epAt 1).sub = .bulk .init (.outData 5)) ∧
    (((ctrlAt .writeOut 0 .h2d).epAt 0).sub = .control .writeOut) := by decide

theorem witness_ActivateInOnDataEndpoint :
    let s := dataAt (.bulk (.busy 5) .init) 0
    s.clockOn = true ∧ s.moves = [] ∧ s.ctrl ≠ .disabled ∧ 1 ≤ (1 : BitVec 8).toNat ∧ (1 : BitVec 8).toNat < s.cfg.nEp ∧
    (s.epAt 1).inBuf = some inBuf1 ∧ (s.epAt 1).outBuf = some outBuf1 ∧ inBuf1.valid = true ∧ outBuf1.valid = true ∧
    s.part.reserved 1 = true ∧ (s.epAt 1).sub.tag = some .bulk ∧ ((dataAt .disabled 0).epAt 1).sub = .disabled := by decide

theorem witness_ActivateOutOnBulkEndpoint :
    let s := dataAt .disabled 0
    s.clockOn = true ∧ s.moves = [] ∧ s.ctrl ≠ .disabled ∧ 1 ≤ (1 : BitVec 8).toNat ∧ (1 : BitVec 8).toNat < s.cfg.nEp ∧
    (s.epAt 1).inBuf = some inBuf1 ∧ (s.epAt 1).outBuf = some outBuf1 ∧ inBuf1.valid = true ∧ outBuf1.valid = true ∧
    (s.epAt 1).sub = .disabled := by decide

theorem witness_ActivateControlEndpoint :
    vInit.clockOn = true ∧ vInit.moves = [] ∧ vInit.ctrl ≠ .disabled ∧ 0 < vInit.cfg.nEp ∧ TType.control ≠ .isochronous ∧
    (vInit.epAt 0).inBuf = some ctrlBuf ∧ (vInit.epAt 0).outBuf = some ctrlBuf ∧ ctrlBuf.valid = true := by decide

theorem witness_ActivationChecksInOrder :
    vInit.cfg.nEp ≤ (4 : BitVec 8).toNat ∧ (3 : BitVec 8).toNat < vInit.cfg.nEp ∧ buffersOf (vInit.epAt 3) = none ∧
    (let s := { dataAt .disabled 0 with ctrl := .disabled }
     buffersOf (s.epAt 1) ≠ none ∧ s.ctrl = .disabled) ∧
    (let s := dataAt (.interrupt .init 64) 0
     buffersOf (s.epAt 1) ≠ none ∧ s.ctrl ≠ .disabled ∧ s.part.reserved 1 = true ∧ TType.interrupt ≠ .bulk ∧
     (s.epAt 1).sub.tag = some .interrupt) ∧
    (let s := { dataAt .disabled 0 with part := ⟨some 128, [some ⟨128, 32⟩, some ⟨160, 0⟩, none, none]⟩ }
     buffersOf (s.epAt 1) ≠ none ∧ s.part.reserved 1 = false) := by decide

theorem witness_DisableOneSide :
    vInit.clockOn = true ∧ vInit.moves = [] ∧ (3 : BitVec 8).toNat < vInit.cfg.nEp ∧ vInit.cfg.nEp ≤ (4 : BitVec 8).toNat := by
  decide

theorem witness_StallAndClearStall :
    vInit.clockOn = true ∧ vInit.moves = [] ∧ (3 : BitVec 8).toNat < vInit.cfg.nEp ∧ (0 : BitVec 8).toNat < vInit.cfg.nEp ∧
    vInit.cfg.nEp ≤ (4 : BitVec 8).toNat := by decide

theorem witness_OutOfRangeIndexIsConfigurationError :
    vInit.cfg.nEp ≤ (4 : BitVec 8).toNat ∧ (Instr.stallEpIn 4 = .stallEpIn 4) ∧ vInit.ctrl = .initialized ∧
    ∀ e ∈ vInit.ep, e.sub = .disabled := by decide

theorem witness_FailedCommandChangesOnlyResult :
    isCommand (.stallEpIn 4) ∧ Instr.stallEpIn 4 ≠ .enable .full ∧
    exec (.stallEpIn 4) vInit = .next { vInit with result := some .configurationError } ∧ Res.configurationError ≠ .ok :=
  ⟨⟨rfl, by decide⟩, by decide, rfl, by decide⟩

/-- The last byte of a packet whose last word is not full. -/
theorem witness_PackAndUnpack : 4 < ([1, 2, 3, 4, 5] : List Byte).length := by decide

/-- The largest packet of the buffer into a FIFO it fills; each error; one word more than the FIFO. -/
theorem witness_WritePacketPushesWords :
    ((tightFifo .disabled).clockOn = true ∧ (tightFifo .disabled).moves = [] ∧ (1 : BitVec 8).toNat < (tightFifo .disabled).cfg.nEp ∧
      CanSend 1 64 inBuf1 (tightFifo .disabled)) ∧
    vInit.cfg.nEp ≤ (4 : BitVec 8).toNat ∧ (vInit.epAt 3).inBuf = none ∧ inBuf1.len.toNat < (65 : BitVec 16).toNat ∧
    (tightFifo .disabled).part.reserved 2 = false ∧
    (let s := { dataAt .disabled 0 with part := ⟨some 128, [none, some ⟨128, 15⟩, none, none]⟩ }
     (1 : BitVec 8).toNat < s.cfg.nEp ∧ (s.epAt 1).inBuf = some inBuf1 ∧ (64 : BitVec 16).toNat ≤ inBuf1.len.toNat ∧
     s.part.reserved 1 = true ∧ partSize (s.part.tx.getD 1 none) < words4 64) :=
  ⟨⟨rfl, rfl, by decide, canSend_tight rfl rfl⟩, by decide, rfl, by decide, rfl, by decide⟩

/-- A packet of 5 bytes, so that the last word has bytes of no packet. -/
theorem witness_ReadPacketStoresBytes :
    let s := received [.data 0x11223344, .data 0x55000000, .status 0] (dataAt .disabled 0)
    (s.clockOn = true ∧ (1 : BitVec 8).toNat < s.cfg.nEp ∧ (s.epAt 1).outBuf = some outBuf1 ∧ (5 : BitVec 16).toNat ≤ outBuf1.len.toNat ∧
      outBuf1.base.toNat + 4 * words4 5 ≤ 2 ^ 32 ∧ HoldsPacket 5 [0x11223344, 0x55000000] [.status 0] s ∧ MemoryCanonical s) ∧
    s.cfg.nEp ≤ (4 : BitVec 8).toNat ∧ (s.epAt 2).outBuf = none ∧ outBuf1.len.toNat < (65 : BitVec 16).toNat :=
  ⟨⟨rfl, by decide, rfl, by decide, by decide, ⟨rfl, rfl, rfl, rfl⟩, rfl, fun c h => nomatch h⟩, by decide, rfl, by decide⟩

theorem witness_PacketRoundTrip :
    let s := bytesAt 0x20000100 [1, 2, 3, 4, 5] (tightFifo .disabled)
    s.clockOn = true ∧ (1 : BitVec 8).toNat < s.cfg.nEp ∧ CanSend 1 64 inBuf1 s ∧ (s.epAt 1).outBuf = some outBuf1 ∧
    (64 : BitVec 16).toNat ≤ outBuf1.len.toNat ∧ outBuf1.base.toNat + 4 * words4 64 ≤ 2 ^ 32 ∧ MemoryCanonical s ∧ Shaped s ∧
    s.ri.txq.getD 1 [] = [] ∧ s.ri.rxq = [] ∧ s.ri.rxInStep = true ∧ s.moves = [] :=
  ⟨rfl, by decide, ⟨rfl, by decide, rfl, by decide, by decide⟩, rfl, by decide, by decide, by unfold MemoryCanonical; decide,
    ⟨rfl, rfl, rfl, rfl, rfl, rfl, rfl, rfl⟩, rfl, rfl, rfl, rfl⟩

theorem witness_SetReceiveFifo :
    (vInit.ctrl = .initialized ∧ (∀ e ∈ vInit.ep, e.sub = .disabled) ∧ (320 : BitVec 16).toNat ≤ vInit.cfg.fifoRamWords ∧
      vInit.clockOn = true ∧ vInit.moves = [] ∧ vInit.cfg.fifoRamWords < (321 : BitVec 16).toNat) ∧
    State.reset.ctrl ≠ .initialized ∧
    (∃ e ∈ ({ dataAt (.bulk .init .init) 0 with ctrl := .initialized } : State).ep, e.sub ≠ .disabled) := by decide

/-- FIFO 1 after FIFO 0: sizes that fill FIFO RAM and exceed it by one; then each way out of order. -/
theorem witness_SetTransmitFifo :
    (let s := { vInit with part := ⟨some 128, [some ⟨128, 32⟩, none, none, none]⟩ }
     s.ctrl = .initialized ∧ (∀ e ∈ s.ep, e.sub = .disabled) ∧ (1 : BitVec 8).toNat < s.cfg.nEp ∧ s.part.tx.length = s.cfg.nEp ∧
     s.part.rxSize = some 128 ∧ (∀ j, j < 1 → s.part.tx.getD j none ≠ none) ∧
     (128 + ((s.part.tx.take 1).map partSize).sum + (160 : BitVec 16).toNat ≤ s.cfg.fifoRamWords) ∧ s.clockOn = true ∧ s.moves = [] ∧
     s.cfg.fifoRamWords < 128 + ((s.part.tx.take 1).map partSize).sum + (161 : BitVec 16).toNat) ∧
    (∀ j, 1 ≤ j → [some (⟨128, 32⟩ : TxPart), none, none, none].getD j none = none) ∧
    (let s := { vInit with part := ⟨none, [none, none, none, none]⟩ }
     s.part.rxSize = none) ∧
    (let s := { vInit with part := ⟨some 128, [none, none, none, none]⟩ }
     s.part.tx.getD 0 none = none) ∧
    vInit.part.tx.getD 3 none ≠ none ∧ State.reset.ctrl ≠ .initialized := by
  refine ⟨by decide, fun j hj => ?_, by decide⟩
  match j, hj with
  | 1, _ | 2, _ | 3, _ => rfl
  | j + 4, _ => rfl

theorem witness_StoresStayInOutBuffers :
    (∀ e b, ((received [.data 0x11223344] (dataAt .disabled 0)).epAt e).outBuf = some b → b.valid = true) ∧ isCommand (.readPacket 1 4) ∧
    (encode Layout.default (.rxDataUpdate 1 4 0)).1 = .rxsts ∧ ∃ t, exec (.readPacket 1 4) (received [.data 0x11223344] (dataAt .disabled 0)) = .next t := by
  refine ⟨fun e b h => ?_, ⟨rfl, by decide⟩, rfl, ⟨_, rfl⟩⟩
  match e, h with
  | 0, h => cases h; decide
  | 1, h => cases h; decide
  | 2, h => cases h
  | 3, h => cases h
  | e + 4, h => cases h

theorem witness_NoActionOnlyAcknowledges :
    vInit.clockOn = true ∧ vInit.moves = [] ∧ Source.otg ∈ noActionSources ∧ 3 < vInit.cfg.nEp := by decide

/-- A DATA-update of no bytes; the same word as a data word, out of step; a code without a branch, and one that is none of the four. -/
theorem witness_ReceiveHandlerBracketsPop :
    ([.status 0x00040001, .data 0x00040001] : List RxItem).all (fun x =>
      (let s := received [x] (dataAt (.bulk .init .init) 0)
       s.clockOn && s.moves == [] && s.cfg.layout.wf && s.ri.rxq == [x] && x.word == 0x00040001 &&
       ok (exec (.rxDataUpdate 1 0 0) { s with
         ri := { s.ri with
           rxq := [], rxInStep := s.ri.rxInStep && x.isStatus, intmsk := putBit s.ri.intmsk (s.cfg.layout.bit .rxflvl) false }
         trace := [.read .rxstsp, .write (.intmskBit .rxflvl) 0] ++ s.trace }) (fun _ => true))) = true ∧
    decode Layout.default .rxsts [0x00040001] = .ok (.rxDataUpdate 1 0 0, []) ∧
    (field 0x00020000 Layout.default.rxPktsts 4 ≠ Layout.default.dataUpdate ∧
      field 0x00020000 Layout.default.rxPktsts 4 ≠ Layout.default.setupUpdate) ∧
    field 0x00080000 Layout.default.rxPktsts 4 = Layout.default.setupComplete := ⟨by decide, rfl, by decide, by decide⟩

/-- A packet of the whole buffer, one of no bytes; then each refusal. -/
theorem witness_ReceiveDataUpdate :
    (let s := received [.data 0x11223344, .data 0x55000000] (dataAt (.bulk .init .init) 0)
     s.clockOn = true ∧ (1 : BitVec 4).toNat < s.cfg.nEp ∧ (s.epAt 1).outBuf = some outBuf1 ∧ (5 : BitVec 11).toNat ≤ outBuf1.len.toNat ∧
     outBuf1.base.toNat + 4 * words4 5 ≤ 2 ^ 32 ∧ HoldsPacket 5 [0x11223344, 0x55000000] [] s ∧ HoldsPacket 0 [] s.ri.rxq s ∧
     MemoryCanonical s ∧ (∀ bin, (s.epAt 1).sub ≠ .bulk bin .outDelay) ∧ ∀ bin m, (s.epAt 1).sub ≠ .bulk bin (.outData m)) ∧
    vInit.cfg.nEp ≤ (4 : BitVec 4).toNat ∧ (vInit.epAt 2).outBuf = none ∧ outBuf1.len.toNat < (65 : BitVec 11).toNat ∧
    ((dataAt (.bulk .init .outDelay) 5).epAt 1).sub = .bulk .init .outDelay ∧
    ((dataAt (.bulk .init (.outData 5)) 5).epAt 1).sub = .bulk .init (.outData 5) :=
  ⟨⟨rfl, by decide, rfl, by decide, by decide, ⟨rfl, rfl, rfl, rfl⟩, ⟨rfl, rfl, rfl, rfl⟩, ⟨rfl, fun c h => nomatch h⟩,
    ⟨fun bin h => (nomatch (h : Sub.bulk .init .init = .bulk bin .outDelay)),
      fun bin m h => (nomatch (h : Sub.bulk .init .init = .bulk bin (.outData m)))⟩⟩,
    by decide, rfl, by decide, rfl, rfl⟩

theorem witness_ReceiveSetupEntries :
    (let s := received [.data 0x80060001, .data 0x00004000] (ctrlAt .init 0 .h2d)
     s.clockOn = true ∧ (0 : BitVec 4).toNat < s.cfg.nEp ∧ (s.epAt 0).outBuf = some ctrlBuf ∧ (8 : BitVec 11).toNat ≤ ctrlBuf.len.toNat ∧
     ctrlBuf.base.toNat + 4 * words4 8 ≤ 2 ^ 32 ∧ HoldsPacket 8 [0x80060001, 0x00004000] [] s ∧ MemoryCanonical s) ∧
    vInit.cfg.nEp ≤ (4 : BitVec 4).toNat ∧ (vInit.epAt 2).outBuf = none ∧ ctrlBuf.len.toNat < (65 : BitVec 11).toNat :=
  ⟨⟨rfl, by decide, rfl, by decide, by decide, ⟨rfl, rfl, rfl, rfl⟩, rfl, fun c h => nomatch h⟩, by decide, rfl, by decide⟩

theorem witness_BusResetHandler :
    let s := answering [0x60000000] vInit
    s.clockOn = true ∧ s.moves = [] ∧ Shaped s ∧ Answers ⟨[], 0x60000000⟩ .respBusResetDone [] s :=
  ⟨rfl, rfl, ⟨rfl, rfl, rfl, rfl, rfl, rfl, rfl, rfl⟩, rfl, rfl⟩

theorem witness_EnumerationDoneHandler :
    (vInit.clockOn = true ∧ vInit.moves = [] ∧ 0 < vInit.cfg.nEp ∧ vInit.ctrl ≠ .disabled ∧ (vInit.epAt 0).inBuf = some ctrlBuf ∧
      (vInit.epAt 0).outBuf = some ctrlBuf ∧ ctrlBuf.valid = true) ∧ buffersOf (State.reset.epAt 0) = none := by decide

/-- Conditions that act, in order, on two endpoints, the answers taken; a stop; then no condition that acts. -/
theorem witness_EndpointScansAcknowledge :
    (let s := scanned 0x21 0x11 0x30000000
     s.clockOn = true ∧ s.moves = [] ∧ ∃ t, exec .srcOepint s = .next t ∧ (t.client.calls == [.outData 1 5]) = true) ∧
    (∃ t, exec .srcIepint (scanned 0x21 0x11 0x21000000) = .next t ∧
      (t.client.calls == [.inData 1] && (t.epAt 1).sub == .bulk .init (.outData 5)) = true) ∧
    exec .srcOepint (scanned 0x8 0 0) = .refused .noControlEndpoint ∧
    vInit.clockOn = true ∧ vInit.moves = [] ∧ Shaped vInit ∧
    (∀ i, i < vInit.cfg.nEp → ∀ c : OutCond, c ≠ .stsphsrx → testBit (vInit.ri.oepAt i).int (vInit.cfg.layout.outBit c) = false) ∧
    (∀ i, i < vInit.cfg.nEp → ∀ c : InCond, c = .xfrc ∨ c = .ittxfe →
      testBit (vInit.ri.iepAt i).int (vInit.cfg.layout.inBit c) = false) :=
  ⟨⟨rfl, rfl, ok_next (p := fun t => t.client.calls == [.outData 1 5]) (by decide)⟩,
    ok_next (p := fun t => t.client.calls == [.inData 1] && (t.epAt 1).sub == .bulk .init (.outData 5)) (by decide), rfl, rfl, rfl, shaped_vInit, fun i hi c _ => (by revert i; cases c <;> decide), fun i hi c _ => (by revert i; cases c <;> decide)⟩

/-- Bus reset and enumeration-done together, both acting; nothing pending; `otg` alone, last in the order; two sources without an
action. -/
theorem witness_DispatcherServesSnapshot :
    (let s := answering [0x60000000] { vInit with ri := { vInit.ri with intsts := 0x3000 } }
     s.clockOn = true ∧ s.moves = [] ∧ ∃ t, exec .irq s = .next t ∧
       (t.client.calls == [.busReset] && (t.epAt 0).sub == .control .init && t.ri.intsts == 0) = true) ∧
    (vInit.clockOn = true ∧ vInit.moves = [] ∧
      ∀ x ∈ vInit.cfg.handlerOrder, testBit (vInit.ri.status vInit.cfg.layout &&& vInit.ri.intmsk) (vInit.cfg.layout.bit x) = false) ∧
    (let s := { vInit with ri := { vInit.ri with intsts := 0x4, intmsk := 0x4 } }
     s.cfg.handlerOrder = Source.listing.take 13 ++ .otg :: [] ∧
     testBit (s.ri.status s.cfg.layout &&& s.ri.intmsk) (s.cfg.layout.bit .otg) = true ∧
     ∀ y ∈ Source.listing.take 13 ++ [], testBit (s.ri.status s.cfg.layout &&& s.ri.intmsk) (s.cfg.layout.bit y) = false) ∧
    (let s := { vInit with ri := { vInit.ri with intsts := 0x80000800 } }
     ∀ x ∈ s.cfg.handlerOrder, testBit (s.ri.status s.cfg.layout &&& s.ri.intmsk) (s.cfg.layout.bit x) = true → x ∈ noActionSources) :=
  ⟨⟨rfl, rfl, ok_next (p := fun t => t.client.calls == [.busReset] && (t.epAt 0).sub == .control .init && t.ri.intsts == 0)
      (by decide +kernel)⟩,
    by decide, by decide, by decide⟩

/-- A SETUP packet of a control read of 64 bytes, of a control write of 5, of neither. -/
theorem witness_SetupDoneRunsRequest :
    (1 ≠ 0 ∧ 1 < vInit.cfg.nEp ∧ vInit.clockOn = true) ∧
    (let s := ctrlAt .init 8 .h2d
     s.clockOn = true ∧ s.moves = [] ∧ 0 < s.cfg.nEp ∧ (s.epAt 0).sub = .control .init ∧ (s.epAt 0).outBuf = some ctrlBuf ∧
     (s.epAt 0).pendingSize = 8 ∧ ((ctrlAt .init 7 .h2d).epAt 0).pendingSize ≠ 8 ∧ s.cfg.addrTiming = .deferred) ∧
    Answers ⟨[], 0x12000000⟩ .respSetupError [] (answering [0x12000000] (ctrlAt .readIn 8 .h2d)) ∧
    (Answers ⟨[], 0x11000005⟩ (.respSetupOkSetAddress 5) [] (answering [0x11000005] (ctrlAt .init 8 .h2d)) ∧
      CanSend 0 0 ctrlBuf (answering [0x11000005] (ctrlAt .init 8 .h2d))) ∧
    (let s := immediately (answering [0x11000005] (ctrlAt .init 8 .h2d))
     s.cfg.addrTiming = .immediate ∧ Answers ⟨[], 0x11000005⟩ (.respSetupOkSetAddress 5) [] s ∧ CanSend 0 0 ctrlBuf s) ∧
    (let s := answering [0x10000000, 0x40000000, 0x50000000] (ctrlAt .init 8 .h2d)
     Answers ⟨[], 0x10000000⟩ .respSetupOk [⟨[], 0x40000000⟩, ⟨[], 0x50000000⟩] s ∧
     [(0x40000000 : Word)] = (encode s.cfg.layout .respStatusDone).2 ∧
     [(0x50000000 : Word)] = (encode s.cfg.layout .respStatusCompleteDone).2 ∧
     CanSend 0 0 ctrlBuf s ∧ ctrlBuf.base.toNat + 8 ≤ 2 ^ 32 ∧ (memAfter ⟨[], 0x10000000⟩ s.mem).read (ctrlBuf.base.toNat + 6) = 0 ∧
     (memAfter ⟨[], 0x10000000⟩ s.mem).read (ctrlBuf.base.toNat + 7) = 0) ∧
    (let s := answering [0x10000000, 0x20010040] (bytesAt 0x20000000 [0x80, 6, 0, 1, 0, 0, 64, 0] (ctrlAt .init 8 .d2h))
     Answers ⟨[], 0x10000000⟩ .respSetupOk [⟨[], 0x20010040⟩] s ∧ (s.epAt 0).reqDir = .d2h ∧
     64 = ((memAfter ⟨[], 0x10000000⟩ s.mem).read (ctrlBuf.base.toNat + 6)).toNat +
       256 * ((memAfter ⟨[], 0x10000000⟩ s.mem).read (ctrlBuf.base.toNat + 7)).toNat ∧
     [(0x20010040 : Word)] = (encode s.cfg.layout (.respInDataPacket 64 true)).2 ∧ CanSend 0 64 ctrlBuf s ∧
     [(0x21000000 : Word)] = (encode s.cfg.layout .respInDataDelay).2 ∧
     [(0x22000000 : Word)] = (encode s.cfg.layout .respInDataError).2) ∧
    (let s := answering [0x10000000] (bytesAt 0x20000000 [0, 9, 0, 0, 0, 0, 0, 1] (ctrlAt .init 8 .h2d))
     Answers ⟨[], 0x10000000⟩ .respSetupOk [] s ∧ (s.epAt 0).reqDir = .h2d ∧
     256 = ((memAfter ⟨[], 0x10000000⟩ s.mem).read (ctrlBuf.base.toNat + 6)).toNat +
       256 * ((memAfter ⟨[], 0x10000000⟩ s.mem).read (ctrlBuf.base.toNat + 7)).toNat) :=
  ⟨by decide, by decide, ⟨rfl, rfl⟩, ⟨⟨rfl, rfl⟩, canSend_ctrl rfl rfl⟩, ⟨rfl, ⟨rfl, rfl⟩, canSend_ctrl rfl rfl⟩,
    ⟨⟨rfl, rfl⟩, rfl, rfl, canSend_ctrl rfl rfl, by decide, rfl, rfl⟩,
    ⟨⟨rfl, rfl⟩, rfl, by decide, rfl, canSend_full rfl rfl, rfl, rfl⟩, ⟨rfl, rfl⟩, rfl, by decide⟩

theorem witness_OutTransferComplete :
    (let s := answering [0x30000000] (dataAt (.bulk .init (.outData 5)) 5)
     s.clockOn = true ∧ s.moves = [] ∧ 1 < s.cfg.nEp ∧ (s.epAt 1).sub = .bulk .init (.outData 5) ∧ (s.epAt 1).outBuf = some outBuf1 ∧
     Answers ⟨[], 0x30000000⟩ .respOutDataOk [] s) ∧
    Answers ⟨[], 0x32000000⟩ .respOutDataDelay [] (answering [0x32000000] (dataAt (.bulk .init (.outData 5)) 5)) ∧
    Answers ⟨[], 0x31000000⟩ .respOutDataHalted [] (answering [0x31000000] (dataAt (.bulk .init (.outData 5)) 5)) ∧
    (let s := answering [0x30000000] (ctrlAt .writeOut 5 .h2d)
     (s.epAt 0).sub = .control .writeOut ∧ Answers ⟨[], 0x30000000⟩ .respOutDataOk [] s ∧ CanSend 0 0 ctrlBuf s) ∧
    Answers ⟨[], 0x31000000⟩ .respOutDataHalted [] (answering [0x31000000] (ctrlAt .writeOut 5 .h2d)) ∧
    Answers ⟨[], 0x32000000⟩ .respOutDataDelay [] (answering [0x32000000] (ctrlAt .writeOut 5 .h2d)) ∧
    (let s := answering [0x40000000, 0x50000000] (ctrlAt .readStatus 0 .d2h)
     (s.epAt 0).sub = .control .readStatus ∧ (s.epAt 0).reqDir = .d2h ∧
     Answers ⟨[], 0x40000000⟩ .respStatusDone [⟨[], 0x50000000⟩] s ∧ [(0x50000000 : Word)] = (encode Layout.default .respStatusCompleteDone).2) ∧
    ((ctrlAt .init 0 .h2d).epAt 0).sub = .control .init ∧ ((dataAt (.bulk .init .outDelay) 0).epAt 1).sub = .bulk .init .outDelay ∧
    (((ctrlAt .readStatus 0 .h2d).epAt 0).sub = .control .readStatus ∧ ((ctrlAt .readStatus 0 .h2d).epAt 0).reqDir = .h2d) ∧
    (vInit.epAt 3).sub = .disabled :=
  ⟨⟨rfl, rfl, by decide, rfl, rfl, rfl, rfl⟩, ⟨rfl, rfl⟩, ⟨rfl, rfl⟩, ⟨rfl, ⟨rfl, rfl⟩, canSend_ctrl rfl rfl⟩, ⟨rfl, rfl⟩, ⟨rfl, rfl⟩,
    ⟨rfl, rfl, ⟨rfl, rfl⟩, rfl⟩, rfl, rfl, ⟨rfl, rfl⟩, rfl⟩

theorem witness_DelayedPacketIsOfferedAgain :
    (let s := dataAt (.bulk .init .outDelay) 5
     s.clockOn = true ∧ s.moves = [] ∧ 1 < s.cfg.nEp ∧ (s.epAt 1).sub = .bulk .init .outDelay ∧ (s.epAt 1).outBuf = some outBuf1) ∧
    Answers ⟨[], 0x30000000⟩ .respOutDataOk [] (answering [0x30000000] (dataAt (.bulk .init .outDelay) 5)) ∧
    Answers ⟨[], 0x32000000⟩ .respOutDataDelay [] (answering [0x32000000] (dataAt (.bulk .init .outDelay) 5)) ∧
    Answers ⟨[], 0x31000000⟩ .respOutDataHalted [] (answering [0x31000000] (dataAt (.bulk .init .outDelay) 5)) ∧
    ∀ bin, ((dataAt (.bulk .init (.outData 5)) 5).epAt 1).sub ≠ .bulk bin .outDelay :=
  ⟨by decide, ⟨rfl, rfl⟩, ⟨rfl, rfl⟩, ⟨rfl, rfl⟩, fun bin h => by injection h with h1 h2; cases h2⟩

/-- The answers of a control read with the packet of the whole buffer, one byte too many, a delay, an error. -/
theorem witness_InTransferComplete :
    (vInit.clockOn = true ∧ vInit.moves = [] ∧ 1 < vInit.cfg.nEp) ∧ ((dataAt (.bulk (.busy 5) .init) 0).epAt 1).sub = .bulk (.busy 5) .init ∧
    ((dataAt (.interrupt (.busy 5) 64) 0).epAt 1).sub = .interrupt (.busy 5) 64 ∧
    (((ctrlAt .setAddress 8 .h2d).epAt 0).sub = .control .setAddress ∧ (ctrlAt .setAddress 8 .h2d).cfg.addrTiming = .deferred ∧
      (immediately (ctrlAt .setAddress 8 .h2d)).cfg.addrTiming = .immediate) ∧
    (let s := answering [0x20010040] (ctrlAt .readIn 8 .d2h)
     (s.epAt 0).sub = .control .readIn ∧ Answers ⟨[], 0x20010040⟩ (.respInDataPacket 64 true) [] s ∧ CanSend 0 64 ctrlBuf s) ∧
    (let s := answering [0x20000041] (ctrlAt .readIn 8 .d2h)
     (s.epAt 0).inBuf = some ctrlBuf ∧ Answers ⟨[], 0x20000041⟩ (.respInDataPacket 65 false) [] s ∧ ctrlBuf.len.toNat < (65 : BitVec 16).toNat) ∧
    Answers ⟨[], 0x21000000⟩ .respInDataDelay [] (answering [0x21000000] (ctrlAt .readIn 8 .d2h)) ∧
    Answers ⟨[], 0x22000000⟩ .respInDataError [] (answering [0x22000000] (ctrlAt .readIn 8 .d2h)) ∧
    (let s := answering [0x40000000, 0x50000000] (ctrlAt .readStatus 0 .h2d)
     (s.epAt 0).sub = .control .readStatus ∧ (s.epAt 0).reqDir = .h2d ∧
     Answers ⟨[], 0x40000000⟩ .respStatusDone [⟨[], 0x50000000⟩] s ∧
     [(0x50000000 : Word)] = (encode s.cfg.layout .respStatusCompleteDone).2) ∧
    ((ctrlAt .init 0 .h2d).epAt 0).sub = .control .init ∧ ((ctrlAt .readStatus 0 .d2h).epAt 0).reqDir = .d2h ∧
    (vInit.epAt 3).sub = .disabled :=
  ⟨by decide, rfl, rfl, ⟨rfl, rfl, rfl⟩, ⟨rfl, ⟨rfl, rfl⟩, canSend_full rfl rfl⟩, ⟨rfl, ⟨rfl, rfl⟩, by decide⟩, ⟨rfl, rfl⟩, ⟨rfl, rfl⟩,
    ⟨rfl, rfl, ⟨rfl, rfl⟩, rfl⟩, rfl, rfl, rfl⟩

/-- A packet of the whole buffer, of the whole `mps`; the answers; one byte too many; the same in `ReadIn` with no packet in flight. -/
theorem witness_InTokenPollsClient :
    (let s := answering [0x20010040] (tightFifo (.bulk .init .init))
     s.clockOn = true ∧ s.moves = [] ∧ 1 < s.cfg.nEp ∧ (s.epAt 1).sub = .bulk .init .init ∧
     Answers ⟨[], 0x20010040⟩ (.respInDataPacket 64 true) [] s ∧ CanSend 1 64 inBuf1 s) ∧
    (let s := answering [0x20010040] (tightFifo (.interrupt .init 64))
     (s.epAt 1).sub = .interrupt .init 64 ∧ Answers ⟨[], 0x20010040⟩ (.respInDataPacket 64 true) [] s ∧
     (64 : BitVec 16).toNat ≤ (64 : BitVec 16).toNat ∧ CanSend 1 64 inBuf1 s) ∧
    Answers ⟨[], 0x21000000⟩ .respInDataDelay [] (answering [0x21000000] (tightFifo (.bulk .init .init))) ∧
    Answers ⟨[], 0x22000000⟩ .respInDataError [] (answering [0x22000000] (tightFifo (.bulk .init .init))) ∧
    (Answers ⟨[], 0x20000041⟩ (.respInDataPacket 65 false) [] (answering [0x20000041] (tightFifo (.bulk .init .init))) ∧
      inBuf1.len.toNat < (65 : BitVec 16).toNat) ∧
    (let s := answering [0x20010040] (ctrlAt .readIn 8 .d2h)
     s.clockOn = true ∧ s.moves = [] ∧ 0 < s.cfg.nEp ∧ (s.epAt 0).sub = .control .readIn ∧ (s.ri.iepAt 0).ena = false ∧
     Answers ⟨[], 0x20010040⟩ (.respInDataPacket 64 true) [] s ∧ CanSend 0 64 ctrlBuf s) ∧
    (Answers ⟨[], 0x20000041⟩ (.respInDataPacket 65 false) [] (answering [0x20000041] (ctrlAt .readIn 8 .d2h)) ∧
      Answers ⟨[], 0x21000000⟩ .respInDataDelay [] (answering [0x21000000] (ctrlAt .readIn 8 .d2h)) ∧
      Answers ⟨[], 0x22000000⟩ .respInDataError [] (answering [0x22000000] (ctrlAt .readIn 8 .d2h))) ∧
    (let s := { ctrlAt .readIn 8 .d2h with ri := { vInit.ri with iep := vInit.ri.iep.modify 0 fun r => { r with ena := true } } }
     (s.epAt 0).sub = .control .readIn ∧ s.moves = [] ∧ (s.ri.iepAt 0).ena = true) ∧
    ((dataAt (.bulk (.busy 5) .init) 0).epAt 1).sub = .bulk (.busy 5) .init ∧ (vInit.epAt 3).sub = .disabled :=
  ⟨⟨rfl, rfl, by decide, rfl, ⟨rfl, rfl⟩, canSend_tight rfl rfl⟩, ⟨rfl, ⟨rfl, rfl⟩, by decide, canSend_tight rfl rfl⟩, ⟨rfl, rfl⟩, ⟨rfl, rfl⟩,
    ⟨⟨rfl, rfl⟩, by decide⟩, ⟨rfl, rfl, by decide, rfl, rfl, ⟨rfl, rfl⟩, canSend_full rfl rfl⟩, ⟨⟨rfl, rfl⟩, ⟨rfl, rfl⟩, ⟨rfl, rfl⟩⟩,
    ⟨rfl, rfl, rfl⟩, rfl, rfl⟩

theorem witness_RequestAndResultWordsGoOut :
    (Instr.cbInData 255 = .cbInData 255 ∧ CbReq.inData 255 = .inData (255 : BitVec 8).toNat) ∧ vInit.client.outstanding = none ∧
    (during .busReset vInit).client.outstanding ≠ none ∧ (1 : BitVec 8) ≠ 0 := by decide

theorem witness_SetupAnswersAct :
    (let s := during (.setup 0) (ctrlAt .init 8 .d2h)
     s.clockOn = true ∧ s.moves = [] ∧ s.client.outstanding = some (.setup 0) ∧ (s.epAt 0).sub = .control .init ∧ (s.epAt 0).outBuf = some ctrlBuf ∧
     CanSend 0 0 ctrlBuf s ∧ s.cfg.addrTiming = .deferred ∧ ctrlBuf.base.toNat + 8 ≤ 2 ^ 32 ∧
     0 = (s.mem.read (ctrlBuf.base.toNat + 6)).toNat + 256 * (s.mem.read (ctrlBuf.base.toNat + 7)).toNat) ∧
    (State.powerOn { Config.vectors with addrTiming := .immediate }).cfg.addrTiming = .immediate ∧
    (let s := during (.setup 0) (bytesAt 0x20000000 [0x80, 6, 0, 1, 0, 0, 0, 1] (ctrlAt .init 8 .d2h))
     256 = (s.mem.read (ctrlBuf.base.toNat + 6)).toNat + 256 * (s.mem.read (ctrlBuf.base.toNat + 7)).toNat ∧ 256 ≠ 0 ∧
     (s.epAt 0).reqDir = .d2h) ∧ ((ctrlAt .init 8 .h2d).epAt 0).reqDir = .h2d :=
  ⟨⟨rfl, rfl, rfl, rfl, rfl, canSend_ctrl rfl rfl, rfl, by decide, by decide⟩, rfl, by decide, rfl⟩

theorem witness_InDataAnswersAct :
    (let s := during (.inData 0) (ctrlAt .readIn 8 .d2h)
     s.clockOn = true ∧ s.moves = [] ∧ s.client.outstanding = some (.inData 0) ∧ (s.epAt 0).sub = .control .readIn ∧ CanSend 0 0 ctrlBuf s ∧
     (s.epAt 0).inBuf = some ctrlBuf ∧ ctrlBuf.len.toNat < (65 : BitVec 16).toNat) ∧
    (let s := during (.inData 1) (tightFifo (.bulk .init .outDelay))
     s.clockOn = true ∧ s.moves = [] ∧ s.client.outstanding = some (.inData 1) ∧ (s.epAt 1).sub = .bulk .init .outDelay ∧ CanSend 1 64 inBuf1 s) ∧
    (let s := during (.inData 1) (tightFifo (.interrupt .init 64))
     (s.epAt 1).sub = .interrupt .init 64 ∧ CanSend 1 64 inBuf1 s ∧ (64 : BitVec 16).toNat < (65 : BitVec 16).toNat) :=
  ⟨⟨rfl, rfl, rfl, rfl, canSend_ctrl rfl rfl, rfl, by decide⟩, ⟨rfl, rfl, rfl, rfl, canSend_tight rfl rfl⟩, rfl, canSend_tight rfl rfl, by decide⟩

theorem witness_OutDataAnswersAct :
    (let s := during (.outData 0 5) (ctrlAt .writeOut 5 .h2d)
     s.clockOn = true ∧ s.moves = [] ∧ s.client.outstanding = some (.outData 0 5) ∧ (s.epAt 0).sub = .control .writeOut ∧ CanSend 0 0 ctrlBuf s) ∧
    (let s := during (.outData 1 5) (dataAt (.bulk (.busy 3) .outDelay) 5)
     s.clockOn = true ∧ s.moves = [] ∧ s.client.outstanding = some (.outData 1 5) ∧ (s.epAt 1).sub = .bulk (.busy 3) .outDelay ∧
     (s.epAt 1).outBuf = some outBuf1) ∧
    ((dataAt (.bulk .init (.outData 5)) 5).epAt 1).sub = .bulk .init (.outData 5) :=
  ⟨⟨rfl, rfl, rfl, rfl, canSend_ctrl rfl rfl⟩, by decide, rfl⟩

theorem witness_StatusAnswersEndTransfer :
    (during (.status 0) vInit).client.outstanding = some (.status 0) ∧
    (let s := during (.statusComplete 0) (ctrlAt .readStatus 0 .d2h)
     s.clockOn = true ∧ s.moves = [] ∧ s.client.outstanding = some (.statusComplete 0) ∧ (s.epAt 0).sub = .control .readStatus) ∧
    (during .busReset vInit).client.outstanding = some .busReset ∧
    (respOfInstr .respStatusDone = some .status ∧ ∀ q, (during (.setup 0) vInit).client.outstanding = some q → echoes .status q = false) :=
  ⟨rfl, ⟨rfl, rfl, rfl, rfl⟩, rfl, rfl, fun q h => by cases h; rfl⟩

theorem witness_WhoMakesNoCallback :
    isCommand .start ∧ (∃ t, exec .start vInit = .next t) ∧ (encode Layout.default (.rxSetupComplete 0 0 0)).1 = .rxsts ∧
    (Source.susp ≠ .oepint ∧ Source.susp ≠ .iepint ∧ Source.susp ≠ .usbrst ∧ Instr.srcSusp = Source.susp.instr) ∧
    (∃ t, exec .srcSusp vInit = .next t) ∧ (∃ t, exec (.iepTxfe 3) vInit = .next t) :=
  ⟨⟨rfl, by decide⟩, ⟨_, rfl⟩, rfl, by decide, ⟨_, rfl⟩, ⟨_, rfl⟩⟩

theorem witness_NoRegisterAccessWithClockOff :
    State.reset.clockOn = false ∧ (∀ v, Instr.setAddress 5 ≠ .enable v) ∧ ∃ t, exec (.setAddress 5) State.reset = .next t :=
  ⟨rfl, fun v h => (by cases h), ⟨_, rfl⟩⟩

/-- A move that shows in what it may, a level shown with its cause; two states that differ in flags and in coming moves. -/
theorem witness_InterfaceDoesNotReachTheCore :
    (testBit (0x20 : Word) 5 = true ∧
      (let r := (received [.status 0] vInit).ri
       testBit (r.level Layout.default &&& r.levelGate) 4 = true ∧
       testBit ((RiMove.apply Layout.default r (.gate 0)).level Layout.default) 4 = true) ∧
      RiMove.setup [7] ≠ .raise 3) ∧
    (let u := { vInit with ri := { vInit.ri with intsts := 0xFFFFFFFF }, moves := [[.raise 3]] }
     readsPlainOnly .start ∧ u = { vInit with ri := u.ri, moves := u.moves } ∧ u.ri.plain = vInit.ri.plain ∧
     ∃ t, exec .start u = .next t) :=
  ⟨by decide, ⟨by decide, by decide, by decide, by decide, by decide, fun k n h => (by cases h), fun e n d => ⟨fun h => (by cases h),
    fun h => (by cases h)⟩, fun k h => (by cases h)⟩, rfl, rfl, ⟨_, rfl⟩⟩

/-- A state every invariant holds in, whose next step is a dispatcher invocation. -/
theorem witness_StepKeeps :
    let s := { vInit with ri := { vInit.ri with gintEn := true, intsts := 0x800 } }
    MemoryCanonical s ∧ Shaped s ∧ FieldsInRange s ∧ PartitionFits s ∧ PartitionContiguous s ∧ BuffersAssigned s ∧ TransferSizesFit s ∧ TagsMatch s ∧
    ∃ t, step s = .next t := by
  have hs : ∀ i, (vInit.epAt i).sub = .disabled := fun i =>
    match i with
    | 0 | 1 | 2 | 3 => rfl
    | i + 4 => rfl
  refine ⟨⟨rfl, fun c h => nomatch h⟩, ⟨rfl, rfl, rfl, rfl, rfl, rfl, rfl, rfl⟩, ⟨by decide, by decide, fun i => match i with
    | 0 | 1 | 2 | 3 => ⟨by decide, by decide⟩
    | i + 4 => ⟨Nat.zero_le _, Nat.zero_le _⟩⟩, by unfold PartitionFits; decide, fun i t h => ?_,
    fun i h => absurd (hs i) h, fun i => ?_, ?_, ⟨_, rfl⟩⟩
  · match i, h with
    | 0, h | 1, h | 2, h | 3, h => cases h; rfl
    | i + 4, h => cases h
  · unfold SizesFit
    exact (hs i).symm ▸ trivial
  · exact ⟨fun i u h => absurd ((congrArg Sub.tag (hs i)).symm.trans h) (by simp [Sub.tag]), fun _ => hs,
      fun _ i _ _ => (match i with
        | 0 | 1 | 2 | 3 => ⟨rfl, rfl⟩
        | i + 4 => ⟨rfl, rfl⟩), fun _ => ⟨rfl, rfl⟩, .inl rfl, fun i _ c h => (nomatch ((hs i).symm.trans h : Sub.disabled = .control c))⟩

end Sys2Proof.Tests
end

section
/-! PROOFS. The statements about encodings (spec 30_encoding, 00_scope R5). -/

namespace Sys2Proof.Laws.RoundTrip

/-- The round trip of every instruction, from the lemma of its row. -/
theorem statement_all : ∀ i : Instr, Statement i
  -- commands (30_encoding R93)
  | .enable speed => enable speed
  | .start => start
  | .detach => detach
  | .setAddress a => setAddress a
  | .assignCtrlBuf len base => assignCtrlBuf len base
  | .assignInBuf i len base => assignInBuf i len base
  | .assignOutBuf i len base => assignOutBuf i len base
  | .activateEpIn i t => activateEpIn i t
  | .activateEpOut i t => activateEpOut i t
  | .disableEpIn i => disableEpIn i
  | .disableEpOut i => disableEpOut i
  | .stallEpIn i => stallEpIn i
  | .stallEpOut i => stallEpOut i
  | .clearStallIn i => clearStallIn i
  | .clearStallOut i => clearStallOut i
  | .setRxFifo size => setRxFifo size
  | .setTxFifo i size => setTxFifo i size
  | .writePacket i len => writePacket i len
  | .readPacket i len => readPacket i len
  | .irq => irq
  -- global interrupt sources (30_encoding R96)
  | .srcMmis => srcMmis
  | .srcRxflvl => srcRxflvl
  | .srcOepint => srcOepint
  | .srcIepint => srcIepint
  | .srcWkup => srcWkup
  | .srcSusp => srcSusp
  | .srcLpm => srcLpm
  | .srcUsbrst => srcUsbrst
  | .srcEnumdne => srcEnumdne
  | .srcSof => srcSof
  | .srcIisoixfr => srcIisoixfr
  | .srcIisooxfr => srcIisooxfr
  | .srcSrq => srcSrq
  | .srcOtg => srcOtg
  -- OUT-endpoint conditions of endpoint i (30_encoding R97)
  | .oepXfrc i => oepXfrc i
  | .oepStup i => oepStup i
  | .oepOtepdis i => oepOtepdis i
  | .oepStsphsrx i => oepStsphsrx i
  | .oepNak i => oepNak i
  -- IN-endpoint conditions of endpoint i (30_encoding R98)
  | .iepXfrc i => iepXfrc i
  | .iepToc i => iepToc i
  | .iepIttxfe i => iepIttxfe i
  | .iepInepne i => iepInepne i
  | .iepEpdisd i => iepEpdisd i
  | .iepTxfe i => iepTxfe i
  -- receive status words (30_encoding R99)
  | .rxDataUpdate e bcnt dpid => rxDataUpdate e bcnt dpid
  | .rxSetupComplete e bcnt dpid => rxSetupComplete e bcnt dpid
  | .rxSetupUpdate e bcnt dpid => rxSetupUpdate e bcnt dpid
  -- callback requests (30_encoding R100)
  | .cbSetup e => cbSetup e
  | .cbInData e => cbInData e
  | .cbOutData e len => cbOutData e len
  | .cbStatus e => cbStatus e
  | .cbStatusComplete e => cbStatusComplete e
  | .cbBusReset => cbBusReset
  -- callback responses (30_encoding R101)
  | .respSetupOk => respSetupOk
  | .respSetupOkSetAddress a => respSetupOkSetAddress a
  | .respSetupError => respSetupError
  | .respInDataPacket size last => respInDataPacket size last
  | .respInDataDelay => respInDataDelay
  | .respInDataError => respInDataError
  | .respOutDataOk => respOutDataOk
  | .respOutDataHalted => respOutDataHalted
  | .respOutDataDelay => respOutDataDelay
  | .respStatusDone => respStatusDone
  | .respStatusCompleteDone => respStatusCompleteDone
  | .respBusResetDone => respBusResetDone
  -- result words (30_encoding R94)
  | .resOk => resOk
  | .resConfigurationError => resConfigurationError
  | .resHardwareTimeout => resHardwareTimeout
  | .resUnsupportedFeature => resUnsupportedFeature

end Sys2Proof.Laws.RoundTrip

/-- Settles O3: each instruction decodes back by the lemma of its row, a command by its fields, a status bit by the bits of the
layout being distinct, a receive status word by its fields standing apart and its codes being distinct. -/
theorem decodeEncodeAgree : Obligations.DecodeEncodeAgree :=
  fun l i hl hi => Sys2Proof.Laws.RoundTrip.statement_all i l hl hi

end

section
/-! PROOFS. The statements about the CORE's state (spec 10_state): what every step keeps, and the state at power-on. The invariants
are proved over the changes a step is made of (`Touch`, `Switched`, `Reinit`), not over the instructions. -/

namespace Sys2Proof.Machine

/-! ## A step is one of three changes -/

/-- What `START` and `DETACH` do: registers softly, and the lifecycle state among the two enabled ones (40 R126, R127). -/
structure Switched (s t : State) : Prop where
  ri : Soft s.cfg s.ri t.ri
  cfg : t.cfg = s.cfg
  ep : t.ep = s.ep
  part : t.part = s.part
  before : s.ctrl ≠ .disabled
  after : t.ctrl = .initialized ∨ t.ctrl = .started

theorem Switched.start {s t : State} (h : exec .start s = .next t) : Switched s t := by
  simp only [exec, execStart] at h
  split at h
  · rename_i hc
    obtain ⟨-, h⟩ := clocked_eq_next h
    cases h
    exact ⟨(Soft.regWrite (f := .gintEn) rfl 1 s).trans (Soft.regWrite (f := .connect) rfl 1 (regWrite .gintEn 1 s)), rfl, rfl, rfl,
      by simp [hc], .inr rfl⟩
  · cases h

theorem Switched.detach {s t : State} (h : exec .detach s = .next t) : Switched s t := by
  simp only [exec, execDetach] at h
  split at h
  · rename_i hc
    obtain ⟨-, h⟩ := clocked_eq_next h
    cases h
    exact ⟨(Soft.regWrite (f := .connect) rfl 0 s).trans (Soft.regWrite (f := .gintEn) rfl 0 (regWrite .connect 0 s)), rfl, rfl, rfl,
      by simp [hc], .inl rfl⟩
  · cases h

/-- Everything an instruction can do. -/
theorem exec_change {i : Instr} {s t : State} (h : exec i s = .next t) :
    Touch s t ∨ Switched s t ∨ s.ctrl = .disabled ∧ Reinit s t := by
  by_cases he : ∃ v, i = .enable v
  · obtain ⟨v, rfl⟩ := he
    rcases enable_cases h with k | ⟨-, hc, p, k, rfl⟩
    · exact .inl k
    · exact .inr (.inr ⟨hc, k.cfg, k.mem, k.len, k.part, k.sized, k.range, k.ep, k.done⟩)
  by_cases hs : i = .start
  · subst hs
    exact .inr (.inl (.start h))
  by_cases hd : i = .detach
  · subst hd
    exact .inr (.inl (.detach h))
  exact .inl (exec_touch h (fun v e => he ⟨v, e⟩) hs hd)

/-- Everything a step can do: no invariant speaks of what is taken from the inbox. -/
theorem step_change {s t : State} (h : step s = .next t) : Touch s t ∨ Switched s t ∨ s.ctrl = .disabled ∧ Reinit s t := by
  rcases step_cases h with h | ⟨i, l, h⟩
  · exact .inl h
  rcases exec_change h with h | h | ⟨hc, h⟩
  · exact .inl (.trans (t := { s with inbox := l }) (.aux rfl rfl rfl rfl rfl rfl) h)
  · exact .inr (.inl ⟨h.ri, h.cfg, h.ep, h.part, h.before, h.after⟩)
  · exact .inr (.inr ⟨hc, h.cfg, h.mem, h.len, h.part, h.sized, h.range, h.ep, h.done⟩)

/-! ## The endpoint array after a change -/

/-- `disableBoth` is one change of one descriptor. -/
theorem disableBoth_modifyEp (i : Nat) (s : State) :
    disableBoth i s = modifyEp i (fun e => { e with sub := .disabled, pendingSize := 0 }) s := by
  simp only [disableBoth, setPending, setSub, modifyEp, modify_twice]

/-- A descriptor that becomes a control endpoint's if it is `Disabled` (42 R194, R195). -/
def Endpoint.toControl (e : Endpoint) : Endpoint := if e.sub = .disabled then { e with sub := .control .init } else e

/-- `startControl0` is one change of descriptor 0. -/
theorem startControl0_modifyEp (s : State) : startControl0 s = modifyEp 0 Endpoint.toControl s := by
  unfold startControl0
  split
  · rename_i h
    simp only [setSub, modifyEp]
    rw [epAt_congr (g := Endpoint.toControl) (by rw [Endpoint.toControl, if_pos h])]
  · rename_i h
    simp only [modifyEp]
    rw [epAt_congr (g := id) (by rw [Endpoint.toControl, if_neg h]; rfl), modify_same s.ep 0 id fun _ _ => rfl]

/-- An endpoint whose buffers are assigned exists. -/
theorem lt_of_buffersOf {s : State} {i : Nat} {p : Buf × Buf} (h : buffersOf (s.epAt i) = some p) : i < s.ep.length := by
  refine Decidable.byContradiction fun hi => ?_
  rw [State.epAt, List.getD_eq_getElem?_getD, List.getElem?_eq_none (Nat.not_lt.mp hi)] at h
  cases h

/-- Every descriptor after the core soft reset (10_state R50). -/
theorem epAt_of_reset {s t : State} (h : t.ep = s.ep.map resetEndpoint) (i : Nat) : t.epAt i = resetEndpoint (s.epAt i) := by
  rw [State.epAt, State.epAt, h, List.getD_eq_getElem?_getD, List.getD_eq_getElem?_getD, List.getElem?_map]
  cases s.ep[i]? <;> rfl

/-- A change of one descriptor and of registers, as an activation makes it. -/
structure OneEp (s u : State) (i : Nat) (f : Endpoint → Endpoint) : Prop where
  cfg : u.cfg = s.cfg
  ctrl : u.ctrl = s.ctrl
  part : u.part = s.part
  ep : u.ep = s.ep.modify i f

theorem OneEp.of_regs {s u : State} {i : Nat} {f : Endpoint → Endpoint}
    (h : u = { modifyEp i f s with ri := u.ri, moves := u.moves, trace := u.trace }) : OneEp s u i f := by
  constructor <;> rw [h] <;> rfl

theorem OneEp.control0 {s u : State} (h : u = { startControl0 s with ri := u.ri, moves := u.moves, trace := u.trace }) :
    OneEp s u 0 Endpoint.toControl := .of_regs (startControl0_modifyEp s ▸ h)

/-! ## Configuration and lifecycle state -/

/-- Only `ENABLE`, `START` and `DETACH` write the lifecycle state, and nothing the configuration (10_state R22, 00_scope R5). -/
theorem Touch.cfg_ctrl {s t : State} (h : Touch s t) : t.cfg = s.cfg ∧ t.ctrl = s.ctrl := by
  induction h
  case trans h k => exact ⟨k.1.trans h.1, k.2.trans h.2⟩
  case aux hc hl _ _ _ _ => exact ⟨hc, hl⟩
  case actIn hu => exact ⟨(OneEp.of_regs hu).cfg, (OneEp.of_regs hu).ctrl⟩
  case actOut hu => exact ⟨(OneEp.of_regs hu).cfg, (OneEp.of_regs hu).ctrl⟩
  case act0In hu => exact ⟨(OneEp.control0 hu).cfg, (OneEp.control0 hu).ctrl⟩
  case act0Out hu => exact ⟨(OneEp.control0 hu).cfg, (OneEp.control0 hu).ctrl⟩
  all_goals exact ⟨rfl, rfl⟩

theorem Touch.cfg {s t : State} (h : Touch s t) : t.cfg = s.cfg := h.cfg_ctrl.1

theorem Touch.ctrl {s t : State} (h : Touch s t) : t.ctrl = s.ctrl := h.cfg_ctrl.2

/-- No step changes the configuration (00_scope R5). -/
theorem step_cfg {s t : State} (h : step s = .next t) : t.cfg = s.cfg := by
  rcases step_change h with h | h | ⟨-, h⟩
  · exact h.cfg
  · exact h.cfg
  · exact h.cfg

/-- Every step ends in one of the three lifecycle states a rule produces, if it begins in one (10_state R21). -/
theorem step_legalCtrl {s t : State} (hl : LegalCtrl s) (h : step s = .next t) : LegalCtrl t := by
  rcases step_change h with h | h | ⟨-, h⟩
  · simpa only [LegalCtrl, h.ctrl] using hl
  · exact .inr h.after
  · exact h.done.imp_right fun k => .inl k.1

/-! ## Lengths and ranges -/

theorem RegIf.Sized.onIn {w : Config} {n i : Nat} {r r' : RegIf} (h : r.Sized n) (k : OnIn w i r r') : r'.Sized n :=
  ⟨k.txf.trans h.txf, k.aintIep.trans h.aintIep, k.aintOep.trans h.aintOep, k.iepLen.trans h.iep, k.oepLen.trans h.oep, k.txq.trans h.txq⟩

theorem RegIf.Sized.onOut {w : Config} {n i : Nat} {r r' : RegIf} (h : r.Sized n) (k : OnOut w i r r') : r'.Sized n :=
  ⟨k.txf.trans h.txf, k.aintIep.trans h.aintIep, k.aintOep.trans h.aintOep, k.iepLen.trans h.iep, k.oepLen.trans h.oep, k.txq.trans h.txq⟩

/-- The shape of a state: its two own lists, and those of the Register Interface. -/
theorem shaped_iff {s : State} :
    Shaped s ↔ s.ep.length = s.cfg.nEp ∧ s.part.tx.length = s.cfg.nEp ∧ s.ri.Sized s.cfg.nEp :=
  ⟨fun h => ⟨h.ep, h.part, h.txf, h.aintIep, h.aintOep, h.iep, h.oep, h.txq⟩,
    fun ⟨he, hp, h⟩ => ⟨he, hp, h.txf, h.aintIep, h.aintOep, h.iep, h.oep, h.txq⟩⟩

/-- A change that keeps the configuration and the lengths of the CORE's own lists keeps the shape, if the registers keep theirs. -/
theorem Shaped.of_lengths {s t : State} (hc : t.cfg = s.cfg) (he : t.ep.length = s.ep.length)
    (hp : t.part.tx.length = s.part.tx.length) (hr : s.ri.Sized s.cfg.nEp → t.ri.Sized s.cfg.nEp) (h : Shaped s) : Shaped t := by
  obtain ⟨h1, h2, h3⟩ := shaped_iff.mp h
  rw [shaped_iff, hc]
  exact ⟨he.trans h1, hp.trans h2, hr h3⟩

theorem OneEp.length {s u : State} {i : Nat} {f : Endpoint → Endpoint} (h : OneEp s u i f) : u.ep.length = s.ep.length := by
  rw [h.ep, List.length_modify]

theorem OneEp.shaped {s u : State} {i : Nat} {f : Endpoint → Endpoint} (h : OneEp s u i f)
    (hr : s.ri.Sized s.cfg.nEp → u.ri.Sized s.cfg.nEp) : Shaped s → Shaped u :=
  .of_lengths h.cfg h.length (by rw [h.part]) hr

theorem Touch.shaped {s t : State} (h : Touch s t) : Shaped s → Shaped t := by
  induction h
  case refl => exact id
  case trans h k => exact k ∘ h
  case aux hc _ he hp hr _ => exact .of_lengths hc (by rw [he]) (by rw [hp]) (by rw [hr]; exact id)
  case ri h => exact .of_lengths rfl rfl rfl (·.soft h)
  case mem => exact .of_lengths rfl rfl rfl id
  case ep s i f _ _ _ => exact OneEp.shaped (i := i) (f := f) ⟨rfl, rfl, rfl, rfl⟩ id
  case off s i _ =>
    rw [disableBoth_modifyEp]
    exact .of_lengths rfl (modifyEp_length _ _ s) rfl id
  case actIn h _ hu => exact (OneEp.of_regs hu).shaped (·.onIn h)
  case actOut h _ hu => exact (OneEp.of_regs hu).shaped (·.onOut h)
  case act0In h _ hu => exact (OneEp.control0 hu).shaped (·.onIn h)
  case act0Out h _ hu => exact (OneEp.control0 hu).shaped (·.onOut h)
  case layout => exact .of_lengths rfl rfl (List.length_map _) id
  case place => exact .of_lengths rfl rfl (List.length_modify _ _ _) id

/-- A step keeps one entry per endpoint in every list that has one. -/
theorem step_shaped {s t : State} (h : step s = .next t) : Shaped s → Shaped t := by
  rcases step_change h with h | h | ⟨-, h⟩
  · exact h.shaped
  · exact .of_lengths h.cfg (by rw [h.ep]) (by rw [h.part]) (·.soft h.ri)
  · refine .of_lengths h.cfg ?_ h.len h.sized
    rcases h.ep with he | he <;> simp [he]

/-- Registers whose ranges are kept, under the same configuration. -/
theorem FieldsInRange.of_regs {s t : State} (hc : t.cfg = s.cfg) (hr : s.ri.InRange s.cfg → t.ri.InRange s.cfg)
    (h : FieldsInRange s) : FieldsInRange t := by
  rw [FieldsInRange, hc]
  exact hr h

theorem Touch.fieldsInRange {s t : State} (h : Touch s t) : FieldsInRange s → FieldsInRange t := by
  induction h
  case trans h k => exact k ∘ h
  case aux hc _ _ _ hr _ => exact .of_regs hc (by rw [hr]; exact id)
  case ri h => exact .of_regs rfl h.range
  case actIn h _ hu => exact .of_regs (OneEp.of_regs hu).cfg h.range
  case actOut h _ hu => exact .of_regs (OneEp.of_regs hu).cfg h.range
  case act0In h _ hu => exact .of_regs (OneEp.control0 hu).cfg h.range
  case act0Out h _ hu => exact .of_regs (OneEp.control0 hu).cfg h.range
  all_goals exact .of_regs rfl id

/-- A step keeps the number fields within their ranges. -/
theorem step_fieldsInRange {s t : State} (h : step s = .next t) : FieldsInRange s → FieldsInRange t := by
  rcases step_change h with h | h | ⟨-, h⟩
  · exact h.fieldsInRange
  · exact .of_regs h.cfg h.ri.range
  · exact h.range

/-! ## The FIFO partition -/

/-- The same partition under the same configuration. -/
theorem PartOk.of_same {s t : State} (hc : t.cfg = s.cfg) (hp : t.part = s.part) (h : PartOk s) : PartOk t := by
  simpa only [PartOk, PartitionFits, PartitionContiguous, hc, hp] using h

/-- The partition begun anew fits, and a FIFO placed in order behind the others keeps it so. -/
theorem Touch.partOk {s t : State} (h : Touch s t) : PartOk s → PartOk t := by
  induction h
  case trans h k => exact k ∘ h
  case aux hc _ _ hp _ _ => exact .of_same hc hp
  case layout hn => exact fun _ => beginLayout_ok hn
  case place ho hn => exact fun h => placeTx_ok h ho hn
  case actIn hu => exact .of_same (OneEp.of_regs hu).cfg (OneEp.of_regs hu).part
  case actOut hu => exact .of_same (OneEp.of_regs hu).cfg (OneEp.of_regs hu).part
  case act0In hu => exact .of_same (OneEp.control0 hu).cfg (OneEp.control0 hu).part
  case act0Out hu => exact .of_same (OneEp.control0 hu).cfg (OneEp.control0 hu).part
  all_goals exact .of_same rfl rfl

theorem step_partOk {s t : State} (h : step s = .next t) : PartOk s → PartOk t := by
  rcases step_change h with h | h | ⟨-, h⟩
  · exact h.partOk
  · exact .of_same h.cfg h.part
  · exact h.part

/-! ## Invariants of one descriptor -/

/-- A property of a descriptor that every change of a descriptor keeps. -/
structure EpInvariant (P : Endpoint → Prop) : Prop where
  /-- a `Disabled` endpoint has it -/
  disabled : ∀ e, e.sub = .disabled → P e
  /-- a change that keeps the tag, the buffers and the fit of the sizes keeps it -/
  edit : ∀ e e', e'.sub.tag = e.sub.tag → (buffersOf e ≠ none → buffersOf e' ≠ none) → (SizesFit e → SizesFit e') → P e → P e'
  /-- activation with valid buffers keeps it -/
  activateIn : ∀ e t b1 b2, t = .bulk ∨ t = .interrupt → buffersOf e = some (b1, b2) → P e →
    P { e with sub := initialIn t e.sub b1.len }
  activateOut : ∀ e p, buffersOf e = some p → P e → P { e with sub := initialOut .bulk e.sub }
  control : ∀ e p, buffersOf e = some p → P e → P { e with sub := .control .init }

theorem modifyEp_forall {P : Endpoint → Prop} {s : State} {i : Nat} {f : Endpoint → Endpoint} (h : ∀ j, P (s.epAt j))
    (hf : P (f (s.epAt i))) (j : Nat) : P ((modifyEp i f s).epAt j) := by
  rw [modifyEp_epAt]
  split
  · rename_i hj
    exact hj.1 ▸ hf
  · exact h j

theorem OneEp.epAt {s u : State} {i : Nat} {f : Endpoint → Endpoint} (h : OneEp s u i f) (j : Nat) :
    u.epAt j = (modifyEp i f s).epAt j := by
  simp only [State.epAt, h.ep, modifyEp_ep]

theorem OneEp.forall {P : Endpoint → Prop} {s u : State} {i : Nat} {f : Endpoint → Endpoint} (h : OneEp s u i f)
    (hs : ∀ j, P (s.epAt j)) (hf : P (f (s.epAt i))) (j : Nat) : P (u.epAt j) := by
  rw [h.epAt]
  exact modifyEp_forall hs hf j

theorem EpInvariant.toControl {P : Endpoint → Prop} (hP : EpInvariant P) {e : Endpoint} {p : Buf × Buf} (hb : buffersOf e = some p)
    (h : P e) : P e.toControl := by
  unfold Endpoint.toControl
  split
  · exact hP.control e p hb h
  · exact h

theorem EpInvariant.touch {P : Endpoint → Prop} (hP : EpInvariant P) {s t : State} (h : Touch s t) :
    (∀ i, P (s.epAt i)) → ∀ i, P (t.epAt i) := by
  induction h
  case trans h k => exact k ∘ h
  case aux he _ _ _ => exact fun h i => by simpa only [State.epAt, he] using h i
  case ep s i f ht hb hf => exact fun h => modifyEp_forall h (hP.edit _ _ ht hb hf (h i))
  case off s i _ =>
    rw [disableBoth_modifyEp]
    exact fun h => modifyEp_forall h (hP.disabled _ rfl)
  case actIn s u i t b1 b2 _ _ ht _ hb _ _ _ hu =>
    exact fun h => (OneEp.of_regs hu).forall h (hP.activateIn _ _ _ _ ht hb (h i))
  case actOut s u i b1 b2 _ _ _ hb _ _ _ hu => exact fun h => (OneEp.of_regs hu).forall h (hP.activateOut _ _ hb (h i))
  case act0In hb _ _ hu => exact fun h => (OneEp.control0 hu).forall h (hP.toControl hb (h 0))
  case act0Out hb _ _ hu => exact fun h => (OneEp.control0 hu).forall h (hP.toControl hb (h 0))
  all_goals exact id

/-- What every change of a descriptor keeps, every step keeps of every descriptor. -/
theorem EpInvariant.step {P : Endpoint → Prop} (hP : EpInvariant P) {s t : State} (hs : ∀ i, P (s.epAt i))
    (h : Machine.step s = .next t) (i : Nat) : P (t.epAt i) := by
  rcases step_change h with h | h | ⟨-, h⟩
  · exact hP.touch h hs i
  · simpa only [State.epAt, h.ep] using hs i
  · rcases h.ep with he | he
    · simpa only [State.epAt, he] using hs i
    · rw [epAt_of_reset he]
      exact hP.disabled _ rfl

/-- A sub-state has no tag exactly where it is `Disabled` (42 R196). -/
theorem Sub.tag_eq_none {x : Sub} : x.tag = none ↔ x = .disabled := by cases x <;> simp [Sub.tag]

/-- A sub-state is tagged `control` exactly where it is a control sub-state. -/
theorem Sub.tag_eq_control {x : Sub} : x.tag = some .control ↔ ∃ c, x = .control c := by cases x <;> simp [Sub.tag]

/-- A descriptor that is not `Disabled` has both buffers, both valid (10_state R35). -/
def HasBuffers (e : Endpoint) : Prop := e.sub ≠ .disabled → ∃ p, buffersOf e = some p

theorem hasBuffers_invariant : EpInvariant HasBuffers where
  disabled _ he hn := absurd he hn
  edit e e' ht hb _ h hn := by
    have he : e.sub ≠ .disabled := fun k => hn (Sub.tag_eq_none.mp (ht.trans (Sub.tag_eq_none.mpr k)))
    exact Option.ne_none_iff_exists'.mp (hb (Option.ne_none_iff_exists'.mpr (h he)))
  activateIn _ _ _ _ _ hb _ _ := ⟨_, hb⟩
  activateOut _ _ hb _ _ := ⟨_, hb⟩
  control _ _ hb _ _ := ⟨_, hb⟩

/-- The first of the buffers found is the IN buffer. -/
theorem inBuf_of_buffersOf {e : Endpoint} {b1 b2 : Buf} (h : buffersOf e = some (b1, b2)) : e.inBuf = some b1 := by
  unfold buffersOf at h
  split at h
  · rename_i hi _
    split at h
    · cases h
      exact hi
    · cases h
  · cases h

theorem sizesFit_invariant : EpInvariant SizesFit where
  disabled e he := by simp only [SizesFit, he]
  edit _ _ _ _ hs h := hs h
  activateIn e t b1 b2 ht hb h := by
    rcases ht with rfl | rfl
    · cases hs : e.sub with
      | bulk bin bout =>
        simp only [SizesFit, hs] at h
        exact ⟨trivial, h.2⟩
      | interrupt | control | disabled => exact ⟨trivial, trivial⟩
    · exact ⟨⟨b1, inBuf_of_buffersOf hb, rfl⟩, trivial⟩
  activateOut e p _ h := by
    cases hs : e.sub with
    | bulk bin bout =>
      simp only [SizesFit, hs] at h
      exact ⟨h.1, trivial⟩
    | interrupt | control | disabled => exact ⟨trivial, trivial⟩
  control _ _ _ _ := trivial

/-! ## Tags and type fields -/

/-- What `TagsMatch` asks of endpoint `i`, with its tag and the registers of its two directions (10_state R39). -/
structure TagOk (c : CtrlState) (i : Nat) (tag : Option TType) (a : InRegs) (b : OutRegs) : Prop where
  typeIn : ∀ t, tag = some t → a.act = true → a.eptyp = BitVec.ofNat 2 t.code
  typeOut : ∀ t, tag = some t → b.act = true → b.eptyp = BitVec.ofNat 2 t.code
  off : c = .disabled → tag = none
  quiet : c ≠ .disabled → 1 ≤ i → tag = none → a.act = false ∧ b.act = false
  zero : c ≠ .disabled → i = 0 → a.eptyp = 0 ∧ b.eptyp = 0
  ep0 : i = 0 → tag = none ∨ tag = some .control
  above : 1 ≤ i → tag ≠ some .control

/-- `TagsMatch` speaks of each endpoint by itself. -/
theorem tagsMatch_iff {s : State} :
    TagsMatch s ↔ ∀ i, TagOk s.ctrl i (s.epAt i).sub.tag (s.ri.iepAt i) (s.ri.oepAt i) := by
  constructor
  · intro h i
    refine ⟨fun t ht => (h.here i t ht).1, fun t ht => (h.here i t ht).2, fun hc => Sub.tag_eq_none.mpr (h.off hc i),
      fun hc hi ht => h.quiet hc i hi (Sub.tag_eq_none.mp ht), fun hc hi => hi ▸ h.zero hc, fun hi => ?_, fun hi ht => ?_⟩
    · rw [Sub.tag_eq_none, Sub.tag_eq_control, hi]
      exact h.ep0
    · obtain ⟨c, hc⟩ := Sub.tag_eq_control.mp ht
      exact h.above i hi c hc
  · intro h
    refine ⟨fun i t ht => ⟨(h i).typeIn t ht, (h i).typeOut t ht⟩, fun hc i => Sub.tag_eq_none.mp ((h i).off hc),
      fun hc i hi hs => (h i).quiet hc hi (Sub.tag_eq_none.mpr hs), fun hc => (h 0).zero hc rfl, ?_,
      fun i hi c hs => (h i).above hi (Sub.tag_eq_control.mpr ⟨c, hs⟩)⟩
    rw [← Sub.tag_eq_none, ← Sub.tag_eq_control]
    exact (h 0).ep0 rfl

/-- Registers of an IN direction that is not activated and keeps its type code, before and after. -/
def InRegs.SoftTo (a a' : InRegs) : Prop := a'.eptyp = a.eptyp ∧ (a'.act = true → a.act = true)

/-- The same of an OUT direction. -/
def OutRegs.SoftTo (b b' : OutRegs) : Prop := b'.eptyp = b.eptyp ∧ (b'.act = true → b.act = true)

/-- No direction is activated and the types are kept, and the lifecycle state neither enters nor leaves `Disabled`. -/
theorem TagOk.soft {c c' : CtrlState} {i : Nat} {tag : Option TType} {a a' : InRegs} {b b' : OutRegs} (h : TagOk c i tag a b)
    (hc : c' = .disabled ↔ c = .disabled) (ha : a.SoftTo a') (hb : b.SoftTo b') : TagOk c' i tag a' b' where
  typeIn t ht k := ha.1.trans (h.typeIn t ht (ha.2 k))
  typeOut t ht k := hb.1.trans (h.typeOut t ht (hb.2 k))
  off k := h.off (hc.mp k)
  quiet k hi ht := by
    obtain ⟨h1, h2⟩ := h.quiet (mt hc.mpr k) hi ht
    exact ⟨Bool.eq_false_iff.mpr fun e => by simp [ha.2 e] at h1, Bool.eq_false_iff.mpr fun e => by simp [hb.2 e] at h2⟩
  zero k hi := ha.1.symm ▸ hb.1.symm ▸ h.zero (mt hc.mpr k) hi
  ep0 := h.ep0
  above := h.above

/-- A `Disabled` endpoint before `ENABLE` has completed. -/
theorem TagOk.beforeEnable (i : Nat) (a : InRegs) (b : OutRegs) : TagOk .disabled i none a b :=
  ⟨nofun, nofun, fun _ => rfl, fun h => absurd rfl h, fun h => absurd rfl h, fun _ => .inl rfl, nofun⟩

/-- An endpoint with both directions off becomes `Disabled`. -/
theorem TagOk.disabled {c : CtrlState} {i : Nat} {tag : Option TType} {a : InRegs} {b : OutRegs} (h : TagOk c i tag a b)
    (hq : 1 ≤ i → a.act = false ∧ b.act = false) : TagOk c i none a b :=
  ⟨nofun, nofun, fun _ => rfl, fun _ hi _ => hq hi, h.zero, fun _ => .inl rfl, nofun⟩

/-- Endpoint 0 as a control endpoint: type code 0 is the code of its tag. -/
theorem TagOk.control0 {c : CtrlState} {a : InRegs} {b : OutRegs} (hc : c ≠ .disabled) (ha : a.eptyp = 0) (hb : b.eptyp = 0) :
    TagOk c 0 (some .control) a b where
  typeIn _ ht _ := Option.some.inj ht ▸ ha
  typeOut _ ht _ := Option.some.inj ht ▸ hb
  off k := absurd k hc
  quiet _ hi := absurd hi (by decide)
  zero _ _ := ⟨ha, hb⟩
  ep0 _ := .inr rfl
  above hi := absurd hi (by decide)

/-- A data endpoint tagged with a data type whose active directions hold its code. -/
theorem TagOk.data {c : CtrlState} {i : Nat} {t : TType} {a : InRegs} {b : OutRegs} (hc : c ≠ .disabled) (hi : 1 ≤ i)
    (ht : t ≠ .control) (ha : a.act = true → a.eptyp = BitVec.ofNat 2 t.code) (hb : b.act = true → b.eptyp = BitVec.ofNat 2 t.code) :
    TagOk c i (some t) a b where
  typeIn _ hu := Option.some.inj hu ▸ ha
  typeOut _ hu := Option.some.inj hu ▸ hb
  off k := absurd k hc
  quiet _ _ := nofun
  zero _ h := by omega
  ep0 h := by omega
  above _ := fun h => ht (Option.some.inj h)

/-- Under a tag that admits `t`, the active directions of a data endpoint have the type code of `t`. -/
theorem TagOk.types_of_admits {c : CtrlState} {i : Nat} {x : Sub} {t : TType} {a : InRegs} {b : OutRegs} (h : TagOk c i x.tag a b)
    (hc : c ≠ .disabled) (hi : 1 ≤ i) (hx : x.admits t = true) :
    (a.act = true → a.eptyp = BitVec.ofNat 2 t.code) ∧ (b.act = true → b.eptyp = BitVec.ofNat 2 t.code) := by
  unfold Sub.admits at hx
  split at hx
  · rename_i hn
    obtain ⟨ha, hb⟩ := h.quiet hc hi hn
    simp [ha, hb]
  · rename_i u hu
    exact eq_of_beq hx ▸ ⟨h.typeIn u hu, h.typeOut u hu⟩

/-- The sub-state an activation begins has the tag of the type asked for (42 R196). -/
theorem initialIn_tag {t : TType} (ht : t = .bulk ∨ t = .interrupt) (x : Sub) (n : BitVec 16) : (initialIn t x n).tag = some t := by
  rcases ht with rfl | rfl
  · cases x <;> rfl
  · rfl

theorem initialOut_bulk_tag (x : Sub) : (initialOut .bulk x).tag = some .bulk := by cases x <;> rfl

/-- Endpoint 0 is tagged `control` once it has been started. -/
theorem toControl_tag {e : Endpoint} (h : e.sub.tag = none ∨ e.sub.tag = some .control) : e.toControl.sub.tag = some .control := by
  unfold Endpoint.toControl
  split
  · rfl
  · rename_i hn
    exact h.resolve_left fun k => hn (Sub.tag_eq_none.mp k)

/-- Tags and lifecycle state kept, the registers changed softly. -/
theorem TagsMatch.of_tags {w : Config} {s t : State} (h : TagsMatch s) (hc : t.ctrl = .disabled ↔ s.ctrl = .disabled)
    (ht : ∀ i, (t.epAt i).sub.tag = (s.epAt i).sub.tag) (hr : Soft w s.ri t.ri) : TagsMatch t :=
  tagsMatch_iff.mpr fun i => by
    rw [ht]
    exact (tagsMatch_iff.mp h i).soft hc (hr.iep i) (hr.oep i)

/-- The same descriptors, so the same tags. -/
theorem TagsMatch.of_ep {w : Config} {s t : State} (h : TagsMatch s) (hc : t.ctrl = .disabled ↔ s.ctrl = .disabled)
    (he : t.ep = s.ep) (hr : Soft w s.ri t.ri) : TagsMatch t :=
  h.of_tags hc (fun i => by rw [State.epAt, State.epAt, he]) hr

/-- One endpoint changed: the others have their registers softly changed, and this one matches after. -/
theorem TagsMatch.of_oneEp {s u : State} {i : Nat} {f : Endpoint → Endpoint} (h : TagsMatch s) (hu : OneEp s u i f)
    (hlt : i < s.ep.length)
    (ha : ∀ j, j ≠ i → (s.ri.iepAt j).SoftTo (u.ri.iepAt j))
    (hb : ∀ j, j ≠ i → (s.ri.oepAt j).SoftTo (u.ri.oepAt j))
    (hi : TagOk s.ctrl i (f (s.epAt i)).sub.tag (u.ri.iepAt i) (u.ri.oepAt i)) : TagsMatch u :=
  tagsMatch_iff.mpr fun j => by
    rw [hu.epAt, hu.ctrl, modifyEp_epAt]
    by_cases hj : j = i
    · subst hj
      rw [if_pos ⟨rfl, hlt⟩]
      exact hi
    · rw [if_neg fun k => hj k.1.symm]
      exact (tagsMatch_iff.mp h j).soft Iff.rfl (ha j hj) (hb j hj)

/-- Endpoint 0 started as a control endpoint, its type codes as they were. -/
theorem TagsMatch.of_control0 {s u : State} {p : Buf × Buf} (h : TagsMatch s) (hc : s.ctrl ≠ .disabled)
    (hbuf : buffersOf (s.epAt 0) = some p) (hu : OneEp s u 0 Endpoint.toControl)
    (ha : ∀ j, j ≠ 0 → (s.ri.iepAt j).SoftTo (u.ri.iepAt j))
    (hb : ∀ j, j ≠ 0 → (s.ri.oepAt j).SoftTo (u.ri.oepAt j))
    (ha0 : (u.ri.iepAt 0).eptyp = (s.ri.iepAt 0).eptyp) (hb0 : (u.ri.oepAt 0).eptyp = (s.ri.oepAt 0).eptyp) : TagsMatch u := by
  have h0 := tagsMatch_iff.mp h 0
  obtain ⟨za, zb⟩ := h0.zero hc rfl
  refine h.of_oneEp hu (lt_of_buffersOf hbuf) ha hb ?_
  rw [toControl_tag (h0.ep0 rfl)]
  exact .control0 hc (ha0.trans za) (hb0.trans zb)

theorem Touch.tagsMatch {s t : State} (h : Touch s t) : TagsMatch s → TagsMatch t := by
  induction h
  case trans h k => exact k ∘ h
  case aux s _ _ hc he _ hr _ => exact fun h => h.of_ep (w := s.cfg) (by rw [hc]) he (by rw [hr]; exact .refl _)
  case ri h => exact fun k => k.of_ep Iff.rfl rfl h
  case ep s i f ht _ _ =>
    refine fun h => h.of_tags (w := s.cfg) Iff.rfl (fun j => ?_) (.refl _)
    rw [modifyEp_epAt]
    split
    · rename_i hj
      rw [← hj.1, ht]
    · rfl
  case off s i hq =>
    intro h
    rw [disableBoth_modifyEp]
    refine tagsMatch_iff.mpr fun j => ?_
    have hj := tagsMatch_iff.mp h j
    rw [modifyEp_epAt]
    split
    · rename_i hij
      exact hj.disabled (hij.1 ▸ hq)
    · exact hj
  case actIn s u i t b1 b2 h1 _ ht hc hb hx hr hty hu =>
    intro h
    have hi := tagsMatch_iff.mp h i
    refine h.of_oneEp (.of_regs hu) (lt_of_buffersOf hb) hr.iep (fun j _ => hr.oep j) ?_
    rw [initialIn_tag ht]
    exact .data hc h1 (by rcases ht with rfl | rfl <;> decide) hty
      fun k => (hr.oep i).1.trans ((hi.types_of_admits hc h1 hx).2 ((hr.oep i).2 k))
  case actOut s u i b1 b2 h1 _ hc hb hx hr hty hu =>
    intro h
    have hi := tagsMatch_iff.mp h i
    refine h.of_oneEp (.of_regs hu) (lt_of_buffersOf hb) (fun j _ => hr.iep j) hr.oep ?_
    rw [initialOut_bulk_tag]
    exact .data hc h1 (by decide) (fun k => (hr.iep i).1.trans ((hi.types_of_admits hc h1 hx).1 ((hr.iep i).2 k))) hty
  case act0In hc hb hr hty hu =>
    exact fun h => h.of_control0 hc hb (.control0 hu) hr.iep (fun j _ => hr.oep j) hty (hr.oep 0).1
  case act0Out hc hb hr hty hu =>
    exact fun h => h.of_control0 hc hb (.control0 hu) (fun j _ => hr.iep j) hr.oep (hr.iep 0).1 hty
  all_goals exact fun h => h.of_ep (w := s.cfg) Iff.rfl rfl (.refl _)

/-- After `ENABLE full` from `Disabled` every endpoint is `Disabled`, and active nowhere where it has completed. -/
theorem Reinit.tagsMatch {s t : State} (h : Reinit s t) (hc : s.ctrl = .disabled) (hs : TagsMatch s) : TagsMatch t := by
  have htag : ∀ i, (t.epAt i).sub.tag = none := fun i => by
    rcases h.ep with he | he
    · rw [State.epAt, he]
      exact Sub.tag_eq_none.mpr (hs.off hc i)
    · rw [epAt_of_reset he]
      rfl
  refine tagsMatch_iff.mpr fun i => ?_
  rw [htag]
  rcases h.done with hd | ⟨-, -, hr⟩
  · rw [hd]
    exact .beforeEnable i _ _
  · obtain ⟨h1, h2, h3, h4⟩ := hr i
    exact ⟨nofun, nofun, fun _ => rfl, fun _ _ _ => ⟨h1, h3⟩, fun _ _ => ⟨h2, h4⟩, fun _ => .inl rfl, nofun⟩

theorem step_tagsMatch {s t : State} (h : step s = .next t) (hs : TagsMatch s) : TagsMatch t := by
  rcases step_change h with h | h | ⟨hc, h⟩
  · exact h.tagsMatch hs
  · refine hs.of_ep ⟨fun k => ?_, fun k => absurd k h.before⟩ h.ep h.ri
    rcases h.after with ha | ha <;> simp [ha] at k
  · exact h.tagsMatch hc hs

/-! ## Power-on -/

/-- A list of equal entries gives that entry, past its end too where it is the default. -/
theorem getD_replicate_self {α : Type} (n i : Nat) (a : α) : (List.replicate n a).getD i a = a := by
  rw [List.getD_eq_getElem?_getD, List.getElem?_replicate]
  split <;> rfl

@[simp] theorem powerOn_epAt (c : Config) (i : Nat) : (State.powerOn c).epAt i = Endpoint.reset :=
  getD_replicate_self c.nEp i Endpoint.reset

@[simp] theorem powerOn_tx (c : Config) (i : Nat) : (State.powerOn c).part.tx.getD i none = none :=
  getD_replicate_self c.nEp i none

theorem powerOn_txf (c : Config) (i : Nat) : (State.powerOn c).ri.txf.getD i ⟨0, 0⟩ = ⟨0, 0⟩ :=
  getD_replicate_self c.nEp i (⟨0, 0⟩ : TxfRegs)

theorem powerOn_shaped (c : Config) : Shaped (State.powerOn c) := by
  constructor <;> exact List.length_replicate

theorem powerOn_fieldsInRange (c : Config) : FieldsInRange (State.powerOn c) where
  addr := Nat.two_pow_pos _
  rxfSize := Nat.zero_le _
  txf i := by
    rw [powerOn_txf]
    exact ⟨Nat.zero_le _, Nat.zero_le _⟩

theorem powerOn_partOk (c : Config) : PartOk (State.powerOn c) := by
  refine ⟨?_, fun i t h => ?_⟩
  · simp [PartitionFits, FifoPart.total, State.powerOn, partSize]
  · rw [powerOn_tx] at h
    cases h

theorem powerOn_tagsMatch (c : Config) : TagsMatch (State.powerOn c) :=
  tagsMatch_iff.mpr fun i => by
    rw [powerOn_epAt]
    exact .beforeEnable i _ _

/-! ## An index out of range -/

/-- A command whose argument test fails changes the result word alone (60 R301). -/
theorem finish_configurationError {x : M (Res × State)} {s : State} (h : x = .next (.configurationError, s)) :
    finish x = .next { s with result := some .configurationError } := by
  rw [h]
  rfl

/-- The phase in which the partition may be laid out (45 R276). -/
theorem partitionOpen_of {s : State} (hc : s.ctrl = .initialized) (he : ∀ e ∈ s.ep, e.sub = .disabled) : partitionOpen s = true := by
  simpa [partitionOpen, hc] using he

end Sys2Proof.Machine

open Sys2Proof.Machine

/-- Settles O13: an instruction other than the three is a chain of changes none of which writes `ctrl_state`; `START` and `DETACH`
write `Started` and `Initialized`, and `ENABLE` leaves `Disabled` or ends in `Initialized`. -/
theorem lifecycleStateWriters : Obligations.LifecycleStateWriters :=
  ⟨fun _ _ _ h he hs hd => (exec_touch h he hs hd).ctrl, fun _ _ hl h => step_legalCtrl hl h⟩

/-- Settles O55: each change keeps the lengths of all lists and the ranges, a reset image being cut to both. -/
theorem stepKeepsShape : Obligations.StepKeepsShape := fun _ _ h =>
  ⟨step_cfg h, step_shaped h, step_fieldsInRange h⟩

/-- Settles O56: a partition changes only by being begun anew or by one FIFO placed at the end of those before it. -/
theorem stepKeepsPartitionInRam : Obligations.StepKeepsPartitionInRam := fun _ _ hf hc h =>
  step_partOk h ⟨hf, hc⟩

/-- Settles O57: only an activation with valid buffers leaves `Disabled`, and no buffer is taken away. -/
theorem stepKeepsBuffersAssigned : Obligations.StepKeepsBuffersAssigned := fun _ _ hs h =>
  hasBuffers_invariant.step hs h

/-- Settles O58: an activation begins a half with nothing in flight, an interrupt endpoint with the IN buffer's length. -/
theorem stepKeepsTransferSizes : Obligations.StepKeepsTransferSizes := fun _ _ hs h =>
  sizesFit_invariant.step hs h

/-- Settles O59: the match is kept with what it rests on, endpoint by endpoint (`TagOk`): an activation writes the type of the tag
it leaves, and where it keeps the tag the other direction holds that type already. -/
theorem stepKeepsTagsMatched : Obligations.StepKeepsTagsMatched := fun _ _ hs h => step_tagsMatch h hs

/-- Settles O1: every list of the power-on state repeats the power-on entry. -/
theorem powerOnValues : Obligations.PowerOnValues := by
  refine ⟨fun c => ⟨rfl, List.length_replicate, fun i => ?_, rfl, rfl, List.length_replicate, powerOn_tx c⟩, rfl⟩
  rw [powerOn_epAt]
  exact ⟨rfl, rfl, rfl, rfl, rfl⟩

/-- Settles O24: the index is the first thing every command with one tests, `SET_TX_FIFO` after its phase. -/
theorem outOfRangeIndexIsConfigurationError : Obligations.OutOfRangeIndexIsConfigurationError := by
  intro s k hk i hi
  have hlt := Nat.not_lt.mpr hk
  rcases hi with ⟨n, b, rfl⟩ | ⟨n, b, rfl⟩ | ⟨t, rfl⟩ | ⟨t, rfl⟩ | rfl | rfl | rfl | rfl | rfl | rfl | ⟨n, rfl⟩ | ⟨n, rfl⟩ |
    ⟨⟨n, rfl⟩, hc, he⟩
  rotate_left 12
  · exact finish_configurationError ((if_pos (partitionOpen_of hc he)).trans (if_neg hlt))
  all_goals exact finish_configurationError (if_neg hlt)

/-- Settles O60: at power-on every endpoint is `Disabled`, every FIFO unplaced and every number field 0. -/
theorem invariantsHoldAtPowerOn : Obligations.InvariantsHoldAtPowerOn := by
  refine ⟨fun c => ⟨⟨rfl, nofun⟩, powerOn_shaped c, powerOn_fieldsInRange c,
    (powerOn_partOk c).1, (powerOn_partOk c).2, fun i h => ?_, fun i => ?_,
    powerOn_tagsMatch c, .inl rfl⟩, by decide⟩
  · exact absurd (congrArg Endpoint.sub (powerOn_epAt c i)) h
  · exact sizesFit_invariant.disabled _ (congrArg Endpoint.sub (powerOn_epAt c i))

end

section
/-! PROOFS. The statements about client memory (spec 20_memory R61): the form every step keeps, and who stores where. -/

namespace Sys2Proof.Machine

/-! ## Packet copies -/

@[simp] theorem takeHead_mem (status any : Bool) (s : State) : (takeHead status any s).2.mem = s.mem := by
  simp only [takeHead]
  split
  · rfl
  · split <;> rfl

@[simp] theorem rxPop_mem (s : State) : (rxPop s).2.mem = s.mem := takeHead_mem _ _ _

/-- `k` words popped are stored to the `4 * k` addresses from `a` on, whatever the receive queue holds (45 R271). -/
theorem popWords_storedIn : ∀ (k a n : Nat) (s : State), StoredIn a (4 * k) s.mem (popWords k a n s).mem
  | 0, a, _, s => .refl a s.mem
  | k + 1, a, n, s => by
    obtain ⟨m, c, he, hst, -⟩ := storeWord_eq a n (rxPop s).1 (rxPop s).2
    rw [rxPop_mem] at hst
    have ih := popWords_storedIn k (a + 4) (n - 4) { (rxPop s).2 with mem := m, freeCtr := c }
    rw [popWords, he, Nat.mul_succ, Nat.add_comm]
    exact hst.trans ih

theorem popPacket_storedIn {b : Buf} {n : Nat} {s t : State} (h : popPacket b n s = .next t) :
    StoredIn b.base.toNat (4 * words4 n) s.mem t.mem := by
  unfold popPacket at h
  split at h
  · obtain ⟨-, h⟩ := clocked_eq_next h
    cases h
    exact popWords_storedIn _ _ _ s
  · cases h

/-- A power of two of at least 8 is a multiple of 4: otherwise `n` and `n - 1` share the bits above the lowest two. -/
theorem four_dvd_of_isPow2 {n : Nat} (h : isPow2 n = true) (h8 : 8 ≤ n) : 4 ∣ n := by
  refine Decidable.byContradiction fun hd => ?_
  obtain ⟨-, hand⟩ : n ≠ 0 ∧ n &&& (n - 1) = 0 := by simpa [isPow2] using h
  have hdiv : (n - 1) >>> 2 = n >>> 2 := by simp only [Nat.shiftRight_eq_div_pow]; omega
  have hz : n >>> 2 = 0 := by
    calc n >>> 2 = n >>> 2 &&& (n - 1) >>> 2 := by rw [hdiv, Nat.and_self]
      _ = 0 := by rw [← Nat.shiftRight_and_distrib, hand, Nat.zero_shiftRight]
  simp only [Nat.shiftRight_eq_div_pow] at hz
  omega

/-- The words of a packet that fits a valid buffer lie inside it (42 R193, 45 R271). -/
theorem words4_le_of_valid {b : Buf} {n : Nat} (hv : b.valid = true) (hn : n ≤ b.len.toNat) : 4 * words4 n ≤ b.len.toNat := by
  simp only [Buf.valid, Bool.and_eq_true, decide_eq_true_eq] at hv
  obtain ⟨⟨h8, hp⟩, -⟩ := hv
  have hdvd := four_dvd_of_isPow2 hp h8
  simp only [words4]
  omega

/-! ## What is stored where -/

/-- Every byte of client memory that differs lies inside an OUT buffer assigned to an endpoint of `s`. -/
def StoresInOutBuffers (s t : State) : Prop :=
  ∀ a, t.mem.read a ≠ s.mem.read a →
    ∃ e b, (s.epAt e).outBuf = some b ∧ b.base.toNat ≤ a ∧ a < b.base.toNat + b.len.toNat

theorem StoresInOutBuffers.of_mem {s t : State} (h : t.mem = s.mem) : StoresInOutBuffers s t := fun a ha =>
  absurd (by rw [h]) ha

/-- A packet copied to the valid OUT buffer of endpoint `e`, and what follows stores nothing. -/
theorem StoresInOutBuffers.of_popPacket {s t u : State} {e n : Nat} {b : Buf} (hb : (s.epAt e).outBuf = some b)
    (hv : b.valid = true) (hn : n ≤ b.len.toNat) (h : popPacket b n s = .next u) (hu : t.mem = u.mem) : StoresInOutBuffers s t := by
  intro a ha
  have hlen := words4_le_of_valid hv hn
  refine ⟨e, b, hb, ?_⟩
  have hin := mt ((popPacket_storedIn h).other a) (hu ▸ ha)
  omega

theorem readPacket_stores {i n : Nat} {s : State} {p : Res × State} (hv : ∀ e b, (s.epAt e).outBuf = some b → b.valid = true)
    (h : readPacket i n s = .next p) : StoresInOutBuffers s p.2 := by
  unfold readPacket at h
  split at h
  · split at h
    · cases h
      exact .of_mem rfl
    · rename_i b hb
      split at h
      · rename_i hn
        obtain ⟨u, hu, h⟩ := andThen_eq_next h
        cases h
        exact .of_popPacket hb (hv i b hb) hn hu rfl
      · cases h
        exact .of_mem rfl
  · cases h
    exact .of_mem rfl

theorem rxDataUpdate_stores {e : Nat} {n : BitVec 16} {s t : State} (hv : ∀ e b, (s.epAt e).outBuf = some b → b.valid = true)
    (h : rxDataUpdate e n s = .next t) : StoresInOutBuffers s t := by
  unfold rxDataUpdate at h
  split at h
  · cases h
  · rename_i b hr
    obtain ⟨hb, hn⟩ := receiveBuf_some hr
    split at h
    · obtain ⟨u, hu, h⟩ := andThen_eq_next h
      cases h
      split at hu
      · cases hu
        exact .of_mem rfl
      · exact .of_popPacket hb (hv e b hb) hn hu rfl
    · cases h

theorem rxSetupUpdate_stores {e : Nat} {n : BitVec 16} {s t : State} (hv : ∀ e b, (s.epAt e).outBuf = some b → b.valid = true)
    (h : rxSetupUpdate e n s = .next t) : StoresInOutBuffers s t := by
  unfold rxSetupUpdate at h
  split at h
  · cases h
  · rename_i b hr
    obtain ⟨hb, hn⟩ := receiveBuf_some hr
    split at h
    · obtain ⟨u, hu, h⟩ := andThen_eq_next h
      cases h
      exact .of_popPacket hb (hv e b hb) hn hu rfl
    · cases h

/-! ## Commands that store nothing -/

/-- The next value of an outcome, if there is one, has a property. -/
def Ends {α : Type} (P : α → Prop) (x : M α) : Prop := ∀ a, x = .next a → P a

theorem Ends.next {α : Type} {P : α → Prop} {a : α} (h : P a) : Ends P (.next a) := fun _ e => by cases e; exact h

theorem Ends.fault {α : Type} {P : α → Prop} (e : Fault) : Ends P (.fault e) := fun _ h => nomatch h

theorem Ends.refused {α : Type} {P : α → Prop} (e : Refusal) : Ends P (.refused e) := fun _ h => nomatch h

theorem Ends.ite {α : Type} {P : α → Prop} {c : Prop} [Decidable c] {x y : M α} (h : Ends P x) (k : Ends P y) :
    Ends P (if c then x else y) := by
  split
  · exact h
  · exact k

theorem Ends.clocked {α : Type} {P : α → Prop} {s : State} {x : M α} (h : Ends P x) : Ends P (clocked s x) := fun a e =>
  h a (clocked_eq_next e).2

theorem Ends.andThen {α β : Type} {P : α → Prop} {R : β → Prop} {x : M α} {f : α → M β} (h : Ends P x)
    (k : ∀ a, P a → Ends R (f a)) : Ends R (andThen x f) := fun b e => by
  obtain ⟨a, ha, hb⟩ := andThen_eq_next e
  exact k a (h a ha) b hb

/-- An operation that keeps client memory from `s` on. -/
abbrev KeepsMem (s : State) : M State → Prop := Ends fun t => t.mem = s.mem

/-- The same of a command before its result word is shown. -/
abbrev KeepsMemRes (s : State) : M (Res × State) → Prop := Ends fun p => p.2.mem = s.mem

theorem KeepsMemRes.finish {s : State} {x : M (Res × State)} (h : KeepsMemRes s x) : KeepsMem s (finish x) :=
  h.andThen fun _ hp => .next hp

theorem enableCore_keepsMem (v : Speed) (s : State) : KeepsMemRes s (enableCore v s) := by
  cases v with
  | low => exact .next rfl
  | full =>
    simp only [enableCore]
    split
    · rename_i hc
      exact fun p hp => (enableFromDisabled_reinit hc hp).mem
    · exact .next rfl

theorem setAddress_keepsMem (a : BitVec 16) (s : State) : KeepsMem s (execSetAddress a s) := by
  unfold execSetAddress
  split
  · exact .next rfl
  · exact .clocked (.next rfl)

theorem activateIn0_mem (s : State) : (activateIn0 s).mem = s.mem := by
  simp only [activateIn0, startControl0_eq]
  split <;> rfl

theorem activateOut0_mem (s : State) : (activateOut0 s).mem = s.mem := by
  simp only [activateOut0, startControl0_eq]
  split <;> rfl

theorem activateInRegs_mem (i : Nat) (t : TType) (n : BitVec 16) (s : State) : (activateInRegs i t n s).mem = s.mem := by
  simp only [activateInRegs, regWrite_mem, setSub_mem]

theorem activateOutRegs_mem (i : Nat) (t : TType) (n : BitVec 16) (s : State) : (activateOutRegs i t n s).mem = s.mem := by
  simp only [activateOutRegs, regWrite_mem, setSub_mem]

theorem activateIn_keepsMem (t : TType) (i : Nat) (s : State) : KeepsMemRes s (activateIn t i s) := by
  refine .ite (.ite (.next rfl) ?_) (.next rfl)
  split
  · exact .next rfl
  · exact .ite (.refused _) (.ite (.clocked (.next (activateIn0_mem s))) (.ite (.refused _)
      (.ite (.ite (.clocked (.next (activateInRegs_mem i t _ s))) (.refused _)) (.next rfl))))

theorem armOut_keepsMem (i : Nat) (s : State) : KeepsMem s (armOut i s) := by
  unfold armOut
  split
  · exact .refused _
  · exact .clocked (.next (programOut_mem _ _ _))

theorem activateOut_keepsMem (t : TType) (i : Nat) (s : State) : KeepsMemRes s (activateOut t i s) := by
  refine .ite (.ite (.next rfl) ?_) (.next rfl)
  split
  · exact .next rfl
  · exact .ite (.refused _) (.ite (.clocked (.next (activateOut0_mem s))) (.ite (.refused _) (.ite (.refused _)
      (.ite (.clocked ((armOut_keepsMem i _).andThen fun _ hu => .next (hu.trans (activateOutRegs_mem i t _ s)))) (.refused _)))))

theorem onEndpoint_keepsMem {i : Nat} {f : State → State} {s : State} (h : (f s).mem = s.mem) : KeepsMemRes s (onEndpoint i f s) :=
  .ite (.clocked (.next h)) (.next rfl)

theorem dropInSide_mem (i : Nat) (s : State) : (dropInSide i s).mem = s.mem := by
  simp only [dropInSide, disableBoth]
  split <;> simp only [setPending_mem, setSub_mem, regRead_mem, regWrite_mem]

theorem dropOutSide_mem (i : Nat) (s : State) : (dropOutSide i s).mem = s.mem := by
  have hsub : ∀ u, (dropOutSub i u).mem = u.mem := fun u => by simp only [dropOutSub]; split <;> rfl
  simp only [dropOutSide, disableBoth]
  split <;> simp only [setPending_mem, setSub_mem, regRead_mem, hsub, regWrite_mem]

theorem clearStallInRegs_mem (i : Nat) (s : State) : (clearStallInRegs i s).mem = s.mem := by
  simp only [clearStallInRegs]
  split <;> rfl

theorem clearStallOutRegs_mem (i : Nat) (s : State) : (clearStallOutRegs i s).mem = s.mem := by
  simp only [clearStallOutRegs]
  split <;> rfl

theorem layoutTx_keepsMem (i n : Nat) (s : State) : KeepsMemRes s (layoutTx i n s) :=
  .ite (.ite (.ite (.clocked (.next rfl)) (.next rfl)) (.refused _)) (.next rfl)

theorem pushAll_mem (i : Nat) : ∀ (ws : List Word) (s : State), (pushAll i ws s).mem = s.mem
  | [], _ => rfl
  | w :: ws, s => pushAll_mem i ws (txPush i w s)

theorem writePacket_keepsMem (i n : Nat) (s : State) : KeepsMemRes s (writePacket i n s) := by
  have hpush : ∀ b, KeepsMem s (pushPacket i b n s) := fun b =>
    .ite (.refused _) (.ite (.clocked (.next (pushAll_mem i _ s))) (.fault _))
  refine .ite ?_ (.next rfl)
  split
  · exact .next rfl
  · exact .ite (.ite ((hpush _).andThen fun _ hu => .next hu) (.next rfl)) (.next rfl)

/-- No command but `READ_PACKET` changes client memory. -/
theorem command_keepsMem {i : Instr} (hc : isCommand i) (hr : ∀ k n, i ≠ .readPacket k n) (s : State) : KeepsMem s (exec i s) := by
  obtain ⟨hport, hirq⟩ := hc
  cases i with
  | enable v => exact (enableCore_keepsMem v s).finish
  | start => exact .ite (.clocked (.next rfl)) (.refused _)
  | detach => exact .ite (.clocked (.next rfl)) (.refused _)
  | setAddress a => exact setAddress_keepsMem a s
  | assignCtrlBuf n b => exact KeepsMemRes.finish (.ite (.ite (.next rfl) (.refused _)) (.next rfl))
  | assignInBuf k n b => exact KeepsMemRes.finish (.ite (.ite (.ite (.next rfl) (.refused _)) (.next rfl)) (.next rfl))
  | assignOutBuf k n b => exact KeepsMemRes.finish (.ite (.ite (.ite (.next rfl) (.refused _)) (.next rfl)) (.next rfl))
  | activateEpIn k t => exact (activateIn_keepsMem t _ s).finish
  | activateEpOut k t => exact (activateOut_keepsMem t _ s).finish
  | disableEpIn k => exact (onEndpoint_keepsMem (dropInSide_mem _ s)).finish
  | disableEpOut k => exact (onEndpoint_keepsMem (dropOutSide_mem _ s)).finish
  | stallEpIn k => exact (onEndpoint_keepsMem rfl).finish
  | stallEpOut k => exact (onEndpoint_keepsMem rfl).finish
  | clearStallIn k => exact (onEndpoint_keepsMem (clearStallInRegs_mem _ s)).finish
  | clearStallOut k => exact (onEndpoint_keepsMem (clearStallOutRegs_mem _ s)).finish
  | setRxFifo n => exact KeepsMemRes.finish (.ite (.ite (.clocked (.next rfl)) (.next rfl)) (.refused _))
  | setTxFifo k n => exact KeepsMemRes.finish (.ite (layoutTx_keepsMem _ _ s) (.refused _))
  | writePacket k n => exact (writePacket_keepsMem _ _ s).finish
  | readPacket k n => exact absurd rfl (hr k n)
  | irq => exact absurd rfl hirq
  | _ => cases hport

/-! ## The canonical form -/

theorem MemoryCanonical.of_mem {s t : State} (h : t.mem = s.mem) (hs : MemoryCanonical s) : MemoryCanonical t := by
  rw [MemoryCanonical, h]
  exact hs

/-- The one change that stores keeps the form and lists no address past 2^32. -/
theorem Touch.memoryCanonical {s t : State} (h : Touch s t) : MemoryCanonical s → MemoryCanonical t := by
  induction h
  case trans h k => exact k ∘ h
  case aux hm => exact .of_mem hm
  case mem hw hl => exact fun ⟨hwf, hlt⟩ => ⟨hw hwf, fun c hc => (hl c hc).elim (hlt c) id⟩
  case actIn hu => exact .of_mem (by rw [hu]; rfl)
  case actOut hu => exact .of_mem (by rw [hu]; rfl)
  case act0In hu => exact .of_mem (by rw [hu, startControl0_eq])
  case act0Out hu => exact .of_mem (by rw [hu, startControl0_eq])
  all_goals exact .of_mem rfl

/-- An instruction is a chain of changes, or one of the lifecycle, which stores nothing. -/
theorem exec_memoryCanonical {i : Instr} {s t : State} (hs : MemoryCanonical s) (h : exec i s = .next t) : MemoryCanonical t := by
  by_cases he : ∃ v, i = .enable v
  · obtain ⟨v, rfl⟩ := he
    exact .of_mem (command_keepsMem (i := .enable v) ⟨rfl, nofun⟩ nofun s t h) hs
  by_cases hst : i = .start
  · subst hst
    exact .of_mem (command_keepsMem (i := .start) ⟨rfl, nofun⟩ nofun s t h) hs
  by_cases hd : i = .detach
  · subst hd
    exact .of_mem (command_keepsMem (i := .detach) ⟨rfl, nofun⟩ nofun s t h) hs
  exact (exec_touch h (fun v e => he ⟨v, e⟩) hst hd).memoryCanonical hs

end Sys2Proof.Machine

open Sys2Proof.Machine

/-- Settles O54: a step is a chain of changes, of which one stores, or an instruction after the inbox is served. -/
theorem stepKeepsMemoryCanonical : Obligations.StepKeepsMemoryCanonical := fun s _ hs h => by
  rcases step_cases h with h | ⟨i, l, h⟩
  · exact h.memoryCanonical hs
  · exact exec_memoryCanonical (s := { s with inbox := l }) hs h

/-- Settles O32: the copies store whole words of a packet that fits, which a valid buffer, its length a multiple of 4, holds; no other
command and no other receive entry stores. -/
theorem storesStayInOutBuffers : Obligations.StoresStayInOutBuffers := by
  intro i s t hv hi h
  show StoresInOutBuffers s t
  rcases hi with hc | hp
  · by_cases hr : ∃ k n, i = .readPacket k n
    · obtain ⟨k, n, rfl⟩ := hr
      obtain ⟨p, hp, rfl⟩ := finish_eq_next h
      exact readPacket_stores hv hp
    · exact .of_mem (command_keepsMem hc (fun k n e => hr ⟨k, n, e⟩) s t h)
  · cases i with
    | rxDataUpdate e n d => exact rxDataUpdate_stores hv h
    | rxSetupUpdate e n d => exact rxSetupUpdate_stores hv h
    | rxSetupComplete e n d => cases h; exact .of_mem rfl
    | _ => cases hp

end

section
/-! PROOFS. What the Register Interface does by itself (spec 20_memory R77): what its moves keep, and that the instructions that read
plain fields alone do not see them. -/

namespace Sys2Proof.Machine

/-! ## One entry of a list changed -/

/-- A relation between an entry and itself changed holds between the entries of a list before and after one is changed. -/
theorem rel_getD_modify {α : Type} {R : α → α → Prop} (hr : ∀ x, R x x) {g : α → α} (hg : ∀ x, R x (g x)) (l : List α) (k j : Nat)
    (d : α) : R (l.getD j d) ((l.modify k g).getD j d) := by
  rw [getD_modify]
  split
  · exact hg _
  · exact hr _

/-- An entry of a list whose entry 0 is changed by `c` and then every entry by `p`, as `RegIf.plain` changes its endpoints. -/
theorem masked_getElem? {α : Type} (c p : α → α) (l : List α) (n : Nat) :
    ((l.modify 0 c).map p)[n]? = l[n]?.map fun x => p (if n = 0 then c x else x) := by
  rw [List.getElem?_map, List.getElem?_modify]
  cases l[n]? <;> cases n <;> rfl

/-- Lists alike under such a mask stay alike when the same entry of both is changed alike. -/
theorem masked_modify_congr {α : Type} {c p g g' : α → α} {i : Nat} {l l' : List α} (h : (l.modify 0 c).map p = (l'.modify 0 c).map p)
    (hg : ∀ x y, p (if i = 0 then c x else x) = p (if i = 0 then c y else y) →
      p (if i = 0 then c (g x) else g x) = p (if i = 0 then c (g' y) else g' y)) :
    ((l.modify i g).modify 0 c).map p = ((l'.modify i g').modify 0 c).map p := by
  apply List.ext_getElem?
  intro n
  have hn := congrArg (·[n]?) h
  simp only [masked_getElem?, List.getElem?_modify] at hn ⊢
  by_cases hin : i = n
  · subst hin
    cases hx : l[i]? <;> cases hy : l'[i]? <;> simp [hx, hy] at hn ⊢
    exact hg _ _ hn
  · simpa [hin] using hn

/-! ## The plain fields -/

/-- What `RegIf.plain` shows of IN endpoint `i`. -/
def InRegs.seen (i : Nat) (x : InRegs) : InRegs := (if i = 0 then { x with stall := false } else x).plain

/-- What `RegIf.plain` shows of OUT endpoint `i`. -/
def OutRegs.seen (i : Nat) (x : OutRegs) : OutRegs := (if i = 0 then { x with stall := false } else x).plain

/-- Register Interfaces alike in the plain fields stay so when an IN endpoint of both is changed alike. -/
theorem RegIf.plain_iep_congr {r r' : RegIf} (h : r.plain = r'.plain) {i : Nat} {g g' : InRegs → InRegs}
    (hg : ∀ x y, x.seen i = y.seen i → (g x).seen i = (g' y).seen i) :
    ({ r with iep := r.iep.modify i g } : RegIf).plain = ({ r' with iep := r'.iep.modify i g' } : RegIf).plain :=
  have hi := masked_modify_congr (congrArg RegIf.iep h) hg
  calc ({ r with iep := r.iep.modify i g } : RegIf).plain
      = { r.plain with iep := ({ r with iep := r.iep.modify i g } : RegIf).plain.iep } := rfl
    _ = { r'.plain with iep := ({ r' with iep := r'.iep.modify i g' } : RegIf).plain.iep } := by
      rw [h]
      exact congrArg (fun x => { r'.plain with iep := x }) hi

/-- The same of an OUT endpoint. -/
theorem RegIf.plain_oep_congr {r r' : RegIf} (h : r.plain = r'.plain) {i : Nat} {g g' : OutRegs → OutRegs}
    (hg : ∀ x y, x.seen i = y.seen i → (g x).seen i = (g' y).seen i) :
    ({ r with oep := r.oep.modify i g } : RegIf).plain = ({ r' with oep := r'.oep.modify i g' } : RegIf).plain :=
  have hi := masked_modify_congr (congrArg RegIf.oep h) hg
  calc ({ r with oep := r.oep.modify i g } : RegIf).plain
      = { r.plain with oep := ({ r with oep := r.oep.modify i g } : RegIf).plain.oep } := rfl
    _ = { r'.plain with oep := ({ r' with oep := r'.oep.modify i g' } : RegIf).plain.oep } := by
      rw [h]
      exact congrArg (fun x => { r'.plain with oep := x }) hi

/-- A change of an IN endpoint that `RegIf.plain` does not show. -/
theorem RegIf.plain_iep_modify (r : RegIf) (i : Nat) (g : InRegs → InRegs) (hg : ∀ x, (g x).seen i = x.seen i) :
    ({ r with iep := r.iep.modify i g } : RegIf).plain = r.plain := by
  have h := RegIf.plain_iep_congr (r := r) (i := i) (g := g) (g' := id) rfl fun x y hxy => (hg x).trans hxy
  rwa [List.modify_id] at h

/-- A change of an OUT endpoint that `RegIf.plain` does not show. -/
theorem RegIf.plain_oep_modify (r : RegIf) (i : Nat) (g : OutRegs → OutRegs) (hg : ∀ x, (g x).seen i = x.seen i) :
    ({ r with oep := r.oep.modify i g } : RegIf).plain = r.plain := by
  have h := RegIf.plain_oep_congr (r := r) (i := i) (g := g) (g' := id) rfl fun x y hxy => (hg x).trans hxy
  rwa [List.modify_id] at h

/-- Of the transmit FIFOs `RegIf.plain` shows how many there are. -/
theorem RegIf.plain_txq_modify (r : RegIf) (i : Nat) (g : List Word → List Word) :
    ({ r with txq := r.txq.modify i g } : RegIf).plain = r.plain := by
  simp [RegIf.plain, List.map_const']

/-- What is seen of an IN endpoint does not depend on what is not. -/
theorem InRegs.seen_put (i : Nat) (f : InField) (v : Nat) (x : InRegs) : (x.put f v).seen i = ((x.seen i).put f v).seen i := by
  cases f <;> cases i <;> rfl

/-- The same of an OUT endpoint. -/
theorem OutRegs.seen_put (i : Nat) (f : OutField) (v : Nat) (x : OutRegs) : (x.put f v).seen i = ((x.seen i).put f v).seen i := by
  cases f <;> cases i <;> rfl

theorem InRegs.seen_clearCtl (i : Nat) (x : InRegs) : x.clearCtl.seen i = (x.seen i).clearCtl.seen i := by cases i <;> rfl

theorem OutRegs.seen_clearCtl (i : Nat) (x : OutRegs) : x.clearCtl.seen i = (x.seen i).clearCtl.seen i := by cases i <;> rfl

theorem InRegs.seen_int (i : Nat) (w : Word) (x : InRegs) : ({ x with int := w } : InRegs).seen i = x.seen i := by cases i <;> rfl

theorem OutRegs.seen_int (i : Nat) (w : Word) (x : OutRegs) : ({ x with int := w } : OutRegs).seen i = x.seen i := by cases i <;> rfl

/-- A write of any field keeps Register Interfaces alike in the plain fields (20_memory R77 E3). -/
theorem RegIf.plain_write_congr {r r' : RegIf} (h : r.plain = r'.plain) (c : Config) (f : Field) (v : Nat) :
    (r.write c f v).plain = (r'.write c f v).plain := by
  cases f with
  | gintEn => exact congrArg (fun p : RegIf => { p with gintEn := v % 2 == 1 }) h
  | phyFs => exact congrArg (fun p : RegIf => { p with phyFs := v % 2 == 1 }) h
  | devRole => exact congrArg (fun p : RegIf => { p with devRole := v % 2 == 1 }) h
  | trdt => exact congrArg (fun p : RegIf => { p with trdt := v }) h
  | rxfFlush =>
    simp only [RegIf.write]
    split <;> exact h
  | txfFlush =>
    simp only [RegIf.write]
    split
    · exact congrArg (fun p : RegIf => { p with txq := p.txq.map fun _ => [] }) h
    · exact h
  | intmskBit x => exact congrArg (fun p : RegIf => { p with intmsk := putBit p.intmsk (c.layout.bit x) (v % 2 == 1) }) h
  | rxfSize => exact congrArg (fun p : RegIf => { p with rxfSize := inFifoRam c v }) h
  | txfStart i => exact congrArg (fun p : RegIf => { p with txf := p.txf.modify i fun t => { t with start := inFifoRam c v } }) h
  | txfSize i => exact congrArg (fun p : RegIf => { p with txf := p.txf.modify i fun t => { t with size := inFifoRam c v } }) h
  | addr => exact congrArg (fun p : RegIf => { p with addr := v % 2 ^ c.addrWidth }) h
  | connect => exact congrArg (fun p : RegIf => { p with connect := v % 2 == 1 }) h
  | aintIep i => exact congrArg (fun p : RegIf => { p with aintIep := p.aintIep.modify i fun _ => v % 2 == 1 }) h
  | aintOep i => exact congrArg (fun p : RegIf => { p with aintOep := p.aintOep.modify i fun _ => v % 2 == 1 }) h
  | nakctl => exact congrArg (fun p : RegIf => { p with nakctl := v }) h
  | iepCtl i => exact RegIf.plain_iep_congr h fun x y e => by rw [InRegs.seen_clearCtl, e, ← InRegs.seen_clearCtl]
  | oepCtl i => exact RegIf.plain_oep_congr h fun x y e => by rw [OutRegs.seen_clearCtl, e, ← OutRegs.seen_clearCtl]
  | iep i g => exact RegIf.plain_iep_congr h fun x y e => by rw [InRegs.seen_put, e, ← InRegs.seen_put]
  | oep i g => exact RegIf.plain_oep_congr h fun x y e => by rw [OutRegs.seen_put, e, ← OutRegs.seen_put]
  | iepCond i x => exact RegIf.plain_iep_congr h fun x y e => (InRegs.seen_int i _ x).trans (e.trans (InRegs.seen_int i _ y).symm)
  | oepCond i x => exact RegIf.plain_oep_congr h fun x y e => (OutRegs.seen_int i _ x).trans (e.trans (OutRegs.seen_int i _ y).symm)
  | _ => exact h

/-- Whether an IN endpoint is active is a plain field. -/
theorem RegIf.iepAt_act_eq_plain (r : RegIf) (i : Nat) : (r.iepAt i).act = (r.plain.iep[i]?.map InRegs.act).getD false := by
  rw [RegIf.plain, masked_getElem?, RegIf.iepAt, List.getD_eq_getElem?_getD]
  cases r.iep[i]? <;> cases i <;> rfl

/-- Whether an OUT endpoint is active is a plain field. -/
theorem RegIf.oepAt_act_eq_plain (r : RegIf) (i : Nat) : (r.oepAt i).act = (r.plain.oep[i]?.map OutRegs.act).getD false := by
  rw [RegIf.plain, masked_getElem?, RegIf.oepAt, List.getD_eq_getElem?_getD]
  cases r.oep[i]? <;> cases i <;> rfl

/-! ## Moves of the Register Interface -/

/-- No move changes a plain field (20_memory R77 E3). -/
theorem RiMove.apply_plain (l : Layout) (r : RegIf) (m : RiMove) : (RiMove.apply l r m).plain = r.plain := by
  cases m with
  | oepFlag i n => exact r.plain_oep_modify i _ fun x => by cases i <;> rfl
  | iepFlag i n => exact r.plain_iep_modify i _ fun x => by cases i <;> rfl
  | iepDone i => exact r.plain_iep_modify i _ fun x => by cases i <;> rfl
  | oepDone i => exact r.plain_oep_modify i _ fun x => by cases i <;> rfl
  | iepNak i b => exact r.plain_iep_modify i _ fun x => by cases i <;> rfl
  | oepNak i b => exact r.plain_oep_modify i _ fun x => by cases i <;> rfl
  | iepDpid i b => exact r.plain_iep_modify i _ fun x => by cases i <;> rfl
  | oepDpid i b => exact r.plain_oep_modify i _ fun x => by cases i <;> rfl
  | drain i n => exact r.plain_txq_modify i _
  | loopback i => exact r.plain_txq_modify i _
  | setup ds =>
    exact (RegIf.plain_iep_modify { r with oep := r.oep.modify 0 fun e => { e with stall := false } } 0
      (fun e => { e with stall := false }) fun _ => rfl).trans (r.plain_oep_modify 0 _ fun _ => rfl)
  | _ => rfl

theorem RegIf.moved_plain (l : Layout) : ∀ (ms : List RiMove) (r : RegIf), (r.moved l ms).plain = r.plain
  | [], _ => rfl
  | m :: ms, r => (RegIf.moved_plain l ms _).trans (RiMove.apply_plain l r m)

/-- A bit set in a word is set where more bits are. -/
theorem testBit_or_left {w : Word} {n : Nat} (v : Word) (h : testBit w n = true) : testBit (w ||| v) n = true := by
  simp only [testBit, BitVec.getLsbD_or] at h ⊢
  rw [h, Bool.true_or]

/-- What a move keeps of an IN endpoint: the condition bits set, and the STALL bit, a SETUP packet apart. -/
structure InRegs.HeldBy (m : RiMove) (x y : InRegs) : Prop where
  int : ∀ n, testBit x.int n = true → testBit y.int n = true
  stall : (∀ ds, m ≠ .setup ds) → y.stall = x.stall

/-- The same of an OUT endpoint. -/
structure OutRegs.HeldBy (m : RiMove) (x y : OutRegs) : Prop where
  int : ∀ n, testBit x.int n = true → testBit y.int n = true
  stall : (∀ ds, m ≠ .setup ds) → y.stall = x.stall

theorem InRegs.HeldBy.refl (m : RiMove) (x : InRegs) : x.HeldBy m x := ⟨fun _ => id, fun _ => rfl⟩

theorem InRegs.HeldBy.modify {m : RiMove} (r : RegIf) (k i : Nat) (g : InRegs → InRegs) (hg : ∀ x : InRegs, x.HeldBy m (g x)) :
    (r.iepAt i).HeldBy m (({ r with iep := r.iep.modify k g } : RegIf).iepAt i) :=
  rel_getD_modify (R := InRegs.HeldBy m) (.refl m) hg r.iep k i _

theorem OutRegs.HeldBy.refl (m : RiMove) (x : OutRegs) : x.HeldBy m x := ⟨fun _ => id, fun _ => rfl⟩

theorem OutRegs.HeldBy.modify {m : RiMove} (r : RegIf) (k i : Nat) (g : OutRegs → OutRegs) (hg : ∀ x : OutRegs, x.HeldBy m (g x)) :
    (r.oepAt i).HeldBy m (({ r with oep := r.oep.modify k g } : RegIf).oepAt i) :=
  rel_getD_modify (R := OutRegs.HeldBy m) (.refl m) hg r.oep k i _

theorem RiMove.apply_iepAt (l : Layout) (r : RegIf) (m : RiMove) (i : Nat) : (r.iepAt i).HeldBy m ((RiMove.apply l r m).iepAt i) := by
  cases m with
  | iepFlag k n => exact .modify r k i _ fun x => ⟨fun _ => testBit_or_left _, fun _ => rfl⟩
  | iepDone k => exact .modify r k i _ fun x => ⟨fun _ => id, fun _ => rfl⟩
  | iepNak k b => exact .modify r k i _ fun x => ⟨fun _ => id, fun _ => rfl⟩
  | iepDpid k b => exact .modify r k i _ fun x => ⟨fun _ => id, fun _ => rfl⟩
  | setup ds => exact .modify r 0 i _ fun x => ⟨fun _ => id, fun hm => absurd rfl (hm ds)⟩
  | _ => exact .refl _ _

theorem RiMove.apply_oepAt (l : Layout) (r : RegIf) (m : RiMove) (i : Nat) : (r.oepAt i).HeldBy m ((RiMove.apply l r m).oepAt i) := by
  cases m with
  | oepFlag k n => exact .modify r k i _ fun x => ⟨fun _ => testBit_or_left _, fun _ => rfl⟩
  | oepDone k => exact .modify r k i _ fun x => ⟨fun _ => id, fun _ => rfl⟩
  | oepNak k b => exact .modify r k i _ fun x => ⟨fun _ => id, fun _ => rfl⟩
  | oepDpid k b => exact .modify r k i _ fun x => ⟨fun _ => id, fun _ => rfl⟩
  | setup ds => exact .modify r 0 i _ fun x => ⟨fun _ => id, fun hm => absurd rfl (hm ds)⟩
  | _ => exact .refl _ _

/-- A latched status bit stays set (20_memory R77 E1). -/
theorem RiMove.apply_intsts (l : Layout) (r : RegIf) (m : RiMove) {n : Nat} (h : testBit r.intsts n = true) :
    testBit (RiMove.apply l r m).intsts n = true := by
  cases m with
  | raise k => exact testBit_or_left _ h
  | _ => exact h

/-- A level bit that is shown stays among those that may be (20_memory R77 E1). -/
theorem RiMove.apply_levelGate (l : Layout) (r : RegIf) (m : RiMove) {n : Nat} (h : testBit (r.level l &&& r.levelGate) n = true) :
    testBit (RiMove.apply l r m).levelGate n = true := by
  simp only [testBit, BitVec.getLsbD_and, Bool.and_eq_true] at h
  obtain ⟨hl, hg⟩ := h
  cases m with
  | gate w => simp only [RiMove.apply, testBit, BitVec.getLsbD_or, BitVec.getLsbD_and, hl, hg, Bool.and_self, Bool.or_true]
  | _ => exact hg

/-- A bit of the status read is latched, or a level whose cause stands and that is shown. -/
theorem RegIf.testBit_status (l : Layout) (r : RegIf) (n : Nat) :
    testBit (r.status l) n = (testBit r.intsts n || (testBit (r.level l) n && testBit r.levelGate n)) := by
  simp only [RegIf.status, testBit, BitVec.getLsbD_or, BitVec.getLsbD_and]

/-- A SETUP packet clears the STALL bits of endpoint 0 (42 R202, 43 R228). -/
theorem RiMove.setup_stall (l : Layout) (r : RegIf) (ds : List Word) (i : Nat) :
    ((RiMove.apply l r (.setup ds)).iepAt i).stall = (if i = 0 then false else (r.iepAt i).stall) ∧
      ((RiMove.apply l r (.setup ds)).oepAt i).stall = (if i = 0 then false else (r.oepAt i).stall) := by
  simp only [RiMove.apply, RegIf.iepAt, RegIf.oepAt, getD_modify]
  cases i with
  | zero => cases r.iep <;> cases r.oep <;> exact ⟨rfl, rfl⟩
  | succ i => exact ⟨rfl, rfl⟩

/-! ## Runs that differ in what the Register Interface may write -/

/-- States that differ only in what the Register Interface may write by itself and in its coming moves. -/
def PlainAlike (s u : State) : Prop := u = { s with ri := u.ri, moves := u.moves } ∧ u.ri.plain = s.ri.plain

theorem sameBut_of_both {x y : M State} (h : Both PlainAlike x y) : SameBut x y := by
  cases x <;> cases y <;> exact h

theorem PlainAlike.intro {s : State} {r : RegIf} {m : List (List RiMove)} (h : r.plain = s.ri.plain) :
    PlainAlike s { s with ri := r, moves := m } := ⟨rfl, h⟩

theorem PlainAlike.elim {s u : State} (h : PlainAlike s u) : ∃ r m, u = { s with ri := r, moves := m } ∧ r.plain = s.ri.plain :=
  ⟨u.ri, u.moves, h⟩

theorem plainAlike_sim : Sim PlainAlike where
  form := fun {s u} ⟨h, _⟩ => ⟨u.ri, u.moves, s.trace, h⟩
  write h f v := by
    obtain ⟨r, m, rfl, hp⟩ := h.elim
    refine .intro (RegIf.plain_write_congr ?_ _ f v)
    simp only [envPoint_ri, RegIf.moved_plain, hp]
  read h f := by
    obtain ⟨r, m, rfl, hp⟩ := h.elim
    refine .intro ?_
    simp only [regRead_ri, envPoint_ri, RegIf.moved_plain, hp]
  push h i w := by
    obtain ⟨r, m, rfl, hp⟩ := h.elim
    refine .intro ?_
    simp only [txPush_ri, RegIf.plain_txq_modify, envPoint_ri, RegIf.moved_plain, hp]
  frame := fun {s u s' u'} h _ hr _ ht hu => by
    obtain ⟨r, m, rfl, hp⟩ := h.elim
    subst hu
    refine ⟨?_, hr ▸ hp⟩
    rw [← ht]
  actIn h i := by rw [RegIf.iepAt_act_eq_plain, h.2, ← RegIf.iepAt_act_eq_plain]
  actOut h i := by rw [RegIf.oepAt_act_eq_plain, h.2, ← RegIf.oepAt_act_eq_plain]

namespace Sim

variable {Q : State → State → Prop} (hQ : Sim Q) {s u : State} (h : Q s u)
include hQ h

theorem start : Both Q (execStart s) (execStart u) := by
  obtain ⟨r, m, t, rfl⟩ := hQ.form h
  exact .ite Iff.rfl (.clocked rfl (hQ.answer (hQ.setCtrl (hQ.write (hQ.write h _ _) _ _) _) _)) rfl

theorem detach : Both Q (execDetach s) (execDetach u) := by
  obtain ⟨r, m, t, rfl⟩ := hQ.form h
  exact .ite Iff.rfl (.clocked rfl (hQ.answer (hQ.setCtrl (hQ.write (hQ.write h _ _) _ _) _) _)) rfl

theorem setAddress (a : BitVec 16) : Both Q (execSetAddress a s) (execSetAddress a u) := by
  simp only [execSetAddress, hQ.cfgEq h]
  split
  · exact hQ.answer (hQ.stageAddr h a) _
  · exact .clocked (hQ.clockEq h) (hQ.answer (hQ.writeDevAddr (hQ.stageAddr h a)) _)

theorem source (x : Source) (hx : x ≠ .rxflvl ∧ x ≠ .oepint ∧ x ≠ .iepint) :
    Both Q (clocked s (Machine.serve x s)) (clocked u (Machine.serve x u)) :=
  .clocked (hQ.clockEq h) (hQ.serve h x hx)

theorem onRegs (i : Nat) {x y : M State} (k : Both Q x y) : Both Q (onRegs i s x) (onRegs i u y) :=
  .ite (by rw [hQ.cfgEq h]) (.clocked (hQ.clockEq h) k) rfl

/-- The instructions that read plain fields alone run alike from states alike. -/
theorem exec {i : Instr} (hi : readsPlainOnly i) : Both Q (Machine.exec i s) (Machine.exec i u) := by
  obtain ⟨hen, hirq, hrx, hoe, hie, hread, hcopy, hmis⟩ := hi
  cases i with
  | enable v =>
    cases v with
    | full => exact absurd rfl hen
    | low => exact hQ.answer h _
  | start => exact hQ.start h
  | detach => exact hQ.detach h
  | setAddress a => exact hQ.setAddress h a
  | assignCtrlBuf n b => exact hQ.finish (hQ.assignCtrlBuf h _)
  | assignInBuf k n b => exact hQ.finish (hQ.assignInBuf h _ _)
  | assignOutBuf k n b => exact hQ.finish (hQ.assignOutBuf h _ _)
  | activateEpIn k t => exact hQ.finish (hQ.activateIn h t _)
  | activateEpOut k t => exact hQ.finish (hQ.activateOut h t _)
  | disableEpIn k => exact hQ.finish (hQ.onEndpoint h _ (hQ.dropInSide h _))
  | disableEpOut k => exact hQ.finish (hQ.onEndpoint h _ (hQ.dropOutSide h _))
  | stallEpIn k => exact hQ.finish (hQ.onEndpoint h _ (hQ.write h _ _))
  | stallEpOut k => exact hQ.finish (hQ.onEndpoint h _ (hQ.write h _ _))
  | clearStallIn k => exact hQ.finish (hQ.onEndpoint h _ (hQ.clearStallIn h _))
  | clearStallOut k => exact hQ.finish (hQ.onEndpoint h _ (hQ.clearStallOut h _))
  | setRxFifo n => exact hQ.finish (hQ.setRxFifo h _)
  | setTxFifo k n => exact hQ.finish (hQ.setTxFifo h _ _)
  | writePacket k n => exact hQ.finish (hQ.writePacket h _ _)
  | readPacket k n => exact absurd rfl (hread k n)
  | irq => exact absurd rfl hirq
  | srcRxflvl => exact absurd rfl hrx
  | srcOepint => exact absurd rfl hoe
  | srcIepint => exact absurd rfl hie
  | srcMmis => exact hQ.source h .mmis (by decide)
  | srcWkup => exact hQ.source h .wkup (by decide)
  | srcSusp => exact hQ.source h .susp (by decide)
  | srcLpm => exact hQ.source h .lpm (by decide)
  | srcUsbrst => exact hQ.source h .usbrst (by decide)
  | srcEnumdne => exact hQ.source h .enumdne (by decide)
  | srcSof => exact hQ.source h .sof (by decide)
  | srcIisoixfr => exact hQ.source h .iisoixfr (by decide)
  | srcIisooxfr => exact hQ.source h .iisooxfr (by decide)
  | srcSrq => exact hQ.source h .srq (by decide)
  | srcOtg => exact hQ.source h .otg (by decide)
  | oepXfrc k => exact hQ.onRegs h k (hQ.serveOut h .xfrc k)
  | oepStup k => exact hQ.onRegs h k (hQ.serveOut h .stup k)
  | oepOtepdis k => exact hQ.onRegs h k (hQ.serveOut h .otepdis k)
  | oepStsphsrx k => exact hQ.onRegs h k (hQ.serveOut h .stsphsrx k)
  | oepNak k => exact hQ.onRegs h k (hQ.serveOut h .nak k)
  | iepXfrc k => exact hQ.onRegs h k (hQ.serveIn h .xfrc k nofun)
  | iepToc k => exact hQ.onRegs h k (hQ.serveIn h .toc k nofun)
  | iepIttxfe k => exact absurd rfl (hmis k)
  | iepInepne k => exact hQ.onRegs h k (hQ.serveIn h .inepne k nofun)
  | iepEpdisd k => exact hQ.onRegs h k (hQ.serveIn h .epdisd k nofun)
  | iepTxfe k => exact hQ.onRegs h k (hQ.serveIn h .txfe k nofun)
  | rxDataUpdate e n d => exact absurd rfl (hcopy e n d).1
  | rxSetupComplete e n d => exact h
  | rxSetupUpdate e n d => exact absurd rfl (hcopy e n d).2
  | cbSetup e => exact hQ.requestControl h _ _
  | cbInData e => exact hQ.request h _
  | cbOutData e n => exact hQ.request h _
  | cbStatus e => exact hQ.requestControl h _ _
  | cbStatusComplete e => exact hQ.requestControl h _ _
  | cbBusReset => exact hQ.request h _
  | resOk => exact hQ.answer h _
  | resConfigurationError => exact hQ.answer h _
  | resHardwareTimeout => exact hQ.answer h _
  | resUnsupportedFeature => exact hQ.answer h _
  | _ => exact hQ.deliver h _

end Sim

end Sys2Proof.Machine

open Sys2Proof.Machine

/-- Settles O53: a move writes only what `RegIf.plain` leaves out, and the accesses of the instructions keep states alike in the rest. -/
theorem interfaceDoesNotReachTheCore : Obligations.InterfaceDoesNotReachTheCore := by
  refine ⟨fun l r m => ⟨RiMove.apply_plain l r m, fun n => RiMove.apply_intsts l r m, fun i => (RiMove.apply_oepAt l r m i).int,
    fun i => (RiMove.apply_iepAt l r m i).int, fun n hs hl => ?_,
    fun hm i => ⟨(RiMove.apply_iepAt l r m i).stall hm, (RiMove.apply_oepAt l r m i).stall hm⟩, ?_⟩, ?_⟩
  · rw [RegIf.testBit_status, hl, RiMove.apply_levelGate l r m hs, Bool.and_self, Bool.or_true]
  · rintro ds rfl
    exact ⟨RiMove.setup_stall l r ds, rfl⟩
  · exact fun i s u hi hu hp => sameBut_of_both (plainAlike_sim.exec ⟨hu, hp⟩ hi)

end

section
/-! PROOFS. The statements about single words (spec 30_encoding): the worked encodings, the illegal command words, the requests and the
result words. -/

open Sys2Proof Sys2Proof.Machine

/-! ## Worked encodings (30_encoding R107) -/

namespace Sys2Proof

/-- The words the encoder writes for a well-formed instruction decode to it. -/
theorem decode_of_encode {l : Layout} {i : Instr} {p : Port} {ws : List Word} (hl : l.wf = true) (hi : i.wellFormed = true)
    (he : encode l i = (p, ws)) : decode l p ws = .ok (i, []) := by
  simpa only [he] using decodeEncodeAgree l i hl hi

end Sys2Proof

/-- Settles O2: each worked word is what the encoder writes for its instruction. -/
theorem workedEncodingsDecode : Obligations.WorkedEncodingsDecode := by
  have hl : Layout.default.wf = true := by decide
  exact ⟨decode_of_encode hl rfl rfl, decode_of_encode hl rfl rfl, decode_of_encode hl rfl rfl, decode_of_encode hl rfl rfl,
    decode_of_encode hl rfl rfl, decode_of_encode hl rfl rfl, decode_of_encode hl rfl rfl, decode_of_encode hl rfl rfl,
    decode_of_encode hl rfl rfl, decode_of_encode hl rfl rfl, decode_of_encode hl rfl rfl, decode_of_encode hl rfl rfl,
    decode_of_encode hl rfl rfl, decode_of_encode hl rfl rfl, decode_of_encode hl rfl rfl⟩

/-! ## Illegal command words (30_encoding R102 (a), (b)) -/

namespace Sys2Proof

/-- Bits 23 to 0 of a command word are its `epn` and its `arg`. -/
theorem field_low24 (w : Word) : field w 0 24 = 2 ^ 16 * field w 16 8 + field w 0 16 := by
  simp only [field]; omega

/-- Bits 23 to 1 of a command word are its `epn` and its `arg` without the lowest bit. -/
theorem field_low24_above0 (w : Word) : field w 1 23 = 2 ^ 15 * field w 16 8 + field w 0 16 / 2 := by
  simp only [field]; omega

/-- Bits 15 to 2 of a command word are its `arg` without the type field. -/
theorem field_arg_above1 (w : Word) : field w 2 14 = field w 0 16 / 4 := by
  simp only [field]; omega

theorem ifZero_eq_none {a b : Nat} (k : Option Instr) (h : a ≠ 0 ∨ b ≠ 0) : ifZero a b k = none :=
  if_neg fun ⟨ha, hb⟩ => h.elim (· ha) (· hb)

/-- The type field has two bits (30_encoding R95). -/
theorem TType.ofCode_eq_none {n : Nat} (h : n / 4 ≠ 0) : TType.ofCode n = none := by
  have : n ≠ 0 ∧ n ≠ 1 ∧ n ≠ 2 ∧ n ≠ 3 := by omega
  simp only [TType.ofCode, this, if_false]

theorem cmdRow_eq_none {op : Nat} (h : op ∉ cmdTable.map CmdRow.op) : cmdRow op = none :=
  List.find?_eq_none.mpr fun _ hr e => h (List.mem_map.mpr ⟨_, hr, eq_of_beq e⟩)

/-! The rows by the fields that must be zero (30_encoding R93). -/

theorem cmdRow_noOperands {op : Nat} (h : op ∈ [0x02, 0x03, 0x80]) :
    ∃ i, cmdRow op = some ⟨op, false, fun e a _ => ifZero e a (some i)⟩ := by
  simp only [List.mem_cons, List.not_mem_nil, or_false] at h
  rcases h with rfl | rfl | rfl <;> exact ⟨_, rfl⟩

theorem cmdRow_argOnly {op : Nat} (h : op ∈ [0x04, 0x30]) :
    ∃ f : Nat → Instr, cmdRow op = some ⟨op, false, fun e a _ => ifZero e 0 (some (f a))⟩ := by
  simp only [List.mem_cons, List.not_mem_nil, or_false] at h
  rcases h with rfl | rfl <;> exact ⟨_, rfl⟩

theorem cmdRow_activate {op : Nat} (h : op ∈ [0x20, 0x21]) :
    ∃ f : Nat → TType → Instr, cmdRow op = some ⟨op, false, fun e a _ => (TType.ofCode a).map (f e)⟩ := by
  simp only [List.mem_cons, List.not_mem_nil, or_false] at h
  rcases h with rfl | rfl <;> exact ⟨_, rfl⟩

theorem cmdRow_epnOnly {op : Nat} (h : op ∈ [0x22, 0x23, 0x24, 0x25, 0x26, 0x27]) :
    ∃ f : Nat → Instr, cmdRow op = some ⟨op, false, fun e a _ => ifZero a 0 (some (f e))⟩ := by
  simp only [List.mem_cons, List.not_mem_nil, or_false] at h
  rcases h with rfl | rfl | rfl | rfl | rfl | rfl <;> exact ⟨_, rfl⟩

/-! What the decoder answers to them. -/

theorem decodeCmd_unknownOpcode {w : Word} (more : List Word) (h : cmdRow (field w 24 8) = none) :
    decodeCmd (w :: more) = .error .unknownOpcode := by
  simp only [decodeCmd, h]

/-- A one-word command of which its row builds nothing. -/
theorem decodeCmd_one_nonZeroField {w : Word} {op : Nat} {build : Nat → Nat → Word → Option Instr}
    (hr : cmdRow (field w 24 8) = some ⟨op, false, build⟩) (hb : build (field w 16 8) (field w 0 16) 0 = none) :
    decodeCmd [w] = .error .nonZeroField := by
  simp only [decodeCmd, hr, hb]

/-- A two-word command of which its row builds nothing. -/
theorem decodeCmd_two_nonZeroField {w b : Word} {op : Nat} {build : Nat → Nat → Word → Option Instr}
    (hr : cmdRow (field w 24 8) = some ⟨op, true, build⟩) (hb : build (field w 16 8) (field w 0 16) b = none) :
    decodeCmd [w, b] = .error .nonZeroField := by
  simp only [decodeCmd, hr, hb]

end Sys2Proof

namespace Sys2Proof.Machine

/-- Outside a callback a command transaction that breaks its format, its length apart, is taken and answered. -/
theorem step_of_decodeCmd_error {s : State} {ws : List Word} {rest : List Input} {r : Reject}
    (hin : s.inbox = .port .cmd ws :: rest) (ho : s.client.outstanding = none) (hd : decodeCmd ws = .error r)
    (hr : r = .unknownOpcode ∨ r = .nonZeroField) :
    step s = .next { s with inbox := rest, result := some .unsupportedFeature } := by
  have hstep : step s = rejected .cmd r (putBack .cmd [] rest s) := by
    simp [step, nextOperation, hin, takeInput, takePort, heldByCallback, ho, decode, hd, whole, Except.map]
  rcases hr with rfl | rfl <;> exact hstep

end Sys2Proof.Machine

/-- Settles O5: no row has the opcode, or the row builds nothing of the fields; either way the port answers. -/
theorem illegalCommandWordAnswersUnsupported : Obligations.IllegalCommandWordAnswersUnsupported := by
  intro s w more rest hin ho h
  suffices hd : decodeCmd (w :: more) = .error .unknownOpcode ∨ decodeCmd (w :: more) = .error .nonZeroField from
    hd.elim (step_of_decodeCmd_error hin ho · (.inl rfl)) (step_of_decodeCmd_error hin ho · (.inr rfl))
  obtain hop | ⟨rfl, hop, hz⟩ | ⟨rfl, hop, hz⟩ | ⟨rfl, hop, hz⟩ | ⟨hlen, hop, hz⟩ | ⟨rfl, hop, hz⟩ | ⟨rfl, hop, hz⟩ := h
  · exact .inl (decodeCmd_unknownOpcode more (cmdRow_eq_none hop))
  all_goals right
  · rw [field_low24_above0] at hz
    exact decodeCmd_one_nonZeroField ((congrArg cmdRow hop).trans rfl) (ifZero_eq_none _ (by omega))
  · obtain ⟨i, hrow⟩ := cmdRow_noOperands hop
    rw [field_low24] at hz
    exact decodeCmd_one_nonZeroField hrow (ifZero_eq_none _ (by omega))
  · obtain ⟨f, hrow⟩ := cmdRow_argOnly hop
    exact decodeCmd_one_nonZeroField hrow (ifZero_eq_none _ (.inl hz))
  · obtain ⟨b, rfl⟩ := List.length_eq_one_iff.mp hlen
    exact decodeCmd_two_nonZeroField ((congrArg cmdRow hop).trans rfl) (ifZero_eq_none _ (.inl hz))
  · obtain ⟨f, hrow⟩ := cmdRow_activate hop
    rw [field_arg_above1] at hz
    exact decodeCmd_one_nonZeroField hrow (congrArg (Option.map _) (TType.ofCode_eq_none hz))
  · obtain ⟨f, hrow⟩ := cmdRow_epnOnly hop
    exact decodeCmd_one_nonZeroField hrow (ifZero_eq_none _ (.inl hz))

/-! ## Requests and result words (30_encoding R94, R100) -/

namespace Sys2Proof.Machine

theorem request_of_none {q : CbReq} {s : State} (h : s.client.outstanding = none) : request q s = .next (issueCb q s) := by
  simp only [request, h]

theorem request_of_ne_none {q : CbReq} {s : State} (h : s.client.outstanding ≠ none) : request q s = .refused .insideCallback := by
  obtain ⟨p, hp⟩ := Option.ne_none_iff_exists'.mp h
  simp only [request, hp]

theorem requestControl_of_ne_zero {e : BitVec 8} (q : CbReq) (s : State) (h : e ≠ 0) :
    requestControl e.toNat q s = .refused .noControlEndpoint :=
  if_neg fun he => h (BitVec.eq_of_toNat_eq he)

end Sys2Proof.Machine

/-- Settles O46: each of the six instructions is the request it names, and a result word only answers. -/
theorem requestAndResultWordsGoOut : Obligations.RequestAndResultWordsGoOut := by
  refine ⟨fun s i q h => ?_, fun s e he => ?_, fun s => ⟨rfl, rfl, rfl, rfl⟩⟩
  · have hi : exec i s = request q s := by
      obtain ⟨rfl, rfl⟩ | ⟨e, rfl, rfl⟩ | ⟨e, n, rfl, rfl⟩ | ⟨rfl, rfl⟩ | ⟨rfl, rfl⟩ | ⟨rfl, rfl⟩ := h <;> rfl
    exact ⟨fun ho => hi.trans (request_of_none ho), fun ho => hi.trans (request_of_ne_none ho)⟩
  · exact ⟨requestControl_of_ne_zero _ s he, requestControl_of_ne_zero _ s he, requestControl_of_ne_zero _ s he⟩

end

section
/-! PROOFS. The statements about the lifecycle operations (spec 40_controller_core): `START`, `DETACH`, `SET_ADDRESS`, `ENABLE` with its
time-out and its completion, and the clock precondition. -/

namespace Sys2Proof.Machine

/-! ## Writes with the Register Interface still -/

/-- With no move listed two writes are the two writes alone. -/
theorem regWrite_regWrite_still (f g : Field) (v w : Nat) {s : State} (hm : s.moves = []) :
    regWrite g w (regWrite f v s) = putReg g w (putReg f v s) := by
  rw [regWrite_still f v hm, regWrite_still g w (by exact hm)]

/-- The steps of `ENABLE` before its first poll (40 R120). -/
theorem enablePrelude_eq {s : State} (hm : s.moves = []) : enablePrelude s = { s with
    clockOn := true, ri := { s.ri with gintEn := false, phyFs := true },
    trace := [.write .phyFs 1, .write .gintEn 0] ++ s.trace } :=
  regWrite_regWrite_still .gintEn .phyFs 0 1 (s := { s with clockOn := true }) hm

/-- `ENABLE full` in `Disabled` is the whole sequence (40 R120). -/
theorem exec_enable_disabled {s : State} (hc : s.ctrl = .disabled) : exec (.enable .full) s = finish (enableFromDisabled s) :=
  congrArg finish (if_pos hc)

/-- A core soft reset that does not find AHB idle ends `ENABLE` there (40 R121, R122). -/
theorem enableFromDisabled_timeout {s t : State}
    (h : pollUntil readIdle 1 (enablePrelude s).cfg.retryCeiling (enablePrelude s) = (false, t)) :
    enableFromDisabled s = .next (.hardwareTimeout, t) := by
  have hr : coreSoftReset (enablePrelude s) = (.hardwareTimeout, t) := by
    simp only [coreSoftReset, h, Bool.false_eq_true, if_false]
  simp only [enableFromDisabled, hr, reduceCtorEq, if_false]

/-! ## The clock precondition (40 R130) -/

/-- Neither the Register Interface nor the record of accesses is touched from `s` on. -/
def Unreached (s t : State) : Prop := t.ri = s.ri ∧ t.trace = s.trace

/-- An operation that completes, if it does, without a register access. -/
abbrev NoAccess (s : State) : M State → Prop := Ends (Unreached s)

/-- The same of a command before its result word is shown. -/
abbrev NoAccessRes (s : State) : M (Res × State) → Prop := Ends fun p => Unreached s p.2

theorem NoAccessRes.finish {s : State} {x : M (Res × State)} (h : NoAccessRes s x) : NoAccess s (finish x) :=
  h.andThen fun _ hp => .next hp

theorem Unreached.refl (s : State) : Unreached s s := ⟨rfl, rfl⟩

/-- A request goes out on the client port, not on the register port. -/
theorem request_noAccess (q : CbReq) (s : State) : NoAccess s (request q s) := by
  unfold request
  split
  · exact .next ⟨rfl, rfl⟩
  · exact .refused _

theorem requestControl_noAccess (e : Nat) (q : CbReq) (s : State) : NoAccess s (requestControl e q s) :=
  .ite (request_noAccess q s) (.refused _)

theorem assignCtrlBuf_noAccess (b : Buf) (s : State) : NoAccessRes s (assignCtrlBuf b s) :=
  .ite (.ite (.next ⟨rfl, rfl⟩) (.refused _)) (.next (.refl s))

theorem assignInBuf_noAccess (i : Nat) (b : Buf) (s : State) : NoAccessRes s (assignInBuf i b s) :=
  .ite (.ite (.ite (.next ⟨rfl, rfl⟩) (.refused _)) (.next (.refl s))) (.next (.refl s))

theorem assignOutBuf_noAccess (i : Nat) (b : Buf) (s : State) : NoAccessRes s (assignOutBuf i b s) :=
  .ite (.ite (.ite (.next ⟨rfl, rfl⟩) (.refused _)) (.next (.refl s))) (.next (.refl s))

section
variable {s : State} (hk : s.clockOn = false)
include hk

/-- With the clock off a clocked operation does not complete. -/
theorem Ends.clockOff {α : Type} {P : α → Prop} (x : M α) : Ends P (Machine.clocked s x) := by
  rw [clocked_off hk]
  exact .refused _

theorem pushPacket_clockOff {P : State → Prop} (i : Nat) (b : Buf) (n : Nat) : Ends P (pushPacket i b n s) :=
  .ite (.refused _) (.ite (.clockOff hk _) (.fault _))

theorem popPacket_clockOff {P : State → Prop} (b : Buf) (n : Nat) : Ends P (popPacket b n s) :=
  .ite (.clockOff hk _) (.fault _)

theorem startIn_clockOff {P : State → Prop} (i n : Nat) : Ends P (startIn i n s) := by
  unfold startIn
  split
  · exact .refused _
  · exact .ite (.ite (.clockOff hk _) (.refused _)) (.refused _)

theorem armOut_clockOff {P : State → Prop} (i : Nat) : Ends P (armOut i s) := by
  unfold armOut
  split
  · exact .refused _
  · exact .clockOff hk _

theorem onRegs_clockOff {P : State → Prop} (i : Nat) (x : M State) : Ends P (onRegs i s x) :=
  .ite (.clockOff hk _) (.fault _)

theorem setAddress_noAccess (a : BitVec 16) : NoAccess s (execSetAddress a s) := by
  unfold execSetAddress
  split
  · exact .next ⟨rfl, rfl⟩
  · exact .clockOff hk _

theorem activateIn_noAccess (t : TType) (i : Nat) : NoAccessRes s (activateIn t i s) := by
  refine .ite (.ite (.next (.refl s)) ?_) (.next (.refl s))
  split
  · exact .next (.refl s)
  · exact .ite (.refused _) (.ite (.clockOff hk _) (.ite (.refused _)
      (.ite (.ite (.clockOff hk _) (.refused _)) (.next (.refl s)))))

theorem activateOut_noAccess (t : TType) (i : Nat) : NoAccessRes s (activateOut t i s) := by
  refine .ite (.ite (.next (.refl s)) ?_) (.next (.refl s))
  split
  · exact .next (.refl s)
  · exact .ite (.refused _) (.ite (.clockOff hk _) (.ite (.refused _) (.ite (.refused _)
      (.ite (.clockOff hk _) (.refused _)))))

theorem onEndpoint_noAccess (i : Nat) (f : State → State) : NoAccessRes s (onEndpoint i f s) :=
  .ite (.clockOff hk _) (.next (.refl s))

theorem setRxFifo_noAccess (n : Nat) : NoAccessRes s (setRxFifo n s) :=
  .ite (.ite (.clockOff hk _) (.next (.refl s))) (.refused _)

theorem setTxFifo_noAccess (i n : Nat) : NoAccessRes s (setTxFifo i n s) :=
  .ite (.ite (.ite (.ite (.clockOff hk _) (.next (.refl s))) (.refused _)) (.next (.refl s))) (.refused _)

theorem writePacket_noAccess (i n : Nat) : NoAccessRes s (writePacket i n s) := by
  refine .ite ?_ (.next (.refl s))
  split
  · exact .next (.refl s)
  · exact .ite (.ite ((pushPacket_clockOff hk (P := Unreached s) i _ n).andThen fun _ h => .next h) (.next (.refl s)))
      (.next (.refl s))

theorem readPacket_noAccess (i n : Nat) : NoAccessRes s (readPacket i n s) := by
  refine .ite ?_ (.next (.refl s))
  split
  · exact .next (.refl s)
  · exact .ite ((popPacket_clockOff hk (P := Unreached s) _ n).andThen fun _ h => .next h) (.next (.refl s))

/-- A data packet of no bytes is the one that is received without an access. -/
theorem rxDataUpdate_noAccess (e : Nat) (n : BitVec 16) : NoAccess s (rxDataUpdate e n s) := by
  unfold rxDataUpdate
  split
  · exact .refused _
  · exact .ite (Ends.andThen (P := Unreached s) (.ite (.next (.refl s)) (popPacket_clockOff hk _ _)) fun _ h => .next h) (.refused _)

theorem rxSetupUpdate_noAccess (e : Nat) (n : BitVec 16) : NoAccess s (rxSetupUpdate e n s) := by
  unfold rxSetupUpdate
  split
  · exact .refused _
  · exact .ite ((popPacket_clockOff hk (P := Unreached s) _ _).andThen fun _ h => .next h) (.fault _)

/-! What the CORE does with an answer: every step that would touch a register asks for the clock first. -/

theorem onSetup_noAccess (a : SetupAnswer) : NoAccess s (onSetup a s) := by
  unfold onSetup
  split
  · split
    · exact .clockOff hk _
    · exact .ite (.ite ((startIn_clockOff hk (P := Unreached s) 0 0).andThen fun _ h => .next h) (.ite (.next ⟨rfl, rfl⟩)
        (armOut_clockOff (by exact hk) 0))) (.fault _)
    · exact .clockOff hk _
  · exact .refused _

theorem onCtrlIn_noAccess (a : InAnswer) : NoAccess s (onCtrlIn a s) := by
  cases a with
  | packet n l => exact .ite ((startIn_clockOff hk (P := fun _ => False) 0 _).andThen fun _ h => h.elim) (.refused _)
  | delay => exact .next (.refl s)
  | error => exact .clockOff hk _

theorem onBulkIn_noAccess (i : Nat) (bout : OutSub) (a : InAnswer) : NoAccess s (onBulkIn i bout a s) := by
  cases a with
  | packet n l => exact .ite ((startIn_clockOff hk (P := Unreached s) i _).andThen fun _ h => .next h) (.refused _)
  | delay => exact .next (.refl s)
  | error => exact .clockOff hk _

theorem onIntIn_noAccess (i : Nat) (mps : BitVec 16) (a : InAnswer) : NoAccess s (onIntIn i mps a s) := by
  cases a with
  | packet n l => exact .ite ((startIn_clockOff hk (P := Unreached s) i _).andThen fun _ h => .next h) (.refused _)
  | delay => exact .next (.refl s)
  | error => exact .clockOff hk _

theorem onIn_noAccess (i : Nat) (a : InAnswer) : NoAccess s (onIn i a s) := by
  unfold onIn
  split
  · exact .ite (onCtrlIn_noAccess hk a) (.refused _)
  · exact onBulkIn_noAccess hk i _ a
  · exact onIntIn_noAccess hk i _ a
  all_goals exact .refused _

theorem onCtrlOut_noAccess (a : OutAnswer) : NoAccess s (onCtrlOut a s) := by
  cases a with
  | ok => exact startIn_clockOff (by exact hk) 0 0
  | halted => exact .clockOff hk _
  | delay => exact .clockOff hk _

theorem onBulkOut_noAccess (i : Nat) (bin : InSub) (a : OutAnswer) : NoAccess s (onBulkOut i bin a s) := by
  cases a with
  | ok => exact armOut_clockOff (by exact hk) i
  | halted => exact .clockOff hk _
  | delay => exact .next ⟨rfl, rfl⟩

theorem onOut_noAccess (i : Nat) (a : OutAnswer) : NoAccess s (onOut i a s) := by
  unfold onOut
  split
  · exact .ite (onCtrlOut_noAccess hk a) (.refused _)
  · exact onBulkOut_noAccess hk i _ a
  · exact onBulkOut_noAccess hk i _ a
  all_goals exact .refused _

theorem onStatusComplete_noAccess : NoAccess s (onStatusComplete s) := by
  unfold onStatusComplete
  split
  · exact .clockOff hk _
  all_goals exact .refused _

theorem deliver_noAccess (r : Resp) : NoAccess s (deliver r s) := by
  have hk' : (clearCb s).clockOn = false := hk
  unfold deliver
  split
  · exact onSetup_noAccess hk' _
  · exact onIn_noAccess hk' _ _
  · exact onOut_noAccess hk' _ _
  · exact .next ⟨rfl, rfl⟩
  · exact onStatusComplete_noAccess hk'
  · exact .next ⟨rfl, rfl⟩
  · exact .refused _

/-- No instruction but `ENABLE` completes with a register access. -/
theorem exec_noAccess {i : Instr} (hi : ∀ v, i ≠ .enable v) : NoAccess s (exec i s) := by
  cases i with
  | enable v => exact absurd rfl (hi v)
  | start => exact .ite (.clockOff hk _) (.refused _)
  | detach => exact .ite (.clockOff hk _) (.refused _)
  | setAddress a => exact setAddress_noAccess hk a
  | assignCtrlBuf n b => exact (assignCtrlBuf_noAccess _ s).finish
  | assignInBuf k n b => exact (assignInBuf_noAccess _ _ s).finish
  | assignOutBuf k n b => exact (assignOutBuf_noAccess _ _ s).finish
  | activateEpIn k t => exact (activateIn_noAccess hk t _).finish
  | activateEpOut k t => exact (activateOut_noAccess hk t _).finish
  | disableEpIn k => exact (onEndpoint_noAccess hk _ _).finish
  | disableEpOut k => exact (onEndpoint_noAccess hk _ _).finish
  | stallEpIn k => exact (onEndpoint_noAccess hk _ _).finish
  | stallEpOut k => exact (onEndpoint_noAccess hk _ _).finish
  | clearStallIn k => exact (onEndpoint_noAccess hk _ _).finish
  | clearStallOut k => exact (onEndpoint_noAccess hk _ _).finish
  | setRxFifo n => exact (setRxFifo_noAccess hk _).finish
  | setTxFifo k n => exact (setTxFifo_noAccess hk _ _).finish
  | writePacket k n => exact (writePacket_noAccess hk _ _).finish
  | readPacket k n => exact (readPacket_noAccess hk _ _).finish
  | rxDataUpdate e n d => exact rxDataUpdate_noAccess hk _ _
  | rxSetupComplete e n d => exact .next (.refl s)
  | rxSetupUpdate e n d => exact rxSetupUpdate_noAccess hk _ _
  | cbSetup e => exact requestControl_noAccess _ _ s
  | cbInData e => exact request_noAccess _ s
  | cbOutData e n => exact request_noAccess _ s
  | cbStatus e => exact requestControl_noAccess _ _ s
  | cbStatusComplete e => exact requestControl_noAccess _ _ s
  | cbBusReset => exact request_noAccess _ s
  | resOk => exact .next ⟨rfl, rfl⟩
  | resConfigurationError => exact .next ⟨rfl, rfl⟩
  | resHardwareTimeout => exact .next ⟨rfl, rfl⟩
  | resUnsupportedFeature => exact .next ⟨rfl, rfl⟩
  | respSetupOk | respSetupOkSetAddress | respSetupError | respInDataPacket | respInDataDelay | respInDataError | respOutDataOk
  | respOutDataHalted | respOutDataDelay | respStatusDone | respStatusCompleteDone | respBusResetDone =>
    exact deliver_noAccess hk _
  | irq | srcMmis | srcRxflvl | srcOepint | srcIepint | srcWkup | srcSusp | srcLpm | srcUsbrst | srcEnumdne | srcSof | srcIisoixfr
  | srcIisooxfr | srcSrq | srcOtg => exact .clockOff hk _
  | _ => exact onRegs_clockOff hk _ _

end

/-! ## A run the Register Interface moves in, beside the still one (20_memory R77) -/

/-- The same field write of two IN endpoints does not let a STALL bit appear on one of them alone. -/
theorem InRegs.put_stall_imp (f : InField) (v : Nat) {x y : InRegs} (h : y.stall = true → x.stall = true) :
    (y.put f v).stall = true → (x.put f v).stall = true := by
  cases f with
  | stall => exact id
  | _ => exact h

/-- The same of two OUT endpoints. -/
theorem OutRegs.put_stall_imp (f : OutField) (v : Nat) {x y : OutRegs} (h : y.stall = true → x.stall = true) :
    (y.put f v).stall = true → (x.put f v).stall = true := by
  cases f with
  | stall => exact id
  | _ => exact h

/-- What the Register Interface can make of its fields by itself, seen from the CORE: the plain fields are kept, and no STALL bit
appears (20_memory R77 E3, 42 R202). -/
structure RegIf.Stirred (r r' : RegIf) : Prop where
  plain : r'.plain = r.plain
  stallIn : ∀ i, (r'.iepAt i).stall = true → (r.iepAt i).stall = true
  stallOut : ∀ i, (r'.oepAt i).stall = true → (r.oepAt i).stall = true

namespace RegIf.Stirred

/-- A change that `RegIf.plain` does not show and that leaves the endpoint registers alone. -/
theorem unseen {r r' : RegIf} (hp : r'.plain = r.plain) (hi : r'.iep = r.iep) (ho : r'.oep = r.oep) : r.Stirred r' where
  plain := hp
  stallIn i := by simp only [RegIf.iepAt, hi, imp_self]
  stallOut i := by simp only [RegIf.oepAt, ho, imp_self]

theorem refl (r : RegIf) : r.Stirred r := .unseen rfl rfl rfl

theorem trans {a b c : RegIf} (h : a.Stirred b) (k : b.Stirred c) : a.Stirred c where
  plain := k.plain.trans h.plain
  stallIn i := h.stallIn i ∘ k.stallIn i
  stallOut i := h.stallOut i ∘ k.stallOut i

/-- A move of the Register Interface: the arrival of a SETUP packet clears STALL bits, the others keep them. -/
theorem move (l : Layout) (r : RegIf) (m : RiMove) : r.Stirred (RiMove.apply l r m) := by
  by_cases hm : ∃ ds, m = .setup ds
  · obtain ⟨ds, rfl⟩ := hm
    refine ⟨RiMove.apply_plain l r _, fun i => ?_, fun i => ?_⟩
    · rw [(RiMove.setup_stall l r ds i).1]
      split <;> simp
    · rw [(RiMove.setup_stall l r ds i).2]
      split <;> simp
  · have hm' : ∀ ds, m ≠ .setup ds := fun ds e => hm ⟨ds, e⟩
    exact ⟨RiMove.apply_plain l r m, fun i h => ((RiMove.apply_iepAt l r m i).stall hm').symm.trans h,
      fun i h => ((RiMove.apply_oepAt l r m i).stall hm').symm.trans h⟩

theorem moved (l : Layout) : ∀ (ms : List RiMove) (r : RegIf), r.Stirred (r.moved l ms)
  | [], r => .refl r
  | m :: ms, r => (move l r m).trans (moved l ms _)

theorem iepLength {r r' : RegIf} (h : r.Stirred r') : r'.iep.length = r.iep.length := by
  simpa [RegIf.plain] using congrArg (fun p : RegIf => p.iep.length) h.plain

theorem oepLength {r r' : RegIf} (h : r.Stirred r') : r'.oep.length = r.oep.length := by
  simpa [RegIf.plain] using congrArg (fun p : RegIf => p.oep.length) h.plain

/-- The same change of an IN endpoint of both, one that does not let a STALL bit appear. -/
theorem iepMod {r r' : RegIf} (h : r.Stirred r') {k : Nat} {g : InRegs → InRegs}
    (hp : ({ r' with iep := r'.iep.modify k g } : RegIf).plain = ({ r with iep := r.iep.modify k g } : RegIf).plain)
    (hg : ∀ x y : InRegs, (y.stall = true → x.stall = true) → (g y).stall = true → (g x).stall = true) :
    ({ r with iep := r.iep.modify k g } : RegIf).Stirred { r' with iep := r'.iep.modify k g } where
  plain := hp
  stallIn i := by
    simp only [RegIf.iepAt, getD_modify, h.iepLength]
    split
    · exact hg _ _ (h.stallIn i)
    · exact h.stallIn i
  stallOut := h.stallOut

/-- The same of an OUT endpoint. -/
theorem oepMod {r r' : RegIf} (h : r.Stirred r') {k : Nat} {g : OutRegs → OutRegs}
    (hp : ({ r' with oep := r'.oep.modify k g } : RegIf).plain = ({ r with oep := r.oep.modify k g } : RegIf).plain)
    (hg : ∀ x y : OutRegs, (y.stall = true → x.stall = true) → (g y).stall = true → (g x).stall = true) :
    ({ r with oep := r.oep.modify k g } : RegIf).Stirred { r' with oep := r'.oep.modify k g } where
  plain := hp
  stallIn := h.stallIn
  stallOut i := by
    simp only [RegIf.oepAt, getD_modify, h.oepLength]
    split
    · exact hg _ _ (h.stallOut i)
    · exact h.stallOut i

/-- The same write of any field. -/
theorem write {r r' : RegIf} (h : r.Stirred r') (c : Config) (f : Field) (v : Nat) : (r.write c f v).Stirred (r'.write c f v) := by
  have hp := RegIf.plain_write_congr h.plain c f v
  cases f with
  | iepCtl i => exact h.iepMod hp fun _ _ _ => id
  | oepCtl i => exact h.oepMod hp fun _ _ _ => id
  | iep i g => exact h.iepMod hp fun _ _ => InRegs.put_stall_imp g v
  | oep i g => exact h.oepMod hp fun _ _ => OutRegs.put_stall_imp g v
  | iepCond i c => exact h.iepMod hp fun _ _ hxy => hxy
  | oepCond i c => exact h.oepMod hp fun _ _ hxy => hxy
  | rxfFlush =>
    simp only [RegIf.write] at hp ⊢
    split <;> rename_i hv <;> simp only [hv, if_true, if_false] at hp <;> exact ⟨hp, h.stallIn, h.stallOut⟩
  | txfFlush =>
    simp only [RegIf.write] at hp ⊢
    split <;> rename_i hv <;> simp only [hv, if_true, if_false] at hp <;> exact ⟨hp, h.stallIn, h.stallOut⟩
  | _ => exact ⟨hp, h.stallIn, h.stallOut⟩

/-- The same push into a transmit FIFO. -/
theorem push {r r' : RegIf} (h : r.Stirred r') (i : Nat) (g : List Word → List Word) :
    ({ r with txq := r.txq.modify i g } : RegIf).Stirred { r' with txq := r'.txq.modify i g } where
  plain := by rw [RegIf.plain_txq_modify, RegIf.plain_txq_modify, h.plain]
  stallIn := h.stallIn
  stallOut := h.stallOut

end RegIf.Stirred

/-- `s` is a run without a move of the Register Interface, `u` the same run with moves. -/
structure Stirred (s u : State) : Prop where
  same : u = { s with ri := u.ri, moves := u.moves, trace := u.trace }
  still : s.moves = []
  ri : s.ri.Stirred u.ri

namespace Stirred

theorem intro {s : State} (hm : s.moves = []) {r : RegIf} (hr : s.ri.Stirred r) (m : List (List RiMove)) (t : List Access) :
    Stirred s { s with ri := r, moves := m, trace := t } := ⟨rfl, hm, hr⟩

theorem elim {s u : State} (h : Stirred s u) : ∃ r m t, u = { s with ri := r, moves := m, trace := t } ∧ s.ri.Stirred r :=
  ⟨u.ri, u.moves, u.trace, h.same, h.ri⟩

/-- Every register access keeps the two runs beside each other. -/
theorem sim : Sim Stirred where
  form h := by
    obtain ⟨r, m, t, rfl, -⟩ := h.elim
    exact ⟨r, m, t, rfl⟩
  write h f v := by
    have hm := h.still
    obtain ⟨r, m, t, rfl, hr⟩ := h.elim
    rw [regWrite_still f v hm]
    exact .intro (s := putReg f v _) hm ((hr.trans (.moved _ _ r)).write _ f v) _ _
  read h f := by
    have hm := h.still
    obtain ⟨r, m, t, rfl, hr⟩ := h.elim
    rw [regRead_still f hm]
    exact .intro (s := logAccess _ _) hm (hr.trans (.moved _ _ r)) _ _
  push h i w := by
    have hm := h.still
    obtain ⟨r, m, t, rfl, hr⟩ := h.elim
    rw [txPush_still i w hm]
    exact .intro (s := pushWord i w _) hm ((hr.trans (.moved _ _ r)).push i _) _ _
  frame h _ hr hm _ hu := by
    subst hu
    exact ⟨rfl, hm.trans h.still, hr ▸ h.ri⟩
  actIn h i := by rw [RegIf.iepAt_act_eq_plain, h.ri.plain, ← RegIf.iepAt_act_eq_plain]
  actOut h i := by rw [RegIf.oepAt_act_eq_plain, h.ri.plain, ← RegIf.oepAt_act_eq_plain]

end Stirred

/-! ## Polls (40 R121) -/

/-- A property that every read of a poll keeps holds after the poll. -/
theorem pollUntil_keeps {P : State → Prop} {rd : State → Nat × State} (h : ∀ s, P s → P (rd s).2) (v : Nat) :
    ∀ (n : Nat) {s : State}, P s → P (pollUntil rd v n s).2
  | 0, _, hs => hs
  | n + 1, s, hs => by
    simp only [pollUntil]
    split
    · exact h s hs
    · exact pollUntil_keeps h v n (h s hs)

/-- A poll succeeds only where a read is allowed. -/
theorem one_le_of_pollUntil {rd : State → Nat × State} {v n : Nat} {s : State} (h : (pollUntil rd v n s).1 = true) : 1 ≤ n := by
  cases n with
  | zero => cases h
  | succ n => omega

/-- What `ENABLE` leaves before the core reset is asserted: the clock on, and registers, moves and accesses (40 R120, R121). -/
theorem pollIdle_prelude_form (v n : Nat) (s : State) :
    ∃ r m t, (pollUntil readIdle v n (enablePrelude s)).2 = { s with clockOn := true, ri := r, moves := m, trace := t } :=
  pollUntil_keeps (P := fun u => ∃ r m t, u = { s with clockOn := true, ri := r, moves := m, trace := t })
    (fun u hu => by obtain ⟨r, m, t, rfl⟩ := hu; exact ⟨_, _, _, rfl⟩) v n ⟨_, _, _, rfl⟩

/-! ## Success of the parts of `ENABLE`, taken apart (40 R120 to R124) -/

/-- Both polls of a core soft reset succeed where it does (40 R122). -/
theorem coreSoftReset_ok_iff {s t : State} : coreSoftReset s = (.ok, t) ↔ ∃ u v,
    pollUntil readIdle 1 s.cfg.retryCeiling s = (true, u) ∧
    pollUntil (readSelfClear .coreRst) 0 s.cfg.retryCeiling (assertCoreReset u) = (true, v) ∧ resetCore v = t := by
  rcases h1 : pollUntil readIdle 1 s.cfg.retryCeiling s with ⟨_ | _, u⟩
  · simp [coreSoftReset, h1]
  · rcases h2 : pollUntil (readSelfClear .coreRst) 0 s.cfg.retryCeiling (assertCoreReset u) with ⟨_ | _, v⟩ <;>
      simp [coreSoftReset, h1, h2]

/-- The flush succeeds where `DeviceInit` does, and the baseline mask comes last (40 R123). -/
theorem deviceInit_ok_iff {s t : State} : deviceInit s = (.ok, t) ↔ ∃ u,
    flushFifos ((List.range s.cfg.nEp).foldl initEndpointRegs s) = (.ok, u) ∧ setBaselineMask u = t := by
  rcases h : flushFifos ((List.range s.cfg.nEp).foldl initEndpointRegs s) with ⟨_ | _, u⟩ <;> simp [deviceInit, h]

/-- Every part succeeds where `ENABLE full` from `Disabled` does (40 R120). -/
theorem enableFromDisabled_ok_iff {s t : State} : enableFromDisabled s = .next (.ok, t) ↔ ∃ u v w,
    coreSoftReset (enablePrelude s) = (.ok, u) ∧ deviceInit (regWrite .devRole 1 u) = (.ok, v) ∧
    initFifos v = .next (.ok, w) ∧ setCtrl .initialized w = t := by
  rcases h1 : coreSoftReset (enablePrelude s) with ⟨_ | _, u⟩
  case ok =>
    rcases h2 : deviceInit (regWrite .devRole 1 u) with ⟨_ | _, v⟩
    case ok =>
      rcases h3 : initFifos v with ⟨_ | _, w⟩ | _ | _ <;> simp [enableFromDisabled, h1, h2, h3, enableEnd]
    all_goals simp [enableFromDisabled, h1, h2]
  all_goals simp [enableFromDisabled, h1]

/-! ## The two runs through `ENABLE` -/

/-- Neither `RegIf.plain` nor the endpoint registers show that `v` is written to the field. -/
def Field.Unseen (f : Field) (v : Nat) : Prop := ∀ (c : Config) (r : RegIf), r.Stirred (r.write c f v)

theorem Field.unseen_coreRst (v : Nat) : Field.Unseen .coreRst v := fun _ _ => .unseen rfl rfl rfl

theorem Field.unseen_rxfFlush (v : Nat) : Field.Unseen .rxfFlush v := fun _ r => by
  simp only [RegIf.write]
  split <;> exact .unseen rfl rfl rfl

theorem Field.unseen_txfFlush (v : Nat) : Field.Unseen .txfFlush v := fun _ r => by
  simp only [RegIf.write]
  split
  · exact .unseen (by simp [RegIf.plain, List.map_const']) rfl rfl
  · exact .unseen rfl rfl rfl

namespace Stirred
variable {s u : State} (h : Stirred s u)
include h

/-- The run with moves goes on alone, by what the still run cannot see. -/
theorem stir {r : RegIf} (hr : u.ri.Stirred r) (m : List (List RiMove)) (t : List Access) :
    Stirred s { u with ri := r, moves := m, trace := t } := by
  have hm := h.still
  obtain ⟨r', m', t', rfl, hr'⟩ := h.elim
  exact .intro hm (hr'.trans hr) m t

/-- The still run goes on alone, by what `RegIf.plain` and the endpoint registers do not show. -/
theorem still_stir {r : RegIf} (hr : r.Stirred s.ri) (t : List Access) : Stirred { s with ri := r, trace := t } u := by
  have hm := h.still
  obtain ⟨r', m', t', rfl, hr'⟩ := h.elim
  exact .intro (s := { s with ri := r, trace := t }) hm (hr.trans hr') m' t'

theorem env : Stirred s (envPoint u) := h.stir (.moved _ _ _) _ _

theorem writeUnseen {f : Field} {v : Nat} (hf : f.Unseen v) : Stirred s (regWrite f v u) := h.env.stir (hf _ _) _ _

/-- A poll of a self-clearing bit in the run with moves alone. -/
theorem pollSelf {f : Field} (hf : f.Unseen 0) (v n : Nat) : Stirred s (pollUntil (readSelfClear f) v n u).2 := by
  refine pollUntil_keeps (P := Stirred s) (fun u h => ?_) v n h
  have hr : Stirred s (regRead f u) := h.env.stir (.refl _) _ _
  simp only [readSelfClear]
  split
  · exact hr
  · exact hr.stir (hf _ _) _ _

/-- `FlushFifos` in the run with moves alone (40 R124). -/
theorem flushAlone : Stirred s (flushFifos u).2 := by
  have h1 := (h.writeUnseen (Field.unseen_txfFlush 1)).pollSelf (Field.unseen_txfFlush 0) 0 u.cfg.retryCeiling
  have h2 := (h1.writeUnseen (Field.unseen_rxfFlush 1)).pollSelf (Field.unseen_rxfFlush 0) 0 u.cfg.retryCeiling
  simp only [flushFifos]
  split
  · split
    · exact h2
    · exact h2
  · exact h1

end Stirred

/-! ## The state `ENABLE` lays the FIFOs out in -/

/-- The Register Interface after the core soft reset has left the image `m`, and `DeviceInit` has followed (40 R122 to R125). -/
def RegIf.ready (c : Config) (m : RegIf) : RegIf :=
  { m.afterReset c.layout with
    coreRst := false, devRole := true, iep := m.iep.map (initIn c.layout), oep := m.oep.map (initOut c.layout), txfFlush := false,
    rxfFlush := false, rxq := [], rxInStep := true, txq := m.txq.map fun _ => [],
    intmsk := Source.listing.foldl (fun w x => putBit w (c.layout.bit x) (isBaseline x)) (m.intmsk &&& c.layout.sources) }

/-- `s` after a core soft reset that leaves the image `m` (40 R122, 10_state R50). -/
def afterCoreReset (m : RegIf) (s : State) : State :=
  resetCore { s with
    clockOn := true, ri := { m.afterReset s.cfg.layout with coreRst := false }, resetImages := s.resetImages.tail }

/-- `s` after `DeviceInit` has followed. -/
def readyState (m : RegIf) (s : State) : State := { afterCoreReset m s with ri := m.ready s.cfg }

/-- `CoreSoftReset` with the Register Interface still and AHB idle (40 R122). -/
theorem coreSoftReset_still {s : State} (hr : 1 ≤ s.cfg.retryCeiling) (hm : s.moves = []) (hi : s.ri.ahbIdle = true) :
    coreSoftReset s = (.ok, resetCore { s with
      ri := { (nextImage s).afterReset s.cfg.layout with coreRst := false }, resetImages := s.resetImages.tail,
      trace := [.read .coreRst, .write .coreRst 1, .read .ahbIdle] ++ s.trace }) := by
  have h1 := poll_idle_yes hr hm hi
  have h2 := poll_self (s := assertCoreReset { s with trace := .read .ahbIdle :: s.trace }) .coreRst hr
    (by rw [assertCoreReset, envPoint_still (by exact hm)]; exact hm)
  refine coreSoftReset_ok_iff.mpr ⟨_, _, h1, h2, ?_⟩
  rw [assertCoreReset, envPoint_still (by exact hm)]
  rfl

/-- `DeviceInit` with the Register Interface still, in the device role (40 R120, R123). -/
theorem deviceInit_ready {s : State} {m : RegIf} (hr : 1 ≤ s.cfg.retryCeiling) (hm : s.moves = []) (hz : m.Sized s.cfg.nEp)
    (l : List Access) : ∃ tr, deviceInit (regWrite .devRole 1 { afterCoreReset m s with trace := l }) =
      (.ok, { readyState m s with trace := tr ++ l }) := by
  rw [regWrite_still _ _ (by exact hm)]
  obtain ⟨tr, h⟩ := deviceInit_eq (s := putReg .devRole 1 { afterCoreReset m s with trace := l }) hr hm (Nat.le_of_eq hz.iep)
    (Nat.le_of_eq hz.oep)
  exact ⟨tr ++ [.write .devRole 1], by rw [h, List.append_assoc]; rfl⟩

namespace Stirred
variable {s u : State} (h : Stirred s u)
include h

theorem initEndpoint (i : Nat) : Stirred (initEndpointRegs s i) (initEndpointRegs u i) :=
  sim.clearOutFlags (sim.clearInFlags (sim.write (sim.write h _ _) _ _) i) i

/-- `FlushFifos` in both runs (40 R124). -/
theorem flushFifos {s' u' : State} (hr : 1 ≤ s.cfg.retryCeiling) (hs : flushFifos s = (.ok, s')) (hu : flushFifos u = (.ok, u')) :
    Stirred s' u' := by
  have hf := h.flushAlone
  obtain ⟨tr, e⟩ := flushFifos_eq hr h.still
  rw [hu] at hf
  rw [e] at hs
  cases hs
  exact hf.still_stir (r := { s.ri with
    txfFlush := false, rxfFlush := false, rxq := [], rxInStep := true, txq := s.ri.txq.map fun _ => [] })
    (.unseen (by simp [RegIf.plain, List.map_const']) rfl rfl) _

theorem setBaselineMask : Stirred (setBaselineMask s) (setBaselineMask u) :=
  Sim.foldl (Q := Stirred) (f := fun t x => regWrite (.intmskBit x) (isBaseline x).toNat t)
    (fun x k => sim.write k (.intmskBit x) (isBaseline x).toNat) Source.listing h

/-- `DeviceInit` in both runs (40 R123). -/
theorem deviceInit {s' u' : State} (hr : 1 ≤ s.cfg.retryCeiling) (hs : deviceInit s = (.ok, s')) (hu : deviceInit u = (.ok, u')) :
    Stirred s' u' := by
  obtain ⟨a, ha, rfl⟩ := deviceInit_ok_iff.mp hs
  obtain ⟨b, hb, rfl⟩ := deviceInit_ok_iff.mp hu
  have hi : Stirred ((List.range s.cfg.nEp).foldl initEndpointRegs s) ((List.range u.cfg.nEp).foldl initEndpointRegs u) := by
    rw [sim.cfgEq h]
    exact Sim.foldl (Q := Stirred) (f := initEndpointRegs) (fun i k => k.initEndpoint i) (List.range s.cfg.nEp) h
  have hc : ((List.range s.cfg.nEp).foldl initEndpointRegs s).cfg = s.cfg := by
    obtain ⟨tr, e⟩ := initEndpoints_eq (List.range s.cfg.nEp) s h.still
    rw [e]
  exact (hi.flushFifos (by rw [hc]; exact hr) ha hb).setBaselineMask

end Stirred

/-- The core reset leaves an image in either run, the same in the still one made for it (20_memory R80). -/
theorem assertCoreReset_stirred (s : State) : ∃ m : RegIf, m.Sized s.cfg.nEp ∧
    Stirred { s with ri := m.afterReset s.cfg.layout, moves := [], resetImages := s.resetImages.tail } (assertCoreReset s) :=
  ⟨nextImage (envPoint s), nextImage_sized (envPoint s), rfl, rfl, .refl _⟩

theorem Stirred.resetCore {s u : State} (h : Stirred s u) : Stirred (resetCore s) (resetCore u) := by
  obtain ⟨r, m, t, rfl⟩ := sim.form h
  exact sim.frame h rfl rfl rfl rfl rfl

/-- A core soft reset that succeeds, beside the still run with the same image. -/
theorem coreSoftReset_stirred {s u : State} (h : coreSoftReset (enablePrelude s) = (.ok, u)) :
    1 ≤ s.cfg.retryCeiling ∧ ∃ m : RegIf, m.Sized s.cfg.nEp ∧ Stirred (afterCoreReset m { s with moves := [] }) u := by
  obtain ⟨p, q, hp, hq, rfl⟩ := coreSoftReset_ok_iff.mp h
  obtain ⟨r, mv, tr, hform⟩ := pollIdle_prelude_form 1 s.cfg.retryCeiling s
  obtain rfl : p = { s with clockOn := true, ri := r, moves := mv, trace := tr } := (congrArg Prod.snd hp).symm.trans hform
  obtain ⟨m, hz, ha⟩ := assertCoreReset_stirred { s with clockOn := true, ri := r, moves := mv, trace := tr }
  have hpoll := ha.pollSelf (Field.unseen_coreRst 0) 0 (enablePrelude s).cfg.retryCeiling
  rw [hq] at hpoll
  exact ⟨one_le_of_pollUntil (congrArg Prod.fst hp), m, hz,
    (hpoll.still_stir (r := { m.afterReset s.cfg.layout with coreRst := false }) (.unseen rfl rfl rfl) s.trace).resetCore⟩

/-- `ENABLE` beside the still run that has the same image after the core soft reset, up to the layout of the FIFOs. -/
theorem enableFromDisabled_stirred {s t : State} (h : enableFromDisabled s = .next (.ok, t)) : ∃ m v w,
    m.Sized s.cfg.nEp ∧ Stirred (readyState m { s with moves := [] }) v ∧ initFifos v = .next (.ok, w) ∧ setCtrl .initialized w = t := by
  obtain ⟨u, v, w, h1, h2, h3, rfl⟩ := enableFromDisabled_ok_iff.mp h
  obtain ⟨hr, m, hz, hu⟩ := coreSoftReset_stirred h1
  obtain ⟨tr, hd⟩ := deviceInit_ready (s := { s with moves := [] }) (m := m) hr rfl hz s.trace
  have hv := (Stirred.sim.write hu .devRole 1).deviceInit hr hd h2
  exact ⟨m, v, w, hz, hv.still_stir (.refl _) s.trace, h3, rfl⟩

/-! ## The FIFO layout with the Register Interface still (30_encoding R106, 45 R274, R275) -/

/-- Transmit FIFO `i` is placed with its configured size, and its registers hold the same place. -/
def PlacedAt (i : Nat) (s : State) : Prop :=
  ∃ o, s.part.tx.getD i none = some ⟨o, s.cfg.txFifoWords.getD i 0⟩ ∧
    s.ri.txf.getD i ⟨0, 0⟩ = ⟨o, s.cfg.txFifoWords.getD i 0⟩

/-- What laying out the transmit FIFOs of `is` does: only their places and their registers change. -/
structure TxLaid (is : List Nat) (s t : State) : Prop where
  same : ∃ l x y, t = { s with ri := { s.ri with txf := x }, part := { s.part with tx := y }, trace := l ++ s.trace }
  txLen : t.part.tx.length = s.part.tx.length
  txfLen : t.ri.txf.length = s.ri.txf.length
  keeps : ∀ i, i < s.part.tx.length → i < s.ri.txf.length → PlacedAt i s → PlacedAt i t
  placed : ∀ i ∈ is, i < s.part.tx.length → i < s.ri.txf.length → PlacedAt i t

theorem TxLaid.refl (s : State) : TxLaid [] s s where
  same := ⟨[], _, _, rfl⟩
  txLen := rfl
  txfLen := rfl
  keeps _ _ _ h := h
  placed _ h := nomatch h

theorem TxLaid.trans {i : Nat} {is : List Nat} {s t u : State} (h : TxLaid [i] s t) (k : TxLaid is t u) : TxLaid (i :: is) s u where
  same := by
    obtain ⟨l, _, _, rfl⟩ := h.same
    obtain ⟨l', x, y, rfl⟩ := k.same
    exact ⟨l' ++ l, x, y, by simp only [List.append_assoc]⟩
  txLen := k.txLen.trans h.txLen
  txfLen := k.txfLen.trans h.txfLen
  keeps j h1 h2 hp := k.keeps j (h.txLen ▸ h1) (h.txfLen ▸ h2) (h.keeps j h1 h2 hp)
  placed j hj h1 h2 := by
    rcases List.mem_cons.mp hj with rfl | hj
    · exact k.keeps j (h.txLen ▸ h1) (h.txfLen ▸ h2) (h.placed j (List.mem_singleton.mpr rfl) h1 h2)
    · exact k.placed j hj (h.txLen ▸ h1) (h.txfLen ▸ h2)

/-- One transmit FIFO laid out: the place and its registers (45 R275). -/
theorem layoutTx_still {i n : Nat} {s t : State} (hm : s.moves = []) (h : layoutTx i n s = .next (.ok, t)) : t = { s with
    ri := { s.ri with txf := s.ri.txf.modify i fun _ => ⟨layoutOffset i s.part, n⟩ },
    part := { s.part with tx := s.part.tx.modify i fun _ => some ⟨layoutOffset i s.part, n⟩ },
    trace := [.write (.txfSize i) n, .write (.txfStart i) (layoutOffset i s.part)] ++ s.trace } := by
  unfold layoutTx at h
  split at h
  · split at h
    · split at h
      · rename_i hfit
        obtain ⟨-, h⟩ := clocked_eq_next h
        have hoff : inFifoRam s.cfg (layoutOffset i s.part) = layoutOffset i s.part := inFifoRam_eq (by omega)
        have hsize : inFifoRam s.cfg n = n := inFifoRam_eq (by omega)
        rw [regWrite_regWrite_still _ _ _ _ hm] at h
        cases h
        simp only [putReg, RegIf.write, logAccess, modify_twice, hoff, hsize]
        rfl
      · cases h
    · cases h
  · cases h

/-- The entry of a list that is changed. -/
theorem getD_modify_self {α : Type} {l : List α} {i : Nat} (f : α → α) (d : α) (h : i < l.length) :
    (l.modify i f).getD i d = f (l.getD i d) :=
  (getD_modify l i i f d).trans (if_pos ⟨rfl, h⟩)

theorem TxLaid.layoutTx {i : Nat} {s t : State} (hm : s.moves = [])
    (h : layoutTx i (s.cfg.txFifoWords.getD i 0) s = .next (.ok, t)) : TxLaid [i] s t := by
  obtain rfl := layoutTx_still hm h
  refine ⟨⟨_, _, _, rfl⟩, List.length_modify _ _ _, List.length_modify _ _ _, fun j h1 h2 hp => ?_, fun j hj h1 h2 => ?_⟩
  · by_cases hij : i = j
    · subst hij
      exact ⟨_, getD_modify_self _ _ h1, getD_modify_self _ _ h2⟩
    · simpa only [PlacedAt, getD_modify, hij, false_and, if_false] using hp
  · cases List.mem_singleton.mp hj
    exact ⟨_, getD_modify_self _ _ h1, getD_modify_self _ _ h2⟩

theorem TxLaid.layoutTxAll : ∀ (is : List Nat) {s t : State}, s.moves = [] → layoutTxAll is s = .next (.ok, t) → TxLaid is s t
  | [], s, _, _, h => by cases h; exact .refl s
  | i :: is, s, t, hm, h => by
    obtain ⟨⟨r, u⟩, hu, h⟩ := andThen_eq_next h
    split at h
    · rename_i hr
      cases hr
      have k := TxLaid.layoutTx hm hu
      have hm' : u.moves = [] := by
        obtain ⟨_, _, _, rfl⟩ := k.same
        exact hm
      exact k.trans (TxLaid.layoutTxAll is hm' h)
    · rename_i hr
      cases h
      exact absurd rfl hr

/-- What a successful `INIT_FIFOS` does (30_encoding R106). -/
structure FifosLaid (s t : State) : Prop where
  same : ∃ l x y, t = { s with
    ri := { s.ri with rxfSize := s.cfg.rxFifoWords, txf := x }, part := { rxSize := some s.cfg.rxFifoWords, tx := y },
    trace := l ++ s.trace }
  placed : ∀ i, i < s.cfg.nEp → s.part.tx.length = s.cfg.nEp → s.ri.txf.length = s.cfg.nEp → PlacedAt i t

theorem FifosLaid.of_initFifos {s t : State} (hm : s.moves = []) (h : initFifos s = .next (.ok, t)) : FifosLaid s t := by
  obtain ⟨⟨r, u⟩, hu, h⟩ := andThen_eq_next h
  unfold layoutRx at hu
  split at hu
  · rename_i hfit
    obtain ⟨-, hu⟩ := clocked_eq_next hu
    rw [regWrite_still _ _ hm] at hu
    cases hu
    have k := TxLaid.layoutTxAll _ (by exact hm) h
    refine ⟨?_, fun i hi h1 h2 => k.placed i (List.mem_range.mpr hi) (by simpa [h1] using hi) (by simpa [RegIf.write, h2] using hi)⟩
    obtain ⟨l, x, y, rfl⟩ := k.same
    refine ⟨l ++ [.write .rxfSize s.cfg.rxFifoWords], x, y, ?_⟩
    simp only [List.append_assoc, putReg, RegIf.write, inFifoRam_eq hfit]
    rfl
  · cases hu
    cases h

/-- A transmit FIFO next in order that fits is laid out (45 R275). -/
theorem layoutTx_fits {i n : Nat} {s : State} (hk : s.clockOn = true) (hi : i < s.cfg.nEp) (ho : nextInOrder i s.part = true)
    (hfit : layoutOffset i s.part + n ≤ s.cfg.fifoRamWords) : ∃ u, layoutTx i n s = .next (.ok, u) ∧ u.cfg = s.cfg ∧
      u.clockOn = true ∧ u.part = { s.part with tx := s.part.tx.modify i fun _ => some ⟨layoutOffset i s.part, n⟩ } := by
  rw [layoutTx, if_pos hi, if_pos ho, if_pos hfit, clocked_on hk]
  exact ⟨_, rfl, rfl, hk, rfl⟩

theorem modify_append_length {α : Type} (pre post : List α) (a : α) (f : α → α) :
    (pre ++ a :: post).modify pre.length f = pre ++ f a :: post := by
  have h : pre.length < (pre ++ a :: post).length := by simp
  rw [List.modify_eq_take_cons_drop h]
  simp

/-- The transmit FIFOs not yet placed are laid out in ascending order, behind those in `pre`, as long as all fit. -/
theorem layoutTxAll_fits : ∀ (m : Nat) {pre : List (Option TxPart)} {s : State}, s.clockOn = true → pre.length + m = s.cfg.nEp →
    s.part.rxSize.isSome = true → pre.all Option.isSome = true → s.part.tx = pre ++ List.replicate m none →
    s.part.rxSize.getD 0 + (pre.map partSize).sum +
      ((List.range' pre.length m).map fun i => s.cfg.txFifoWords.getD i 0).sum ≤ s.cfg.fifoRamWords →
    ∃ t, layoutTxAll (List.range' pre.length m) s = .next (.ok, t)
  | 0, _, s, _, _, _, _, _, _ => ⟨s, rfl⟩
  | m + 1, pre, s, hk, hn, hrx, hpre, htx, hfit => by
    rw [List.range'_succ] at hfit ⊢
    rw [List.map_cons, List.sum_cons] at hfit
    generalize hsz : s.cfg.txFifoWords.getD pre.length 0 = n at hfit
    have hoff : layoutOffset pre.length s.part = s.part.rxSize.getD 0 + (pre.map partSize).sum := by
      rw [layoutOffset, htx, List.take_left]
    have hord : nextInOrder pre.length s.part = true := by
      rw [nextInOrder, htx, List.take_left, List.drop_left, hrx, hpre]
      simp
    obtain ⟨u, hu, hcfg, hku, hpart⟩ := layoutTx_fits (n := n) hk (by omega) hord (by omega)
    rw [htx, List.replicate_succ, modify_append_length, List.append_cons] at hpart
    have hlen (x : Option TxPart) : (pre ++ [x]).length = pre.length + 1 := List.length_append
    have hsum (x : Option TxPart) : ((pre ++ [x]).map partSize).sum = (pre.map partSize).sum + partSize x := by simp
    have hsize (o : Nat) : partSize (some ⟨o, n⟩) = n := rfl
    obtain ⟨t, ht⟩ := layoutTxAll_fits m (pre := pre ++ [some ⟨layoutOffset pre.length s.part, n⟩]) hku
      (by rw [hlen, hcfg]; omega) (by rw [hpart]; exact hrx) (by simp [hpre]) (by rw [hpart])
      (by rw [hlen, hsum, hsize, hcfg, hpart]; dsimp only; omega)
    rw [hlen] at ht
    exact ⟨t, by rw [layoutTxAll, hsz, hu]; exact ht⟩

/-- A partition that fits is laid out (30_encoding R106). -/
theorem initFifos_fits {s : State} (hk : s.clockOn = true) (hp : s.part.tx.length = s.cfg.nEp)
    (hfit : s.cfg.rxFifoWords + ((List.range s.cfg.nEp).map fun i => s.cfg.txFifoWords.getD i 0).sum ≤ s.cfg.fifoRamWords) :
    ∃ t, initFifos s = .next (.ok, t) := by
  have hrx : layoutRx s.cfg.rxFifoWords s = .next (.ok, beginLayout s.cfg.rxFifoWords (regWrite .rxfSize s.cfg.rxFifoWords s)) := by
    rw [layoutRx, if_pos (by omega), clocked_on hk]
  rw [List.range_eq_range'] at hfit
  obtain ⟨t, ht⟩ := layoutTxAll_fits s.cfg.nEp (pre := []) (s := beginLayout s.cfg.rxFifoWords (regWrite .rxfSize s.cfg.rxFifoWords s))
    hk (by simp) rfl rfl (by simp [List.map_const', hp]) (by simpa using hfit)
  exact ⟨t, by rw [initFifos, hrx]; simpa [List.range_eq_range'] using ht⟩

/-! ## The FIFO layout in both runs -/

/-- What completes in the second run completes in the first, alike. -/
theorem Both.of_right {α : Type} {R : α → α → Prop} {x y : M α} {b : α} (h : Both R x y) (hy : y = .next b) :
    ∃ a, x = .next a ∧ R a b := by
  subst hy
  cases x with
  | next a => exact ⟨a, rfl, h⟩
  | fault e => exact h.elim
  | refused e => exact h.elim

namespace Sim
variable {Q : State → State → Prop} (hQ : Sim Q)
include hQ

theorem layoutRx (n : Nat) {s u : State} (h : Q s u) : Both (Pair Q) (layoutRx n s) (layoutRx n u) := by
  obtain ⟨r, m, t, rfl⟩ := hQ.form h
  exact .ite Iff.rfl (.clocked rfl ⟨rfl, hQ.beginLayout (hQ.write h _ _) n⟩) ⟨rfl, h⟩

theorem layoutTx (i n : Nat) {s u : State} (h : Q s u) : Both (Pair Q) (layoutTx i n s) (layoutTx i n u) := by
  obtain ⟨r, m, t, rfl⟩ := hQ.form h
  exact .ite Iff.rfl (.ite Iff.rfl (.ite Iff.rfl (.clocked rfl
    ⟨rfl, hQ.placeTx (hQ.write (hQ.write h _ _) _ _) i _⟩) ⟨rfl, h⟩) rfl) ⟨rfl, h⟩

theorem layoutTxAll : ∀ (is : List Nat) {s u : State}, Q s u → Both (Pair Q) (layoutTxAll is s) (layoutTxAll is u)
  | [], _, _, h => ⟨rfl, h⟩
  | i :: is, s, u, h => by
    simp only [Machine.layoutTxAll, hQ.cfgEq h]
    exact (hQ.layoutTx i _ h).andThen fun p q k => .ite (by rw [k.1]) (layoutTxAll is k.2) k

theorem initFifos {s u : State} (h : Q s u) : Both (Pair Q) (initFifos s) (initFifos u) := by
  simp only [Machine.initFifos, hQ.cfgEq h]
  refine (hQ.layoutRx _ h).andThen fun p q k => .ite (by rw [k.1]) ?_ k
  rw [hQ.cfgEq k.2]
  exact hQ.layoutTxAll _ k.2

end Sim

/-! ## What is ready -/

/-- The control fields and the condition flags of an IN endpoint are 0. -/
structure InRegs.Cleared (l : Layout) (x : InRegs) : Prop where
  act : x.act = false
  eptyp : x.eptyp = 0
  stall : x.stall = false
  dpid : x.dpid = false
  ena : x.ena = false
  nak : x.nak = false
  mps : x.mps = 0
  txfnum : x.txfnum = 0
  int : ∀ c, testBit x.int (l.inBit c) = false

/-- The control fields and the condition flags of an OUT endpoint are 0. -/
structure OutRegs.Cleared (l : Layout) (x : OutRegs) : Prop where
  act : x.act = false
  eptyp : x.eptyp = 0
  stall : x.stall = false
  dpid : x.dpid = false
  ena : x.ena = false
  nak : x.nak = false
  mps : x.mps = 0
  int : ∀ c, testBit x.int (l.outBit c) = false

theorem testBit_zero (n : Nat) : testBit 0 n = false := BitVec.getLsbD_zero

/-- A bit cleared among others is 0. -/
theorem testBit_foldl_clear {α : Type} (bit : α → Nat) {cs : List α} {c : α} (w : Word) (hlt : ∀ x ∈ cs, bit x < 32) (hc : c ∈ cs) :
    testBit (cs.foldl (fun w x => putBit w (bit x) false) w) (bit c) = false := by
  rw [testBit_foldl bit (fun _ => false) cs w (bit c) hlt]
  cases h : cs.reverse.find? (fun x => bit c == bit x) with
  | some x => rfl
  | none => exact absurd (beq_self_eq_true (bit c)) (List.find?_eq_none.mp h c (List.mem_reverse.mpr hc))

theorem initIn_cleared {l : Layout} (hl : l.Apart) (x : InRegs) : (initIn l x).Cleared l where
  act := rfl
  eptyp := rfl
  stall := rfl
  dpid := rfl
  ena := rfl
  nak := rfl
  mps := rfl
  txfnum := rfl
  int c := by
    have hi : (initIn l x).int = InCond.order.foldl (fun w d => putBit w (l.inBit d) false) x.int := rfl
    rw [hi]
    exact testBit_foldl_clear l.inBit x.int (fun d _ => hl.inLt d) (by cases c <;> decide)

theorem initOut_cleared {l : Layout} (hl : l.Apart) (x : OutRegs) : (initOut l x).Cleared l where
  act := rfl
  eptyp := rfl
  stall := rfl
  dpid := rfl
  ena := rfl
  nak := rfl
  mps := rfl
  int c := by
    have ho : (initOut l x).int = OutCond.order.foldl (fun w d => putBit w (l.outBit d) false) x.int := rfl
    rw [ho]
    exact testBit_foldl_clear l.outBit x.int (fun d _ => hl.outLt d) (by cases c <;> decide)

theorem ready_iepAt {c : Config} (hl : c.layout.Apart) (m : RegIf) (i : Nat) : ((m.ready c).iepAt i).Cleared c.layout := by
  rw [RegIf.iepAt, List.getD_eq_getElem?_getD]
  simp only [RegIf.ready, List.getElem?_map]
  cases m.iep[i]? with
  | some x => exact initIn_cleared hl x
  | none => exact ⟨rfl, rfl, rfl, rfl, rfl, rfl, rfl, rfl, fun _ => testBit_zero _⟩

theorem ready_oepAt {c : Config} (hl : c.layout.Apart) (m : RegIf) (i : Nat) : ((m.ready c).oepAt i).Cleared c.layout := by
  rw [RegIf.oepAt, List.getD_eq_getElem?_getD]
  simp only [RegIf.ready, List.getElem?_map]
  cases m.oep[i]? with
  | some x => exact initOut_cleared hl x
  | none => exact ⟨rfl, rfl, rfl, rfl, rfl, rfl, rfl, fun _ => testBit_zero _⟩

theorem Layout.find_bit_eq_none {l : Layout} {m : Nat} (h : ∀ x, m ≠ l.bit x) :
    Source.listing.reverse.find? (fun x => m == l.bit x) = none :=
  List.find?_eq_none.mpr fun x _ => by simp [h x]

/-- Every transmit queue is empty, one that does not exist too (40 R124). -/
theorem ready_txq (c : Config) (m : RegIf) (i : Nat) : (m.ready c).txq.getD i [] = [] := by
  rw [List.getD_eq_getElem?_getD]
  simp only [RegIf.ready, List.getElem?_map]
  cases m.txq[i]? with
  | some q => rfl
  | none => rfl

/-- A bit of no source is none of the fourteen (30_encoding R96). -/
theorem testBit_sources {l : Layout} (hl : l.Apart) {m : Nat} (h : ∀ x, m ≠ l.bit x) : testBit l.sources m = false := by
  have hs : l.sources = Source.listing.foldl (fun w x => putBit w (l.bit x) true) 0 := rfl
  rw [hs, testBit_foldl l.bit (fun _ => true) _ _ _ fun x _ => hl.bitLt x, Layout.find_bit_eq_none h]
  exact testBit_zero m

/-- The sources of the baseline unmask set (40 R125). -/
def baselineSources : List Source := [.rxflvl, .susp, .usbrst, .enumdne, .iepint, .oepint, .iisoixfr, .iisooxfr, .wkup]

/-- The mask after `SetBaselineMask`, every bit (40 R125, 41 R172). -/
theorem ready_intmsk {c : Config} (hl : c.layout.Apart) (r : RegIf) (m : Nat) :
    testBit (r.ready c).intmsk m = baselineSources.any fun x => c.layout.bit x == m := by
  by_cases hm : ∃ x, m = c.layout.bit x
  · obtain ⟨x, rfl⟩ := hm
    have he : (fun y => c.layout.bit y == c.layout.bit x) = fun y => y == x := by
      funext y
      by_cases e : y = x
      · simp [e]
      · rw [beq_false_of_ne e, beq_false_of_ne fun h => e (hl.bit_inj h)]
    rw [he]
    exact (baseline_bit hl _ x).trans (by cases x <;> rfl)
  · have hm' : ∀ x, m ≠ c.layout.bit x := fun x e => hm ⟨x, e⟩
    have hmask : testBit (r.ready c).intmsk m = testBit (r.intmsk &&& c.layout.sources) m := by
      simp only [RegIf.ready]
      rw [testBit_foldl c.layout.bit isBaseline _ _ _ fun x _ => hl.bitLt x, Layout.find_bit_eq_none hm']
    have hany : (baselineSources.any fun x => c.layout.bit x == m) = false :=
      List.any_eq_false.mpr fun x _ => by simpa using fun e => hm' x e.symm
    rw [hmask, hany, testBit, BitVec.getLsbD_and]
    exact Bool.and_eq_false_imp.mpr fun _ => testBit_sources hl hm'

/-! ## What the run with moves shares with the still one -/

/-- What is seen of an IN endpoint is a plain field (20_memory R77 E3). -/
theorem RegIf.plain_iepAt (r : RegIf) (i : Nat) : r.plain.iepAt i = (r.iepAt i).seen i := by
  rw [RegIf.iepAt, RegIf.plain, List.getD_eq_getElem?_getD, masked_getElem?, RegIf.iepAt, List.getD_eq_getElem?_getD]
  cases r.iep[i]? with
  | some x => rfl
  | none => cases i <;> rfl

/-- What is seen of an OUT endpoint is a plain field. -/
theorem RegIf.plain_oepAt (r : RegIf) (i : Nat) : r.plain.oepAt i = (r.oepAt i).seen i := by
  rw [RegIf.oepAt, RegIf.plain, List.getD_eq_getElem?_getD, masked_getElem?, RegIf.oepAt, List.getD_eq_getElem?_getD]
  cases r.oep[i]? with
  | some x => rfl
  | none => cases i <;> rfl

namespace RegIf.Stirred
variable {r r' : RegIf} (h : r.Stirred r')
include h

/-- An IN endpoint cleared in the still run is inactive and not stalled in the other. -/
theorem iepAt {l : Layout} {i : Nat} (hc : (r.iepAt i).Cleared l) : (r'.iepAt i).act = false ∧ (r'.iepAt i).eptyp = 0 ∧
    (r'.iepAt i).stall = false ∧ (r'.iepAt i).mps = 0 ∧ (r'.iepAt i).txfnum = 0 := by
  have hs : (r'.iepAt i).seen i = (r.iepAt i).seen i := by rw [← RegIf.plain_iepAt, h.plain, RegIf.plain_iepAt]
  have seen (x : InRegs) : (x.seen i).act = x.act ∧ (x.seen i).eptyp = x.eptyp ∧ (x.seen i).mps = x.mps ∧ (x.seen i).txfnum = x.txfnum := by
    cases i <;> exact ⟨rfl, rfl, rfl, rfl⟩
  obtain ⟨a, e, p, t⟩ := seen (r'.iepAt i)
  obtain ⟨a', e', p', t'⟩ := seen (r.iepAt i)
  rw [hs] at a e p t
  refine ⟨by rw [← a, a', hc.act], by rw [← e, e', hc.eptyp], ?_, by rw [← p, p', hc.mps], by rw [← t, t', hc.txfnum]⟩
  exact Bool.eq_false_iff.mpr fun k => Bool.eq_false_iff.mp hc.stall (h.stallIn i k)

/-- The same of an OUT endpoint. -/
theorem oepAt {l : Layout} {i : Nat} (hc : (r.oepAt i).Cleared l) : (r'.oepAt i).act = false ∧ (r'.oepAt i).eptyp = 0 ∧
    (r'.oepAt i).stall = false ∧ (r'.oepAt i).mps = 0 := by
  have hs : (r'.oepAt i).seen i = (r.oepAt i).seen i := by rw [← RegIf.plain_oepAt, h.plain, RegIf.plain_oepAt]
  have seen (x : OutRegs) : (x.seen i).act = x.act ∧ (x.seen i).eptyp = x.eptyp ∧ (x.seen i).mps = x.mps := by
    cases i <;> exact ⟨rfl, rfl, rfl⟩
  obtain ⟨a, e, p⟩ := seen (r'.oepAt i)
  obtain ⟨a', e', p'⟩ := seen (r.oepAt i)
  rw [hs] at a e p
  refine ⟨by rw [← a, a', hc.act], by rw [← e, e', hc.eptyp], ?_, by rw [← p, p', hc.mps]⟩
  exact Bool.eq_false_iff.mpr fun k => Bool.eq_false_iff.mp hc.stall (h.stallOut i k)

end RegIf.Stirred

/-! ## `ENABLE full` from `Disabled` -/

@[simp] theorem readyState_clockOn (m : RegIf) (s : State) : (readyState m s).clockOn = true := rfl

@[simp] theorem readyState_tx_length (m : RegIf) (s : State) : (readyState m s).part.tx.length = s.part.tx.length :=
  List.length_map _

theorem readyState_partOk (m : RegIf) (s : State) : PartOk (readyState m s) := .of_same rfl rfl (resetCore_partOk s)

/-- Every transmit FIFO after `INIT_FIFOS` begins where those before it end (45 R275). -/
theorem FifosLaid.contiguous {v w : State} (k : FifosLaid v w) (hw : initFifos v = .next (.ok, w)) (hp : PartOk v) {i : Nat}
    (hi : i < v.cfg.nEp) (h1 : v.part.tx.length = v.cfg.nEp) (h2 : v.ri.txf.length = v.cfg.nEp) :
    w.part.tx.getD i none = some ⟨layoutOffset i w.part, v.cfg.txFifoWords.getD i 0⟩ ∧
      w.ri.txf.getD i ⟨0, 0⟩ = ⟨layoutOffset i w.part, v.cfg.txFifoWords.getD i 0⟩ := by
  have hl := LaidOut.initFifos hw
  obtain ⟨o, htx, htxf⟩ := k.placed i hi h1 h2
  obtain ⟨-, hc⟩ := hl.part hp
  cases hc i _ htx
  rw [← hl.cfg]
  exact ⟨htx, htxf⟩

/-- With no image listed a core soft reset leaves the reference environment's (20_memory R80). -/
theorem nextImage_reference {s : State} (h : s.resetImages = []) : nextImage s = RegIf.referenceImage s.cfg.nEp s.ri := by
  simp only [nextImage, h]

/-- `ENABLE` up to the end of a core soft reset, with the Register Interface still and AHB idle (40 R120, R122). -/
theorem coreSoftReset_prelude_still {s : State} (hr : 1 ≤ s.cfg.retryCeiling) (hm : s.moves = []) (hi : s.ri.ahbIdle = true) :
    ∃ (m : RegIf) (l : List Access), m.Sized s.cfg.nEp ∧ (s.resetImages = [] → m.phyFs = true) ∧
      coreSoftReset (enablePrelude s) = (.ok, { afterCoreReset m s with trace := l ++ s.trace }) := by
  have hp := enablePrelude_eq hm
  refine ⟨nextImage (enablePrelude s), [.read .coreRst, .write .coreRst 1, .read .ahbIdle, .write .phyFs 1, .write .gintEn 0],
    nextImage_sized (enablePrelude s), fun h => ?_, ?_⟩
  · rw [nextImage_reference (s := enablePrelude s) h, hp]
    rfl
  · rw [coreSoftReset_still (s := enablePrelude s) hr (by rw [hp]; exact hm) (by rw [hp]; exact hi)]
    generalize nextImage (enablePrelude s) = m
    rw [hp]
    rfl

/-- With the Register Interface still, AHB idle and a partition that fits, every part of `ENABLE` succeeds (40 R120). -/
theorem enableFromDisabled_still {s : State} (hs : Shaped s) (hm : s.moves = []) (hi : s.ri.ahbIdle = true)
    (hr : 1 ≤ s.cfg.retryCeiling)
    (hfit : s.cfg.rxFifoWords + ((List.range s.cfg.nEp).map fun i => s.cfg.txFifoWords.getD i 0).sum ≤ s.cfg.fifoRamWords) :
    ∃ m l w, m.Sized s.cfg.nEp ∧ (s.resetImages = [] → m.phyFs = true) ∧
      initFifos { readyState m s with trace := l ++ s.trace } = .next (.ok, w) ∧
      enableFromDisabled s = .next (.ok, setCtrl .initialized w) := by
  obtain ⟨m, l, hz, hphy, hreset⟩ := coreSoftReset_prelude_still hr hm hi
  obtain ⟨tr, hd⟩ := deviceInit_ready hr hm hz (l ++ s.trace)
  rw [← List.append_assoc] at hd
  obtain ⟨w, hw⟩ := initFifos_fits (s := { readyState m s with trace := tr ++ l ++ s.trace }) (readyState_clockOn m s)
    ((readyState_tx_length m s).trans hs.part) hfit
  exact ⟨m, tr ++ l, w, hz, hphy, hw, enableFromDisabled_ok_iff.mpr ⟨_, _, w, hreset, hd, hw, rfl⟩⟩

/-- A core soft reset and what follows keep one entry per endpoint in every list. -/
theorem Reinit.shaped {s t : State} (h : Reinit s t) : Shaped s → Shaped t :=
  .of_lengths h.cfg (by rcases h.ep with he | he <;> simp [he]) h.len h.sized

end Sys2Proof.Machine

open Sys2Proof Sys2Proof.Machine

/-- Settles O8: the speed is tested first and the lifecycle state second, both before any access. -/
theorem enableRejectsLowSpeedAndIsIdempotent : Obligations.EnableRejectsLowSpeedAndIsIdempotent :=
  fun _ => ⟨rfl, fun hc => congrArg finish (if_neg hc)⟩

/-- Settles O10: with the bus never idle every one of the reads allowed is made, and the time-out is answered as it stands. -/
theorem enableTimesOutWhenBusIsNeverIdle : Obligations.EnableTimesOutWhenBusIsNeverIdle := by
  intro s hc hm hi
  have hp := poll_idle_no s.cfg.retryCeiling (enablePrelude s) (by rw [enablePrelude_eq hm]; exact hm)
    (by rw [enablePrelude_eq hm]; exact hi)
  rw [exec_enable_disabled hc, enableFromDisabled_timeout hp, finish_next, enablePrelude_eq hm, List.append_assoc]
  rfl

/-- Settles O11: each tests the lifecycle state and then the clock, and its two writes and the new state are all it does. -/
theorem startAndDetach : Obligations.StartAndDetach := by
  refine ⟨fun s hc hk hm => ?_, fun s hc hk hm => ?_, fun s => ⟨fun hc => if_neg hc, fun hc => if_neg hc, fun hc hk => ?_, fun hc hk => ?_⟩⟩
  · calc exec .start s = clocked s _ := if_pos hc
      _ = .next (answer .ok (setCtrl .started (putReg .connect 1 (putReg .gintEn 1 s)))) := by
        rw [clocked_on hk, regWrite_regWrite_still _ _ _ _ hm]
  · calc exec .detach s = clocked s _ := if_pos hc
      _ = .next (answer .ok (setCtrl .initialized (putReg .gintEn 0 (putReg .connect 0 s)))) := by
        rw [clocked_on hk, regWrite_regWrite_still _ _ _ _ hm]
  · exact (if_pos hc).trans (clocked_off hk _)
  · exact (if_pos hc).trans (clocked_off hk _)

/-- Settles O12: the address is staged whatever the timing; what is written has the width of the field already. -/
theorem setAddressStages : Obligations.SetAddressStages := by
  refine fun s a => ⟨fun ht => ?_, fun ht hk hm => ?_, fun ht hk => ?_⟩
  · simp only [exec, execSetAddress, ht]
    rfl
  · have hw : writeDevAddr (stageAddr a s) = putReg .addr (a.toNat % 2 ^ s.cfg.addrWidth) (stageAddr a s) := regWrite_still _ _ hm
    simp only [exec, execSetAddress, ht, clocked_on hk, hw, putReg, RegIf.write, stageAddr_cfg, Nat.mod_mod]
    rfl
  · simp only [exec, execSetAddress, ht, clocked_off hk]

/-- Settles O52: what would touch a register asks for the clock and is refused; the rest touches none. -/
theorem noRegisterAccessWithClockOff : Obligations.NoRegisterAccessWithClockOff := fun _ _ t hk hi h => exec_noAccess hk hi t h

/-- Settles O9: with the Register Interface still every part succeeds and what it leaves is written out; a run with moves is held beside
the still run that has the same image after the core soft reset (`Stirred`), and shares every plain field with it. -/
theorem enableInitializes : Obligations.EnableInitializes := by
  refine ⟨fun s hc hs hm hi hr hwf hfit => ?_, fun s t hc hwf h hok => ?_⟩
  · obtain ⟨m, l, w, hz, hphy, hw, he⟩ := enableFromDisabled_still hs hm hi hr hfit
    have k := FifosLaid.of_initFifos (by exact hm) hw
    have hl := Layout.apart_of_wf hwf
    have hshape : Shaped (answer .ok (setCtrl .initialized w)) :=
      .of_lengths (s := setCtrl .initialized w) rfl rfl rfl id ((enableFromDisabled_reinit hc he).shaped hs)
    have hplace (i : Nat) (hi : i < s.cfg.nEp) := k.contiguous hw (readyState_partOk m s) (i := i) hi
      ((readyState_tx_length m s).trans hs.part) hz.txf
    obtain ⟨l', x, y, rfl⟩ := k.same
    refine ⟨_, l' ++ l, by rw [exec_enable_disabled hc, he]; rfl, ?_, hshape, rfl, rfl, hphy, ready_intmsk hl m, rfl, rfl,
      fun i hi => ?_⟩
    · simp only [List.append_assoc]
      rfl
    · obtain ⟨htx, htxf⟩ := hplace i hi
      have ki := ready_iepAt hl m i
      have ko := ready_oepAt hl m i
      exact ⟨htx, htxf, ready_txq s.cfg m i, ki.act, ki.eptyp, ki.stall, ki.dpid, ki.ena, ki.nak, ki.mps, ki.txfnum,
        ko.act, ko.eptyp, ko.stall, ko.dpid, ko.ena, ko.nak, ko.mps, ki.int, ko.int⟩
  · rw [exec_enable_disabled hc] at h
    obtain ⟨⟨r, u⟩, he, rfl⟩ := finish_eq_next h
    obtain rfl : r = .ok := Option.some.inj hok
    obtain ⟨m, v, w, hz, hv, hw, rfl⟩ := enableFromDisabled_stirred he
    obtain ⟨⟨r, w0⟩, hw0, hr, hst⟩ := (Stirred.sim.initFifos hv).of_right hw
    obtain rfl : r = .ok := hr
    have k := FifosLaid.of_initFifos rfl hw0
    have hl := Layout.apart_of_wf hwf
    have hplace (i : Nat) (hi : i < s.cfg.nEp) (hlen : s.part.tx.length = s.cfg.nEp) :=
      k.contiguous hw0 (readyState_partOk m _) (i := i) hi ((readyState_tx_length m _).trans hlen) hz.txf
    obtain ⟨l', x, y, rfl⟩ := k.same
    have hplain := hst.ri.plain
    obtain ⟨ri, mv, tr, rfl, -⟩ := hst.elim
    refine ⟨rfl, rfl, congrArg RegIf.gintEn hplain, congrArg RegIf.devRole hplain, fun n => ?_, rfl, rfl, congrArg RegIf.rxfSize hplain,
      fun i hi => ⟨fun hlen => (hplace i hi hlen).1, ?_⟩⟩
    · exact (congrArg (fun p : RegIf => testBit p.intmsk n) hplain).trans (ready_intmsk hl m n)
    · obtain ⟨a, e, st, mp, tn⟩ := hst.ri.iepAt (ready_iepAt hl m i)
      obtain ⟨a', e', st', mp'⟩ := hst.ri.oepAt (ready_oepAt hl m i)
      exact ⟨a, e, st, mp, tn, a', e', st', mp'⟩

end

section
/-! PROOFS. The statements about the Endpoint Manager (spec 42_endpoint_manager): buffers, activation, disabling and STALL. -/

namespace Sys2Proof.Machine

/-! ## Buffers (42 R190 to R193) -/

/-- A number of 8 to 2^16 is a power of two if it is one of thirteen: the exponents left are 3 to 15. -/
theorem isPow2_iff_mem_lengths {n : Nat} (h8 : 8 ≤ n) (hn : n < 2 ^ 16) :
    isPow2 n = true ↔ n ∈ [8, 16, 32, 64, 128, 256, 512, 1024, 2048, 4096, 8192, 16384, 32768] := by
  constructor
  · intro h
    obtain ⟨h0, hand⟩ : n ≠ 0 ∧ n &&& (n - 1) = 0 := by simpa [isPow2] using h
    obtain ⟨k, rfl⟩ := (Nat.and_sub_one_eq_zero_iff_isPowerOfTwo h0).mp hand
    have hk : k < 16 := (Nat.pow_lt_pow_iff_right (by decide)).mp hn
    have h3 : 3 ≤ k := (Nat.pow_le_pow_iff_right (a := 2) (by decide)).mp h8
    exact (by decide : ∀ k < 16, 3 ≤ k →
      2 ^ k ∈ [8, 16, 32, 64, 128, 256, 512, 1024, 2048, 4096, 8192, 16384, 32768]) k hk h3
  · exact (by decide : ∀ m ∈ [8, 16, 32, 64, 128, 256, 512, 1024, 2048, 4096, 8192, 16384, 32768], isPow2 m = true) n

/-- The sub-states in which no IN transfer borrows the buffer (42 R191). -/
theorem Sub.inIdle_of {x : Sub}
    (h : x = .disabled ∨ x = .control .init ∨ (∃ bout, x = .bulk .init bout) ∨ ∃ m, x = .interrupt .init m) : x.inIdle = true := by
  rcases h with rfl | rfl | ⟨_, rfl⟩ | ⟨_, rfl⟩ <;> rfl

/-- The sub-states in which an IN transfer borrows the buffer (42 R191). -/
theorem Sub.inIdle_eq_false_of {x : Sub}
    (h : (∃ c, c ≠ .init ∧ x = .control c) ∨ (∃ n bout, x = .bulk (.busy n) bout) ∨ ∃ n m, x = .interrupt (.busy n) m) :
    x.inIdle = false := by
  rcases h with ⟨c, hc, rfl⟩ | ⟨_, _, rfl⟩ | ⟨_, _, rfl⟩
  · cases c with
    | init => exact absurd rfl hc
    | _ => rfl
  · rfl
  · rfl

/-- The sub-states in which no OUT transfer borrows the buffer (42 R192). -/
theorem Sub.outIdle_of {x : Sub}
    (h : x = .disabled ∨ x = .control .init ∨ (∃ bin, x = .bulk bin .init) ∨ ∃ y m, x = .interrupt y m) : x.outIdle = true := by
  rcases h with rfl | rfl | ⟨_, rfl⟩ | ⟨_, _, rfl⟩ <;> rfl

/-- The sub-states in which an OUT transfer borrows the buffer (42 R192). -/
theorem Sub.outIdle_eq_false_of {x : Sub}
    (h : (∃ c, c ≠ .init ∧ x = .control c) ∨ (∃ bin, x = .bulk bin .outDelay) ∨ ∃ bin n, x = .bulk bin (.outData n)) :
    x.outIdle = false := by
  rcases h with ⟨c, hc, rfl⟩ | ⟨_, rfl⟩ | ⟨_, _, rfl⟩
  · cases c with
    | init => exact absurd rfl hc
    | _ => rfl
  · rfl
  · rfl

/-- Two changes of `ep[i]` agree where they agree on the endpoint. -/
theorem modifyEp_congr {i : Nat} {f g : Endpoint → Endpoint} {s : State} (h : f (s.epAt i) = g (s.epAt i)) :
    modifyEp i f s = modifyEp i g s :=
  congrArg (fun l => { s with ep := l }) (epAt_congr h)

/-- Two changes of `ep[i]` are one. -/
theorem modifyEp_twice (i : Nat) (f g : Endpoint → Endpoint) (s : State) :
    modifyEp i g (modifyEp i f s) = modifyEp i (fun e => g (f e)) s :=
  congrArg (fun l => { s with ep := l }) (modify_twice s.ep i f g)

/-- `ASSIGN_IN_BUF` stores the buffer and the `mps` that follows it in one change of the descriptor (42 R191). -/
theorem setSub_withMps_setInBuf (i : Nat) (b : Buf) (s : State) :
    setSub i ((s.epAt i).sub.withMps b.len) (setInBuf i b s) =
      modifyEp i (fun e => { e with inBuf := some b, sub := e.sub.withMps b.len }) s := by
  rw [setSub, setInBuf, modifyEp_twice]
  exact modifyEp_congr rfl

theorem assignInBuf_rejected {i : Nat} {b : Buf} {s : State} (h : s.cfg.nEp ≤ i ∨ b.valid = false) :
    assignInBuf i b s = .next (.configurationError, s) := by
  rcases h with hi | hv
  · exact if_neg (Nat.not_lt.mpr hi)
  · simp [assignInBuf, hv]

theorem assignOutBuf_rejected {i : Nat} {b : Buf} {s : State} (h : s.cfg.nEp ≤ i ∨ b.valid = false) :
    assignOutBuf i b s = .next (.configurationError, s) := by
  rcases h with hi | hv
  · exact if_neg (Nat.not_lt.mpr hi)
  · simp [assignOutBuf, hv]

/-! ## Activation (42 R194 to R196) -/

/-- Both buffers of an endpoint that has two valid ones. -/
theorem buffersOf_eq_some {e : Endpoint} {b1 b2 : Buf} (h1 : e.inBuf = some b1) (h2 : e.outBuf = some b2) (v1 : b1.valid = true)
    (v2 : b2.valid = true) : buffersOf e = some (b1, b2) := by
  simp [buffersOf, h1, h2, v1, v2]

theorem Sub.admits_of {x : Sub} {t : TType} (h : x = .disabled ∨ x.tag = some t) : x.admits t = true := by
  rcases h with rfl | h
  · rfl
  · simp [Sub.admits, h]

theorem Sub.admits_eq_false_of {x : Sub} {t : TType} (h : ∃ u, u ≠ t ∧ x.tag = some u) : x.admits t = false := by
  obtain ⟨u, hu, h⟩ := h
  simp [Sub.admits, h, hu]

section
variable {s : State} {i : Nat} {t : TType} {b1 b2 : Buf}

/-! The first tests: index, Isochronous, buffers, `ctrl_state` (60 R310). -/

theorem activateIn_noSuchIndex (hi : s.cfg.nEp ≤ i) : activateIn t i s = .next (.configurationError, s) := if_neg (Nat.not_lt.mpr hi)

theorem activateOut_noSuchIndex (hi : s.cfg.nEp ≤ i) : activateOut t i s = .next (.configurationError, s) := if_neg (Nat.not_lt.mpr hi)

theorem activateIn_isochronous (hi : i < s.cfg.nEp) : activateIn .isochronous i s = .next (.unsupportedFeature, s) := if_pos hi

theorem activateOut_isochronous (hi : i < s.cfg.nEp) : activateOut .isochronous i s = .next (.unsupportedFeature, s) := if_pos hi

theorem activateIn_noBuffers (hi : i < s.cfg.nEp) (ht : t ≠ .isochronous) (hb : buffersOf (s.epAt i) = none) :
    activateIn t i s = .next (.configurationError, s) := by
  simp only [activateIn, hi, ht, hb, if_true, if_false]

theorem activateOut_noBuffers (hi : i < s.cfg.nEp) (ht : t ≠ .isochronous) (hb : buffersOf (s.epAt i) = none) :
    activateOut t i s = .next (.configurationError, s) := by
  simp only [activateOut, hi, ht, hb, if_true, if_false]

theorem activateIn_beforeEnable (hi : i < s.cfg.nEp) (ht : t ≠ .isochronous) (hb : buffersOf (s.epAt i) = some (b1, b2))
    (hc : s.ctrl = .disabled) : activateIn t i s = .refused .activateWhileDisabled := by
  simp only [activateIn, hi, ht, hb, hc, if_true, if_false]

theorem activateOut_beforeEnable (hi : i < s.cfg.nEp) (ht : t ≠ .isochronous) (hb : buffersOf (s.epAt i) = some (b1, b2))
    (hc : s.ctrl = .disabled) : activateOut t i s = .refused .activateWhileDisabled := by
  simp only [activateOut, hi, ht, hb, hc, if_true, if_false]

/-! What is left once they are passed, on endpoint 0 and above it. -/

theorem activateIn_zero (hi : 0 < s.cfg.nEp) (ht : t ≠ .isochronous) (hb : buffersOf (s.epAt 0) = some (b1, b2))
    (hc : s.ctrl ≠ .disabled) : activateIn t 0 s = clocked s (.next (.ok, activateIn0 s)) := by
  simp only [activateIn, hi, ht, hb, hc, if_true, if_false]

theorem activateOut_zero (hi : 0 < s.cfg.nEp) (ht : t ≠ .isochronous) (hb : buffersOf (s.epAt 0) = some (b1, b2))
    (hc : s.ctrl ≠ .disabled) : activateOut t 0 s = clocked s (.next (.ok, activateOut0 s)) := by
  simp only [activateOut, hi, ht, hb, hc, if_true, if_false]

theorem activateIn_controlAboveZero (h1 : 1 ≤ i) (hi : i < s.cfg.nEp) (hb : buffersOf (s.epAt i) = some (b1, b2))
    (hc : s.ctrl ≠ .disabled) : activateIn .control i s = .refused .controlTypeAboveZero := by
  simp [activateIn, hi, hb, hc, Nat.ne_of_gt h1]

theorem activateOut_controlAboveZero (h1 : 1 ≤ i) (hi : i < s.cfg.nEp) (hb : buffersOf (s.epAt i) = some (b1, b2))
    (hc : s.ctrl ≠ .disabled) : activateOut .control i s = .refused .controlTypeAboveZero := by
  simp [activateOut, hi, hb, hc, Nat.ne_of_gt h1]

theorem activateOut_interrupt (h1 : 1 ≤ i) (hi : i < s.cfg.nEp) (hb : buffersOf (s.epAt i) = some (b1, b2))
    (hc : s.ctrl ≠ .disabled) : activateOut .interrupt i s = .refused .interruptOut := by
  simp [activateOut, hi, hb, hc, Nat.ne_of_gt h1]

/-- The IN side of a data endpoint: its FIFO and then its tag are tested (42 R194). -/
theorem activateIn_data (h1 : 1 ≤ i) (hi : i < s.cfg.nEp) (ht : t = .bulk ∨ t = .interrupt) (hb : buffersOf (s.epAt i) = some (b1, b2))
    (hc : s.ctrl ≠ .disabled) : activateIn t i s =
      if s.part.reserved i then
        if (s.epAt i).sub.admits t then clocked s (.next (.ok, activateInRegs i t b1.len s)) else .refused .otherTypeActive
      else .next (.configurationError, s) := by
  rcases ht with rfl | rfl <;> simp [activateIn, hi, hb, hc, Nat.ne_of_gt h1]

/-- The OUT side of a bulk endpoint: its tag is tested (42 R195). -/
theorem activateOut_bulk (h1 : 1 ≤ i) (hi : i < s.cfg.nEp) (hb : buffersOf (s.epAt i) = some (b1, b2)) (hc : s.ctrl ≠ .disabled) :
    activateOut .bulk i s =
      if (s.epAt i).sub.admits .bulk then
        clocked s (andThen (armOut i (activateOutRegs i .bulk b2.len s)) fun u => .next (.ok, u))
      else .refused .otherTypeActive := by
  simp [activateOut, hi, hb, hc, Nat.ne_of_gt h1]

end

/-- Activation leaves the OUT buffer assigned: it changes the sub-state alone (42 R195). -/
theorem activateOutRegs_outBuf (i : Nat) (t : TType) (n : BitVec 16) (s : State) :
    ((activateOutRegs i t n s).epAt i).outBuf = (s.epAt i).outBuf := by
  have hep : (activateOutRegs i t n s).ep = (setSub i (initialOut t (s.epAt i).sub) s).ep := by
    simp only [activateOutRegs, regWrite_ep, setSub_ep]
  rw [State.epAt, hep, setSub_ep, epAt_modify]
  split <;> rfl

/-- What activation and arming of a bulk OUT endpoint leave (42 R195, R205). -/
theorem armOut_activateOutRegs {i : Nat} {t : TType} {b : Buf} {s : State} (hb : (s.epAt i).outBuf = some b) (hk : s.clockOn = true)
    (hm : s.moves = []) : armOut i (activateOutRegs i t b.len s) = .next { s with
      ep := s.ep.modify i fun e => { e with sub := initialOut t (s.epAt i).sub }
      ri := { s.ri with
        oep := s.ri.oep.modify i fun r =>
          ({ r with eptyp := BitVec.ofNat 2 t.code, dpid := false, mps := b.len.toNat, act := true } : OutRegs).armed b.len.toNat
        aintOep := s.ri.aintOep.modify i fun _ => true }
      trace := armWrites i b.len.toNat ++ [.write (.aintOep i) 1, .write (.oep i .act) 1, .write (.oep i .mps) b.len.toNat,
        .write (.oep i .dpid) 0, .write (.oep i .eptyp) t.code] ++ s.trace } := by
  have hb' := (activateOutRegs_outBuf i t b.len s).trans hb
  rw [activateOutRegs_eq i t b.len hm] at hb' ⊢
  rw [armOut_next hb' hk hm, modify_twice]
  rfl

/-! ## Disabling (42 R197, R198) -/

/-- A command that only writes registers, on an index in range with the clock on (42 R197 to R202). -/
theorem onEndpoint_next {i : Nat} {f : State → State} {s : State} (hi : i < s.cfg.nEp) (hk : s.clockOn = true) :
    onEndpoint i f s = .next (.ok, f s) :=
  (if_pos hi).trans (clocked_on hk _)

/-- A command that only writes registers, on an index out of range. -/
theorem finish_onEndpoint_noSuchIndex {i : Nat} {f : State → State} {s : State} (hi : s.cfg.nEp ≤ i) :
    finish (onEndpoint i f s) = .next { s with result := some .configurationError } :=
  finish_configurationError (if_neg (Nat.not_lt.mpr hi))

/-- A descriptor with nothing left of the endpoint's transfers (42 R197, R198). -/
def Endpoint.off (e : Endpoint) : Endpoint := { e with sub := .disabled, pendingSize := 0 }

/-- A descriptor after its IN half is disabled (42 R197). -/
def Endpoint.dropIn (e : Endpoint) : Endpoint := { e with sub := e.sub.dropIn }

/-- A descriptor after its OUT half is disabled (42 R198). -/
def Endpoint.dropOut (e : Endpoint) : Endpoint :=
  match e.sub with
  | .bulk bin _ => { e with sub := .bulk bin .init, pendingSize := 0 }
  | .control _ => { e with sub := .control .init, pendingSize := 0 }
  | .interrupt _ _ => e
  | .disabled => e

theorem Endpoint.dropOut_eq (e : Endpoint) :
    e.dropOut = { e with sub := e.sub.dropOut, pendingSize := if e.sub.dropOutClears then 0 else e.pendingSize } := by
  obtain ⟨b1, b2, n, d, x⟩ := e
  cases x <;> rfl

theorem Endpoint.off_dropOut (e : Endpoint) : e.dropOut.off = e.off := by
  rw [Endpoint.dropOut_eq]
  rfl

/-- The sub-state part of `DISABLE_EP_IN` is one change of the descriptor (42 R197). -/
theorem setSub_dropIn_modifyEp (i : Nat) (s : State) : setSub i (s.epAt i).sub.dropIn s = modifyEp i Endpoint.dropIn s :=
  modifyEp_congr rfl

/-- The sub-state part of `DISABLE_EP_OUT` is one change of the descriptor (42 R198). -/
theorem dropOutSub_modifyEp (i : Nat) (s : State) : dropOutSub i s = modifyEp i Endpoint.dropOut s := by
  have hep : modifyEp i Endpoint.dropOut s = modifyEp i (fun e => { e with
      sub := (s.epAt i).sub.dropOut, pendingSize := if (s.epAt i).sub.dropOutClears then 0 else e.pendingSize }) s :=
    modifyEp_congr (Endpoint.dropOut_eq _)
  rw [hep]
  unfold dropOutSub
  cases (s.epAt i).sub.dropOutClears with
  | true => exact modifyEp_twice i _ _ s
  | false => rfl

/-- The end of both commands: the other direction's `.act` is read, and the descriptor stays changed by `g` where it is active (42 R197,
R198). -/
theorem disableBoth_unless (i : Nat) (f : Field) (other : Bool) {g : Endpoint → Endpoint} (hg : ∀ e, (g e).off = e.off) {s : State}
    (hm : s.moves = []) :
    (if other then regRead f (modifyEp i g s) else disableBoth i (regRead f (modifyEp i g s))) = { s with
      ep := s.ep.modify i fun e => if other then g e else e.off, trace := .read f :: s.trace } := by
  have hoff : modifyEp i Endpoint.off (modifyEp i g s) = modifyEp i Endpoint.off s :=
    (modifyEp_twice i g _ s).trans (congrArg (modifyEp i · s) (funext hg))
  rw [regRead_still f (s := modifyEp i g s) hm]
  cases other with
  | true => rfl
  | false => exact (disableBoth_modifyEp i _).trans (congrArg (logAccess (.read f)) hoff)

/-- The four writes that turn an IN endpoint off (42 R197). -/
theorem inSideOff_eq (i : Nat) {s : State} (hm : s.moves = []) :
    regWrite (.aintIep i) 0 (regWrite (.iep i .act) 0 (regWrite (.iep i .ena) 0 (regWrite (.iep i .nak) 1 s))) = { s with
      ri := { s.ri with
        iep := s.ri.iep.modify i fun r => { r with nak := true, ena := false, act := false }
        aintIep := s.ri.aintIep.modify i fun _ => false }
      trace := [.write (.aintIep i) 0, .write (.iep i .act) 0, .write (.iep i .ena) 0, .write (.iep i .nak) 1] ++ s.trace } := by
  conv => lhs; simp only [regWrite_still, putReg_moves, hm]
  simp only [putReg, logAccess, RegIf.write, modify_twice]
  rfl

/-- What `DISABLE_EP_IN` leaves (42 R197). -/
theorem dropInSide_eq (i : Nat) {s : State} (hm : s.moves = []) : dropInSide i s = { s with
    ep := s.ep.modify i fun e => if (s.ri.oepAt i).act then e.dropIn else e.off
    ri := { s.ri with
      iep := s.ri.iep.modify i fun r => { r with nak := true, ena := false, act := false }
      aintIep := s.ri.aintIep.modify i fun _ => false }
    trace := [.read (.oep i .act), .write (.aintIep i) 0, .write (.iep i .act) 0, .write (.iep i .ena) 0,
      .write (.iep i .nak) 1] ++ s.trace } := by
  simp only [dropInSide, inSideOff_eq i hm, setSub_dropIn_modifyEp]
  rw [disableBoth_unless i _ _ (g := Endpoint.dropIn) (fun _ => rfl) (by exact hm)]
  rw [regRead_ri, envPoint_still (by exact hm)]
  rfl

/-- The four writes that turn an OUT endpoint off (42 R198). -/
theorem outSideOff_eq (i : Nat) {s : State} (hm : s.moves = []) :
    regWrite (.aintOep i) 0 (regWrite (.oep i .act) 0 (regWrite (.oep i .ena) 0 (regWrite (.oep i .nak) 1 s))) = { s with
      ri := { s.ri with
        oep := s.ri.oep.modify i fun r => { r with nak := true, ena := false, act := false }
        aintOep := s.ri.aintOep.modify i fun _ => false }
      trace := [.write (.aintOep i) 0, .write (.oep i .act) 0, .write (.oep i .ena) 0, .write (.oep i .nak) 1] ++ s.trace } := by
  conv => lhs; simp only [regWrite_still, putReg_moves, hm]
  simp only [putReg, logAccess, RegIf.write, modify_twice]
  rfl

/-- What `DISABLE_EP_OUT` leaves (42 R198). -/
theorem dropOutSide_eq (i : Nat) {s : State} (hm : s.moves = []) : dropOutSide i s = { s with
    ep := s.ep.modify i fun e => if (s.ri.iepAt i).act then e.dropOut else e.off
    ri := { s.ri with
      oep := s.ri.oep.modify i fun r => { r with nak := true, ena := false, act := false }
      aintOep := s.ri.aintOep.modify i fun _ => false }
    trace := [.read (.iep i .act), .write (.aintOep i) 0, .write (.oep i .act) 0, .write (.oep i .ena) 0,
      .write (.oep i .nak) 1] ++ s.trace } := by
  simp only [dropOutSide, outSideOff_eq i hm, dropOutSub_modifyEp]
  rw [disableBoth_unless i _ _ Endpoint.off_dropOut (by exact hm)]
  rw [regRead_ri, envPoint_still (by exact hm)]
  rfl

/-! ## STALL (42 R199 to R202) -/

/-- What `CLEAR_STALL_IN` leaves (42 R201). -/
theorem clearStallInRegs_eq (i : Nat) {s : State} (hm : s.moves = []) : clearStallInRegs i s = { s with
    ri := { s.ri with iep := s.ri.iep.modify i fun r => { r with stall := false, dpid := if i = 0 then r.dpid else false } }
    trace := (if i = 0 then [.write (.iep i .stall) 0] else [.write (.iep i .dpid) 0, .write (.iep i .stall) 0]) ++ s.trace } := by
  unfold clearStallInRegs
  by_cases h : i = 0
  · simp only [h, if_true, regWrite_still _ _ hm]
    rfl
  · simp only [h, if_false, regWrite_regWrite_still _ _ _ _ hm, putReg, logAccess, RegIf.write, modify_twice]
    rfl

/-- What `CLEAR_STALL_OUT` leaves (42 R202). -/
theorem clearStallOutRegs_eq (i : Nat) {s : State} (hm : s.moves = []) : clearStallOutRegs i s = { s with
    ri := { s.ri with oep := s.ri.oep.modify i fun r => { r with stall := false, dpid := if i = 0 then r.dpid else false } }
    trace := (if i = 0 then [.write (.oep i .stall) 0] else [.write (.oep i .dpid) 0, .write (.oep i .stall) 0]) ++ s.trace } := by
  unfold clearStallOutRegs
  by_cases h : i = 0
  · simp only [h, if_true, regWrite_still _ _ hm]
    rfl
  · simp only [h, if_false, regWrite_regWrite_still _ _ _ _ hm, putReg, logAccess, RegIf.write, modify_twice]
    rfl

end Sys2Proof.Machine

open Sys2Proof Sys2Proof.Machine

/-- Settles O21: the tests are the nested conditions of the operation, each reached where those before it are passed. -/
theorem activationChecksInOrder : Obligations.ActivationChecksInOrder := by
  refine fun s k t => ⟨fun hi => ?_, fun hi ht => ?_, fun hi ht hb => ?_, fun hi ht hb hc => ?_, fun h1 hi hb hc => ?_⟩
  · exact ⟨finish_configurationError (activateIn_noSuchIndex hi), finish_configurationError (activateOut_noSuchIndex hi)⟩
  · subst ht
    exact ⟨congrArg finish (activateIn_isochronous hi), congrArg finish (activateOut_isochronous hi)⟩
  · exact ⟨finish_configurationError (activateIn_noBuffers hi ht hb), finish_configurationError (activateOut_noBuffers hi ht hb)⟩
  · obtain ⟨_, hb⟩ := Option.ne_none_iff_exists'.mp hb
    exact ⟨congrArg finish (activateIn_beforeEnable hi ht hb hc), congrArg finish (activateOut_beforeEnable hi ht hb hc)⟩
  · obtain ⟨_, hb⟩ := Option.ne_none_iff_exists'.mp hb
    refine ⟨fun ht => ?_, fun ht => ?_, fun ht hr => ?_, fun ht hr hu => ?_, fun ht hu => ?_⟩
    · subst ht
      exact ⟨congrArg finish (activateIn_controlAboveZero h1 hi hb hc), congrArg finish (activateOut_controlAboveZero h1 hi hb hc)⟩
    · subst ht
      exact congrArg finish (activateOut_interrupt h1 hi hb hc)
    · exact finish_configurationError ((activateIn_data h1 hi ht hb hc).trans (if_neg (by simp [hr])))
    · exact congrArg finish ((activateIn_data h1 hi ht hb hc).trans ((if_pos hr).trans (if_neg (by simp [Sub.admits_eq_false_of hu]))))
    · subst ht
      exact congrArg finish ((activateOut_bulk h1 hi hb hc).trans (if_neg (by simp [Sub.admits_eq_false_of hu])))

/-- Settles O15: a 16-bit length is a power of two of at least 8 exactly if it is one of the thirteen. -/
theorem validBufferLengths : Obligations.ValidBufferLengths := by
  intro b
  have hpow := fun h8 : 8 ≤ b.len.toNat => isPow2_iff_mem_lengths h8 b.len.isLt
  have h8 : b.len.toNat ∈ [8, 16, 32, 64, 128, 256, 512, 1024, 2048, 4096, 8192, 16384, 32768] → 8 ≤ b.len.toNat :=
    (by decide : ∀ m ∈ [8, 16, 32, 64, 128, 256, 512, 1024, 2048, 4096, 8192, 16384, 32768], 8 ≤ m) _
  simp only [Buf.valid, Bool.and_eq_true, decide_eq_true_eq]
  exact and_congr_left' ⟨fun h => (hpow h.1).mp h.2, fun h => ⟨h8 h, (hpow (h8 h)).mpr h⟩⟩

/-- Settles O16: the buffer is tested first and the sub-state of endpoint 0 second. -/
theorem assignControlBuffer : Obligations.AssignControlBuffer := by
  refine fun s len base => ⟨fun hv => ?_, fun hv hs => ?_, fun hv hd hc => ?_⟩
  · exact finish_configurationError (if_neg (by simp [hv]))
  · calc exec (.assignCtrlBuf len base) s
        = finish (.next (.ok, setOutBuf 0 ⟨base, len⟩ (setInBuf 0 ⟨base, len⟩ s))) :=
          congrArg finish ((if_pos hv).trans (if_pos hs))
      _ = _ := by
        rw [setOutBuf, setInBuf, modifyEp_twice]
        rfl
  · exact congrArg finish ((if_pos hv).trans (if_neg (not_or.mpr ⟨hd, hc⟩)))

/-- Settles O17: index, buffer and sub-state are tested in this order. -/
theorem assignDataBuffers : Obligations.AssignDataBuffers := by
  refine ⟨fun s k len base => ⟨fun h => ?_, fun hi hv hs => ?_, fun hi hv hs => ?_⟩,
    fun s k len base => ⟨fun h => ?_, fun hi hv hs => ?_, fun hi hv hs => ?_⟩⟩
  · exact finish_configurationError (assignInBuf_rejected h)
  · calc exec (.assignInBuf k len base) s
        = finish (.next (.ok, setSub k.toNat ((s.epAt k.toNat).sub.withMps len) (setInBuf k.toNat ⟨base, len⟩ s))) :=
          congrArg finish ((if_pos hi).trans ((if_pos hv).trans (if_pos (Sub.inIdle_of hs))))
      _ = _ := by
        rw [setSub_withMps_setInBuf k.toNat ⟨base, len⟩]
        rfl
  · exact congrArg finish ((if_pos hi).trans ((if_pos hv).trans (if_neg (by simp [Sub.inIdle_eq_false_of hs]))))
  · exact finish_configurationError (assignOutBuf_rejected h)
  · exact congrArg finish ((if_pos hi).trans ((if_pos hv).trans (if_pos (Sub.outIdle_of hs))))
  · exact congrArg finish ((if_pos hi).trans ((if_pos hv).trans (if_neg (by simp [Sub.outIdle_eq_false_of hs]))))

/-- Settles O18: every test is passed, and the writes make one change of the registers. -/
theorem activateInOnDataEndpoint : Obligations.ActivateInOnDataEndpoint := by
  intro s k t b1 b2 hk hm hc h1 hi ht hin hout v1 v2 hr hs
  calc exec (.activateEpIn k t) s
      = finish (clocked s (.next (.ok, activateInRegs k.toNat t b1.len s))) :=
        congrArg finish ((activateIn_data h1 hi ht (buffersOf_eq_some hin hout v1 v2) hc).trans
          ((if_pos hr).trans (if_pos (Sub.admits_of hs))))
    _ = _ := by
      rw [clocked_on hk, activateInRegs_eq k.toNat t b1.len hm]
      rcases ht with rfl | rfl
      · generalize (s.epAt k.toNat).sub = x
        cases x <;> rfl
      · rfl

/-- Settles O19: every test is passed, and the arm finds the buffer the activation left in place. -/
theorem activateOutOnBulkEndpoint : Obligations.ActivateOutOnBulkEndpoint := by
  intro s k b1 b2 hk hm hc h1 hi hin hout v1 v2 hs
  calc exec (.activateEpOut k .bulk) s
      = finish (clocked s (andThen (armOut k.toNat (activateOutRegs k.toNat .bulk b2.len s)) fun u => .next (.ok, u))) :=
        congrArg finish ((activateOut_bulk h1 hi (buffersOf_eq_some hin hout v1 v2) hc).trans (if_pos (Sub.admits_of hs)))
    _ = _ := by
      rw [clocked_on hk, armOut_activateOutRegs hout hk hm]
      generalize (s.epAt k.toNat).sub = x
      cases x <;> rfl

/-- Settles O20: endpoint 0 passes the common tests and its type operand is not looked at again. -/
theorem activateControlEndpoint : Obligations.ActivateControlEndpoint := by
  intro s t b1 b2 hk hm hc hi ht hin hout v1 v2
  have hb := buffersOf_eq_some hin hout v1 v2
  constructor
  · calc exec (.activateEpIn 0 t) s = finish (clocked s (.next (.ok, activateIn0 s))) := congrArg finish (activateIn_zero hi ht hb hc)
      _ = _ := by
        rw [clocked_on hk, activateIn0_eq hm]
        rfl
  · calc exec (.activateEpOut 0 t) s = finish (clocked s (.next (.ok, activateOut0 s))) := congrArg finish (activateOut_zero hi ht hb hc)
      _ = _ := by
        rw [clocked_on hk, activateOut0_eq hm]
        rfl

/-- Settles O22: each command is its five accesses, one change of the registers, and one change of the descriptor. -/
theorem disableOneSide : Obligations.DisableOneSide := by
  refine ⟨fun s k hk hm hi => ?_, fun s k hk hm hi => ?_,
    fun s k hi => ⟨finish_onEndpoint_noSuchIndex hi, finish_onEndpoint_noSuchIndex hi⟩⟩
  · calc exec (.disableEpIn k) s = finish (.next (.ok, dropInSide k.toNat s)) := congrArg finish (onEndpoint_next hi hk)
      _ = _ := by
        rw [dropInSide_eq k.toNat hm]
        rfl
  · calc exec (.disableEpOut k) s = finish (.next (.ok, dropOutSide k.toNat s)) := congrArg finish (onEndpoint_next hi hk)
      _ = _ := by
        rw [dropOutSide_eq k.toNat hm]
        rfl

/-- Settles O23: a stall is one write; clearing it is one on endpoint 0 and two above it. -/
theorem stallAndClearStall : Obligations.StallAndClearStall := by
  refine ⟨fun s k hk hm hi => ?_, fun s k hk hm hi => ?_, fun s k i hi h => ?_⟩
  · constructor
    · calc exec (.stallEpIn k) s = finish (.next (.ok, regWrite (.iep k.toNat .stall) 1 s)) := congrArg finish (onEndpoint_next hi hk)
        _ = _ := by
          rw [regWrite_still _ _ hm]
          rfl
    · calc exec (.stallEpOut k) s = finish (.next (.ok, regWrite (.oep k.toNat .stall) 1 s)) := congrArg finish (onEndpoint_next hi hk)
        _ = _ := by
          rw [regWrite_still _ _ hm]
          rfl
  · have hz : k.toNat = 0 ↔ k = 0 := (BitVec.toNat_eq (y := 0#8)).symm
    constructor
    · calc exec (.clearStallIn k) s = finish (.next (.ok, clearStallInRegs k.toNat s)) := congrArg finish (onEndpoint_next hi hk)
        _ = _ := by
          simp only [clearStallInRegs_eq k.toNat hm, hz]
          rfl
    · calc exec (.clearStallOut k) s = finish (.next (.ok, clearStallOutRegs k.toNat s)) := congrArg finish (onEndpoint_next hi hk)
        _ = _ := by
          simp only [clearStallOutRegs_eq k.toNat hm, hz]
          rfl
  · rcases h with rfl | rfl | rfl | rfl <;> exact finish_onEndpoint_noSuchIndex hi

end

section
/-! PROOFS. The statements about the control-transfer protocol (spec 43_control_transfer) and the answers of the data endpoints' callbacks
(spec 44_bulk_interrupt_endpoints): what the CORE does with each response of the Client. -/

namespace Sys2Proof.Machine

/-! ## A response is delivered as an answer (30_encoding R101, R102 (i)) -/

/-- A response instruction delivers its response. -/
theorem exec_of_respOfInstr {i : Instr} {r : Resp} (h : respOfInstr i = some r) (s : State) : exec i s = deliver r s := by
  cases i with
  | respSetupOk | respSetupOkSetAddress _ | respSetupError | respInDataPacket _ _ | respInDataDelay | respInDataError
  | respOutDataOk | respOutDataHalted | respOutDataDelay | respStatusDone | respStatusCompleteDone | respBusResetDone =>
    cases h
    rfl
  | _ => cases h

theorem deliver_setup {e : Nat} {s : State} (h : s.client.outstanding = some (.setup e)) (a : SetupAnswer) :
    deliver (.setup a) s = onSetup a (clearCb s) := by
  simp only [deliver, h]

theorem deliver_inData {i : Nat} {s : State} (h : s.client.outstanding = some (.inData i)) (a : InAnswer) :
    deliver (.inData a) s = onIn i a (clearCb s) := by
  simp only [deliver, h]

theorem deliver_outData {i : Nat} {n : BitVec 16} {s : State} (h : s.client.outstanding = some (.outData i n)) (a : OutAnswer) :
    deliver (.outData a) s = onOut i a (clearCb s) := by
  simp only [deliver, h]

theorem deliver_status {e : Nat} {s : State} (h : s.client.outstanding = some (.status e)) :
    deliver .status s = onStatus (clearCb s) := by
  simp only [deliver, h]

theorem deliver_statusComplete {e : Nat} {s : State} (h : s.client.outstanding = some (.statusComplete e)) :
    deliver .statusComplete s = onStatusComplete (clearCb s) := by
  simp only [deliver, h]

theorem deliver_busReset {s : State} (h : s.client.outstanding = some .busReset) : deliver .busReset s = .next (clearCb s) := by
  simp only [deliver, h]

/-- With no request outstanding, or one it does not echo, a response breaks the contract. -/
theorem deliver_not_echoed {r : Resp} {s : State} (h : ∀ q, s.client.outstanding = some q → echoes r q = false) :
    deliver r s = .refused .clientContract := by
  unfold deliver
  split
  case h_7 => rfl
  all_goals
    rename_i ho
    cases h _ ho

/-! ## Descriptors and transfers -/

/-- A change of a sub-state leaves the buffers assigned. -/
theorem setSub_inBuf (i j : Nat) (x : Sub) (s : State) : ((setSub j x s).epAt i).inBuf = (s.epAt i).inBuf := by
  simp only [setSub, modifyEp_epAt]
  split <;> rfl

theorem setSub_outBuf (i j : Nat) (x : Sub) (s : State) : ((setSub j x s).epAt i).outBuf = (s.epAt i).outBuf := by
  simp only [setSub, modifyEp_epAt]
  split <;> rfl

/-- What can be sent does not depend on a sub-state. -/
theorem CanSend.setSub {i n : Nat} {b : Buf} {s : State} (h : CanSend i n b s) (j : Nat) (x : Sub) : CanSend i n b (setSub j x s) :=
  { h with buf := (setSub_inBuf i j x s).trans h.buf }

theorem CanSend.clearCb {i n : Nat} {b : Buf} {s : State} (h : CanSend i n b s) : CanSend i n b (clearCb s) := { h with }

theorem CanSend.fitsInBuf {i n : Nat} {b : Buf} {s : State} (h : CanSend i n b s) : fitsInBuf n (s.epAt i) = true := by
  simp only [Machine.fitsInBuf, h.buf, h.fits, decide_true]

theorem fitsInBuf_eq_false {n : Nat} {b : Buf} {e : Endpoint} (hb : e.inBuf = some b) (hn : b.len.toNat < n) : fitsInBuf n e = false := by
  simp only [fitsInBuf, hb, decide_eq_false (Nat.not_le.mpr hn)]

/-! ## The machine an answer reaches, by the sub-state that asked (43 R221, R225, R227, 44 R251, R254, R256) -/

section
variable {s : State} {c : CtrlSub} {b : Buf} (hs : (s.epAt 0).sub = .control c) (hb : (s.epAt 0).outBuf = some b)
include hs hb

theorem onSetup_okSetAddress (n : BitVec 16) : onSetup (.okSetAddress n) s = ctrlOkSetAddress n s := by
  simp only [onSetup, hs, hb]

theorem onSetup_error : onSetup .error s = ctrlError s := by
  simp only [onSetup, hs, hb]

/-- The request length is tested before the direction (43 R221, R223, R224, R226). -/
theorem onSetup_ok (hsp : b.base.toNat + 8 ≤ 2 ^ 32) : onSetup .ok s =
    if reqLen b s = 0 then ctrlOkNoData s else if (s.epAt 0).reqDir = .d2h then .next (ctrlOkRead s) else ctrlOkWrite s := by
  have hin : b.inSpace 8 = true := decide_eq_true hsp
  simp only [onSetup, hs, hb, hin, if_true]

end

theorem onIn_readIn {s : State} (hs : (s.epAt 0).sub = .control .readIn) (a : InAnswer) : onIn 0 a s = onCtrlIn a s := by
  simp only [onIn, hs, if_true]

theorem onIn_bulk {s : State} {i : Nat} {bout : OutSub} (hs : (s.epAt i).sub = .bulk .init bout) (a : InAnswer) :
    onIn i a s = onBulkIn i bout a s := by
  simp only [onIn, hs]

theorem onIn_interrupt {s : State} {i : Nat} {m : BitVec 16} (hs : (s.epAt i).sub = .interrupt .init m) (a : InAnswer) :
    onIn i a s = onIntIn i m a s := by
  simp only [onIn, hs]

/-- In the control read and on a bulk endpoint a packet longer than the IN buffer is refused (43 R225, 44 R251). -/
theorem onIn_tooLong {s : State} {i : Nat} {size : BitVec 16} {b : Buf} (hb : (s.epAt i).inBuf = some b) (hn : b.len.toNat < size.toNat)
    (hs : (i = 0 ∧ (s.epAt 0).sub = .control .readIn) ∨ (∃ bout, (s.epAt i).sub = .bulk .init bout)) (last : Bool) :
    onIn i (.packet size last) s = .refused .packetTooLong := by
  have hf : fitsInBuf size.toNat (s.epAt i) = false := fitsInBuf_eq_false hb hn
  obtain ⟨rfl, hs⟩ | ⟨bout, hs⟩ := hs
  · rw [onIn_readIn hs, onCtrlIn, hf]
    rfl
  · rw [onIn_bulk hs, onBulkIn, hf]
    rfl

theorem onOut_writeOut {s : State} (hs : (s.epAt 0).sub = .control .writeOut) (a : OutAnswer) : onOut 0 a s = onCtrlOut a s := by
  simp only [onOut, hs, if_true]

theorem onOut_bulk {s : State} {i : Nat} {bin : InSub}
    (hs : (s.epAt i).sub = .bulk bin .outDelay ∨ ∃ m, (s.epAt i).sub = .bulk bin (.outData m)) (a : OutAnswer) :
    onOut i a s = onBulkOut i bin a s := by
  obtain hs | ⟨m, hs⟩ := hs <;> simp only [onOut, hs]

/-! ## What the protocol's parts leave with the Register Interface still -/

/-- The end of a status phase (43 R223, R229 to R231). -/
theorem toInit_eq {s : State} (hm : s.moves = []) : toInit s = { s with
    ep := s.ep.modify 0 fun e => { e with sub := .control .init },
    ri := { s.ri with oep := s.ri.oep.modify 0 (OutRegs.armedForSetup s.cfg) }, trace := armForSetupWrites s.cfg ++ s.trace } :=
  armCtrlOut_eq (s := setSub 0 (.control .init) s) hm

/-- `StallBoth0()`, IN first (42 R206). -/
theorem stallBoth0_still {s : State} (hm : s.moves = []) :
    stallBoth0 s = putReg (.oep 0 .stall) 1 (putReg (.iep 0 .stall) 1 s) :=
  regWrite_regWrite_still _ _ _ _ hm

section
variable {s : State} (hk : s.clockOn = true) (hm : s.moves = [])
include hk hm

/-- `StartIn` of a packet of no bytes pushes nothing (42 R204, 45 R270). -/
theorem startIn_empty {i : Nat} {b : Buf} (h : CanSend i 0 b s) : startIn i 0 s = .next { s with
    ri := { s.ri with iep := s.ri.iep.modify i (InRegs.started 0) }, trace := startWrites i 0 ++ s.trace } := by
  rw [startIn_next h hk hm, wordsOf_zero, modify_same _ _ _ fun _ _ => List.append_nil _]
  rfl

/-- A new sub-state, then a packet of no bytes started (43 R222, R227). -/
theorem startIn_empty_setSub {i : Nat} {b : Buf} (h : CanSend i 0 b s) (x : Sub) : startIn i 0 (setSub i x s) = .next { s with
    ep := s.ep.modify i fun e => { e with sub := x },
    ri := { s.ri with iep := s.ri.iep.modify i (InRegs.started 0) }, trace := startWrites i 0 ++ s.trace } :=
  startIn_empty (s := setSub i x s) hk hm (h.setSub i x)

/-- A packet started, then recorded in the sub-state (44 R251, R256). -/
theorem startIn_then_setSub {i n : Nat} {b : Buf} (h : CanSend i n b s) (x : Sub) :
    andThen (startIn i n s) (fun t => .next (setSub i x t)) = .next { s with
      ep := s.ep.modify i fun e => { e with sub := x },
      ri := { s.ri with
        iep := s.ri.iep.modify i (InRegs.started n), txq := s.ri.txq.modify i fun q => q ++ wordsOf b n s },
      trace := pushes i (wordsOf b n s) ++ startWrites i n ++ s.trace } := by
  rw [startIn_next h hk hm]
  rfl

/-- A new sub-state, then the OUT side armed (43 R226, 44 R254). -/
theorem armOut_setSub {i : Nat} {b : Buf} (hb : (s.epAt i).outBuf = some b) (x : Sub) : armOut i (setSub i x s) = .next { s with
    ep := s.ep.modify i fun e => { e with sub := x },
    ri := { s.ri with oep := s.ri.oep.modify i (OutRegs.armed b.len.toNat) }, trace := armWrites i b.len.toNat ++ s.trace } :=
  armOut_next (s := setSub i x s) ((setSub_outBuf i i x s).trans hb) hk hm

/-- `CtrlError()` (43 R228). -/
theorem ctrlError_next : ctrlError s = .next (ctrlFailed s) := by
  rw [ctrlError, clocked_on hk, stallBoth0_still hm, toInit_eq (by exact hm)]
  simp only [putReg, logAccess, RegIf.write, modify_twice]
  rfl

/-! ## The answers of `setup` (43 R221 to R224, R226, R228) -/

/-- `CtrlOkSetAddress(n)` where the address takes effect after the status phase (43 R222). -/
theorem ctrlOkSetAddress_deferred {b : Buf} (h : CanSend 0 0 b s) (ht : s.cfg.addrTiming = .deferred) (n : BitVec 16) :
    ctrlOkSetAddress n s = .next { s with
      devAddrPending := n, ep := s.ep.modify 0 fun e => { e with sub := .control .setAddress },
      ri := { s.ri with iep := s.ri.iep.modify 0 (InRegs.started 0) }, trace := startWrites 0 0 ++ s.trace } := by
  simp only [ctrlOkSetAddress, clocked_on hk, ht, reduceCtorEq, if_false]
  exact startIn_empty_setSub (s := stageAddr n s) hk hm { h with } _

/-- `CtrlOkSetAddress(n)` where the address is written at once (43 R222). -/
theorem ctrlOkSetAddress_immediate {b : Buf} (h : CanSend 0 0 b s) (ht : s.cfg.addrTiming = .immediate) (n : BitVec 16) :
    ctrlOkSetAddress n s = .next { s with
      devAddrPending := n, ep := s.ep.modify 0 fun e => { e with sub := .control .setAddress },
      ri := { s.ri with addr := n.toNat % 2 ^ s.cfg.addrWidth, iep := s.ri.iep.modify 0 (InRegs.started 0) },
      trace := startWrites 0 0 ++ .write .addr (n.toNat % 2 ^ s.cfg.addrWidth) :: s.trace } := by
  have hw : writeDevAddr (stageAddr n s) = putReg .addr (n.toNat % 2 ^ s.cfg.addrWidth) (stageAddr n s) := regWrite_still _ _ hm
  simp only [ctrlOkSetAddress, clocked_on hk, ht, if_true, hw]
  rw [startIn_empty_setSub (s := putReg _ _ (stageAddr n s)) hk hm { h with }]
  simp only [putReg, logAccess, RegIf.write, stageAddr_cfg, Nat.mod_mod]
  rfl

/-! ## The answers of `in_data` (43 R225, R228, 44 R251, R256) -/

/-- The next packet of a control read (43 R225). -/
theorem onCtrlIn_packet {size : BitVec 16} {b : Buf} (h : CanSend 0 size.toNat b s) (last : Bool) :
    onCtrlIn (.packet size last) s = .next (ctrlInStarted size.toNat last b s) := by
  simp only [onCtrlIn, h.fitsInBuf, if_true, startIn_next h hk hm, andThen_next]
  cases last with
  | false => rfl
  | true =>
    simp only [lastPacket, if_true]
    rw [armCtrlOut_eq (by exact hm)]
    rfl

/-! ## The answers of `out_data` (43 R227, 44 R254) -/

/-- A rejected packet of a control write stalls the OUT side alone (43 R227). -/
theorem ctrlOutRejected_next : ctrlOutRejected s = .next { s with
    ep := s.ep.modify 0 fun e => { e with sub := .control .init },
    ri := { s.ri with oep := s.ri.oep.modify 0 fun x => OutRegs.armedForSetup s.cfg { x with stall := true } },
    trace := armForSetupWrites s.cfg ++ .write (.oep 0 .stall) 1 :: s.trace } := by
  rw [ctrlOutRejected, clocked_on hk, regWrite_still _ _ hm, toInit_eq (by exact hm)]
  simp only [putReg, logAccess, RegIf.write, modify_twice]
  rfl

/-- A packet a bulk endpoint's Client halts at: the OUT side is stalled, then armed again (44 R254). -/
theorem onBulkOut_halted {i : Nat} {b : Buf} (hb : (s.epAt i).outBuf = some b) (bin : InSub) : onBulkOut i bin .halted s = .next { s with
    ep := s.ep.modify i fun e => { e with sub := .bulk bin .init },
    ri := { s.ri with oep := s.ri.oep.modify i fun x => OutRegs.armed b.len.toNat { x with stall := true } },
    trace := armWrites i b.len.toNat ++ .write (.oep i .stall) 1 :: s.trace } := by
  simp only [onBulkOut, clocked_on hk]
  rw [regWrite_still _ _ hm, armOut_setSub (s := putReg _ _ s) hk hm hb]
  simp only [putReg, logAccess, RegIf.write, modify_twice]
  rfl

/-! ## The answer of `status_complete` (43 R223, R229, R230) -/

theorem onStatusComplete_control {c : CtrlSub} (hs : (s.epAt 0).sub = .control c) : onStatusComplete s = .next { s with
    ep := s.ep.modify 0 fun e => { e with sub := .control .init },
    ri := { s.ri with oep := s.ri.oep.modify 0 (OutRegs.armedForSetup s.cfg) }, trace := armForSetupWrites s.cfg ++ s.trace } := by
  simp only [onStatusComplete, hs, clocked_on hk, toInit_eq hm]

end

end Sys2Proof.Machine

open Sys2Proof Sys2Proof.Machine

/-- Settles O47: each answer of `setup` is one branch of the control protocol, run from the state in which the request is answered. -/
theorem setupAnswersAct : Obligations.SetupAnswersAct := by
  intro s c b hk hm ho hs hb
  have hAddr := onSetup_okSetAddress (s := clearCb s) hs hb
  have hError := onSetup_error (s := clearCb s) hs hb
  have hOk := onSetup_ok (s := clearCb s) hs hb
  refine ⟨?_, fun n bi h => ⟨fun ht => ?_, fun ht => ?_⟩, fun hsp len hlen => ⟨fun bi h0 h => ?_, fun h0 hd => ?_, fun h0 hd => ?_⟩⟩
  · exact ((deliver_setup ho _).trans hError).trans (ctrlError_next (s := clearCb s) hk hm)
  · exact ((deliver_setup ho _).trans (hAddr n)).trans (ctrlOkSetAddress_deferred (s := clearCb s) hk hm h.clearCb ht n)
  · exact ((deliver_setup ho _).trans (hAddr n)).trans (ctrlOkSetAddress_immediate (s := clearCb s) hk hm h.clearCb ht n)
  all_goals
    have hreq : reqLen b (clearCb s) = len := hlen.symm
    refine ((deliver_setup ho _).trans (hOk hsp)).trans ?_
  · rw [if_pos (hreq.trans h0), ctrlOkNoData, startIn_empty (s := clearCb s) hk hm h.clearCb]
    rfl
  · rw [if_neg (hreq ▸ h0), if_pos (by exact hd)]
    rfl
  · have hnd : ((clearCb s).epAt 0).reqDir ≠ .d2h := fun h => by cases hd.symm.trans h
    rw [if_neg (hreq ▸ h0), if_neg hnd]
    exact armOut_setSub (s := clearCb s) hk hm hb _

/-- Settles O48: the sub-state that asked chooses the machine, and the answer the branch of it. -/
theorem inDataAnswersAct : Obligations.InDataAnswersAct := by
  intro s i hk hm ho
  refine ⟨fun size last b hi hs h => ?_, fun size last b bout hs h => ?_, fun size last b m hs hn h => ?_,
    fun size last b hs hb hn => ?_, fun size last m hs hn => ?_, fun hs => ?_, fun hi hs => ?_, fun hs => ?_⟩
  all_goals refine (deliver_inData ho _).trans ?_
  · subst hi
    exact (onIn_readIn (s := clearCb s) hs _).trans (onCtrlIn_packet (s := clearCb s) hk hm h.clearCb last)
  · have hf : fitsInBuf size.toNat ((clearCb s).epAt i) = true := h.fitsInBuf
    rw [onIn_bulk (s := clearCb s) hs, onBulkIn, if_pos hf]
    exact startIn_then_setSub (s := clearCb s) hk hm h.clearCb _
  · rw [onIn_interrupt (s := clearCb s) hs, onIntIn, if_pos hn]
    exact startIn_then_setSub (s := clearCb s) hk hm h.clearCb _
  · exact onIn_tooLong (s := clearCb s) hb hn hs last
  · rw [onIn_interrupt (s := clearCb s) hs, onIntIn, if_neg (Nat.not_le.mpr hn)]
  · obtain ⟨rfl, hs⟩ | ⟨bout, hs⟩ | ⟨m, hs⟩ := hs
    · exact onIn_readIn (s := clearCb s) hs .delay
    · exact onIn_bulk (s := clearCb s) hs .delay
    · exact onIn_interrupt (s := clearCb s) hs .delay
  · subst hi
    exact (onIn_readIn (s := clearCb s) hs _).trans (ctrlError_next (s := clearCb s) hk hm)
  · have hstall : onIn i .error (clearCb s) = clocked (clearCb s) (.next (regWrite (.iep i .stall) 1 (clearCb s))) := by
      obtain ⟨bout, hs⟩ | ⟨m, hs⟩ := hs
      · exact onIn_bulk (s := clearCb s) hs .error
      · exact onIn_interrupt (s := clearCb s) hs .error
    rw [hstall, clocked_on (by exact hk), regWrite_still _ _ (by exact hm)]
    rfl

/-- Settles O49: in the control write both answers but `Ok` are one rejection; on a bulk endpoint the three answers differ. -/
theorem outDataAnswersAct : Obligations.OutDataAnswersAct := by
  intro s i n hk hm ho
  refine ⟨fun bi hi hs h => ?_, fun r hi hs hr => ?_, fun bin b hs hb => ?_⟩
  · subst hi
    exact ((deliver_outData ho _).trans (onOut_writeOut (s := clearCb s) hs _)).trans
      (startIn_empty_setSub (s := clearCb s) hk hm h.clearCb _)
  · subst hi
    have hrej : exec r s = ctrlOutRejected (clearCb s) := by
      obtain rfl | rfl := hr <;> exact (deliver_outData ho _).trans (onOut_writeOut (s := clearCb s) hs _)
    exact hrej.trans (ctrlOutRejected_next (s := clearCb s) hk hm)
  · have hbulk (a : OutAnswer) : deliver (.outData a) s = onBulkOut i bin a (clearCb s) :=
      (deliver_outData ho a).trans (onOut_bulk (s := clearCb s) hs a)
    exact ⟨(hbulk .ok).trans (armOut_setSub (s := clearCb s) hk hm hb _),
      (hbulk .halted).trans (onBulkOut_halted (s := clearCb s) hk hm hb bin), hbulk .delay⟩

/-- Settles O50: each return is what follows its request, and a response that echoes no request in progress reaches no machine. -/
theorem statusAnswersEndTransfer : Obligations.StatusAnswersEndTransfer := by
  refine fun s => ⟨fun e ho => deliver_status ho, fun e c hk hm ho hs => ?_, deliver_busReset, fun i r hi h => ?_⟩
  · exact (deliver_statusComplete ho).trans (onStatusComplete_control (s := clearCb s) hk hm hs)
  · exact (exec_of_respOfInstr hi s).trans (deliver_not_echoed h)

end

section
/-! PROOFS. The statements about the IN conditions that move data (spec 41 R156, R158, 44_bulk_interrupt_endpoints): IN transfer-complete
and the IN-token mismatch, each by the sub-state of the endpoint and the Client's answer. -/

namespace Sys2Proof.Machine

/-! ## A callback is its response instruction, run while the request is outstanding (20_memory R72, log 12) -/

/-- The state in which the Client has answered a request that is still outstanding. -/
def replied (q : CbReq) (a : ClientAnswer) (rest : List ClientAnswer) (s : State) : State :=
  { s with mem := memAfter a s.mem, client := { outstanding := some q, calls := q :: s.client.calls, answers := rest } }

section
variable {s t : State} {q : CbReq} {a : ClientAnswer} {more : List ClientAnswer} {j : Instr} {r : Resp}
  (hr : respOfInstr j = some r) (ha : Answers a j more s)
include hr ha

theorem settle_issueCb (n : Nat) : settle (n + 1) (issueCb q s) = andThen (exec j (replied q a more s)) (settle n) := by
  obtain ⟨hl, hw⟩ := ha
  rw [exec_of_respOfInstr hr]
  exact settle_answer (s := issueCb q s) rfl hl hr hw n

/-- A callback whose response asks for nothing more leaves what the response leaves. -/
theorem answered_issueCb_next (h : exec j (replied q a more s) = .next t) (ho : t.client.outstanding = none) :
    answered (issueCb q s) = .next t := by
  rw [answered, settle_issueCb hr ha, h, andThen_next, settle_done ho]

theorem answered_issueCb_refused {e : Refusal} (h : exec j (replied q a more s) = .refused e) :
    answered (issueCb q s) = .refused e := by
  rw [answered, settle_issueCb hr ha, h, andThen_refused]

end

/-- `status(0)` and `status_complete(0)`, one after the other, end the transfer (43 R229, R230). -/
theorem answered_statusDone {s : State} {a a2 : ClientAnswer} {rest : List ClientAnswer} {c : CtrlSub} (hk : s.clockOn = true)
    (hm : s.moves = []) (hs : (s.epAt 0).sub = .control c) (ha : Answers a .respStatusDone (a2 :: rest) s)
    (ha2 : [a2.word] = (encode s.cfg.layout .respStatusCompleteDone).2) :
    answered (statusDone s) = .next { s with
      mem := memAfter a2 (memAfter a s.mem),
      client := { outstanding := none, calls := [.statusComplete 0, .status 0] ++ s.client.calls, answers := rest },
      ep := s.ep.modify 0 fun e => { e with sub := .control .init },
      ri := { s.ri with oep := s.ri.oep.modify 0 (OutRegs.armedForSetup s.cfg) }, trace := armForSetupWrites s.cfg ++ s.trace } := by
  obtain ⟨hStatus, -, -, -⟩ := statusAnswersEndTransfer (replied (.status 0) a (a2 :: rest) s)
  have hAgain : exec .respStatusDone (replied (.status 0) a (a2 :: rest) s) =
      .next (issueCb (.statusComplete 0) (afterCall (.status 0) a (a2 :: rest) s)) := hStatus 0 rfl
  have ha2 : Answers a2 .respStatusCompleteDone rest (afterCall (.status 0) a (a2 :: rest) s) := ⟨rfl, ha2.symm⟩
  obtain ⟨-, hEnd, -, -⟩ := statusAnswersEndTransfer (replied (.statusComplete 0) a2 rest (afterCall (.status 0) a (a2 :: rest) s))
  rw [answered, statusDone, settle_issueCb rfl ha, hAgain, andThen_next, settle_issueCb rfl ha2, hEnd 0 c hk hm rfl hs,
    andThen_next, settle_done rfl]
  rfl

/-! ## The service of an IN condition (41 R155) -/

section
variable {s t : State} {i : Nat} {c : InCond} (hk : s.clockOn = true) (hi : i < s.cfg.nEp)
include hk hi

theorem exec_inCond : exec (c.instr i) s = serveIn c i s := by
  have h : exec (c.instr i) s = onRegs i s (serveIn c i s) := by cases c <;> rfl
  rw [h, onRegs, if_pos hi, clocked_on hk]

/-- A handler that goes through is followed by the acknowledge. -/
theorem exec_inCond_next (h : inCond c i s = .next t) (hm : t.moves = []) : exec (c.instr i) s = .next (inAcknowledged i c t) := by
  rw [exec_inCond hk hi, serveIn, h, andThen_next, regWrite_still _ _ hm]
  rfl

/-- A refusal of the handler is the outcome, with no acknowledge. -/
theorem exec_inCond_refused {e : Refusal} (h : inCond c i s = .refused e) : exec (c.instr i) s = .refused e := by
  rw [exec_inCond hk hi, serveIn, h, andThen_refused]

/-! A handler that is one callback of the Client, made in `u`, runs the response that the answer encodes. -/

variable {u : State} {q : CbReq} {a : ClientAnswer} {more : List ClientAnswer} {j : Instr} {r : Resp}
  (hc : inCond c i s = answered (issueCb q u)) (hr : respOfInstr j = some r) (ha : Answers a j more u)
include hc hr ha

theorem exec_inCond_callback_next (h : exec j (replied q a more u) = .next t) (ho : t.client.outstanding = none) (hm : t.moves = []) :
    exec (c.instr i) s = .next (inAcknowledged i c t) :=
  exec_inCond_next hk hi (hc.trans (answered_issueCb_next hr ha h ho)) hm

theorem exec_inCond_callback_refused {e : Refusal} (h : exec j (replied q a more u) = .refused e) :
    exec (c.instr i) s = .refused e :=
  exec_inCond_refused hk hi (hc.trans (answered_issueCb_refused hr ha h))

end

/-! ## IN transfer-complete, by the sub-state (41 R156) -/

section
variable {s : State} {i : Nat}

theorem inXfrc_bulk {n : BitVec 16} {bout : OutSub} (hs : (s.epAt i).sub = .bulk (.busy n) bout) :
    inXfrc i s = .next (setSub i (.bulk .init bout) s) := by
  simp only [inXfrc, hs]

theorem inXfrc_interrupt {n m : BitVec 16} (hs : (s.epAt i).sub = .interrupt (.busy n) m) :
    inXfrc i s = .next (setSub i (.interrupt .init m) s) := by
  simp only [inXfrc, hs]

theorem inXfrc_setAddress (hs : (s.epAt 0).sub = .control .setAddress) : inXfrc 0 s = .next (setAddressDone s) := by
  simp only [inXfrc, hs, if_true]

theorem inXfrc_readIn (hs : (s.epAt 0).sub = .control .readIn) : inXfrc 0 s = answered (ctrlInStep s) := by
  simp only [inXfrc, hs, if_true]

theorem inXfrc_readStatus (hs : (s.epAt 0).sub = .control .readStatus) (hd : (s.epAt 0).reqDir = .h2d) :
    inXfrc 0 s = answered (statusDone s) := by
  simp only [inXfrc, hs, hd, and_self, if_true]

/-- `ReadStatus` of a control read waits for the OUT side. -/
theorem inXfrc_noAction (h : (s.epAt i).sub = .control .init ∨ (s.epAt i).sub = .control .writeOut ∨
    ((s.epAt i).sub = .control .readStatus ∧ (s.epAt i).reqDir = .d2h) ∨ (∃ bout, (s.epAt i).sub = .bulk .init bout) ∨
    (∃ m, (s.epAt i).sub = .interrupt .init m) ∨ (s.epAt i).sub = .disabled) : inXfrc i s = .next s := by
  obtain hs | hs | ⟨hs, hd⟩ | ⟨bout, hs⟩ | ⟨m, hs⟩ | hs := h
  case inr.inr.inl => simp only [inXfrc, hs, hd, reduceCtorEq, and_false, if_false]
  all_goals simp only [inXfrc, hs]

/-! ## The IN-token mismatch, by the sub-state (41 R158) -/

theorem inIttxfe_data (h : (∃ bout, (s.epAt i).sub = .bulk .init bout) ∨ (∃ m, (s.epAt i).sub = .interrupt .init m)) :
    inIttxfe i s = answered (pollIn i s) := by
  obtain ⟨bout, hs⟩ | ⟨m, hs⟩ := h <;> simp only [inIttxfe, hs]

/-- In `ReadIn` the mismatch reads `.ena` of endpoint 0 and polls only where no packet is in flight (43 R225). -/
theorem inIttxfe_readIn (hm : s.moves = []) (hs : (s.epAt 0).sub = .control .readIn) :
    inIttxfe 0 s = if (s.ri.iepAt 0).ena then .next (logAccess (.read (.iep 0 .ena)) s)
      else answered (ctrlInStep (logAccess (.read (.iep 0 .ena)) s)) := by
  simp only [inIttxfe, hs, if_true, pollIfIdle0, regRead_still _ hm, logAccess_ri]

theorem inIttxfe_noAction (h : (∃ c, c ≠ .readIn ∧ (s.epAt i).sub = .control c) ∨ (∃ n bout, (s.epAt i).sub = .bulk (.busy n) bout) ∨
    (∃ n m, (s.epAt i).sub = .interrupt (.busy n) m) ∨ (s.epAt i).sub = .disabled) : inIttxfe i s = .next s := by
  obtain ⟨c, hc, hs⟩ | ⟨n, bout, hs⟩ | ⟨n, m, hs⟩ | hs := h
  case inl =>
    cases c with
    | readIn => exact absurd rfl hc
    | init | readStatus | writeOut | setAddress => simp only [inIttxfe, hs]
  all_goals simp only [inIttxfe, hs]

end

/-! ## The end of a set-address request, by the timing (43 R231) -/

theorem setAddressDone_deferred {s : State} (hm : s.moves = []) (ht : s.cfg.addrTiming = .deferred) : setAddressDone s = { s with
    ep := s.ep.modify 0 fun e => { e with sub := .control .init },
    ri := { s.ri with
      addr := s.devAddrPending.toNat % 2 ^ s.cfg.addrWidth, oep := s.ri.oep.modify 0 (OutRegs.armedForSetup s.cfg) },
    trace := armForSetupWrites s.cfg ++ .write .addr (s.devAddrPending.toNat % 2 ^ s.cfg.addrWidth) :: s.trace } := by
  rw [setAddressDone, if_pos ht, writeDevAddr, regWrite_still _ _ hm, toInit_eq (by exact hm)]
  simp only [putReg, logAccess, RegIf.write, Nat.mod_mod]

theorem setAddressDone_immediate {s : State} (hm : s.moves = []) (ht : s.cfg.addrTiming = .immediate) : setAddressDone s = { s with
    ep := s.ep.modify 0 fun e => { e with sub := .control .init },
    ri := { s.ri with oep := s.ri.oep.modify 0 (OutRegs.armedForSetup s.cfg) }, trace := armForSetupWrites s.cfg ++ s.trace } := by
  rw [setAddressDone, ht, if_neg (by decide), toInit_eq hm]

/-! ## A condition that asks for the next packet of a control read (43 R225) -/

/-- A condition that calls `in_data(0)` in `ReadIn`, by the Client's answer; `l` is the trace at the call, which a read may precede. -/
theorem exec_inCond_readIn {s : State} {c : InCond} {a : ClientAnswer} {more : List ClientAnswer} {l : List Access}
    (hk : s.clockOn = true) (hm : s.moves = []) (hi : 0 < s.cfg.nEp) (hs : (s.epAt 0).sub = .control .readIn)
    (hc : inCond c 0 s = answered (ctrlInStep { s with trace := l })) :
    (∀ size last bi, Answers a (.respInDataPacket size last) more s → CanSend 0 size.toNat bi s →
      exec (c.instr 0) s =
        .next (inAcknowledged 0 c (ctrlInStarted size.toNat last bi (afterCall (.inData 0) a more { s with trace := l })))) ∧
    (∀ size last bi, Answers a (.respInDataPacket size last) more s → (s.epAt 0).inBuf = some bi →
      bi.len.toNat < size.toNat → exec (c.instr 0) s = .refused .packetTooLong) ∧
    (Answers a .respInDataDelay more s →
      exec (c.instr 0) s = .next (inAcknowledged 0 c (afterCall (.inData 0) a more { s with trace := l }))) ∧
    (Answers a .respInDataError more s →
      exec (c.instr 0) s = .next (inAcknowledged 0 c (ctrlFailed (afterCall (.inData 0) a more { s with trace := l })))) := by
  obtain ⟨hPacket, -, -, hTooLong, -, hDelay, hError, -⟩ :=
    inDataAnswersAct (replied (.inData 0) a more { s with trace := l }) 0 hk hm rfl
  refine ⟨fun size last bi ha h => ?_, fun size last bi ha hb hn => ?_, fun ha => ?_, fun ha => ?_⟩
  · exact exec_inCond_callback_next hk hi hc rfl ha (hPacket size last bi rfl hs { h with }) rfl hm
  · exact exec_inCond_callback_refused hk hi hc rfl ha (hTooLong size last bi (.inl ⟨rfl, hs⟩) hb hn)
  · exact exec_inCond_callback_next hk hi hc rfl ha (hDelay (.inl ⟨rfl, hs⟩)) rfl hm
  · exact exec_inCond_callback_next hk hi hc rfl ha (hError rfl hs) rfl hm

end Sys2Proof.Machine

open Sys2Proof Sys2Proof.Machine

/-- Settles O44: the sub-state chooses what the handler does; in `ReadIn` and in a control write's `ReadStatus` it is the run of the
Client's responses, and the acknowledge follows. -/
theorem inTransferComplete : Obligations.InTransferComplete := by
  intro s i a more hk hm hi
  refine ⟨fun n bout hs => ?_, fun n m hs => ?_, fun h0 hs ht => ?_, fun h0 hs ht => ?_, fun h0 hs => ?_,
    fun a2 rest h0 hs hd ha hmore ha2 => ?_, fun h => ?_⟩
  · exact exec_inCond_next (c := .xfrc) hk hi (inXfrc_bulk hs) hm
  · exact exec_inCond_next (c := .xfrc) hk hi (inXfrc_interrupt hs) hm
  · have h := inXfrc_setAddress hs
    rw [setAddressDone_deferred hm ht] at h
    exact exec_inCond_next (c := .xfrc) hk (h0 ▸ hi) h hm
  · have h := inXfrc_setAddress hs
    rw [setAddressDone_immediate hm ht] at h
    exact exec_inCond_next (c := .xfrc) hk (h0 ▸ hi) h hm
  · exact exec_inCond_readIn (c := .xfrc) (l := s.trace) hk hm (h0 ▸ hi) hs (inXfrc_readIn hs)
  · subst hmore
    exact exec_inCond_next (c := .xfrc) hk (h0 ▸ hi)
      ((inXfrc_readStatus hs hd).trans (answered_statusDone hk hm hs ha ha2)) hm
  · exact exec_inCond_next (c := .xfrc) hk hi (inXfrc_noAction h) hm

/-- Settles O45: where the handler polls it runs the Client's response to `in_data`, and the acknowledge follows unless that is refused. -/
theorem inTokenPollsClient : Obligations.InTokenPollsClient := by
  intro s i a more hk hm hi
  obtain ⟨-, hBulk, hInterrupt, hTooLong, hTooLongInt, hDelay, -, hError⟩ := inDataAnswersAct (replied (.inData i) a more s) i hk hm rfl
  refine ⟨fun bout size last b hs ha h => ?_, fun m size last b hs ha hn h => ?_, fun hs => ⟨fun ha => ?_, fun ha => ?_⟩,
    fun bout size last b hs ha hb hn => ?_, fun m size last hs ha hn => ?_, fun h0 hs he r hr => ?_, fun h0 hs he => ?_, fun h => ?_⟩
  · refine (exec_inCond_callback_next (c := .ittxfe) hk hi (inIttxfe_data (.inl ⟨bout, hs⟩)) rfl ha
      (hBulk size last b bout hs { h with }) rfl hm).trans ?_
    simp only [inAcknowledged, modify_twice]
    rfl
  · refine (exec_inCond_callback_next (c := .ittxfe) hk hi (inIttxfe_data (.inr ⟨m, hs⟩)) rfl ha
      (hInterrupt size last b m hs hn { h with }) rfl hm).trans ?_
    simp only [inAcknowledged, modify_twice]
    rfl
  · exact exec_inCond_callback_next (c := .ittxfe) hk hi (inIttxfe_data hs) rfl ha (hDelay (.inr hs)) rfl hm
  · refine (exec_inCond_callback_next (c := .ittxfe) hk hi (inIttxfe_data hs) rfl ha (hError hs) rfl hm).trans ?_
    simp only [inAcknowledged, modify_twice]
    rfl
  · exact exec_inCond_callback_refused (c := .ittxfe) hk hi (inIttxfe_data (.inl ⟨bout, hs⟩)) rfl ha
      (hTooLong size last b (.inr ⟨bout, hs⟩) hb hn)
  · exact exec_inCond_callback_refused (c := .ittxfe) hk hi (inIttxfe_data (.inr ⟨m, hs⟩)) rfl ha
      (hTooLongInt size last m hs hn)
  · subst hr
    exact exec_inCond_readIn (c := .ittxfe) hk hm (h0 ▸ hi) hs ((inIttxfe_readIn hm hs).trans (if_neg (by simp [he])))
  · exact exec_inCond_next (c := .ittxfe) hk (h0 ▸ hi) ((inIttxfe_readIn hm hs).trans (if_pos he)) hm
  · exact exec_inCond_next (c := .ittxfe) hk hi (inIttxfe_noAction h) hm

end

section
/-! PROOFS. The statements about the FIFO datapath (spec 45_fifo_datapath): packing, the two packet commands, the two partition
commands. -/

namespace Sys2Proof.Machine

/-! ## Packing (45 R272) -/

/-- A byte behind a bit vector: the number moves up by eight bits. -/
theorem toNat_append_byte {n : Nat} (x : BitVec n) (b : Byte) : (x ++ b).toNat = x.toNat * 2 ^ 8 + b.toNat := by
  rw [BitVec.toNat_append, ← Nat.shiftLeft_add_eq_or_of_lt b.isLt, Nat.shiftLeft_eq]

theorem packWord_big (a b c d : Byte) : packWord .big a b c d = (a ++ b ++ c ++ d : BitVec (8 + 8 + 8 + 8)) := by
  apply BitVec.eq_of_toNat_eq
  have ha := a.isLt
  have hb := b.isLt
  have hc := c.isLt
  have hd := d.isLt
  simp only [packWord, BitVec.toNat_ofNat, toNat_append_byte]
  omega

/-- The little-endian word is the big-endian word of the bytes reversed. -/
theorem packWord_little (a b c d : Byte) : packWord .little a b c d = packWord .big d c b a := rfl

/-- Word `k` is made of the bytes from `4 * k` on, zero bytes beyond the end. -/
theorem pack_eq_map (o : ByteOrder) : ∀ bs : List Byte, pack o bs = (List.range (words4 bs.length)).map fun k =>
    packWord o (bs.getD (4 * k) 0) (bs.getD (4 * k + 1) 0) (bs.getD (4 * k + 2) 0) (bs.getD (4 * k + 3) 0)
  | [] => rfl
  | [_] | [_, _] | [_, _, _] => by simp [pack, words4]
  | a :: b :: c :: d :: rest => by
    have hlen : words4 (a :: b :: c :: d :: rest).length = words4 rest.length + 1 := words4_add rest.length
    rw [hlen, List.range_succ_eq_map, List.map_cons, List.map_map, pack, pack_eq_map o rest]
    rfl

/-! ## `WRITE_PACKET` (45 R270) -/

theorem wordsOf_length (b : Buf) (n : Nat) (s : State) : (wordsOf b n s).length = words4 n := by
  simp [wordsOf, pack_length, Memory.bytes]

section
variable {i n : Nat} {b : Buf} {s : State}

/-- With its checks passed `WRITE_PACKET` is its body, answered `Ok`. -/
theorem writePacket_checked (hi : i < s.cfg.nEp) (hb : (s.epAt i).inBuf = some b) (hn : n ≤ b.len.toNat)
    (hr : s.part.reserved i = true) : writePacket i n s = andThen (pushPacket i b n s) fun t => .next (.ok, t) := by
  simp only [writePacket, hi, hb, hn, hr, if_true]

theorem writePacket_rejected (h : s.cfg.nEp ≤ i ∨ (s.epAt i).inBuf = none ∨
    ((s.epAt i).inBuf = some b ∧ b.len.toNat < n) ∨ s.part.reserved i = false) :
    writePacket i n s = .next (.configurationError, s) := by
  obtain h | h | ⟨h, hn⟩ | h := h
  · exact if_neg (Nat.not_lt.mpr h)
  · simp only [writePacket, h, ite_self]
  · simp only [writePacket, h, Nat.not_le.mpr hn, if_false, ite_self]
  · cases hb : (s.epAt i).inBuf <;> simp [writePacket, hb, h]

/-- A packet larger than its whole FIFO is refused before anything else. -/
theorem pushPacket_tooLarge (h : partSize (s.part.tx.getD i none) < words4 n) : pushPacket i b n s = .refused .fifoCapacity :=
  if_pos h

/-! ## `READ_PACKET` (45 R271) -/

/-- With its checks passed `READ_PACKET` is its body, answered `Ok`. -/
theorem readPacket_checked (hi : i < s.cfg.nEp) (hb : (s.epAt i).outBuf = some b) (hn : n ≤ b.len.toNat) :
    readPacket i n s = andThen (popPacket b n s) fun t => .next (.ok, t) := by
  simp only [readPacket, hi, hb, hn, if_true]

theorem readPacket_rejected (h : s.cfg.nEp ≤ i ∨ (s.epAt i).outBuf = none ∨ ((s.epAt i).outBuf = some b ∧ b.len.toNat < n)) :
    readPacket i n s = .next (.configurationError, s) := by
  obtain h | h | ⟨h, hn⟩ := h
  · exact if_neg (Nat.not_lt.mpr h)
  · simp only [readPacket, h, ite_self]
  · simp only [readPacket, h, Nat.not_le.mpr hn, if_false, ite_self]

/-! ## The partition commands (45 R274 to R276) -/

/-- Outside the phase the partition is closed. -/
theorem partitionOpen_eq_false (h : s.ctrl ≠ .initialized ∨ ∃ e ∈ s.ep, e.sub ≠ .disabled) : partitionOpen s = false := by
  obtain h | ⟨e, he, hs⟩ := h
  · simp [partitionOpen, h]
  · have hall : (s.ep.all fun e => e.sub == .disabled) = false := List.all_eq_false.mpr ⟨e, he, by simpa using hs⟩
    rw [partitionOpen, hall, Bool.and_false]

theorem setRxFifo_open (h : partitionOpen s = true) : setRxFifo n s = layoutRx n s := if_pos h

theorem setRxFifo_closed (h : partitionOpen s = false) : setRxFifo n s = .refused .partitionClosed := if_neg (ne_true_of_eq_false h)

theorem setTxFifo_open (h : partitionOpen s = true) : setTxFifo i n s = layoutTx i n s := if_pos h

theorem setTxFifo_closed (h : partitionOpen s = false) : setTxFifo i n s = .refused .partitionClosed := if_neg (ne_true_of_eq_false h)

theorem layoutRx_tooLarge (h : s.cfg.fifoRamWords < n) : layoutRx n s = .next (.configurationError, s) := if_neg (Nat.not_le.mpr h)

theorem layoutTx_tooLarge (hi : i < s.cfg.nEp) (ho : nextInOrder i s.part = true)
    (h : s.cfg.fifoRamWords < layoutOffset i s.part + n) : layoutTx i n s = .next (.configurationError, s) := by
  rw [layoutTx, if_pos hi, if_pos ho, if_neg (Nat.not_le.mpr h)]

theorem layoutTx_outOfOrder (hi : i < s.cfg.nEp) (ho : nextInOrder i s.part = false) :
    layoutTx i n s = .refused .partitionOrder := by
  rw [layoutTx, if_pos hi, if_neg (ne_true_of_eq_false ho)]

/-- A receive FIFO that fits is written and begins a new layout. -/
theorem layoutRx_fits (hk : s.clockOn = true) (hm : s.moves = []) (hn : n ≤ s.cfg.fifoRamWords) :
    layoutRx n s = .next (.ok, { s with
      ri := { s.ri with rxfSize := n }, part := { rxSize := some n, tx := s.part.tx.map fun _ => none },
      trace := .write .rxfSize n :: s.trace }) := by
  rw [layoutRx, if_pos hn, clocked_on hk, regWrite_still _ _ hm]
  simp only [putReg, RegIf.write, inFifoRam_eq hn]
  rfl

end

theorem getD_of_lt {α : Type} {l : List α} {i : Nat} (d : α) (h : i < l.length) : l.getD i d = l[i] := by
  rw [List.getD_eq_getElem?_getD, List.getElem?_eq_getElem h, Option.getD_some]

/-- The entries below `i` are all there. -/
theorem all_isSome_take {α : Type} {l : List (Option α)} {i : Nat} (hi : i ≤ l.length) :
    (l.take i).all Option.isSome = true ↔ ∀ j, j < i → l.getD j none ≠ none := by
  rw [List.all_eq_true]
  constructor
  · intro h j hj
    have hlt : j < l.length := Nat.lt_of_lt_of_le hj hi
    rw [getD_of_lt none hlt]
    exact Option.isSome_iff_ne_none.mp (h _ (List.mem_take_iff_getElem.mpr ⟨j, by omega, rfl⟩))
  · intro h x hx
    obtain ⟨j, hj, rfl⟩ := List.mem_take_iff_getElem.mp hx
    rw [← getD_of_lt none]
    exact Option.isSome_iff_ne_none.mpr (h j (by omega))

/-- The entries from `i` on are all missing. -/
theorem all_isNone_drop {α : Type} {l : List (Option α)} {i : Nat} :
    (l.drop i).all Option.isNone = true ↔ ∀ j, i ≤ j → l.getD j none = none := by
  rw [List.all_eq_true]
  constructor
  · intro h j hj
    by_cases hlt : j < l.length
    · obtain ⟨m, rfl⟩ := Nat.exists_eq_add_of_le hj
      rw [getD_of_lt none hlt]
      exact Option.isNone_iff_eq_none.mp (h _ (List.mem_drop_iff_getElem.mpr ⟨m, by omega, rfl⟩))
    · rw [List.getD_eq_getElem?_getD, List.getElem?_eq_none (Nat.not_lt.mp hlt), Option.getD_none]
  · intro h x hx
    obtain ⟨j, hj, rfl⟩ := List.mem_drop_iff_getElem.mp hx
    rw [← getD_of_lt none]
    exact Option.isNone_iff_eq_none.mpr (h (i + j) (Nat.le_add_right i j))

/-- The order condition entry by entry. -/
theorem nextInOrder_iff {i : Nat} {p : FifoPart} (hi : i ≤ p.tx.length) : nextInOrder i p = true ↔
    p.rxSize ≠ none ∧ (∀ j, j < i → p.tx.getD j none ≠ none) ∧ ∀ j, i ≤ j → p.tx.getD j none = none := by
  rw [nextInOrder, Bool.and_eq_true, Bool.and_eq_true, all_isSome_take hi, all_isNone_drop, Option.isSome_iff_ne_none, and_assoc]

/-- Out of order in each of the three ways. -/
theorem nextInOrder_eq_false {i : Nat} {p : FifoPart} (hi : i ≤ p.tx.length) (h : p.rxSize = none ∨
    (∃ j, j < i ∧ p.tx.getD j none = none) ∨ ∃ j, i ≤ j ∧ p.tx.getD j none ≠ none) : nextInOrder i p = false := by
  refine Bool.eq_false_iff.mpr fun ho => ?_
  obtain ⟨hrx, hbelow, habove⟩ := (nextInOrder_iff hi).mp ho
  obtain h | ⟨j, hj, h⟩ | ⟨j, hj, h⟩ := h
  · exact hrx h
  · exact hbelow j hj h
  · exact h (habove j hj)

end Sys2Proof.Machine

open Sys2Proof Sys2Proof.Machine

/-- Settles O26: the words of `Pack` in closed form, each the append of its four bytes. -/
theorem packAndUnpack : Obligations.PackAndUnpack := by
  refine ⟨fun bs => ⟨?_, ?_⟩, packetByte_pack⟩
  · simp only [pack_eq_map, packWord_big]
  · simp only [pack_eq_map, packWord_little, packWord_big]

/-- Settles O27: past the checks the packet's words are pushed in order; the capacity test comes before any push. -/
theorem writePacketPushesWords : Obligations.WritePacketPushesWords := by
  intro s k n b
  refine ⟨fun hk hm hi h => ⟨?_, wordsOf_length b n.toNat s⟩, fun h => ?_, fun hi hb hn hr hcap => ?_⟩
  · have hrun := (writePacket_checked hi h.buf h.fits h.reserved).trans
      (congrArg (andThen · _) (pushPacket_next h.capacity h.space hk hm))
    exact congrArg finish hrun
  · exact finish_configurationError (writePacket_rejected h)
  · have hrun := (writePacket_checked hi hb hn hr).trans (congrArg (andThen · _) (pushPacket_tooLarge hcap))
    exact congrArg finish hrun

/-- Settles O28: past the checks the packet is copied word by word (`popPacket_next`). -/
theorem readPacketStoresBytes : Obligations.ReadPacketStoresBytes := by
  intro s k n b ws rest
  refine ⟨fun hk hi hb hn hsp hp hw => ?_, fun h => finish_configurationError (readPacket_rejected h)⟩
  obtain ⟨m, c, hpop, hstored, hbytes⟩ := popPacket_next hk hsp hp hw.1
  have hrun := (readPacket_checked hi hb hn).trans (congrArg (andThen · _) hpop)
  exact ⟨_, congrArg finish hrun, rfl, hbytes, hstored.other⟩

/-- Settles O30: the phase is tested first, then the size against FIFO RAM. -/
theorem setReceiveFifo : Obligations.SetReceiveFifo := by
  intro s n
  refine ⟨fun hc he => ?_, fun h => congrArg finish (setRxFifo_closed (partitionOpen_eq_false h))⟩
  have hopen := partitionOpen_of hc he
  exact ⟨fun hn hk hm => congrArg finish ((setRxFifo_open hopen).trans (layoutRx_fits hk hm hn)),
    fun hn => finish_configurationError ((setRxFifo_open hopen).trans (layoutRx_tooLarge hn))⟩

/-- Settles O31: after the phase, the order condition entry by entry (`nextInOrder_iff`), then the end of the FIFOs below against
FIFO RAM. -/
theorem setTransmitFifo : Obligations.SetTransmitFifo := by
  intro s k n r
  refine ⟨fun hc he hi hlen => ?_, fun h => congrArg finish (setTxFifo_closed (partitionOpen_eq_false h))⟩
  have hopen := partitionOpen_of hc he
  have hle : k.toNat ≤ s.part.tx.length := by omega
  refine ⟨fun hrx hbelow habove => ?_, fun h => ?_⟩
  · have hord : nextInOrder k.toNat s.part = true := (nextInOrder_iff hle).mpr ⟨by simp [hrx], hbelow, habove⟩
    have hoff : layoutOffset k.toNat s.part = r + ((s.part.tx.take k.toNat).map partSize).sum := by rw [layoutOffset, hrx]; rfl
    simp only [← hoff]
    refine ⟨fun hfit hk hm => ?_, fun hfit => ?_⟩
    · obtain ⟨u, hu, -⟩ := layoutTx_fits hk hi hord hfit
      obtain rfl := layoutTx_still hm hu
      exact congrArg finish ((setTxFifo_open hopen).trans hu)
    · exact finish_configurationError ((setTxFifo_open hopen).trans (layoutTx_tooLarge hi hord hfit))
  · exact congrArg finish ((setTxFifo_open hopen).trans (layoutTx_outOfOrder hi (nextInOrder_eq_false hle h)))

end

section
/-! PROOFS. The statements about errors and exceptions (spec 60_exceptions): what a command that fails leaves, who makes no callback,
and the steps between operations. -/

namespace Sys2Proof.Machine

/-! ## A command ends in `Ok` or as it began (60 R301, R304, R312) -/

/-- What a command other than `ENABLE full` may come to before its result word is shown: the state it began in, or `Ok` with the
client port as it was. -/
def OkOrUnchanged (s : State) (p : Res × State) : Prop := p.2 = s ∨ p.1 = .ok ∧ p.2.client = s.client

theorem OkOrUnchanged.error (r : Res) (s : State) : OkOrUnchanged s (r, s) := .inl rfl

theorem OkOrUnchanged.ok {s t : State} (h : t.client = s.client) : OkOrUnchanged s (.ok, t) := .inr ⟨rfl, h⟩

theorem OkOrUnchanged.client {s : State} {p : Res × State} (h : OkOrUnchanged s p) : p.2.client = s.client :=
  h.elim (congrArg State.client) And.right

/-- `OkOrUnchanged` with the result word shown. -/
def AnsweredOkOrUnchanged (s t : State) : Prop := ∃ p, OkOrUnchanged s p ∧ t = answer p.1 p.2

theorem AnsweredOkOrUnchanged.ok {s t : State} (h : t.client = s.client) : AnsweredOkOrUnchanged s (answer .ok t) :=
  ⟨(.ok, t), .ok h, rfl⟩

theorem AnsweredOkOrUnchanged.client {s t : State} (h : AnsweredOkOrUnchanged s t) : t.client = s.client := by
  obtain ⟨p, hp, rfl⟩ := h
  exact hp.client

/-- An error shown stands over the state the command began in. -/
theorem AnsweredOkOrUnchanged.eq_answer_of_error {s t : State} {r : Res} (h : AnsweredOkOrUnchanged s t) (hr : t.result = some r)
    (he : r ≠ .ok) : t = answer r s := by
  obtain ⟨⟨q, u⟩, hp, rfl⟩ := h
  obtain rfl : q = r := Option.some.inj hr
  rcases hp with rfl | ⟨hok, -⟩
  · rfl
  · exact absurd hok he

theorem finish_okOrUnchanged {s : State} {x : M (Res × State)} (h : Ends (OkOrUnchanged s) x) :
    Ends (AnsweredOkOrUnchanged s) (finish x) :=
  h.andThen fun p hp => .next ⟨p, hp, rfl⟩

/-- An operation that leaves the client port as it was in `s`. -/
abbrev KeepsClient (s : State) : M State → Prop := Ends fun t => t.client = s.client

/-- A body that keeps the client port, answered `Ok`. -/
theorem KeepsClient.okOrUnchanged {s : State} {x : M State} (h : KeepsClient s x) :
    Ends (OkOrUnchanged s) (andThen x fun t => .next (.ok, t)) :=
  h.andThen fun _ ht => .next (.ok ht)

/-! ## Packets and the client port -/

theorem takeHead_client (status any : Bool) (s : State) : (takeHead status any s).2.client = s.client := by
  simp only [takeHead]
  split
  · rfl
  · split <;> rfl

theorem popWords_client : ∀ (m a n : Nat) (s : State), (popWords m a n s).client = s.client
  | 0, _, _, _ => rfl
  | m + 1, a, n, s => by
    have hstore : ∀ w u, (storeWord a n w u).client = u.client := fun w u => by
      obtain ⟨mem, c, e, -, -⟩ := storeWord_eq a n w u
      rw [e]
    rw [popWords, popWords_client, hstore, rxPop, takeHead_client]
    rfl

theorem popPacket_keepsClient (b : Buf) (n : Nat) (s : State) : KeepsClient s (popPacket b n s) :=
  .ite (.clocked (.next (popWords_client _ _ _ s))) (.fault _)

theorem pushAll_client (i : Nat) : ∀ (ws : List Word) (s : State), (pushAll i ws s).client = s.client
  | [], _ => rfl
  | w :: ws, s => pushAll_client i ws (txPush i w s)

theorem pushPacket_keepsClient (i : Nat) (b : Buf) (n : Nat) (s : State) : KeepsClient s (pushPacket i b n s) :=
  .ite (.refused _) (.ite (.clocked (.next (pushAll_client _ _ s))) (.fault _))

/-! ## The commands -/

theorem setAddress_answers (a : BitVec 16) (s : State) : Ends (AnsweredOkOrUnchanged s) (execSetAddress a s) := by
  unfold execSetAddress
  split
  · exact .next (.ok rfl)
  · exact .clocked (.next (.ok rfl))

theorem startControl0_client (s : State) : (startControl0 s).client = s.client := by
  rw [startControl0_eq]

theorem activateIn0_client (s : State) : (activateIn0 s).client = s.client := by
  simp only [activateIn0]
  rw [startControl0_client]
  split <;> rfl

theorem activateOut0_client (s : State) : (activateOut0 s).client = s.client := by
  simp only [activateOut0]
  rw [startControl0_client]
  split <;> rfl

theorem activateInRegs_client (i : Nat) (t : TType) (n : BitVec 16) (s : State) : (activateInRegs i t n s).client = s.client := by
  simp only [activateInRegs, regWrite_client, setSub_client]

theorem activateOutRegs_client (i : Nat) (t : TType) (n : BitVec 16) (s : State) : (activateOutRegs i t n s).client = s.client := by
  simp only [activateOutRegs, regWrite_client, setSub_client]

theorem activateIn_okOrUnchanged (t : TType) (i : Nat) (s : State) : Ends (OkOrUnchanged s) (activateIn t i s) := by
  refine .ite (.ite (.next (.error _ s)) ?_) (.next (.error _ s))
  split
  · exact .next (.error _ s)
  · exact .ite (.refused _) (.ite (.clocked (.next (.ok (activateIn0_client s)))) (.ite (.refused _)
      (.ite (.ite (.clocked (.next (.ok (activateInRegs_client i t _ s)))) (.refused _)) (.next (.error _ s)))))

theorem armOut_keepsClient (i : Nat) (s : State) : KeepsClient s (armOut i s) := by
  unfold armOut
  split
  · exact .refused _
  · exact .clocked (.next (programOut_client _ _ s))

theorem activateOut_okOrUnchanged (t : TType) (i : Nat) (s : State) : Ends (OkOrUnchanged s) (activateOut t i s) := by
  refine .ite (.ite (.next (.error _ s)) ?_) (.next (.error _ s))
  split
  · exact .next (.error _ s)
  · exact .ite (.refused _) (.ite (.clocked (.next (.ok (activateOut0_client s)))) (.ite (.refused _) (.ite (.refused _)
      (.ite (.clocked ((armOut_keepsClient i _).andThen fun _ hu => .next (.ok (hu.trans (activateOutRegs_client i t _ s)))))
        (.refused _)))))

theorem onEndpoint_okOrUnchanged {i : Nat} {f : State → State} {s : State} (h : (f s).client = s.client) :
    Ends (OkOrUnchanged s) (onEndpoint i f s) :=
  .ite (.clocked (.next (.ok h))) (.next (.error _ s))

theorem dropInSide_client (i : Nat) (s : State) : (dropInSide i s).client = s.client := by
  simp only [dropInSide, disableBoth]
  split <;> simp only [setPending_client, setSub_client, regRead_client, regWrite_client]

theorem dropOutSide_client (i : Nat) (s : State) : (dropOutSide i s).client = s.client := by
  have hsub : ∀ u, (dropOutSub i u).client = u.client := fun u => by
    simp only [dropOutSub]
    split <;> rfl
  simp only [dropOutSide, disableBoth]
  split <;> simp only [setPending_client, setSub_client, regRead_client, hsub, regWrite_client]

theorem clearStallInRegs_client (i : Nat) (s : State) : (clearStallInRegs i s).client = s.client := by
  simp only [clearStallInRegs]
  split <;> rfl

theorem clearStallOutRegs_client (i : Nat) (s : State) : (clearStallOutRegs i s).client = s.client := by
  simp only [clearStallOutRegs]
  split <;> rfl

theorem layoutRx_okOrUnchanged (n : Nat) (s : State) : Ends (OkOrUnchanged s) (layoutRx n s) :=
  .ite (.clocked (.next (.ok rfl))) (.next (.error _ s))

theorem layoutTx_okOrUnchanged (i n : Nat) (s : State) : Ends (OkOrUnchanged s) (layoutTx i n s) :=
  .ite (.ite (.ite (.clocked (.next (.ok rfl))) (.next (.error _ s))) (.refused _)) (.next (.error _ s))

theorem writePacket_okOrUnchanged (i n : Nat) (s : State) : Ends (OkOrUnchanged s) (writePacket i n s) := by
  refine .ite ?_ (.next (.error _ s))
  split
  · exact .next (.error _ s)
  · exact .ite (.ite (pushPacket_keepsClient i _ n s).okOrUnchanged (.next (.error _ s))) (.next (.error _ s))

theorem readPacket_okOrUnchanged (i n : Nat) (s : State) : Ends (OkOrUnchanged s) (readPacket i n s) := by
  refine .ite ?_ (.next (.error _ s))
  split
  · exact .next (.error _ s)
  · exact .ite (popPacket_keepsClient _ n s).okOrUnchanged (.next (.error _ s))

/-- Every command but `ENABLE full` tests all it can answer an error for before its first change. -/
theorem command_answers {i : Instr} (hc : isCommand i) (he : i ≠ .enable .full) (s : State) :
    Ends (AnsweredOkOrUnchanged s) (exec i s) := by
  obtain ⟨hport, hirq⟩ := hc
  cases i with
  | enable v =>
    cases v with
    | low => exact .next ⟨(.unsupportedFeature, s), .error _ s, rfl⟩
    | full => exact absurd rfl he
  | start => exact .ite (.clocked (.next (.ok rfl))) (.refused _)
  | detach => exact .ite (.clocked (.next (.ok rfl))) (.refused _)
  | setAddress a => exact setAddress_answers a s
  | assignCtrlBuf n b => exact finish_okOrUnchanged (.ite (.ite (.next (.ok rfl)) (.refused _)) (.next (.error _ s)))
  | assignInBuf k n b =>
    exact finish_okOrUnchanged (.ite (.ite (.ite (.next (.ok rfl)) (.refused _)) (.next (.error _ s))) (.next (.error _ s)))
  | assignOutBuf k n b =>
    exact finish_okOrUnchanged (.ite (.ite (.ite (.next (.ok rfl)) (.refused _)) (.next (.error _ s))) (.next (.error _ s)))
  | activateEpIn k t => exact finish_okOrUnchanged (activateIn_okOrUnchanged t _ s)
  | activateEpOut k t => exact finish_okOrUnchanged (activateOut_okOrUnchanged t _ s)
  | disableEpIn k => exact finish_okOrUnchanged (onEndpoint_okOrUnchanged (dropInSide_client _ s))
  | disableEpOut k => exact finish_okOrUnchanged (onEndpoint_okOrUnchanged (dropOutSide_client _ s))
  | stallEpIn k => exact finish_okOrUnchanged (onEndpoint_okOrUnchanged rfl)
  | stallEpOut k => exact finish_okOrUnchanged (onEndpoint_okOrUnchanged rfl)
  | clearStallIn k => exact finish_okOrUnchanged (onEndpoint_okOrUnchanged (clearStallInRegs_client _ s))
  | clearStallOut k => exact finish_okOrUnchanged (onEndpoint_okOrUnchanged (clearStallOutRegs_client _ s))
  | setRxFifo n => exact finish_okOrUnchanged (.ite (layoutRx_okOrUnchanged _ s) (.refused _))
  | setTxFifo k n => exact finish_okOrUnchanged (.ite (layoutTx_okOrUnchanged _ _ s) (.refused _))
  | writePacket k n => exact finish_okOrUnchanged (writePacket_okOrUnchanged _ _ s)
  | readPacket k n => exact finish_okOrUnchanged (readPacket_okOrUnchanged _ _ s)
  | irq => exact absurd rfl hirq
  | _ => cases hport

/-! ## `ENABLE` and the client port (40 R120 to R124) -/

/-- The same as `KeepsClient` of a command before its result word is shown. -/
abbrev KeepsClientRes (s : State) : M (Res × State) → Prop := Ends fun p => p.2.client = s.client

theorem readSelfClear_client (f : Field) (s : State) : (readSelfClear f s).2.client = s.client := by
  simp only [readSelfClear]
  split <;> rfl

theorem pollUntil_client {rd : State → Nat × State} (h : ∀ s, (rd s).2.client = s.client) (v n : Nat) (s : State) :
    (pollUntil rd v n s).2.client = s.client :=
  pollUntil_keeps (P := fun u => u.client = s.client) (fun u hu => (h u).trans hu) v n rfl

theorem pollSelfClear_client (f : Field) (v n : Nat) (s : State) : (pollUntil (readSelfClear f) v n s).2.client = s.client :=
  pollUntil_client (readSelfClear_client f) v n s

theorem coreSoftReset_client (s : State) : (coreSoftReset s).2.client = s.client := by
  have hidle := pollUntil_client (rd := readIdle) (fun _ => rfl) 1 s.cfg.retryCeiling s
  simp only [coreSoftReset]
  split
  · split <;> exact (pollSelfClear_client _ _ _ _).trans hidle
  · exact hidle

theorem flushFifos_client (s : State) : (flushFifos s).2.client = s.client := by
  have htx := pollSelfClear_client .txfFlush 0 s.cfg.retryCeiling (regWrite .txfFlush 1 s)
  simp only [flushFifos]
  split
  · split <;> exact (pollSelfClear_client _ _ _ _).trans htx
  · exact htx

theorem initEndpointRegs_client (s : State) (i : Nat) : (initEndpointRegs s i).client = s.client := by
  simp only [initEndpointRegs, clearOutFlags, clearInFlags, InCond.order, OutCond.order, List.foldl_cons, List.foldl_nil,
    regWrite_client]

theorem setBaselineMask_client (s : State) : (setBaselineMask s).client = s.client := by
  simp only [setBaselineMask, Source.listing, List.foldl_cons, List.foldl_nil, regWrite_client]

theorem initEndpoints_client : ∀ (l : List Nat) (s : State), (l.foldl initEndpointRegs s).client = s.client
  | [], _ => rfl
  | i :: l, s => by rw [List.foldl_cons, initEndpoints_client l, initEndpointRegs_client]

theorem deviceInit_client (s : State) : (deviceInit s).2.client = s.client := by
  have hflush := (flushFifos_client _).trans (initEndpoints_client (List.range s.cfg.nEp) s)
  simp only [deviceInit]
  split
  · exact (setBaselineMask_client _).trans hflush
  · exact hflush

theorem layoutTxAll_keepsClient : ∀ (l : List Nat) (s : State), KeepsClientRes s (layoutTxAll l s)
  | [], _ => .next rfl
  | i :: l, s => (layoutTx_okOrUnchanged i _ s).andThen fun p hp =>
    .ite (fun q hq => (layoutTxAll_keepsClient l p.2 q hq).trans hp.client) (.next hp.client)

theorem initFifos_keepsClient (s : State) : KeepsClientRes s (initFifos s) :=
  (layoutRx_okOrUnchanged _ s).andThen fun p hp =>
    .ite (fun q hq => (layoutTxAll_keepsClient _ p.2 q hq).trans hp.client) (.next hp.client)

theorem enableFromDisabled_keepsClient (s : State) : KeepsClientRes s (enableFromDisabled s) := by
  have hreset : (coreSoftReset (enablePrelude s)).2.client = s.client := coreSoftReset_client _
  have hinit := (deviceInit_client (regWrite .devRole 1 (coreSoftReset (enablePrelude s)).2)).trans hreset
  exact .ite (.ite ((initFifos_keepsClient _).andThen fun p hp => .ite (.next (hp.trans hinit)) (.next (hp.trans hinit)))
    (.next hinit)) (.next hreset)

/-- No command makes a callback (60 R316). -/
theorem command_keepsClient {i : Instr} (hc : isCommand i) (s : State) : KeepsClient s (exec i s) := by
  by_cases he : i = .enable .full
  · subst he
    have hcore : KeepsClientRes s (enableCore .full s) := .ite (enableFromDisabled_keepsClient s) (.next rfl)
    exact hcore.andThen fun _ hp => .next hp
  · exact fun t ht => (command_answers hc he s t ht).client

/-! ## Receive entries, sources and conditions that make no callback (41 R144, R173) -/

theorem rxDataUpdate_keepsClient (e : Nat) (n : BitVec 16) (s : State) : KeepsClient s (rxDataUpdate e n s) := by
  have hcopy : ∀ b, KeepsClient s (if n = 0 then .next s else popPacket b n.toNat s) := fun b =>
    .ite (.next rfl) (popPacket_keepsClient b _ s)
  unfold rxDataUpdate
  split
  · exact .refused _
  · exact .ite ((hcopy _).andThen fun _ hu => .next hu) (.refused _)

theorem rxSetupUpdate_keepsClient (e : Nat) (n : BitVec 16) (s : State) : KeepsClient s (rxSetupUpdate e n s) := by
  unfold rxSetupUpdate
  split
  · exact .refused _
  · exact .ite ((popPacket_keepsClient _ _ s).andThen fun _ hu => .next hu) (.fault _)

/-- No receive entry makes a callback. -/
theorem receiveEntry_keepsClient {i : Instr} {l : Layout} (hp : (encode l i).1 = .rxsts) (s : State) : KeepsClient s (exec i s) := by
  cases i with
  | rxDataUpdate e n d => exact rxDataUpdate_keepsClient _ _ s
  | rxSetupUpdate e n d => exact rxSetupUpdate_keepsClient _ _ s
  | rxSetupComplete e n d => exact .next rfl
  | _ => cases hp

theorem rxBranch_keepsClient (w : Word) (s : State) : KeepsClient s (rxBranch w s) :=
  .ite (.next rfl) (.ite (rxDataUpdate_keepsClient _ _ s) (.ite (rxSetupUpdate_keepsClient _ _ s) (.next rfl)))

/-- The handler of the receive FIFO level pops one entry, in the bracket of its mask bit. -/
theorem handleRxflvl_keepsClient (s : State) : KeepsClient s (handleRxflvl s) :=
  (rxBranch_keepsClient _ _).andThen fun _ hu => .next (hu.trans (takeHead_client _ _ _))

/-- Enumeration-done activates both sides of endpoint 0 and arms it. -/
theorem handleEnumdne_keepsClient (s : State) : KeepsClient s (handleEnumdne s) :=
  (activateIn_okOrUnchanged _ 0 _).andThen fun p hp =>
    .ite ((activateOut_okOrUnchanged _ 0 p.2).andThen fun q hq =>
      .ite (.next ((armCtrlOut_client q.2).trans (hq.client.trans hp.client))) (.refused _)) (.refused _)

/-- The handlers of the sources other than `oepint`, `iepint` and `usbrst` make no callback. -/
theorem handler_keepsClient {x : Source} (ho : x ≠ .oepint) (hi : x ≠ .iepint) (hu : x ≠ .usbrst) (s : State) :
    KeepsClient s (handler x s) := by
  cases x with
  | rxflvl => exact handleRxflvl_keepsClient s
  | enumdne => exact handleEnumdne_keepsClient s
  | oepint => exact absurd rfl ho
  | iepint => exact absurd rfl hi
  | usbrst => exact absurd rfl hu
  | _ => exact .next rfl

/-- A source's instruction is its handler and its acknowledge, with the clock on. -/
theorem exec_source (x : Source) (s : State) : exec x.instr s = clocked s (serve x s) := by
  cases x <;> rfl

/-- What follows the handler of a condition without an action is one register write. -/
theorem onRegs_acknowledge_keepsClient (i : Nat) (f : Field) (s : State) : KeepsClient s (onRegs i s (.next (regWrite f 1 s))) :=
  .ite (.clocked (.next rfl)) (.fault _)

/-! ## The interrupt line and the inbox (60 R311, R313, R314) -/

theorem irqLine_iff {s : State} : irqLine s = true ↔ s.ri.gintEn = true ∧ s.ri.status s.cfg.layout &&& s.ri.intmsk ≠ 0 := by
  simp [irqLine, pendingOf]

theorem irqLine_eq_false {s : State} (h : s.ri.gintEn = false ∨ s.ri.status s.cfg.layout &&& s.ri.intmsk = 0) :
    irqLine s = false := by
  refine Bool.eq_false_iff.mpr fun hl => ?_
  obtain ⟨hg, hp⟩ := irqLine_iff.mp hl
  exact h.elim (fun h => by simp [h] at hg) hp

/-- With the clock off the dispatcher is refused (40 R130, 41 R140). -/
theorem exec_irq_clockOff {s : State} (h : s.clockOn = false) : exec .irq s = .refused .clockOff := clocked_off h _

/-- A step that is the dispatcher, so refused with the clock off. -/
theorem step_irq {s : State} (h : step s = exec .irq s) :
    step s = exec .irq s ∧ (s.clockOn = false → step s = .refused .clockOff) :=
  ⟨h, fun hk => h.trans (exec_irq_clockOff hk)⟩

theorem step_of_inbox_nil {s : State} (h : s.inbox = []) : step s = idle s := by
  simp only [step, nextOperation, h]

theorem step_of_inbox_cons {s : State} {x : Input} {rest : List Input} (h : s.inbox = x :: rest) : step s = takeInput x rest s := by
  simp only [step, nextOperation, h]

theorem idle_irq {s : State} (hl : irqLine s = true) (ho : s.client.outstanding = none) : idle s = exec .irq s := by
  simp [idle, hl, ho]

theorem idle_nothing {s : State} (h : irqLine s = false ∨ s.client.outstanding ≠ none) : idle s = .next s := by
  rcases h with h | h
  · simp [idle, h]
  · simp [idle, Option.isNone_eq_false_iff.mpr (Option.isSome_iff_ne_none.mpr h)]

theorem takePort_held {s : State} {p : Port} (ws : List Word) (rest : List Input) (ho : s.client.outstanding ≠ none) (hp : p ≠ .resp) :
    takePort p ws rest s = .refused .insideCallback :=
  if_pos (by simp [heldByCallback, Option.isSome_iff_ne_none.mpr ho, hp])

theorem takeEvent_held {s : State} (e : Event) (rest : List Input) (ho : s.client.outstanding ≠ none) :
    takeEvent e rest s = .refused .insideCallback :=
  if_pos (Option.isSome_iff_ne_none.mpr ho)

theorem takeInterrupts_irq {s : State} (rest : List Input) (ho : s.client.outstanding = none) (hl : irqLine s = true) :
    takeInterrupts rest s = exec .irq s := by
  simp [takeInterrupts, ho, hl]

theorem takeInterrupts_done {s : State} (rest : List Input) (ho : s.client.outstanding = none) (hl : irqLine s = false) :
    takeInterrupts rest s = .next { s with inbox := rest } := by
  simp [takeInterrupts, ho, hl]

/-! ## Events of the reference environment (20_memory R81) -/

/-- An event outside a callback leaves what its moves make of the Register Interface, `r`, and puts what follows it first. -/
theorem step_event {s : State} {e : Event} {rest : List Input} {r : RegIf} (hin : s.inbox = .event e :: rest)
    (ho : s.client.outstanding = none) (hr : s.ri.moved s.cfg.layout (e.moves s) = r) :
    step s = .next { s with ri := r, inbox := e.follow s.cfg.layout ++ rest } := by
  subst hr
  simp [step_of_inbox_cons hin, takeInput, takeEvent, ho]

theorem isLevel_eq_false {x : Source} (hr : x ≠ .rxflvl) (ho : x ≠ .oepint) (hi : x ≠ .iepint) : isLevel x = false := by
  cases x with
  | rxflvl => exact absurd rfl hr
  | oepint => exact absurd rfl ho
  | iepint => exact absurd rfl hi
  | _ => rfl

section
variable (s : State)

theorem moved_src {x : Source} (h : isLevel x = false) : s.ri.moved s.cfg.layout ((Event.src x).moves s) =
    { s.ri with intsts := s.ri.intsts ||| bitMask (s.cfg.layout.bit x) } := by
  rw [Event.moves, h]
  rfl

theorem moved_rx (k code : BitVec 4) (bytes : List Byte) : s.ri.moved s.cfg.layout ((Event.rx k code bytes).moves s) =
    { s.ri with rxq := s.ri.rxq ++ .status (rxWord s.cfg.layout code.toNat k (BitVec.ofNat 11 bytes.length) 0) ::
      (if code.toNat = s.cfg.layout.dataUpdate ∨ code.toNat = s.cfg.layout.setupUpdate
        then (pack s.cfg.byteOrder bytes).map .data else []) } := by
  simp only [Event.moves, rxEntry, RegIf.moved, List.foldl_cons, List.foldl_nil, RiMove.apply, apply_ite (List.map RxItem.data),
    List.map_nil]

theorem moved_oep (i : Nat) (c : OutCond) : s.ri.moved s.cfg.layout ((Event.oep i c).moves s) =
    { s.ri with oep := s.ri.oep.modify i fun r => { r with
      int := r.int ||| bitMask (s.cfg.layout.outBit c), ena := if c = .xfrc ∨ c = .stup then false else r.ena } } := by
  by_cases h : c = .xfrc ∨ c = .stup
  · simp only [Event.moves, if_pos h, RegIf.moved, List.foldl_cons, List.foldl_nil, RiMove.apply, modify_twice]
  · simp only [Event.moves, if_neg h, RegIf.moved, List.foldl_cons, List.foldl_nil, RiMove.apply]

/-- An entry of which as many items are dropped as it has is empty. -/
theorem modify_drop_all (q : List (List Word)) (i : Nat) : q.modify i (List.drop (q.getD i []).length) = q.modify i fun _ => [] :=
  modify_congr _ _ _ _ fun x hx => by simp [hx]

theorem moved_iep (i : Nat) (c : InCond) : s.ri.moved s.cfg.layout ((Event.iep i c).moves s) =
    { s.ri with
      iep := s.ri.iep.modify i fun r => { r with
        int := r.int ||| bitMask (s.cfg.layout.inBit c), ena := if c = .xfrc then false else r.ena },
      txq := if c = .xfrc then s.ri.txq.modify i fun _ => [] else s.ri.txq } := by
  by_cases h : c = .xfrc
  · simp only [Event.moves, if_pos h, RegIf.moved, List.foldl_cons, List.foldl_nil, RiMove.apply, modify_twice, modify_drop_all]
  · simp only [Event.moves, if_neg h, RegIf.moved, List.foldl_cons, List.foldl_nil, RiMove.apply]

end

end Sys2Proof.Machine

open Sys2Proof Sys2Proof.Machine

/-- Settles O25: a command tests all it can answer an error for before its first change (`command_answers`). -/
theorem failedCommandChangesOnlyResult : Obligations.FailedCommandChangesOnlyResult :=
  fun _ s t _ hc he h hr hne => (command_answers hc he s t h).eq_answer_of_error hr hne

/-- Settles O51: family by family, none of the operations an instruction of it is made of writes the client port. -/
theorem whoMakesNoCallback : Obligations.WhoMakesNoCallback := by
  intro i s t h hfamily
  suffices hk : KeepsClient s (exec i s) from hk t h
  rcases hfamily with hc | hp | ⟨x, ho, hi, hu, rfl⟩ | ⟨k, rfl | rfl | rfl | rfl | rfl⟩
  · exact command_keepsClient hc s
  · exact receiveEntry_keepsClient hp s
  · rw [exec_source]
    exact .clocked ((handler_keepsClient ho hi hu s).andThen fun _ hw => .next hw)
  all_goals exact onRegs_acknowledge_keepsClient k _ s

/-- Settles O7: with nothing at the ports and behind an event the line decides (`irqLine_iff`); an event is its moves of the Register
Interface, computed one by one. -/
theorem stepsBetweenOperations : Obligations.StepsBetweenOperations := by
  refine ⟨fun s hin hg hp ho => ?_, fun s hin h => ?_, fun s p ws rest hin ho hp => ?_,
    fun s rest hin ho => ⟨fun hg hp => ?_, fun h => ?_⟩, fun s e rest hin => ⟨fun ho => ?_, fun ho => ⟨fun x hx => ?_,
    fun k code bytes he => ?_, fun i c he => ?_, fun i c he => ?_, fun bytes he => ?_, fun k bytes he => ?_, fun i he => ?_⟩⟩⟩
  · exact step_irq ((step_of_inbox_nil hin).trans (idle_irq (irqLine_iff.mpr ⟨hg, hp⟩) ho))
  · refine (step_of_inbox_nil hin).trans (idle_nothing ?_)
    rcases h with h | h | h
    · exact .inl (irqLine_eq_false (.inl h))
    · exact .inl (irqLine_eq_false (.inr h))
    · exact .inr h
  · exact (step_of_inbox_cons hin).trans (takePort_held ws rest ho hp)
  · exact step_irq ((step_of_inbox_cons hin).trans (takeInterrupts_irq rest ho (irqLine_iff.mpr ⟨hg, hp⟩)))
  · exact (step_of_inbox_cons hin).trans (takeInterrupts_done rest ho (irqLine_eq_false h))
  · exact (step_of_inbox_cons hin).trans (takeEvent_held e rest ho)
  · rcases hx with ⟨rfl, rfl⟩ | ⟨rfl, rfl⟩ | ⟨rfl, hr, hoep, hiep⟩
    · exact step_event hin ho rfl
    · exact step_event hin ho rfl
    · exact step_event hin ho (moved_src s (isLevel_eq_false hr hoep hiep))
  all_goals subst he
  · exact step_event hin ho (moved_rx s k code bytes)
  · exact step_event hin ho (moved_oep s i c)
  · exact step_event hin ho (moved_iep s i c)
  all_goals exact step_event hin ho rfl

end

section
/-! PROOFS. The statements that belong to no single unit: a word that decodes is an encoding (spec 30_encoding), a step runs what it
decodes (00_scope R7, 20_memory R72), the partition is fixed once started (70 R347), a packet survives the round trip (45 R277). -/

/-! ## A word that decodes is an encoding (30_encoding R91 to R94, R100, R101) -/

namespace Sys2Proof

theorem ifZero_eq_some {a b : Nat} {k : Option Instr} {i : Instr} : ifZero a b k = some i ↔ a = 0 ∧ b = 0 ∧ k = some i := by
  simp [ifZero, and_assoc]

theorem okIfZero_eq_ok {z : Nat} {i j : Instr} : okIfZero z j = .ok i ↔ z = 0 ∧ j = i := by
  unfold okIfZero
  split <;> simp [*]

/-- A case that tests must-be-zero fields, or one of the cases after it. -/
theorem okIfZero_or_else {p : Prop} [Decidable p] {z : Nat} {i j : Instr} {r : Except Reject Instr}
    (h : (if p then okIfZero z j else r) = .ok i) : (p ∧ z = 0 ∧ j = i) ∨ r = .ok i := by
  split at h
  · exact .inl ⟨‹p›, okIfZero_eq_ok.mp h⟩
  · exact .inr h

theorem whole_eq_ok {r : Except Reject Instr} {i : Instr} {left : List Word} : whole r = .ok (i, left) ↔ r = .ok i ∧ left = [] := by
  cases r <;> simp [whole, Except.map, eq_comm]

theorem oneWord_eq_ok {f : Word → Except Reject (Instr × List Word)} {ws : List Word} {x : Instr × List Word}
    (h : oneWord f ws = .ok x) : ∃ w, ws = [w] ∧ f w = .ok x := by
  unfold oneWord at h
  split at h
  · exact ⟨_, rfl, h⟩
  · cases h

/-! ### Command words -/

/-- The three fields of a command word are all its bits. -/
theorem cmdWord_of_fields (w : Word) : cmdWord (field w 24 8) (field w 16 8) (field w 0 16) = w := by
  apply BitVec.eq_of_toNat_eq
  have hw := w.isLt
  simp only [cmdWord, field, BitVec.toNat_ofNat]
  omega

theorem TType.code_of_ofCode {n : Nat} {t : TType} (h : TType.ofCode n = some t) : t.code = n := by
  unfold TType.ofCode at h
  split_ifs at h
  all_goals
    cases h
    simp only [TType.code, *]

/-- An opcode's row is one of the table. -/
theorem cmdRow_eq_some {op : Nat} {row : CmdRow} (h : cmdRow op = some row) : row ∈ cmdTable ∧ row.op = op := by
  unfold cmdRow at h
  exact ⟨List.mem_of_find?_eq_some h, by simpa using List.find?_some h⟩

/-- A one-word command that decodes is built by its row. -/
theorem build_of_decodeCmd_one {w : Word} {build : Nat → Nat → Word → Option Instr} {i : Instr}
    (hr : cmdRow (field w 24 8) = some ⟨field w 24 8, false, build⟩) (h : decodeCmd [w] = .ok i) :
    build (field w 16 8) (field w 0 16) 0 = some i := by
  cases hb : build (field w 16 8) (field w 0 16) 0 with
  | none => cases (decodeCmd_one_nonZeroField hr hb).symm.trans h
  | some j =>
    cases (decodeCmd_one_of rfl rfl rfl hr hb).symm.trans h
    rfl

/-- A two-word command that decodes is built by its row. -/
theorem build_of_decodeCmd_two {w b : Word} {build : Nat → Nat → Word → Option Instr} {i : Instr}
    (hr : cmdRow (field w 24 8) = some ⟨field w 24 8, true, build⟩) (h : decodeCmd [w, b] = .ok i) :
    build (field w 16 8) (field w 0 16) b = some i := by
  cases hb : build (field w 16 8) (field w 0 16) b with
  | none => cases (decodeCmd_two_nonZeroField hr hb).symm.trans h
  | some j =>
    cases (decodeCmd_two_of rfl rfl rfl hr hb).symm.trans h
    rfl

/-- What the decoder answers is what the row of the opcode builds, and the transaction has the words the row asks for. -/
theorem decodeCmd_eq_ok {w : Word} {more : List Word} {i : Instr} (h : decodeCmd (w :: more) = .ok i) :
    ∃ b row, row ∈ cmdTable ∧ row.op = field w 24 8 ∧ row.build (field w 16 8) (field w 0 16) b = some i ∧
      more = if row.two then [b] else [] := by
  cases hrow : cmdRow (field w 24 8) with
  | none => cases (decodeCmd_unknownOpcode more hrow).symm.trans h
  | some row =>
    obtain ⟨op, two, build⟩ := row
    have hmem := (cmdRow_eq_some hrow).1
    obtain rfl : op = field w 24 8 := (cmdRow_eq_some hrow).2
    cases two with
    | false =>
      cases more with
      | nil => exact ⟨0, _, hmem, rfl, build_of_decodeCmd_one hrow h, rfl⟩
      | cons b rest =>
        rw [decodeCmd, hrow] at h
        cases h
    | true =>
      rcases more with _ | ⟨b, _ | ⟨c, rest⟩⟩
      · rw [decodeCmd, hrow] at h
        cases h
      · exact ⟨b, _, hmem, rfl, build_of_decodeCmd_two hrow h, rfl⟩
      · rw [decodeCmd, hrow] at h
        cases h

/-- What a row builds from its fields is encoded as these fields: those it does not hold were tested to be zero. -/
theorem encode_of_build (l : Layout) {row : CmdRow} (hr : row ∈ cmdTable) {e a : Nat} {b : Word} {i : Instr} (he : e < 256)
    (ha : a < 65536) (hb : row.build e a b = some i) :
    encode l i = (.cmd, cmdWord row.op e a :: if row.two then [b] else []) := by
  have hepn : (BitVec.ofNat 8 e).toNat = e := Nat.mod_eq_of_lt he
  have harg : (BitVec.ofNat 16 a).toNat = a := Nat.mod_eq_of_lt ha
  simp only [cmdTable, List.cons_append, List.nil_append, List.mem_cons, List.not_mem_nil, or_false] at hr
  rcases hr with rfl | rfl | rfl | rfl | rfl | rfl | rfl | rfl | rfl | rfl | rfl | rfl | rfl | rfl | rfl | rfl | rfl | rfl | rfl | rfl
  all_goals simp only [ifZero_eq_some, Option.map_eq_some_iff, Option.some.injEq] at hb
  -- `ENABLE`
  · obtain ⟨rfl, hhigh, rfl⟩ := hb
    obtain rfl | rfl : a = 0 ∨ a = 1 := by omega
    · rfl
    · rfl
  iterate 2 -- `START`, `DETACH`
    · obtain ⟨rfl, rfl, rfl⟩ := hb
      rfl
  iterate 2 -- `SET_ADDRESS`, `ASSIGN_CTRL_BUF`
    · obtain ⟨rfl, -, rfl⟩ := hb
      simp only [encode, harg]
      rfl
  iterate 2 -- `ASSIGN_IN_BUF`, `ASSIGN_OUT_BUF`
    · obtain rfl := hb
      simp only [encode, hepn, harg]
      rfl
  iterate 2 -- `ACTIVATE_EP_IN`, `ACTIVATE_EP_OUT`
    · obtain ⟨t, ht, rfl⟩ := hb
      simp only [encode, hepn, TType.code_of_ofCode ht]
      rfl
  iterate 6 -- `DISABLE_EP_*`, `STALL_EP_*`, `CLEAR_STALL_*`
    · obtain ⟨rfl, -, rfl⟩ := hb
      simp only [encode, hepn]
      rfl
  -- `SET_RX_FIFO`
  · obtain ⟨rfl, -, rfl⟩ := hb
    simp only [encode, harg]
    rfl
  iterate 3 -- `SET_TX_FIFO`, `WRITE_PACKET`, `READ_PACKET`
    · obtain rfl := hb
      simp only [encode, hepn, harg]
      rfl
  -- `IRQ`
  · obtain ⟨rfl, rfl, rfl⟩ := hb
    rfl

theorem encode_of_decodeCmd (l : Layout) {ws : List Word} {i : Instr} (h : decodeCmd ws = .ok i) : encode l i = (.cmd, ws) := by
  cases ws with
  | nil => cases h
  | cons w more =>
    obtain ⟨b, row, hmem, hop, hb, rfl⟩ := decodeCmd_eq_ok h
    have he : field w 16 8 < 256 := Nat.mod_lt _ (by decide)
    have ha : field w 0 16 < 65536 := Nat.mod_lt _ (by decide)
    rw [encode_of_build l hmem he ha hb, hop, cmdWord_of_fields]

/-! ### Client port words -/

/-- A request word whose bits 27 to 24 are zero is made of its three fields. -/
theorem cbWord_of_fields {w : Word} (hz : field w 24 4 = 0) : cbWord (field w 28 4) (field w 16 8) (field w 0 16) = w := by
  apply BitVec.eq_of_toNat_eq
  have hw := w.isLt
  simp only [field] at hz
  simp only [cbWord, field, BitVec.toNat_ofNat]
  omega

theorem encode_of_decodeCb (l : Layout) {w : Word} {i : Instr} (h : decodeCb w = .ok i) : encode l i = (.cb, [w]) := by
  have he : field w 16 8 < 256 := Nat.mod_lt _ (by decide)
  have hn : field w 0 16 < 65536 := Nat.mod_lt _ (by decide)
  have hepn : (BitVec.ofNat 8 (field w 16 8)).toNat = field w 16 8 := Nat.mod_eq_of_lt he
  have hlen : (BitVec.ofNat 16 (field w 0 16)).toNat = field w 0 16 := Nat.mod_eq_of_lt hn
  have hw := cbWord_of_fields (w := w)
  simp only [decodeCb] at h
  generalize field w 28 4 = c, field w 24 4 = z, field w 16 8 = e, field w 0 16 = n at *
  have noLength (hz : z + n = 0) : cbWord c e 0 = w := by
    obtain ⟨rfl, rfl⟩ := Nat.add_eq_zero_iff.mp hz
    exact hw rfl
  iterate 2
    obtain ⟨rfl, hz, rfl⟩ | h := okIfZero_or_else h
    · rw [encode, hepn, noLength hz]
  obtain ⟨rfl, hz, rfl⟩ | h := okIfZero_or_else h
  · rw [encode, hepn, hlen, hw hz]
  iterate 2
    obtain ⟨rfl, hz, rfl⟩ | h := okIfZero_or_else h
    · rw [encode, hepn, noLength hz]
  obtain ⟨rfl, hz, rfl⟩ | h := okIfZero_or_else h
  · obtain ⟨hz, rfl⟩ := Nat.add_eq_zero_iff.mp hz
    rw [encode, noLength hz]
  · cases h

/-- A response word whose bits 23 to 17 are zero is made of its four fields. -/
theorem respWord_of_fields {w : Word} (hz : field w 17 7 = 0) :
    respWord (field w 28 4) (field w 24 4) (field w 16 1) (field w 0 16) = w := by
  apply BitVec.eq_of_toNat_eq
  have hw := w.isLt
  simp only [field] at hz
  simp only [respWord, field, BitVec.toNat_ofNat]
  omega

theorem encode_of_decodeResp (l : Layout) {w : Word} {i : Instr} (h : decodeResp w = .ok i) : encode l i = (.resp, [w]) := by
  have hb : field w 16 1 < 2 := Nat.mod_lt _ (by decide)
  have hv : field w 0 16 < 65536 := Nat.mod_lt _ (by decide)
  have hlast : (field w 16 1 == 1).toNat = field w 16 1 := by
    generalize field w 16 1 = b at hb
    obtain rfl | rfl : b = 0 ∨ b = 1 := by omega
    · rfl
    · rfl
  have hval : (BitVec.ofNat 16 (field w 0 16)).toNat = field w 0 16 := Nat.mod_eq_of_lt hv
  have hw := respWord_of_fields (w := w)
  simp only [decodeResp] at h
  generalize field w 28 4 = c, field w 24 4 = k, field w 17 7 = z, field w 16 1 = b, field w 0 16 = v at *
  have noLast (hz : z + b = 0) : respWord c k 0 v = w := by
    obtain ⟨rfl, rfl⟩ := Nat.add_eq_zero_iff.mp hz
    exact hw rfl
  have noOperands (hz : z + b + v = 0) : respWord c k 0 0 = w := by
    obtain ⟨hz, rfl⟩ := Nat.add_eq_zero_iff.mp hz
    exact noLast hz
  by_cases hc : c = 0 ∨ 6 < c
  · rw [if_pos hc] at h
    cases h
  rw [if_neg hc] at h
  obtain ⟨⟨rfl, rfl⟩, hz, rfl⟩ | h := okIfZero_or_else h
  · rw [encode, noOperands hz]
  obtain ⟨⟨rfl, rfl⟩, hz, rfl⟩ | h := okIfZero_or_else h
  · rw [encode, hval, noLast hz]
  obtain ⟨⟨rfl, rfl⟩, hz, rfl⟩ | h := okIfZero_or_else h
  · rw [encode, noOperands hz]
  obtain ⟨⟨rfl, rfl⟩, hz, rfl⟩ | h := okIfZero_or_else h
  · rw [encode, hval, hlast, hw hz]
  iterate 8
    obtain ⟨⟨rfl, rfl⟩, hz, rfl⟩ | h := okIfZero_or_else h
    · rw [encode, noOperands hz]
  cases h

/-! ### Result words -/

theorem encode_of_decodeRes (l : Layout) {w : Word} {i : Instr} (h : decodeRes w = .ok i) : encode l i = (.res, [w]) := by
  have hw (v : Word) (e : w.toNat = v.toNat) : w = v := BitVec.eq_of_toNat_eq e
  unfold decodeRes at h
  split_ifs at h with h0 h1 h2 h3
  · cases h
    rw [hw 0 h0, encode]
  · cases h
    rw [hw 1 h1, encode]
  · cases h
    rw [hw 2 h2, encode]
  · cases h
    rw [hw 3 h3, encode]

/-- A port whose one word is a whole instruction that encodes back to it. -/
theorem encode_of_oneWord {l : Layout} {p : Port} {f : Word → Except Reject Instr} {ws : List Word} {i : Instr} {left : List Word}
    (hf : ∀ {w}, f w = .ok i → encode l i = (p, [w])) (h : oneWord (fun w => whole (f w)) ws = .ok (i, left)) :
    left = [] ∧ encode l i = (p, ws) := by
  obtain ⟨w, rfl, hd⟩ := oneWord_eq_ok h
  obtain ⟨hi, hl⟩ := whole_eq_ok.mp hd
  exact ⟨hl, hf hi⟩

/-! ## A step runs the decoded instruction (00_scope R7, 20_memory R72) -/

/-- A word given without its port is one whole instruction at the port found for it. -/
theorem portOf_eq_some {l : Layout} {w v : Word} {p : Port} {i : Instr} (h : portOf l w v = some (p, i)) :
    decode l p (wordsAt p w v) = .ok (i, []) ∧ encode l i = (p, wordsAt p w v) := by
  obtain ⟨q, -, hq⟩ := List.exists_of_findSome?_eq_some h
  unfold exactAt at hq
  split at hq
  · rename_i hd
    split at hq
    · rename_i he
      cases hq
      exact ⟨hd, he⟩
    · cases hq
  · cases hq

/-- The instruction read from a table row's bits, with the port it is found at. -/
theorem decodeTableWord_eq_some {nbits w : Nat} {i : Instr} (h : decodeTableWord nbits w = some i) :
    w < 2 ^ nbits ∧ ∃ p, portOf Layout.default (BitVec.ofNat 32 w) (BitVec.ofNat 32 (w / 2 ^ 32)) = some (p, i) := by
  unfold decodeTableWord at h
  split at h
  · rename_i hw
    obtain ⟨⟨p, j⟩, hp, rfl⟩ := Option.map_eq_some_iff.mp h
    exact ⟨hw.2, p, hp⟩
  · cases h

end Sys2Proof

namespace Sys2Proof.Machine

theorem putBack_eq (p : Port) (left : List Word) (rest : List Input) (s : State) :
    putBack p left rest s = { s with inbox := if left = [] then rest else .port p left :: rest } := by
  cases left <;> rfl

theorem heldByCallback_eq_false {p : Port} {s : State} (h : s.client.outstanding = none ∨ p = .resp) : heldByCallback p s = false := by
  rcases h with h | rfl
  · simp [heldByCallback, h]
  · simp [heldByCallback]

/-- A transaction at the head of the inbox that decodes, and does not wait for an answer, is run. -/
theorem step_of_decode {s : State} {p : Port} {ws left : List Word} {rest : List Input} {i : Instr}
    (hin : s.inbox = .port p ws :: rest) (ho : s.client.outstanding = none ∨ p = .resp)
    (hd : decode s.cfg.layout p ws = .ok (i, left)) :
    step s = exec i { s with inbox := if left = [] then rest else .port p left :: rest } := by
  rw [step_of_inbox_cons hin, takeInput, takePort, heldByCallback_eq_false ho, hd, ← putBack_eq]
  rfl

/-- Only a response is given a callback in progress, and its words stand at the response port. -/
theorem outstandingFor_eq_none_or_resp {l : Layout} {i : Instr} {p : Port} {ws : List Word} (he : encode l i = (p, ws))
    (o : Option CbReq) : outstandingFor (some i) o = none ∨ p = .resp := by
  cases hr : respOfInstr i with
  | none => exact .inl (by simp [outstandingFor, hr])
  | some r =>
    obtain ⟨-, hl, hp, -⟩ := resp_shape (i := i) (by rw [hr]; rfl)
    rw [← hl l, he] at hp
    exact .inr hp

theorem withFetchWord_of_portOf {s : State} {nbits w : Nat} {p : Port} {i : Instr} (hw : w < 2 ^ nbits)
    (h : portOf s.cfg.layout (BitVec.ofNat 32 w) (BitVec.ofNat 32 (w / 2 ^ 32)) = some (p, i)) :
    s.withFetchWord nbits w = arrive p (wordsAt p (BitVec.ofNat 32 w) (BitVec.ofNat 32 (w / 2 ^ 32))) (some i) s := by
  simp only [State.withFetchWord, arriveWord, Nat.mod_eq_of_lt hw, h]

/-! ## The partition once started (70 R347) -/

/-- Only the partition commands write the partition, and only in `Initialized` (45 R274 to R276). -/
theorem Touch.part_of_started {s t : State} (h : Touch s t) : s.ctrl = .started → t.part = s.part := by
  induction h
  case trans h _ ih ih' => exact fun hc => (ih' (h.ctrl.trans hc)).trans (ih hc)
  case aux hp _ _ => exact fun _ => hp
  case layout ho _ => exact fun hc => by simp [partitionOpen, hc] at ho
  case place ho _ _ => exact fun hc => by simp [partitionOpen, hc] at ho
  case actIn hu => exact fun _ => (OneEp.of_regs hu).part
  case actOut hu => exact fun _ => (OneEp.of_regs hu).part
  case act0In hu => exact fun _ => (OneEp.control0 hu).part
  case act0Out hu => exact fun _ => (OneEp.control0 hu).part
  all_goals exact fun _ => rfl

/-! ## A packet looped back (45 R277) -/

theorem Memory.bytes_getD (m : Memory) (a : Nat) {n j : Nat} (h : j < n) : (m.bytes a n).getD j 0 = m.read (a + j) := by
  simp [Memory.bytes, List.getD_eq_getElem?_getD, h]

/-- A packet's words give back the bytes of the buffer they were packed from (45 R273). -/
theorem packetByte_wordsOf (b : Buf) (s : State) {n j : Nat} (h : j < n) :
    packetByte s.cfg.byteOrder (wordsOf b n s) j = s.mem.read (b.base.toNat + j) :=
  (packetByte_pack _ _ j (by simpa [Memory.bytes] using h)).trans (s.mem.bytes_getD _ h)

/-- `s` with the words of a packet in transmit FIFO `i`, as `WRITE_PACKET` answers (45 R270). -/
def packetWritten (i : Nat) (ws : List Word) (s : State) : State :=
  { s with
    ri := { s.ri with txq := s.ri.txq.modify i fun q => q ++ ws }, trace := pushes i ws ++ s.trace, result := some .ok }

/-- A packet pushed into an empty transmit FIFO and looped back is all an empty receive queue holds (20_memory R81). -/
theorem holdsPacket_loopback {i n : Nat} {ws : List Word} {s : State} (hi : i < s.ri.txq.length) (htx : s.ri.txq.getD i [] = [])
    (hrx : s.ri.rxq = []) (hcount : ws.length = words4 n) (hstep : s.ri.rxInStep = true) (hm : s.moves = []) :
    HoldsPacket n ws [] (riMoves (.loopback i) (packetWritten i ws s)) where
  queue := by
    simp only [riMoves, RiMove.apply, packetWritten, getD_modify_self _ _ hi, htx, hrx, List.nil_append, List.append_nil]
  count := hcount
  inStep := hstep
  still := hm

end Sys2Proof.Machine

open Sys2Proof Sys2Proof.Machine

/-- Settles O4: port by port, the fields a word decodes to are all its bits, since the others were tested to be zero. -/
theorem encodeDecodeAgree : Obligations.EncodeDecodeAgree := by
  rintro l p ws i left (rfl | rfl | rfl | rfl) h
  · obtain ⟨hi, hl⟩ := whole_eq_ok.mp h
    exact ⟨hl, encode_of_decodeCmd l hi⟩
  · exact encode_of_oneWord (encode_of_decodeCb l) h
  · exact encode_of_oneWord (encode_of_decodeResp l) h
  · exact encode_of_oneWord (encode_of_decodeRes l) h

/-- Settles O14: of the three changes an instruction can be, only the re-initialization of `ENABLE` and the partition commands write the
partition, and neither is open in `Started`. -/
theorem partitionFixedOnceStarted : Obligations.PartitionFixedOnceStarted := by
  intro i s t h hc
  rcases exec_change h with h | h | ⟨hd, -⟩
  · exact h.part_of_started hc
  · exact h.part
  · exact absurd (hc.symm.trans hd) (by decide)

/-- Settles O29: what `WRITE_PACKET` pushes (O27) is, looped back, the packet that `READ_PACKET` copies (O28). -/
theorem packetRoundTrip : Obligations.PacketRoundTrip := by
  intro s k n bi bo hk hi hsend hbo hn hsp hmem hshape htx hrx hstep hm
  obtain ⟨hwrite, hcount⟩ := (writePacketPushesWords s k n bi).1 hk hm hi hsend
  have hpacket := holdsPacket_loopback (hshape.txq ▸ hi) htx hrx hcount hstep hm
  obtain ⟨u, hread, hu, hbytes, -⟩ := (readPacketStoresBytes
    (riMoves (.loopback k.toNat) (packetWritten k.toNat (wordsOf bi n.toNat s) s)) k n bo _ []).1 hk hi hbo hn hsp hpacket hmem
  exact ⟨_, u, hwrite, rfl, hread, by rw [hu], fun j hj => (hbytes j hj).trans (packetByte_wordsOf bi s hj)⟩

/-- Settles O6: an arrived word stands at the port where it is a whole instruction, with the callback in progress a response needs. -/
theorem stepRunsDecodedInstruction : Obligations.StepRunsDecodedInstruction := by
  refine ⟨fun s p ws left rest i hin ho hd => step_of_decode hin ho hd, fun s nbits w i hl hi => ?_⟩
  obtain ⟨hw, p, hp⟩ := decodeTableWord_eq_some hi
  rw [← hl] at hp
  obtain ⟨hd, he⟩ := portOf_eq_some hp
  rw [withFetchWord_of_portOf hw hp]
  exact step_of_decode (s := arrive p _ (some i) s) rfl (outstandingFor_eq_none_or_resp he _) hd

end

section
/-! PROOFS. The statements about sources and conditions without an action (spec 41 R143, R153, R157, R159 to R164, R167 to R171) and about
the OUT conditions that act (R150 to R152, R154), each by the sub-state of the endpoint and the Client's answer. -/

namespace Sys2Proof.Machine

/-! ## The service of a source, and of an OUT condition (41 R142, R149) -/

/-- `s` with the latched bit of a source acknowledged (41 R142). -/
def sourceAcknowledged (x : Source) (s : State) : State :=
  { s with
    ri := { s.ri with intsts := putBit s.ri.intsts (s.cfg.layout.bit x) false }, trace := .write (.intstsBit x) 1 :: s.trace }

/-- A source whose handler goes through is acknowledged. -/
theorem exec_source_next {x : Source} {s t : State} (hk : s.clockOn = true) (h : handler x s = .next t) (hm : t.moves = []) :
    exec x.instr s = .next (sourceAcknowledged x t) := by
  rw [exec_source, clocked_on hk, serve, h, andThen_next, acknowledge, regWrite_still _ _ hm]
  rfl

/-- A source whose handler is refused is refused, with no acknowledge. -/
theorem exec_source_refused {x : Source} {s : State} {e : Refusal} (hk : s.clockOn = true) (h : handler x s = .refused e) :
    exec x.instr s = .refused e := by
  rw [exec_source, clocked_on hk, serve, h, andThen_refused]

/-- The handler of a source without a described action does nothing. -/
theorem handler_noAction {x : Source} (hx : x ∈ noActionSources) (s : State) : handler x s = .next s := by
  cases x with
  | rxflvl | oepint | iepint | usbrst | enumdne => exact absurd hx (by decide)
  | _ => rfl

/-- The handler of an IN condition without a described action does nothing. -/
theorem inCond_noAction {c : InCond} (hc : c = .toc ∨ c = .inepne ∨ c = .epdisd ∨ c = .txfe) (i : Nat) (s : State) :
    inCond c i s = .next s := by
  obtain rfl | rfl | rfl | rfl := hc <;> rfl

/-- The instruction of an OUT condition is its service, on an endpoint whose registers exist. -/
theorem exec_outCond_onRegs (c : OutCond) (i : Nat) (s : State) : exec (c.instr i) s = onRegs i s (serveOut c i s) := by
  cases c <;> rfl

section
variable {s t : State} {i : Nat} {c : OutCond} (hk : s.clockOn = true) (hi : i < s.cfg.nEp)
include hk hi

theorem exec_outCond : exec (c.instr i) s = serveOut c i s := by
  rw [exec_outCond_onRegs, onRegs, if_pos hi, clocked_on hk]

/-- A handler that goes through is followed by the acknowledge. -/
theorem exec_outCond_next (h : outCond c i s = .next t) (hm : t.moves = []) : exec (c.instr i) s = .next (outAcknowledged i c t) := by
  rw [exec_outCond hk hi, serveOut, h, andThen_next, regWrite_still _ _ hm]
  rfl

/-- A refusal of the handler is the outcome, with no acknowledge. -/
theorem exec_outCond_refused {e : Refusal} (h : outCond c i s = .refused e) : exec (c.instr i) s = .refused e := by
  rw [exec_outCond hk hi, serveOut, h, andThen_refused]

/-- A handler that is one callback of the Client, made in `u`, runs the response that the answer encodes. -/
theorem exec_outCond_callback_next {u : State} {q : CbReq} {a : ClientAnswer} {more : List ClientAnswer} {j : Instr} {r : Resp}
    (hc : outCond c i s = answered (issueCb q u)) (hr : respOfInstr j = some r) (ha : Answers a j more u)
    (h : exec j (replied q a more u) = .next t) (ho : t.client.outstanding = none) (hm : t.moves = []) :
    exec (c.instr i) s = .next (outAcknowledged i c t) :=
  exec_outCond_next hk hi (hc.trans (answered_issueCb_next hr ha h ho)) hm

end

/-! ## OUT transfer-complete and the re-offer, by the sub-state (41 R151, R152, R154) -/

section
variable {s : State} {i : Nat}

theorem outXfrc_outData {bin : InSub} {n : BitVec 16} (hs : (s.epAt i).sub = .bulk bin (.outData n)) :
    outXfrc i s = answered (bulkOutDeliver i s) := by
  simp only [outXfrc, hs]

theorem outXfrc_writeOut (hs : (s.epAt 0).sub = .control .writeOut) : outXfrc 0 s = answered (ctrlOutStep s) := by
  simp only [outXfrc, hs, if_true]

theorem outXfrc_readStatus (hs : (s.epAt 0).sub = .control .readStatus) (hd : (s.epAt 0).reqDir = .d2h) :
    outXfrc 0 s = answered (statusDone s) := by
  simp only [outXfrc, hs, hd, and_self, if_true]

/-- `ReadStatus` of a control write waits for the IN side. -/
theorem outXfrc_noAction (h : (s.epAt i).sub = .control .init ∨ (s.epAt i).sub = .control .readIn ∨
    (s.epAt i).sub = .control .setAddress ∨ ((s.epAt i).sub = .control .readStatus ∧ (s.epAt i).reqDir = .h2d) ∨
    (∃ bin, (s.epAt i).sub = .bulk bin .init) ∨ (∃ bin, (s.epAt i).sub = .bulk bin .outDelay) ∨
    (∃ x m, (s.epAt i).sub = .interrupt x m) ∨ (s.epAt i).sub = .disabled) : outXfrc i s = .next s := by
  obtain hs | hs | hs | ⟨hs, hd⟩ | ⟨bin, hs⟩ | ⟨bin, hs⟩ | ⟨x, m, hs⟩ | hs := h
  case inr.inr.inr.inl => simp only [outXfrc, hs, hd, reduceCtorEq, and_false, if_false]
  all_goals simp only [outXfrc, hs]

theorem reOffer_outDelay {bin : InSub} (hs : (s.epAt i).sub = .bulk bin .outDelay) : reOffer i s = answered (bulkOutDeliver i s) := by
  simp only [reOffer, hs]

theorem reOffer_noAction (h : ∀ bin, (s.epAt i).sub ≠ .bulk bin .outDelay) : reOffer i s = .next s := by
  unfold reOffer
  split
  next bin hs => exact absurd hs (h bin)
  all_goals rfl

theorem outCond_reOffer {c : OutCond} (hc : c = .otepdis ∨ c = .nak) : outCond c i s = reOffer i s := by
  obtain rfl | rfl := hc <;> rfl

end

/-- Writing the sub-state that stands there changes nothing. -/
theorem modify_sub_same {s : State} {i : Nat} {x : Sub} (h : (s.epAt i).sub = x) :
    s.ep.modify i (fun e => { e with sub := x }) = s.ep := by
  apply modify_same
  intro e he
  obtain rfl : s.epAt i = e := by simp [State.epAt, he]
  rw [← h]

/-! ## A condition that offers a bulk packet to the Client (44 R254, R255) -/

/-- A condition that calls `out_data` on a bulk endpoint holding a packet, by the three answers. -/
theorem exec_outCond_offer {s : State} {i : Nat} {c : OutCond} {b : Buf} {a : ClientAnswer} {more : List ClientAnswer} {bin : InSub}
    (hk : s.clockOn = true) (hm : s.moves = []) (hi : i < s.cfg.nEp) (hc : outCond c i s = answered (bulkOutDeliver i s))
    (hs : (s.epAt i).sub = .bulk bin .outDelay ∨ ∃ m, (s.epAt i).sub = .bulk bin (.outData m)) (hb : (s.epAt i).outBuf = some b) :
    (Answers a .respOutDataOk more s →
      exec (c.instr i) s = .next { afterCall (.outData i (s.epAt i).pendingSize) a more s with
        ep := s.ep.modify i fun e => { e with sub := .bulk bin .init },
        ri := { s.ri with oep := s.ri.oep.modify i fun r => (r.armed b.len.toNat).acked s.cfg.layout c },
        trace := .write (.oepCond i c) 1 :: armWrites i b.len.toNat ++ s.trace }) ∧
    (Answers a .respOutDataDelay more s →
      exec (c.instr i) s = .next { afterCall (.outData i (s.epAt i).pendingSize) a more s with
        ep := s.ep.modify i fun e => { e with sub := .bulk bin .outDelay },
        ri := { s.ri with oep := s.ri.oep.modify i (OutRegs.acked s.cfg.layout c) },
        trace := .write (.oepCond i c) 1 :: s.trace }) ∧
    (Answers a .respOutDataHalted more s →
      exec (c.instr i) s = .next { afterCall (.outData i (s.epAt i).pendingSize) a more s with
        ep := s.ep.modify i fun e => { e with sub := .bulk bin .init },
        ri := { s.ri with
          oep := s.ri.oep.modify i fun r => (OutRegs.armed b.len.toNat { r with stall := true }).acked s.cfg.layout c },
        trace := .write (.oepCond i c) 1 :: armWrites i b.len.toNat ++ .write (.oep i .stall) 1 :: s.trace }) := by
  obtain ⟨-, -, hBulk⟩ := outDataAnswersAct (replied (.outData i (s.epAt i).pendingSize) a more s) i _ hk hm rfl
  obtain ⟨hOk, hHalted, hDelay⟩ := hBulk bin b hs hb
  refine ⟨fun ha => ?_, fun ha => ?_, fun ha => ?_⟩
  · refine (exec_outCond_callback_next hk hi hc rfl ha hOk rfl hm).trans ?_
    simp only [outAcknowledged, modify_twice]
    rfl
  · exact exec_outCond_callback_next hk hi hc rfl ha hDelay rfl hm
  · refine (exec_outCond_callback_next hk hi hc rfl ha hHalted rfl hm).trans ?_
    simp only [outAcknowledged, modify_twice]
    rfl

/-! ## SETUP-done (41 R150, 43 R221) -/

/-- A descriptor that is not `Disabled` is one of the array, so its sub-state can be changed. -/
theorem setSub_sub {s : State} {i : Nat} (h : (s.epAt i).sub ≠ .disabled) (x : Sub) : ((setSub i x s).epAt i).sub = x := by
  have hi : i < s.ep.length := by
    by_contra hn
    exact h (by simp only [State.epAt, List.getD_eq_default _ _ (Nat.not_lt.mp hn), Endpoint.reset])
  simp only [setSub, modifyEp_epAt, hi, and_self, if_true]

theorem setSub_reqDir (i j : Nat) (x : Sub) (s : State) : ((setSub j x s).epAt i).reqDir = (s.epAt i).reqDir := by
  simp only [setSub, modifyEp_epAt]
  split <;> rfl

/-- A new SETUP leaves endpoint 0 in `Init`, whatever it abandons (43 R221, R232). -/
theorem abandon_eq {s : State} {c : CtrlSub} (hs : (s.epAt 0).sub = .control c) : abandon c s = inControl .init s := by
  unfold abandon
  split
  next hc =>
    subst hc
    rw [inControl, modify_sub_same hs]
  next => rfl

section
variable {s : State} {c : CtrlSub} {b : Buf} (hs : (s.epAt 0).sub = .control c) (hb : (s.epAt 0).outBuf = some b)
include hs hb

/-- SETUP-done on a control endpoint with 8 bytes pending is the callback `setup`, made in `Init`. -/
theorem outStup_eight (hp : (s.epAt 0).pendingSize = 8) : outStup 0 s = answered (issueCb (.setup 0) (inControl .init s)) := by
  simp only [outStup, ctrlSetup, hs, hb, hp, if_true, andThen_next, abandon_eq hs]

theorem outStup_notEight (hp : (s.epAt 0).pendingSize ≠ 8) : outStup 0 s = .refused .setupNotEightBytes := by
  simp only [outStup, ctrlSetup, hs, hb, hp, if_true, if_false, andThen_refused]

end

theorem outStup_aboveZero {i : Nat} (h : i ≠ 0) (s : State) : outStup i s = .refused .noControlEndpoint := if_neg h

/-! ## What follows the `setup` answer `Ok` (43 R223, R224) -/

/-- A callback answered, and what the response leaves awaited after it. -/
theorem settle_issueCb_next {s t : State} {q : CbReq} {a : ClientAnswer} {more : List ClientAnswer} {j : Instr} {r : Resp}
    (hr : respOfInstr j = some r) (ha : Answers a j more s) (h : exec j (replied q a more s) = .next t) (n : Nat) :
    settle (n + 1) (issueCb q s) = settle n t := by
  rw [settle_issueCb hr ha, h, andThen_next]

/-- A SETUP-done whose `setup` answer makes a second callback, whose response leaves `t`. -/
theorem exec_outStup_next {s u t : State} {q : CbReq} {a : ClientAnswer} {more : List ClientAnswer} {j : Instr} {r : Resp}
    (hk : s.clockOn = true) (hi : 0 < s.cfg.nEp) (hcall : outCond .stup 0 s = answered (issueCb q u)) (hr : respOfInstr j = some r)
    (ha : Answers a j more u) {v : State} (h : exec j (replied q a more u) = .next v) (hv : settle 2 v = .next t) (hm : t.moves = []) :
    exec (.oepStup 0) s = .next (outAcknowledged 0 .stup t) :=
  exec_outCond_next (c := .stup) hk hi (hcall.trans ((settle_issueCb_next hr ha h 2).trans hv)) hm

/-- The two callbacks that end a transfer are what a SETUP-done may still make after `setup`. -/
theorem settle_statusDone {s : State} {a a2 : ClientAnswer} {rest : List ClientAnswer} {c : CtrlSub} (hk : s.clockOn = true)
    (hm : s.moves = []) (hs : (s.epAt 0).sub = .control c) (ha : Answers a .respStatusDone (a2 :: rest) s)
    (ha2 : [a2.word] = (encode s.cfg.layout .respStatusCompleteDone).2) :
    settle 2 (statusDone s) = .next { s with
      mem := memAfter a2 (memAfter a s.mem),
      client := { outstanding := none, calls := [.statusComplete 0, .status 0] ++ s.client.calls, answers := rest },
      ep := s.ep.modify 0 fun e => { e with sub := .control .init },
      ri := { s.ri with oep := s.ri.oep.modify 0 (OutRegs.armedForSetup s.cfg) }, trace := armForSetupWrites s.cfg ++ s.trace } := by
  obtain ⟨hStatus, -, -, -⟩ := statusAnswersEndTransfer (replied (.status 0) a (a2 :: rest) s)
  obtain ⟨-, hEnd, -, -⟩ := statusAnswersEndTransfer (replied (.statusComplete 0) a2 rest (afterCall (.status 0) a (a2 :: rest) s))
  have hAgain : exec .respStatusDone (replied (.status 0) a (a2 :: rest) s) =
      .next (issueCb (.statusComplete 0) (afterCall (.status 0) a (a2 :: rest) s)) := hStatus 0 rfl
  have ha2 : Answers a2 .respStatusCompleteDone rest (afterCall (.status 0) a (a2 :: rest) s) := ⟨rfl, ha2.symm⟩
  rw [statusDone, settle_issueCb_next rfl ha hAgain, settle_issueCb_next rfl ha2 (hEnd 0 c hk hm rfl hs), settle_done rfl]
  rfl

/-- What can be sent does not depend on a sub-state of endpoint 0, the client port, or what the Client writes. -/
theorem CanSend.setupReplied {n : Nat} {b : Buf} {s : State} (h : CanSend 0 n b s) (a : ClientAnswer) (more : List ClientAnswer) :
    CanSend 0 n b (replied (.setup 0) a more (inControl .init s)) :=
  { h.setSub 0 (.control .init) with }

end Sys2Proof.Machine

open Sys2Proof Sys2Proof.Machine

/-- Settles O33: the handlers do nothing, so the acknowledge is all that happens. -/
theorem noActionOnlyAcknowledges : Obligations.NoActionOnlyAcknowledges := by
  refine ⟨fun s x hk hm hx => exec_source_next hk (handler_noAction hx s) hm, fun s i hk hm hi => ⟨?_, fun c hc => ?_⟩⟩
  · exact exec_outCond_next (c := .stsphsrx) hk hi rfl hm
  · exact exec_inCond_next hk hi (inCond_noAction hc i s) hm

/-- Settles O42: the sub-state chooses what the handler does; where it makes a callback it is the run of the Client's responses, and the
acknowledge follows. -/
theorem outTransferComplete : Obligations.OutTransferComplete := by
  intro s i b a more hk hm hi
  have hWrite := outDataAnswersAct (replied (.outData 0 (s.epAt 0).pendingSize) a more s) 0 _ hk hm rfl
  refine ⟨fun bin n hs hb => ?_, fun bi h0 hs ha h => ?_, fun r h0 hs hr ha => ?_, fun a2 rest h0 hs hd ha hmore ha2 => ?_, fun h => ?_⟩
  · exact exec_outCond_offer (c := .xfrc) hk hm hi (outXfrc_outData hs) (.inr ⟨n, hs⟩) hb
  · obtain ⟨hOk, -, -⟩ := hWrite
    exact exec_outCond_callback_next (c := .xfrc) hk (h0 ▸ hi) (outXfrc_writeOut hs) rfl ha (hOk bi rfl hs { h with }) rfl hm
  · obtain ⟨-, hRejected, -⟩ := hWrite
    obtain ⟨resp, hresp⟩ : ∃ resp, respOfInstr r = some resp := by
      obtain rfl | rfl := hr <;> exact ⟨_, rfl⟩
    refine (exec_outCond_callback_next (c := .xfrc) hk (h0 ▸ hi) (outXfrc_writeOut hs) hresp ha (hRejected r rfl hs hr) rfl hm).trans ?_
    simp only [outAcknowledged, modify_twice]
    rfl
  · subst hmore
    refine (exec_outCond_next (c := .xfrc) hk (h0 ▸ hi)
      ((outXfrc_readStatus hs hd).trans (answered_statusDone hk hm hs ha ha2)) hm).trans ?_
    simp only [outAcknowledged, modify_twice]
    rfl
  · exact exec_outCond_next (c := .xfrc) hk hi (outXfrc_noAction h) hm

/-- Settles O43: in `OutDelay` both conditions offer the packet as OUT transfer-complete does, in every other sub-state they do nothing. -/
theorem delayedPacketIsOfferedAgain : Obligations.DelayedPacketIsOfferedAgain := by
  intro s i c b a more hk hm hi hc
  refine ⟨fun bin hs hb => ?_, fun h => exec_outCond_next hk hi ((outCond_reOffer hc).trans (reOffer_noAction h)) hm⟩
  obtain ⟨hOk, hDelay, hHalted⟩ :=
    exec_outCond_offer (a := a) (more := more) hk hm hi ((outCond_reOffer hc).trans (reOffer_outDelay hs)) (.inl hs) hb
  refine ⟨hOk, fun ha => (hDelay ha).trans ?_, hHalted⟩
  rw [modify_sub_same hs]
  rfl

/-- Settles O41: SETUP-done is the callback `setup` made in `Init`; what follows is the run of the Client's responses, and the
acknowledge. -/
theorem setupDoneRunsRequest : Obligations.SetupDoneRunsRequest := by
  intro s c b a more
  refine ⟨fun i h0 hi hk => exec_outCond_refused (c := .stup) hk hi (outStup_aboveZero h0 s),
    fun hk hi hs hb hp => exec_outCond_refused (c := .stup) hk hi (outStup_notEight hs hb hp), fun hk hm hi hs hb hp => ?_⟩
  have hcall : outCond .stup 0 s = answered (issueCb (.setup 0) (inControl .init s)) := outStup_eight hs hb hp
  have hinit : ((inControl .init s).epAt 0).sub = .control .init := setSub_sub (by rw [hs]; nofun) _
  have hbuf : ((inControl .init s).epAt 0).outBuf = some b := (setSub_outBuf 0 0 _ s).trans hb
  obtain ⟨hError, hAddress, hOk⟩ := setupAnswersAct (replied (.setup 0) a more (inControl .init s)) .init b hk hm rfl hinit hbuf
  refine ⟨fun ha => ?_, fun n bi ha h => ⟨fun ht => ?_, fun ht => ?_⟩, fun a2 a3 rest bi ha hmore ha2 ha3 h hsp h6 h7 => ?_,
    fun len ha hsp hlen hne => ⟨fun hd a2 rest hmore => ?_, fun hd => ?_⟩⟩
  · refine (exec_outCond_callback_next (c := .stup) hk hi hcall rfl ha hError rfl hm).trans ?_
    simp only [outAcknowledged, replied, inControl, modify_twice]
    rfl
  · obtain ⟨hDeferred, -⟩ := hAddress n bi (h.setupReplied a more)
    refine (exec_outCond_callback_next (c := .stup) hk hi hcall rfl ha (hDeferred ht) rfl hm).trans ?_
    simp only [outAcknowledged, replied, inControl, modify_twice]
    rfl
  · obtain ⟨-, hImmediate⟩ := hAddress n bi (h.setupReplied a more)
    refine (exec_outCond_callback_next (c := .stup) hk hi hcall rfl ha (hImmediate ht) rfl hm).trans ?_
    simp only [outAcknowledged, replied, inControl, modify_twice]
    rfl
  · subst hmore
    have hlen : ((memAfter a s.mem).read (b.base.toNat + 6)).toNat + 256 * ((memAfter a s.mem).read (b.base.toNat + 7)).toNat = 0 := by
      rw [h6, h7]
      rfl
    obtain ⟨hNoData, -, -⟩ := hOk hsp 0 hlen.symm
    have hend := settle_statusDone (s := { afterCall (.setup 0) a (a2 :: a3 :: rest) (inControl .init s) with
      ri := { s.ri with iep := s.ri.iep.modify 0 (InRegs.started 0) }, trace := startWrites 0 0 ++ s.trace })
      hk hm hinit ⟨rfl, ha2.symm⟩ ha3
    refine (exec_outStup_next hk hi hcall rfl ha (hNoData bi rfl (h.setupReplied a _)) hend hm).trans ?_
    simp only [outAcknowledged, afterCall, inControl, modify_twice]
    rfl
  · subst hmore
    obtain ⟨-, hRead, -⟩ := hOk hsp len hlen
    have hdir : ((inControl .init s).epAt 0).reqDir = .d2h := (setSub_reqDir 0 0 _ s).trans hd
    have hsub : ((inControl .readIn (afterCall (.setup 0) a (a2 :: rest) (inControl .init s))).epAt 0).sub = .control .readIn :=
      setSub_sub (s := afterCall (.setup 0) a (a2 :: rest) (inControl .init s)) (hinit.trans_ne nofun) _
    have hep : inControl .readIn (afterCall (.setup 0) a (a2 :: rest) (inControl .init s)) =
        inControl .readIn (afterCall (.setup 0) a (a2 :: rest) s) := by
      simp only [inControl, afterCall, modify_twice]
    rw [hep] at hsub
    obtain ⟨hPacket, -, -, -, -, hDelay, hError, -⟩ := inDataAnswersAct
      (replied (.inData 0) a2 rest (inControl .readIn (afterCall (.setup 0) a (a2 :: rest) s))) 0 hk hm rfl
    have hread := (hRead hne hdir).trans (congrArg (fun u => Host.Outcome.next (issueCb (.inData 0) u)) hep)
    have hend {j : Instr} {r : Resp} {t : State} (hr : respOfInstr j = some r)
        (ha2 : Answers a2 j rest (inControl .readIn (afterCall (.setup 0) a (a2 :: rest) s)))
        (h : exec j (replied (.inData 0) a2 rest (inControl .readIn (afterCall (.setup 0) a (a2 :: rest) s))) = .next t)
        (ho : t.client.outstanding = none) (hm : t.moves = []) : exec (.oepStup 0) s = .next (outAcknowledged 0 .stup t) :=
      exec_outStup_next hk hi hcall rfl ha hread ((settle_issueCb_next hr ha2 h 1).trans (settle_done ho 1)) hm
    refine ⟨fun size last bi ha2 h => ?_, fun ha2 => ?_, fun ha2 => ?_⟩
    · exact hend rfl ⟨rfl, ha2.symm⟩ (hPacket size last bi rfl hsub { h.setSub 0 (.control .readIn) with }) rfl hm
    · exact hend rfl ⟨rfl, ha2.symm⟩ (hDelay (.inl ⟨rfl, hsub⟩)) rfl hm
    · exact hend rfl ⟨rfl, ha2.symm⟩ (hError rfl hsub) rfl hm
  · obtain ⟨-, -, hWrite⟩ := hOk hsp len hlen
    have hdir : ((inControl .init s).epAt 0).reqDir = .h2d := (setSub_reqDir 0 0 _ s).trans hd
    refine (exec_outCond_callback_next (c := .stup) hk hi hcall rfl ha (hWrite hne hdir) rfl hm).trans ?_
    simp only [outAcknowledged, replied, inControl, modify_twice]
    rfl

end

section
/-! PROOFS. What every source and condition leaves, whatever it does: the parameters and the clock as they were, the record of accesses
longer, and, with the Register Interface still, the condition flags of every endpoint it does not acknowledge (spec 41 R142, R149, R155).
The dispatcher and the two endpoint scans rest on it: each service finds what the snapshot showed. -/

namespace Sys2Proof.Machine

/-! ## Confined changes -/

/-- A field whose write acknowledges no condition but those of endpoints in `J`. -/
def Field.ConfinedTo (J : Nat → Prop) : Field → Prop
  | .iepCond i _ | .oepCond i _ => J i
  | _ => True

/-- Registers with the condition flags of endpoint `j` as they were. -/
def RegIf.SameFlags (j : Nat) (r r' : RegIf) : Prop := (r'.iepAt j).int = (r.iepAt j).int ∧ (r'.oepAt j).int = (r.oepAt j).int

/-- What an operation leaves that acknowledges no condition but those of endpoints in `J`. -/
structure Confined (J : Nat → Prop) (s t : State) : Prop where
  cfg : t.cfg = s.cfg
  clockOn : t.clockOn = s.clockOn
  trace : ∃ l, t.trace = l ++ s.trace
  still : s.moves = [] → t.moves = []
  flags : s.moves = [] → ∀ j, ¬ J j → s.ri.SameFlags j t.ri

theorem RegIf.SameFlags.refl (j : Nat) (r : RegIf) : r.SameFlags j r := ⟨rfl, rfl⟩

theorem RegIf.SameFlags.iepMod (r : RegIf) (i j : Nat) {f : InRegs → InRegs} (h : i ≠ j ∨ ∀ x, (f x).int = x.int) :
    r.SameFlags j { r with iep := r.iep.modify i f } := by
  refine ⟨?_, rfl⟩
  simp only [RegIf.iepAt, getD_modify]
  split
  next hij => exact h.elim (fun hne => absurd hij.1 hne) fun hf => hf _
  next => rfl

theorem RegIf.SameFlags.oepMod (r : RegIf) (i j : Nat) {f : OutRegs → OutRegs} (h : i ≠ j ∨ ∀ x, (f x).int = x.int) :
    r.SameFlags j { r with oep := r.oep.modify i f } := by
  refine ⟨rfl, ?_⟩
  simp only [RegIf.oepAt, getD_modify]
  split
  next hij => exact h.elim (fun hne => absurd hij.1 hne) fun hf => hf _
  next => rfl

/-- Of all fields the conditions alone write condition flags. -/
theorem RegIf.SameFlags.write {J : Nat → Prop} {f : Field} (hf : f.ConfinedTo J) {j : Nat} (hj : ¬ J j) (c : Config) (v : Nat)
    (r : RegIf) : r.SameFlags j (r.write c f v) := by
  cases f with
  | iepCond i x => exact .iepMod r i j (.inl fun h => hj (h ▸ hf))
  | oepCond i x => exact .oepMod r i j (.inl fun h => hj (h ▸ hf))
  | iep i g => exact .iepMod r i j (.inr fun x => by cases g <;> rfl)
  | oep i g => exact .oepMod r i j (.inr fun x => by cases g <;> rfl)
  | iepCtl i => exact .iepMod r i j (.inr fun _ => rfl)
  | oepCtl i => exact .oepMod r i j (.inr fun _ => rfl)
  | rxfFlush | txfFlush =>
    simp only [RegIf.write]
    split <;> exact .refl j r
  | _ => exact .refl j r

namespace Confined

variable {J : Nat → Prop}

theorem refl (s : State) : Confined J s s := ⟨rfl, rfl, ⟨[], rfl⟩, id, fun _ j _ => .refl j _⟩

theorem trans {s t u : State} (h : Confined J s t) (k : Confined J t u) : Confined J s u where
  cfg := k.cfg.trans h.cfg
  clockOn := k.clockOn.trans h.clockOn
  trace := by
    obtain ⟨l, hl⟩ := h.trace
    obtain ⟨l', hl'⟩ := k.trace
    exact ⟨l' ++ l, by rw [hl', hl, List.append_assoc]⟩
  still := k.still ∘ h.still
  flags hm j hj := by
    obtain ⟨hi, ho⟩ := h.flags hm j hj
    obtain ⟨ki, ko⟩ := k.flags (h.still hm) j hj
    exact ⟨ki.trans hi, ko.trans ho⟩

section
variable {s t u : State} (h : Confined J s t)
include h

/-- A change of the CORE's own state, of client memory or of the client port. -/
theorem own (hc : u.cfg = t.cfg := by rfl) (hk : u.clockOn = t.clockOn := by rfl) (hr : u.ri = t.ri := by rfl)
    (hm : u.moves = t.moves := by rfl) (ht : u.trace = t.trace := by rfl) : Confined J s u :=
  h.trans ⟨hc, hk, ⟨[], ht⟩, hm.trans, fun _ j _ => hr ▸ .refl j _⟩

theorem log (a : Access) : Confined J s (logAccess a t) := h.trans ⟨rfl, rfl, ⟨[a], rfl⟩, id, fun _ j _ => .refl j _⟩

/-- The point before an access, where a still Register Interface does nothing. -/
theorem env : Confined J s (envPoint t) :=
  h.trans ⟨rfl, rfl, ⟨[], rfl⟩, fun hm => by rw [envPoint_still hm, hm], fun hm j _ => by rw [envPoint_still hm]; exact .refl j _⟩

theorem write {f : Field} (v : Nat) (hf : f.ConfinedTo J := by exact trivial) : Confined J s (regWrite f v t) :=
  h.env.trans ⟨rfl, rfl, ⟨[.write f v], rfl⟩, id, fun _ _ hj => .write hf hj _ v _⟩

theorem read (f : Field) : Confined J s (regRead f t) := h.env.log _

theorem push (i : Nat) (w : Word) : Confined J s (txPush i w t) :=
  h.env.trans ⟨rfl, rfl, ⟨[.txPush i w], rfl⟩, id, fun _ j _ => .refl j _⟩

theorem dropHead (b : Bool) : Confined J s (dropHead b t) := h.trans ⟨rfl, rfl, ⟨[], rfl⟩, id, fun _ j _ => .refl j _⟩

theorem takeHead (status any : Bool) : Confined J s (takeHead status any t).2 := by
  unfold Machine.takeHead
  split
  · exact h.own
  · dsimp only
    split
    · exact (h.dropHead _).own
    · exact h.dropHead _

theorem armCtrlOut : Confined J s (armCtrlOut t) := ((((h.write _).write _).write _).write _).write _

theorem toInit : Confined J s (toInit t) := .armCtrlOut h.own

theorem programIn (i n : Nat) : Confined J s (programIn i n t) := (((h.write _).write _).write _).write _

theorem programOut (i n : Nat) : Confined J s (programOut i n t) := (((h.write _).write _).write _).write _

theorem startControl0 : Confined J s (startControl0 t) := by
  unfold Machine.startControl0
  split
  · exact h.own
  · exact h

theorem activateIn0 : Confined J s (activateIn0 t) := by
  unfold Machine.activateIn0
  dsimp only
  split
  · exact (h.read _).startControl0
  · exact ((h.read _).write _).startControl0

theorem activateOut0 : Confined J s (activateOut0 t) := by
  unfold Machine.activateOut0
  dsimp only
  split
  · exact (h.read _).startControl0
  · exact ((h.read _).write _).startControl0

end

/-- One confined change for each of a list. -/
theorem foldl {α : Type} {f : State → α → State} {s : State} (hf : ∀ a {t}, Confined J s t → Confined J s (f t a)) :
    ∀ (l : List α) {t : State}, Confined J s t → Confined J s (l.foldl f t)
  | [], _, h => h
  | a :: l, _, h => foldl hf l (hf a h)

theorem popWords {s : State} : ∀ (m a n : Nat) {t : State}, Confined J s t → Confined J s (popWords m a n t)
  | 0, _, _, _, h => h
  | m + 1, a, n, t, h => by
    obtain ⟨mem, c, e, -, -⟩ := storeWord_eq a n (rxPop t).1 (rxPop t).2
    have hpop : Confined J s (rxPop t).2 := (h.env.log _).takeHead _ _
    have hstore : Confined J s (storeWord a n (rxPop t).1 (rxPop t).2) := e ▸ hpop.own
    exact popWords m _ _ hstore

end Confined

/-! ## The operations, each confined -/

section
variable {J : Nat → Prop} {s t : State} (h : Confined J s t)
include h

theorem pushPacket_confined (i : Nat) (b : Buf) (n : Nat) : Ends (Confined J s) (pushPacket i b n t) :=
  .ite (.refused _) (.ite (.clocked (.next (.foldl (fun w _ k => k.push i w) _ h))) (.fault _))

theorem popPacket_confined (b : Buf) (n : Nat) : Ends (Confined J s) (popPacket b n t) :=
  .ite (.clocked (.next (.popWords _ _ _ h))) (.fault _)

theorem startIn_confined (i n : Nat) : Ends (Confined J s) (startIn i n t) := by
  unfold startIn
  split
  · exact .refused _
  · exact .ite (.ite (.clocked (pushPacket_confined (h.programIn i n) i _ n)) (.refused _)) (.refused _)

theorem armOut_confined (i : Nat) : Ends (Confined J s) (armOut i t) := by
  unfold armOut
  split
  · exact .refused _
  · exact .clocked (.next (h.programOut i _))

theorem ctrlError_confined : Ends (Confined J s) (ctrlError t) := .clocked (.next ((h.write _).write _).toInit)

/-! What the CORE does with an answer. -/

theorem onSetup_confined (a : SetupAnswer) : Ends (Confined J s) (onSetup a t) := by
  unfold onSetup
  split
  · cases a with
    | okSetAddress n =>
      have haddr : Confined J s (if t.cfg.addrTiming = .immediate then writeDevAddr (stageAddr n t) else stageAddr n t) := by
        split
        · exact (h.own (u := stageAddr n t)).write _
        · exact h.own
      exact .clocked (startIn_confined haddr.own 0 0)
    | ok =>
      exact .ite (.ite ((startIn_confined h 0 0).andThen fun _ k => .next k.own)
        (.ite (.next h.own) (armOut_confined h.own 0))) (.fault _)
    | error => exact ctrlError_confined h
  · exact .refused _

theorem onCtrlIn_confined (a : InAnswer) : Ends (Confined J s) (onCtrlIn a t) := by
  cases a with
  | packet n last =>
    refine .ite ((startIn_confined h 0 _).andThen fun u k => .next ?_) (.refused _)
    unfold lastPacket
    split
    · exact .armCtrlOut k.own
    · exact k
  | delay => exact .next h
  | error => exact ctrlError_confined h

theorem onBulkIn_confined (i : Nat) (bout : OutSub) (a : InAnswer) : Ends (Confined J s) (onBulkIn i bout a t) := by
  cases a with
  | packet n last => exact .ite ((startIn_confined h i _).andThen fun _ k => .next k.own) (.refused _)
  | delay => exact .next h
  | error => exact .clocked (.next (h.write _))

theorem onIntIn_confined (i : Nat) (mps : BitVec 16) (a : InAnswer) : Ends (Confined J s) (onIntIn i mps a t) := by
  cases a with
  | packet n last => exact .ite ((startIn_confined h i _).andThen fun _ k => .next k.own) (.refused _)
  | delay => exact .next h
  | error => exact .clocked (.next (h.write _))

theorem onIn_confined (i : Nat) (a : InAnswer) : Ends (Confined J s) (onIn i a t) := by
  unfold onIn
  split
  · exact .ite (onCtrlIn_confined h a) (.refused _)
  · exact onBulkIn_confined h i _ a
  · exact onIntIn_confined h i _ a
  all_goals exact .refused _

theorem onCtrlOut_confined (a : OutAnswer) : Ends (Confined J s) (onCtrlOut a t) := by
  cases a with
  | ok => exact startIn_confined h.own 0 0
  | halted | delay => exact .clocked (.next (h.write _).toInit)

theorem onBulkOut_confined (i : Nat) (bin : InSub) (a : OutAnswer) : Ends (Confined J s) (onBulkOut i bin a t) := by
  cases a with
  | ok => exact armOut_confined h.own i
  | halted => exact .clocked (armOut_confined (h.write (f := .oep i .stall) 1).own i)
  | delay => exact .next h.own

theorem onOut_confined (i : Nat) (a : OutAnswer) : Ends (Confined J s) (onOut i a t) := by
  unfold onOut
  split
  · exact .ite (onCtrlOut_confined h a) (.refused _)
  · exact onBulkOut_confined h i _ a
  · exact onBulkOut_confined h i _ a
  all_goals exact .refused _

theorem onStatusComplete_confined : Ends (Confined J s) (onStatusComplete t) := by
  unfold onStatusComplete
  split
  · exact .clocked (.next h.toInit)
  all_goals exact .refused _

theorem deliver_confined (r : Resp) : Ends (Confined J s) (deliver r t) := by
  have hclear : Confined J s (clearCb t) := h.own
  unfold deliver
  split
  · exact onSetup_confined hclear _
  · exact onIn_confined hclear _ _
  · exact onOut_confined hclear _ _
  · exact .next h.own
  · exact onStatusComplete_confined hclear
  · exact .next hclear
  · exact .refused _

theorem clientAnswer_confined (q : CbReq) : Confined J s (clientAnswer q t).2 := by
  unfold clientAnswer
  split <;> exact h.own

omit h in
theorem settle_confined : ∀ (n : Nat) {t : State}, Confined J s t → Ends (Confined J s) (settle n t)
  | 0, _, h => .next h
  | n + 1, t, h => by
    unfold settle
    split
    · exact .next h
    next q _ =>
      have hans := clientAnswer_confined h q
      split
      next r u hu =>
        rw [hu] at hans
        exact (deliver_confined hans r).andThen fun _ k => settle_confined n k
      next => exact .refused _

/-- A callback, from the request to the last thing the CORE does with the answers. -/
theorem callback_confined (q : CbReq) : Ends (Confined J s) (answered (issueCb q t)) := settle_confined 3 h.own

/-! ## Conditions (41 R149 to R161) -/

theorem reOffer_confined (i : Nat) : Ends (Confined J s) (reOffer i t) := by
  unfold reOffer
  split
  · exact callback_confined h _
  all_goals exact .next h

theorem ctrlSetup_confined : Ends (Confined J s) (ctrlSetup t) := by
  unfold ctrlSetup
  split
  · refine .ite (.next ?_) (.refused _)
    unfold abandon
    split <;> exact h.own
  · exact .refused _

theorem outXfrc_confined (i : Nat) : Ends (Confined J s) (outXfrc i t) := by
  unfold outXfrc
  split
  · exact .ite (callback_confined h _) (.next h)
  · exact .ite (callback_confined h _) (.next h)
  · exact callback_confined h _
  all_goals exact .next h

theorem outCond_confined (c : OutCond) (i : Nat) : Ends (Confined J s) (outCond c i t) := by
  cases c with
  | xfrc => exact outXfrc_confined h i
  | stup => exact .ite ((ctrlSetup_confined h).andThen fun _ k => settle_confined 3 k) (.refused _)
  | otepdis | nak => exact reOffer_confined h i
  | stsphsrx => exact .next h

theorem inXfrc_confined (i : Nat) : Ends (Confined J s) (inXfrc i t) := by
  unfold inXfrc
  split
  · exact .ite (callback_confined h _) (.next h)
  · exact .ite (callback_confined h _) (.next h)
  · refine .ite (.next ?_) (.next h)
    unfold setAddressDone
    split
    · exact .toInit (h.write _)
    · exact h.toInit
  · exact .next h.own
  · exact .next h.own
  all_goals exact .next h

theorem inIttxfe_confined (i : Nat) : Ends (Confined J s) (inIttxfe i t) := by
  unfold inIttxfe
  split
  · exact .ite (.ite (.next (h.read _)) (callback_confined (h.read _) _)) (.next h)
  · exact callback_confined h _
  · exact callback_confined h _
  all_goals exact .next h

theorem inCond_confined (c : InCond) (i : Nat) : Ends (Confined J s) (inCond c i t) := by
  cases c with
  | xfrc => exact inXfrc_confined h i
  | ittxfe => exact inIttxfe_confined h i
  | toc | inepne | epdisd | txfe => exact .next h

/-- The service of a condition acknowledges that condition alone. -/
theorem serveOut_confined {c : OutCond} {i : Nat} (hi : J i) : Ends (Confined J s) (serveOut c i t) :=
  (outCond_confined h c i).andThen fun _ k => .next (k.write 1 hi)

theorem serveIn_confined {c : InCond} {i : Nat} (hi : J i) : Ends (Confined J s) (serveIn c i t) :=
  (inCond_confined h c i).andThen fun _ k => .next (k.write 1 hi)

/-! ## Receive entries (41 R144 to R148) -/

theorem rxDataUpdate_confined (e : Nat) (n : BitVec 16) : Ends (Confined J s) (rxDataUpdate e n t) := by
  have hcopy (b : Buf) : Ends (Confined J s) (if n = 0 then .next t else popPacket b n.toNat t) :=
    .ite (.next h) (popPacket_confined h _ _)
  unfold rxDataUpdate
  split
  · exact .refused _
  · exact .ite ((hcopy _).andThen fun _ k => .next k.own) (.refused _)

theorem rxSetupUpdate_confined (e : Nat) (n : BitVec 16) : Ends (Confined J s) (rxSetupUpdate e n t) := by
  unfold rxSetupUpdate
  split
  · exact .refused _
  · exact .ite ((popPacket_confined h _ _).andThen fun _ k => .next k.own) (.fault _)

theorem rxBranch_confined (w : Word) : Ends (Confined J s) (rxBranch w t) :=
  .ite (.next h) (.ite (rxDataUpdate_confined h _ _) (.ite (rxSetupUpdate_confined h _ _) (.next h)))

/-! ## Sources (41 R142 to R171) -/

theorem handleRxflvl_confined : Ends (Confined J s) (handleRxflvl t) :=
  (rxBranch_confined (((h.write _).read _).takeHead _ _) _).andThen fun _ k => .next (k.write _)

/-- Activation of one side of the control endpoint. -/
theorem activateIn_zero_confined : Ends (fun p => Confined J s p.2) (activateIn .control 0 t) := by
  refine .ite (.ite (.next h) ?_) (.next h)
  split
  · exact .next h
  · exact .ite (.refused _) (.clocked (.next h.activateIn0))

theorem activateOut_zero_confined : Ends (fun p => Confined J s p.2) (activateOut .control 0 t) := by
  refine .ite (.ite (.next h) ?_) (.next h)
  split
  · exact .next h
  · exact .ite (.refused _) (.clocked (.next h.activateOut0))

theorem handleEnumdne_confined : Ends (Confined J s) (handleEnumdne t) :=
  (activateIn_zero_confined (h.write _)).andThen fun _ k =>
    .ite ((activateOut_zero_confined k).andThen fun _ k => .ite (.next k.armCtrlOut) (.refused _)) (.refused _)

omit h in
theorem serveOuts_confined {i : Nat} (hi : J i) (f : Word) :
    ∀ (cs : List OutCond) {u : State}, Confined J s u → Ends (Confined J s) (serveOuts f i cs u)
  | [], _, h => .next h
  | _ :: cs, _, h => .ite ((serveOut_confined h hi).andThen fun _ k => serveOuts_confined hi f cs k) (serveOuts_confined hi f cs h)

omit h in
theorem serveIns_confined {i : Nat} (hi : J i) (f : Word) :
    ∀ (cs : List InCond) {u : State}, Confined J s u → Ends (Confined J s) (serveIns f i cs u)
  | [], _, h => .next h
  | _ :: cs, _, h => .ite ((serveIn_confined h hi).andThen fun _ k => serveIns_confined hi f cs k) (serveIns_confined hi f cs h)

omit h in
theorem forEach_confined {f : Nat → State → M State} (hf : ∀ i {u}, Confined J s u → Ends (Confined J s) (f i u)) :
    ∀ (is : List Nat) {u : State}, Confined J s u → Ends (Confined J s) (forEach f is u)
  | [], _, h => .next h
  | i :: is, _, h => (hf i h).andThen fun _ k => forEach_confined hf is k

end

/-! A source may acknowledge conditions of any endpoint. -/

section
variable {s t : State} (h : Confined (fun _ => True) s t)
include h

theorem busReset_confined : Confined (fun _ => True) s (busReset t) := by
  have hregs : Confined (fun _ => True) s ((List.range t.cfg.nEp).foldl busResetRegs t) := .foldl (fun i u k => by
    have hin : Confined (fun _ => True) s (clearInFlags i u) := .foldl (fun c _ k => k.write 1) _ k
    have hout : Confined (fun _ => True) s (clearOutFlags i (clearInFlags i u)) := .foldl (fun c _ k => k.write 1) _ hin
    exact (hout.write _).write _) _ h
  have heps : Confined (fun _ => True) s
      (((List.range t.cfg.nEp).drop 1).foldl busResetEndpoint ((List.range t.cfg.nEp).foldl busResetRegs t)) :=
    .foldl (fun i u k => .own ((((k.write (f := .iep i .act) 0).write (f := .oep i .act) 0).write (f := .aintIep i) 0).write
      (f := .aintOep i) 0)) _ hregs
  have hctrl {u : State} (k : Confined (fun _ => True) s u) : Confined (fun _ => True) s (busResetControl u) := by
    unfold busResetControl
    split
    · exact k.own
    all_goals exact k
  exact .armCtrlOut (.write (hctrl heps).own 0)

theorem handler_confined (x : Source) : Ends (Confined (fun _ => True) s) (handler x t) := by
  cases x with
  | rxflvl => exact handleRxflvl_confined h
  | oepint => exact forEach_confined (fun i _ k => serveOuts_confined (i := i) trivial _ _ (k.read _)) _ h
  | iepint => exact forEach_confined (fun i _ k => serveIns_confined (i := i) trivial _ _ (k.read _)) _ h
  | usbrst => exact callback_confined (busReset_confined h) _
  | enumdne => exact handleEnumdne_confined h
  | _ => exact .next h

theorem serve_confined (x : Source) : Ends (Confined (fun _ => True) s) (serve x t) :=
  (handler_confined h x).andThen fun _ k => .next (k.write 1)

end

end Sys2Proof.Machine

end

section
/-! PROOFS. The statements about the dispatcher and the endpoint scans (spec 41 R140 to R142, R149, R155): each is the run, one after the
other, of the instructions of what its reads showed. -/

namespace Sys2Proof.Machine

/-! ## Runs of instructions -/

theorem andThen_assoc {α β γ : Type} (x : M α) (f : α → M β) (g : β → M γ) :
    andThen (andThen x f) g = andThen x fun a => andThen (f a) g := by
  cases x <;> rfl

@[simp] theorem andThen_next_right {α : Type} (x : M α) : andThen x .next = x := by cases x <;> rfl

/-- What comes next matters only where the first half ends. -/
theorem andThen_congr {α β : Type} {x : M α} {P : α → Prop} (h : Ends P x) {f g : α → M β} (hfg : ∀ a, P a → f a = g a) :
    andThen x f = andThen x g := by
  cases x with
  | next a => exact hfg a (h a rfl)
  | fault e => rfl
  | refused e => rfl

theorem runAll_append : ∀ (l l' : List Instr) (s : State), runAll (l ++ l') s = andThen (runAll l s) (runAll l')
  | [], _, _ => rfl
  | i :: l, l', s => by
    rw [List.cons_append, runAll, runAll, andThen_assoc]
    exact congrArg _ (funext fun t => runAll_append l l' t)

theorem runAll_singleton (i : Instr) (s : State) : runAll [i] s = exec i s := andThen_next_right _

/-- Instructions each of which is a change `g` of the state are those changes one after the other. -/
theorem runAll_eq_foldl {α : Type} {ins : α → Instr} {g : α → State → State} {P : State → Prop} :
    ∀ (l : List α), (∀ a ∈ l, ∀ s, P s → exec (ins a) s = .next (g a s) ∧ P (g a s)) → ∀ {s}, P s →
      runAll (l.map ins) s = .next (l.foldl (fun s a => g a s) s)
  | [], _, _, _ => rfl
  | a :: l, h, s, hs => by
    obtain ⟨he, hp⟩ := h a (List.mem_cons_self ..) s hs
    rw [List.map_cons, runAll, he, andThen_next]
    exact runAll_eq_foldl l (fun b hb => h b (List.mem_cons_of_mem _ hb)) hp

/-! ## The dispatcher (41 R140) -/

/-- The sources of a snapshot are served as their own instructions do, one after the other. -/
theorem serveAll_eq_runAll (p : Word) : ∀ (l : List Source) {s : State}, s.clockOn = true →
    serveAll p l s = runAll ((l.filter fun x => testBit p (s.cfg.layout.bit x)).map Source.instr) s
  | [], _, _ => rfl
  | x :: l, s, hk => by
    cases hx : testBit p (s.cfg.layout.bit x) with
    | false =>
      simp only [serveAll, served, hx, Bool.false_eq_true, if_false, List.filter_cons]
      exact serveAll_eq_runAll p l hk
    | true =>
      simp only [serveAll, served, hx, if_true, List.filter_cons, List.map_cons, runAll, exec_source, clocked_on hk]
      refine andThen_congr (serve_confined (.refl s) x) fun t ht => ?_
      rw [serveAll_eq_runAll p l (ht.clockOn.trans hk), ht.cfg]

/-- `s` with the two reads of the interrupt entry made (41 R140). -/
def snapshotTaken (s : State) : State := { s with trace := [.read .intmsk, .read .intsts] ++ s.trace }

theorem irqEntry_still {s : State} (hm : s.moves = []) :
    irqEntry s = (s.ri.status s.cfg.layout &&& s.ri.intmsk, snapshotTaken s) := by
  simp only [irqEntry, regRead_still .intsts hm]
  rw [regRead_still .intmsk (by exact hm)]
  rfl

/-- `IRQ` is the run of the instructions of the sources pending and unmasked in its snapshot. -/
theorem exec_irq_still {s : State} (hk : s.clockOn = true) (hm : s.moves = []) : exec .irq s = runAll
    ((s.cfg.handlerOrder.filter fun x => testBit (s.ri.status s.cfg.layout &&& s.ri.intmsk) (s.cfg.layout.bit x)).map Source.instr)
    (snapshotTaken s) := by
  have h : exec .irq s = clocked s (andThen (serveAll (irqEntry s).1 s.cfg.handlerOrder (irqEntry s).2) .next) := rfl
  rw [h, clocked_on hk, andThen_next_right, irqEntry_still hm]
  exact serveAll_eq_runAll _ _ (s := snapshotTaken s) hk

/-- Sources without an action leave the status word alone changed, each its own bit cleared. -/
theorem foldl_sourceAcknowledged : ∀ (l : List Source) (s : State), ∃ tr,
    l.foldl (fun s x => sourceAcknowledged x s) s = { s with
      ri := { s.ri with intsts := l.foldl (fun w x => putBit w (s.cfg.layout.bit x) false) s.ri.intsts }, trace := tr }
  | [], s => ⟨s.trace, rfl⟩
  | x :: l, s => by
    obtain ⟨tr, h⟩ := foldl_sourceAcknowledged l (sourceAcknowledged x s)
    exact ⟨tr, h⟩

/-- A bit is left where it stood and is not the one cleared. -/
theorem testBit_putBit_false (w : Word) (n m : Nat) : testBit (putBit w n false) m = (testBit w m && !(n == m)) := by
  by_cases hn : n < 32
  · rw [testBit_putBit w hn]
    by_cases hm : m = n
    · simp [hm]
    · simp [hm, Ne.symm hm]
  · have hmask : bitMask n = 0 := by
      apply BitVec.eq_of_toNat_eq
      have : 2 ^ 32 ∣ 2 ^ n := Nat.pow_dvd_pow 2 (Nat.not_lt.mp hn)
      simpa [bitMask] using Nat.mod_eq_zero_of_dvd this
    by_cases hm : n = m
    · subst hm
      simp [testBit, BitVec.getLsbD_of_ge _ n (Nat.not_lt.mp hn)]
    · have hsame : putBit w n false = w := by
        rw [putBit, hmask, if_neg nofun, show (0 : Word) = 0#32 from rfl, BitVec.not_zero, BitVec.and_allOnes]
      simp [hsame, hm]

/-- Bits cleared one after another: a bit is left where it stood and none of them is it. -/
theorem testBit_foldl_clearBits {α : Type} (bit : α → Nat) : ∀ (l : List α) (w : Word) (m : Nat),
    testBit (l.foldl (fun w x => putBit w (bit x) false) w) m = (testBit w m && !l.any fun x => bit x == m)
  | [], w, m => by simp
  | x :: l, w, m => by
    rw [List.foldl_cons, testBit_foldl_clearBits bit l, testBit_putBit_false, List.any_cons, Bool.not_or, Bool.and_assoc]

/-! ## Runs alike but for the accesses made before -/

/-- States alike but for the record of accesses. -/
def TraceAlike (s u : State) : Prop := ∃ tr, u = { s with trace := tr }

theorem traceAlike_sim : Sim TraceAlike where
  form := fun ⟨tr, h⟩ => ⟨_, _, tr, h⟩
  write := by
    rintro s _ ⟨tr, rfl⟩ f v
    exact ⟨_, rfl⟩
  read := by
    rintro s _ ⟨tr, rfl⟩ f
    exact ⟨_, rfl⟩
  push := by
    rintro s _ ⟨tr, rfl⟩ i w
    exact ⟨_, rfl⟩
  frame := by
    rintro s _ s' u' ⟨tr, rfl⟩ - hr hm - rfl
    exact ⟨tr, by rw [← hr, ← hm]⟩
  actIn := by
    rintro s _ ⟨tr, rfl⟩ i
    rfl
  actOut := by
    rintro s _ ⟨tr, rfl⟩ i
    rfl

theorem TraceAlike.pollIfIdle0 {s u : State} (h : TraceAlike s u) : Both TraceAlike (pollIfIdle0 s) (pollIfIdle0 u) := by
  have hread := traceAlike_sim.read h (.iep 0 .ena)
  unfold Machine.pollIfIdle0
  dsimp only
  obtain ⟨tr, htr⟩ := hread
  refine .ite (by rw [htr]) ⟨tr, htr⟩ (traceAlike_sim.answered (traceAlike_sim.issueCb ⟨tr, htr⟩ _))

/-- The instruction of a condition of endpoint `i`. -/
def IsCondition (i : Nat) (x : Instr) : Prop := (∃ c : OutCond, x = c.instr i) ∨ ∃ c : InCond, x = c.instr i

/-- The instruction of an IN condition is its service, on an endpoint whose registers exist. -/
theorem exec_inCond_onRegs (c : InCond) (i : Nat) (s : State) : exec (c.instr i) s = onRegs i s (serveIn c i s) := by
  cases c <;> rfl

/-- A condition acknowledges no condition of another endpoint. -/
theorem exec_condition_confined {i : Nat} {x : Instr} (hx : IsCondition i x) (s : State) : Ends (Confined (· = i) s) (exec x s) := by
  obtain ⟨c, rfl⟩ | ⟨c, rfl⟩ := hx
  · rw [exec_outCond_onRegs]
    exact .ite (.clocked (serveOut_confined (.refl s) rfl)) (.fault _)
  · rw [exec_inCond_onRegs]
    exact .ite (.clocked (serveIn_confined (.refl s) rfl)) (.fault _)

/-- What a condition does does not depend on the accesses made before. -/
theorem exec_condition_alike {i : Nat} {x : Instr} (hx : IsCondition i x) {s u : State} (h : TraceAlike s u) :
    Both TraceAlike (exec x s) (exec x u) := by
  obtain ⟨c, rfl⟩ | ⟨c, rfl⟩ := hx
  · rw [exec_outCond_onRegs, exec_outCond_onRegs]
    exact traceAlike_sim.onRegs h i (traceAlike_sim.serveOut h c i)
  · rw [exec_inCond_onRegs, exec_inCond_onRegs]
    exact traceAlike_sim.onRegs h i (traceAlike_sim.serveIn h c i fun _ => h.pollIfIdle0)

theorem runAll_confined {i : Nat} : ∀ {l : List Instr}, (∀ x ∈ l, IsCondition i x) → ∀ {s t : State}, Confined (· = i) s t →
    Ends (Confined (· = i) s) (runAll l t)
  | [], _, _, _, h => .next h
  | x :: _, hl, _, t, h =>
    (exec_condition_confined (hl x (List.mem_cons_self ..)) t).andThen fun _ k =>
      runAll_confined (fun y hy => hl y (List.mem_cons_of_mem _ hy)) (h.trans k)

theorem runAll_alike {i : Nat} : ∀ {l : List Instr}, (∀ x ∈ l, IsCondition i x) → ∀ {s u : State}, TraceAlike s u →
    Both TraceAlike (runAll l s) (runAll l u)
  | [], _, _, _, h => h
  | x :: _, hl, _, _, h =>
    (exec_condition_alike (hl x (List.mem_cons_self ..)) h).andThen fun _ _ k =>
      runAll_alike (fun y hy => hl y (List.mem_cons_of_mem _ hy)) k

theorem Both.and_ends {α : Type} {R : α → α → Prop} {P : α → Prop} {x y : M α} (h : Both R x y) (k : Ends P x) :
    Both (fun a b => R a b ∧ P a) x y := by
  cases x <;> cases y <;> first | exact ⟨h, k _ rfl⟩ | exact h

/-! ## The endpoint scans (41 R149, R155) -/

/-- The instructions of the OUT conditions flagged on endpoint `i`, in their order. -/
def outDue (s : State) (i : Nat) : List Instr :=
  (OutCond.order.filter fun c => testBit (s.ri.oepAt i).int (s.cfg.layout.outBit c)).map (OutCond.instr i)

/-- The same of the IN conditions. -/
def inDue (s : State) (i : Nat) : List Instr :=
  (InCond.order.filter fun c => testBit (s.ri.iepAt i).int (s.cfg.layout.inBit c)).map (InCond.instr i)

theorem serveOuts_eq_runAll (f : Word) {i : Nat} : ∀ (cs : List OutCond) {s : State}, s.clockOn = true → i < s.cfg.nEp →
    serveOuts f i cs s = runAll ((cs.filter fun c => testBit f (s.cfg.layout.outBit c)).map (OutCond.instr i)) s
  | [], _, _, _ => rfl
  | c :: cs, s, hk, hi => by
    cases hc : testBit f (s.cfg.layout.outBit c) with
    | false =>
      simp only [serveOuts, hc, Bool.false_eq_true, if_false, List.filter_cons]
      exact serveOuts_eq_runAll f cs hk hi
    | true =>
      simp only [serveOuts, hc, if_true, List.filter_cons, List.map_cons, runAll, exec_outCond hk hi]
      refine andThen_congr (serveOut_confined (J := fun _ => True) (.refl s) trivial) fun t ht => ?_
      rw [serveOuts_eq_runAll f cs (ht.clockOn.trans hk) (ht.cfg ▸ hi), ht.cfg]

theorem serveIns_eq_runAll (f : Word) {i : Nat} : ∀ (cs : List InCond) {s : State}, s.clockOn = true → i < s.cfg.nEp →
    serveIns f i cs s = runAll ((cs.filter fun c => testBit f (s.cfg.layout.inBit c)).map (InCond.instr i)) s
  | [], _, _, _ => rfl
  | c :: cs, s, hk, hi => by
    cases hc : testBit f (s.cfg.layout.inBit c) with
    | false =>
      simp only [serveIns, hc, Bool.false_eq_true, if_false, List.filter_cons]
      exact serveIns_eq_runAll f cs hk hi
    | true =>
      simp only [serveIns, hc, if_true, List.filter_cons, List.map_cons, runAll, exec_inCond hk hi]
      refine andThen_congr (serveIn_confined (J := fun _ => True) (.refl s) trivial) fun t ht => ?_
      rw [serveIns_eq_runAll f cs (ht.clockOn.trans hk) (ht.cfg ▸ hi), ht.cfg]

/-- A scan of one endpoint that runs the instructions of what is flagged there, after reading the flags, and what is flagged depends on
the flags of that endpoint alone. -/
structure IsScan (scan : Nat → State → M State) (due : State → Nat → List Instr) : Prop where
  run : ∀ {i s}, s.clockOn = true → s.moves = [] → i < s.cfg.nEp → ∃ tr, scan i s = runAll (due s i) { s with trace := tr }
  conditions : ∀ {s i}, ∀ x ∈ due s i, IsCondition i x
  flags : ∀ {s t i}, t.cfg = s.cfg → s.ri.SameFlags i t.ri → due t i = due s i

theorem scanOut_isScan : IsScan scanOut outDue where
  run {i s} hk hm hi := ⟨_, by
    unfold scanOut
    dsimp only
    rw [regRead_still _ hm]
    exact serveOuts_eq_runAll _ _ (s := logAccess _ s) hk hi⟩
  conditions x hx := by
    obtain ⟨c, -, rfl⟩ := List.mem_map.mp hx
    exact .inl ⟨c, rfl⟩
  flags hc h := by rw [outDue, outDue, hc, h.2]

theorem scanIn_isScan : IsScan scanIn inDue where
  run {i s} hk hm hi := ⟨_, by
    unfold scanIn
    dsimp only
    rw [regRead_still _ hm]
    exact serveIns_eq_runAll _ _ (s := logAccess _ s) hk hi⟩
  conditions x hx := by
    obtain ⟨c, -, rfl⟩ := List.mem_map.mp hx
    exact .inr ⟨c, rfl⟩
  flags hc h := by rw [inDue, inDue, hc, h.1]

/-- The scan of endpoints is alike to the run of what was flagged at its start: what one endpoint's conditions do leaves the flags of the
others. -/
theorem IsScan.forEach_alike {scan : Nat → State → M State} {due : State → Nat → List Instr} (h : IsScan scan due) :
    ∀ {is : List Nat}, is.Nodup → ∀ {s u : State}, s.clockOn = true → s.moves = [] → (∀ i ∈ is, i < s.cfg.nEp) → TraceAlike s u →
      Both TraceAlike (runAll (is.flatMap (due s)) s) (forEach scan is u)
  | [], _, _, _, _, _, _, hu => hu
  | i :: is, hnd, s, u, hk, hm, hlt, hu => by
    obtain ⟨hi, hnd⟩ := List.nodup_cons.mp hnd
    obtain ⟨tr, rfl⟩ := hu
    obtain ⟨tr', hscan⟩ := h.run (s := { s with trace := tr }) hk hm (hlt i (List.mem_cons_self ..))
    have hdue : due { s with trace := tr } i = due s i := h.flags rfl (.refl i s.ri)
    rw [List.flatMap_cons, runAll_append, forEach, hscan, hdue]
    refine ((runAll_alike h.conditions ⟨tr', rfl⟩).and_ends (runAll_confined h.conditions (.refl s))).andThen ?_
    rintro a b ⟨hab, ha⟩
    have hrest : is.flatMap (due s) = is.flatMap (due a) :=
      List.flatMap_congr fun j hj => (h.flags ha.cfg (ha.flags hm j fun hji => hi (hji ▸ hj))).symm
    rw [hrest]
    exact h.forEach_alike hnd (ha.clockOn.trans hk) (ha.still hm)
      (fun j hj => ha.cfg.symm ▸ hlt j (List.mem_cons_of_mem _ hj)) hab

/-- What goes on alike is followed, where what comes after makes a known change of the states that may be reached. -/
theorem follows_of_both {x y : M State} {P : State → Prop} {f : State → State} {g : State → M State} (h : Both TraceAlike x y)
    (hp : Ends P y) (hg : ∀ t tr, P { t with trace := tr } → ∃ l, g { t with trace := tr } = .next { f t with trace := l }) :
    Follows x (andThen y g) f := by
  cases x <;> cases y
  case next.next t u =>
    have hu := hp u rfl
    obtain ⟨tr, rfl⟩ := h
    exact hg t tr hu
  case fault.fault => exact congrArg Host.Outcome.fault h.symm
  case refused.refused => exact congrArg Host.Outcome.refused h.symm
  all_goals exact h.elim

/-- An endpoint handler follows the run of what was flagged at its start, and acknowledges its source. -/
theorem IsScan.follows {scan : Nat → State → M State} {due : State → Nat → List Instr} (h : IsScan scan due) {x : Source} {s : State}
    (hx : handler x s = forEach scan (List.range s.cfg.nEp) s) (hk : s.clockOn = true) (hm : s.moves = []) :
    Follows (runAll ((List.range s.cfg.nEp).flatMap (due s)) s) (exec x.instr s)
      (fun t => { t with ri := { t.ri with intsts := putBit t.ri.intsts (s.cfg.layout.bit x) false } }) := by
  rw [exec_source, clocked_on hk, serve]
  refine follows_of_both ?_ (handler_confined (.refl s) x) fun t tr ht => ⟨.write (.intstsBit x) 1 :: tr, ?_⟩
  · rw [hx]
    exact h.forEach_alike List.nodup_range hk hm (fun i => List.mem_range.mp) ⟨s.trace, rfl⟩
  · rw [acknowledge, regWrite_still _ _ (ht.still hm), ← ht.cfg]
    rfl

/-! ## Scans that find no condition with an action (41 R153, R157, R159 to R161) -/

/-- A scan that changes the registers alone, at each endpoint those of that endpoint: `Idle` is what it asks of the endpoint. -/
theorem forEach_eq_foldl {scan : Nat → State → M State} {G : Nat → RegIf → RegIf} {Idle : RegIf → Nat → Prop} {c : Config}
    (hscan : ∀ {i t}, t.clockOn = true → t.moves = [] → t.cfg = c → i < c.nEp → Idle t.ri i →
      ∃ tr, scan i t = .next { t with ri := G i t.ri, trace := tr })
    (hG : ∀ {i j r}, i ≠ j → Idle r j → Idle (G i r) j) :
    ∀ {is : List Nat}, is.Nodup → ∀ {t : State}, t.clockOn = true → t.moves = [] → t.cfg = c →
      (∀ i ∈ is, i < c.nEp ∧ Idle t.ri i) →
      ∃ tr, forEach scan is t = .next { t with ri := is.foldl (fun r i => G i r) t.ri, trace := tr }
  | [], _, t, _, _, _, _ => ⟨t.trace, rfl⟩
  | i :: is, hnd, t, hk, hm, hc, hi => by
    obtain ⟨hni, hnd⟩ := List.nodup_cons.mp hnd
    obtain ⟨hlt, hidle⟩ := hi i (List.mem_cons_self ..)
    obtain ⟨tr, hstep⟩ := hscan hk hm hc hlt hidle
    have hi' : ∀ j ∈ is, j < c.nEp ∧ Idle (G i t.ri) j := fun j hj =>
      have ⟨hjlt, hjidle⟩ := hi j (List.mem_cons_of_mem _ hj)
      ⟨hjlt, hG (fun hij => hni (hij ▸ hj)) hjidle⟩
    obtain ⟨tr', hrest⟩ := forEach_eq_foldl hscan hG hnd (t := { t with ri := G i t.ri, trace := tr }) hk hm hc hi'
    exact ⟨tr', by rw [forEach, hstep, andThen_next, hrest]; rfl⟩

/-- The source of a scan whose outcome is known. -/
theorem exec_scan_next {x : Source} {s : State} {r : RegIf} {tr : List Access} (hk : s.clockOn = true) (hm : s.moves = [])
    (h : handler x s = .next { s with ri := r, trace := tr }) : ∃ l, exec x.instr s = .next { s with
      ri := { r with intsts := putBit r.intsts (s.cfg.layout.bit x) false }, trace := l ++ s.trace } := by
  obtain ⟨l, hl⟩ := (handler_confined (.refl s) x _ h).trace
  obtain rfl : tr = l ++ s.trace := hl
  exact ⟨.write (.intstsBit x) 1 :: l, exec_source_next hk h hm⟩

/-- Clearing a bit that is clear changes nothing. -/
theorem putBit_false_same {w : Word} {n : Nat} (h : testBit w n = false) : putBit w n false = w := by
  apply BitVec.eq_of_getLsbD_eq
  intro m _
  refine (testBit_putBit_false w n m).trans ?_
  by_cases hm : n = m
  · subst hm
    rw [h, Bool.false_and]
    exact h.symm
  · simp [hm, testBit]

theorem InRegs.acked_same {l : Layout} {c : InCond} {r : InRegs} (h : testBit r.int (l.inBit c) = false) : r.acked l c = r := by
  rw [InRegs.acked, putBit_false_same h]

theorem OutRegs.acked_same {l : Layout} {c : OutCond} {r : OutRegs} (h : testBit r.int (l.outBit c) = false) : r.acked l c = r := by
  rw [OutRegs.acked, putBit_false_same h]

/-- Acknowledging the flagged conditions of a list is acknowledging them all. -/
theorem foldl_acked_filter {l : Layout} {p : InCond → Bool} : ∀ (cs : List InCond) {r : InRegs},
    (∀ c, p c = false → testBit r.int (l.inBit c) = false) →
    (cs.filter p).foldl (fun r c => InRegs.acked l c r) r = cs.foldl (fun r c => InRegs.acked l c r) r
  | [], _, _ => rfl
  | c :: cs, r, h => by
    cases hc : p c with
    | false =>
      rw [List.filter_cons, hc, if_neg nofun, List.foldl_cons, InRegs.acked_same (h c hc)]
      exact foldl_acked_filter cs h
    | true =>
      rw [List.filter_cons, hc, if_pos rfl, List.foldl_cons, List.foldl_cons]
      refine foldl_acked_filter cs fun d hd => ?_
      rw [InRegs.acked, testBit_putBit_false, h d hd, Bool.false_and]

theorem foldl_inAcknowledged (i : Nat) : ∀ (cs : List InCond) (s : State), ∃ tr, cs.foldl (fun s c => inAcknowledged i c s) s = { s with
    ri := { s.ri with iep := s.ri.iep.modify i fun r => cs.foldl (fun r c => InRegs.acked s.cfg.layout c r) r }, trace := tr }
  | [], s => ⟨s.trace, by simp only [List.foldl_nil]; rw [modify_same _ _ _ fun _ _ => rfl]⟩
  | c :: cs, s => by
    obtain ⟨tr, h⟩ := foldl_inAcknowledged i cs (inAcknowledged i c s)
    refine ⟨tr, h.trans ?_⟩
    simp only [inAcknowledged, modify_twice]
    rfl

/-- Where no other OUT condition is flagged the scan of an endpoint acknowledges the status-phase condition, if it is. -/
theorem scanOut_idle {i : Nat} {t : State} {c : Config} (hk : t.clockOn = true) (hm : t.moves = []) (hc : t.cfg = c) (hi : i < c.nEp)
    (hidle : ∀ d, d ≠ .stsphsrx → testBit (t.ri.oepAt i).int (c.layout.outBit d) = false) :
    ∃ tr, scanOut i t = .next { t with
      ri := { t.ri with oep := t.ri.oep.modify i (OutRegs.acked c.layout .stsphsrx) }, trace := tr } := by
  subst hc
  obtain ⟨tr, hrun⟩ := scanOut_isScan.run hk hm hi
  have hdue : outDue t i = ([OutCond.stsphsrx].filter fun d => testBit (t.ri.oepAt i).int (t.cfg.layout.outBit d)).map (OutCond.instr i) := by
    simp [outDue, OutCond.order, List.filter_cons, hidle]
  rw [hrun, hdue, List.filter_cons]
  cases hflag : testBit (t.ri.oepAt i).int (t.cfg.layout.outBit .stsphsrx) with
  | true => exact ⟨_, (runAll_singleton _ _).trans (exec_outCond_next (c := .stsphsrx) (t := { t with trace := tr }) hk hi rfl hm)⟩
  | false =>
    refine ⟨tr, ?_⟩
    rw [modify_same t.ri.oep i _ fun x hx => OutRegs.acked_same ?_]
    · rfl
    · rwa [RegIf.oepAt, List.getD_eq_getElem?_getD, hx] at hflag

/-- Where neither IN transfer-complete nor the IN-token mismatch is flagged the scan of an endpoint acknowledges what is. -/
theorem scanIn_idle {i : Nat} {t : State} {c : Config} (hk : t.clockOn = true) (hm : t.moves = []) (hc : t.cfg = c) (hi : i < c.nEp)
    (hidle : ∀ d, d = .xfrc ∨ d = .ittxfe → testBit (t.ri.iepAt i).int (c.layout.inBit d) = false) :
    ∃ tr, scanIn i t = .next { t with
      ri := { t.ri with iep := t.ri.iep.modify i fun r =>
        [InCond.toc, .inepne, .epdisd, .txfe].foldl (fun r d => InRegs.acked c.layout d r) r }, trace := tr } := by
  subst hc
  obtain ⟨tr, hrun⟩ := scanIn_isScan.run hk hm hi
  let flagged := fun d => testBit (t.ri.iepAt i).int (t.cfg.layout.inBit d)
  have hdue : inDue t i = ([InCond.toc, .inepne, .epdisd, .txfe].filter flagged).map (InCond.instr i) := by
    simp [inDue, InCond.order, List.filter_cons, hidle, flagged]
  have hserve := runAll_eq_foldl (ins := InCond.instr i) (g := fun c s => inAcknowledged i c s)
    (P := fun u => u.clockOn = true ∧ u.moves = [] ∧ i < u.cfg.nEp) ([InCond.toc, .inepne, .epdisd, .txfe].filter flagged)
    (fun d hd u ⟨huk, hum, hui⟩ =>
      ⟨exec_inCond_next huk hui (inCond_noAction (by simpa using (List.mem_filter.mp hd).1) i u) hum, huk, hum, hui⟩)
    (s := { t with trace := tr }) ⟨hk, hm, hi⟩
  obtain ⟨tr', hack⟩ := foldl_inAcknowledged i ([InCond.toc, .inepne, .epdisd, .txfe].filter flagged) { t with trace := tr }
  refine ⟨tr', ?_⟩
  rw [hrun, hdue, hserve, hack]
  rw [modify_congr t.ri.iep i _ _ fun x hx => foldl_acked_filter _ fun d hd => ?_]
  obtain rfl : t.ri.iepAt i = x := by simp [RegIf.iepAt, hx]
  exact hd

theorem foldl_oepMod (f : OutRegs → OutRegs) : ∀ (is : List Nat) (r : RegIf),
    is.foldl (fun r i => { r with oep := r.oep.modify i f }) r = { r with oep := is.foldl (fun l i => l.modify i f) r.oep }
  | [], _ => rfl
  | i :: is, r => foldl_oepMod f is { r with oep := r.oep.modify i f }

theorem foldl_iepMod (f : InRegs → InRegs) : ∀ (is : List Nat) (r : RegIf),
    is.foldl (fun r i => { r with iep := r.iep.modify i f }) r = { r with iep := is.foldl (fun l i => l.modify i f) r.iep }
  | [], _ => rfl
  | i :: is, r => foldl_iepMod f is { r with iep := r.iep.modify i f }

theorem oepAt_oepMod_ne {i j : Nat} (h : i ≠ j) (r : RegIf) (f : OutRegs → OutRegs) :
    ({ r with oep := r.oep.modify i f } : RegIf).oepAt j = r.oepAt j := by
  simp only [RegIf.oepAt, getD_modify, h, false_and, if_false]

theorem iepAt_iepMod_ne {i j : Nat} (h : i ≠ j) (r : RegIf) (f : InRegs → InRegs) :
    ({ r with iep := r.iep.modify i f } : RegIf).iepAt j = r.iepAt j := by
  simp only [RegIf.iepAt, getD_modify, h, false_and, if_false]

end Sys2Proof.Machine

open Sys2Proof Sys2Proof.Machine

/-- Settles O40: the dispatcher is the run of its snapshot's instructions; the other clauses are such runs of no instruction, of one, and
of instructions that acknowledge and do nothing else. -/
theorem dispatcherServesSnapshot : Obligations.DispatcherServesSnapshot := by
  refine ⟨fun s hk hm => ?_, rfl⟩
  have hirq := exec_irq_still hk hm
  refine ⟨hirq, fun h => ?_, fun x pre post horder hx hrest => ?_, fun h => ?_⟩
  · rw [hirq, List.filter_eq_nil_iff.mpr fun x hx => by rw [h x hx]; nofun]
    rfl
  · have hnone (l : List Source) (hl : ∀ y ∈ l, y ∈ pre ++ post) :
        (l.filter fun y => testBit (s.ri.status s.cfg.layout &&& s.ri.intmsk) (s.cfg.layout.bit y)) = [] :=
      List.filter_eq_nil_iff.mpr fun y hy => by rw [hrest y (hl y hy)]; nofun
    rw [hirq, horder, List.filter_append, List.filter_cons, if_pos hx, hnone pre fun y => List.mem_append_left _,
      hnone post fun y => List.mem_append_right _]
    exact runAll_singleton _ _
  · obtain ⟨due, hdue⟩ : ∃ l, l = s.cfg.handlerOrder.filter fun x =>
      testBit (s.ri.status s.cfg.layout &&& s.ri.intmsk) (s.cfg.layout.bit x) := ⟨_, rfl⟩
    rw [← hdue] at hirq
    have hrun : runAll (due.map Source.instr) (snapshotTaken s) =
        .next (due.foldl (fun s x => sourceAcknowledged x s) (snapshotTaken s)) := by
      refine runAll_eq_foldl (P := fun t => t.clockOn = true ∧ t.moves = []) due (fun x hx t ⟨htk, htm⟩ => ?_) ⟨hk, hm⟩
      obtain ⟨hx, hbit⟩ := List.mem_filter.mp (hdue ▸ hx)
      exact ⟨exec_source_next htk (handler_noAction (h x hx hbit) t) htm, htk, htm⟩
    obtain ⟨tr, htr⟩ := foldl_sourceAcknowledged due (snapshotTaken s)
    refine ⟨_, (hirq.trans hrun).trans (congrArg _ htr), rfl, fun m => ?_⟩
    refine (testBit_foldl_clearBits s.cfg.layout.bit due _ m).trans (congrArg (fun b => testBit s.ri.intsts m && !b) ?_)
    rw [hdue, Bool.eq_iff_iff]
    simp

/-- Settles O39: a handler scans what it found flagged, and what is served on one endpoint leaves the flags of the others; where no
condition has an action the scan changes the registers of each endpoint alone. -/
theorem endpointScansAcknowledge : Obligations.EndpointScansAcknowledge := by
  intro s hk hm
  refine ⟨scanOut_isScan.follows (x := .oepint) rfl hk hm, scanIn_isScan.follows (x := .iepint) rfl hk hm,
    fun hs hidle => ?_, fun hs hidle => ?_⟩
  · obtain ⟨tr, hscan⟩ := forEach_eq_foldl (Idle := fun r i => ∀ d, d ≠ .stsphsrx → testBit (r.oepAt i).int (s.cfg.layout.outBit d) = false)
      scanOut_idle (fun hij h d hd => by rw [oepAt_oepMod_ne hij]; exact h d hd) List.nodup_range hk hm rfl
      fun i hi => ⟨List.mem_range.mp hi, hidle i (List.mem_range.mp hi)⟩
    rw [foldl_oepMod, modify_range_map _ _ (Nat.le_of_eq hs.oep)] at hscan
    exact exec_scan_next (x := .oepint) hk hm hscan
  · obtain ⟨tr, hscan⟩ := forEach_eq_foldl
      (Idle := fun r i => ∀ d, d = .xfrc ∨ d = .ittxfe → testBit (r.iepAt i).int (s.cfg.layout.inBit d) = false)
      scanIn_idle (fun hij h d hd => by rw [iepAt_iepMod_ne hij]; exact h d hd) List.nodup_range hk hm rfl
      fun i hi => ⟨List.mem_range.mp hi, hidle i (List.mem_range.mp hi)⟩
    rw [foldl_iepMod, modify_range_map _ _ (Nat.le_of_eq hs.iep)] at hscan
    exact exec_scan_next (x := .iepint) hk hm hscan

end

section
/-! PROOFS. The statements about the receive handler and its entries (spec 41 R144 to R148): the entries are the packet copy of 45 R271 and
a change of one descriptor, the handler is the instruction of the word it pops between the mask and the unmask. -/

namespace Sys2Proof.Machine

/-! ## Where a received packet can go (41 R146, R147) -/

section
variable {s : State} {e : Nat} {n : BitVec 16} {b : Buf}

theorem receiveBuf_eq_some (hi : e < s.cfg.nEp) (hb : (s.epAt e).outBuf = some b) (hn : n.toNat ≤ b.len.toNat) :
    receiveBuf e n s = some b := by
  simp only [receiveBuf, hi, hb, hn, if_true]

theorem receiveBuf_eq_none (h : s.cfg.nEp ≤ e ∨ (s.epAt e).outBuf = none ∨ ((s.epAt e).outBuf = some b ∧ b.len.toNat < n.toNat)) :
    receiveBuf e n s = none := by
  obtain hi | hb | ⟨hb, hn⟩ := h
  · rw [receiveBuf, if_neg (Nat.not_lt.mpr hi)]
  · simp only [receiveBuf, hb, ite_self]
  · simp only [receiveBuf, hb, if_neg (Nat.not_le.mpr hn), ite_self]

theorem rxDataUpdate_noBuf (h : receiveBuf e n s = none) : rxDataUpdate e n s = .refused .receiveNotTakable := by
  rw [rxDataUpdate, h]

/-- A second packet while the first is held is not taken (44 R253). -/
theorem rxDataUpdate_notTaken (h : (s.epAt e).sub.takesData = false) : rxDataUpdate e n s = .refused .receiveNotTakable := by
  cases hb : receiveBuf e n s with
  | none => exact rxDataUpdate_noBuf hb
  | some b => simp only [rxDataUpdate, hb, h, Bool.false_eq_true, if_false]

theorem rxSetupUpdate_noBuf (h : receiveBuf e n s = none) : rxSetupUpdate e n s = .refused .receiveNotTakable := by
  rw [rxSetupUpdate, h]

end

/-! ## The two entries that copy -/

/-- The data half of a bulk endpoint is what a held packet occupies (44 R253). -/
theorem Sub.takesData_eq_true {x : Sub} (h1 : ∀ bin, x ≠ .bulk bin .outDelay) (h2 : ∀ bin m, x ≠ .bulk bin (.outData m)) :
    x.takesData = true := by
  cases x with
  | bulk bin bout =>
    cases bout with
    | init => rfl
    | outDelay => exact absurd rfl (h1 bin)
    | outData m => exact absurd rfl (h2 bin m)
  | _ => rfl

/-- No packet of no bytes is popped, and popping one would change nothing (41 R146). -/
theorem popPacket_zero {b : Buf} {s : State} (hk : s.clockOn = true) (hsp : b.base.toNat + 4 * words4 0 ≤ 2 ^ 32) :
    popPacket b 0 s = .next s := by
  rw [popPacket, Buf.inSpace, if_pos (decide_eq_true hsp), clocked_on hk]
  rfl

/-- The direction of a request is the high bit of its first byte (43 R234). -/
theorem dirOf_eq (x : Byte) : dirOf x = if 128 ≤ x.toNat then .d2h else .h2d := by
  have hbit : x.getLsbD 7 = decide (128 ≤ x.toNat) := x.msb_eq_getLsbD_last.symm.trans x.msb_eq_decide
  simp only [dirOf, hbit, decide_eq_true_eq]

/-- `s` with a packet of `n` bytes gone from the receive queue and memory `m` (45 R271). -/
def packetCopied (n : Nat) (rest : List RxItem) (m : Memory) (c : Nat) (s : State) : State :=
  { s with ri := { s.ri with rxq := rest }, mem := m, freeCtr := c, trace := List.replicate (words4 n) .rxPop ++ s.trace }

section
variable {s : State} {e : Nat} {n : BitVec 16} {b : Buf} {ws : List Word} {rest : List RxItem} (hk : s.clockOn = true)
  (hr : receiveBuf e n s = some b) (hsp : b.base.toNat + 4 * words4 n.toNat ≤ 2 ^ 32) (hp : HoldsPacket n.toNat ws rest s)
  (hw : s.mem.wf = true)

include hk hr hsp hp hw

theorem rxDataUpdate_next (ht : (s.epAt e).sub.takesData = true) :
    ∃ m c, rxDataUpdate e n s = .next (modifyEp e (fun x => { x with pendingSize := n, sub := x.sub.dataArrived n })
        (packetCopied n.toNat rest m c s)) ∧
      StoredIn b.base.toNat (4 * words4 n.toNat) s.mem m ∧
      ∀ j, j < n.toNat → m.read (b.base.toNat + j) = packetByte s.cfg.byteOrder ws j := by
  obtain ⟨m, c, hpop, hm⟩ := popPacket_next hk hsp hp hw
  have hcopy : (if n = 0 then .next s else popPacket b n.toNat s) = popPacket b n.toNat s := by
    split
    next h0 =>
      subst h0
      exact (popPacket_zero hk hsp).symm
    next => rfl
  refine ⟨m, c, ?_, hm⟩
  simp only [rxDataUpdate, hr, ht, if_true]
  rw [hcopy, hpop, andThen_next]
  rw [setSub, setPending, modifyEp_twice]
  exact congrArg _ (modifyEp_congr rfl)

theorem rxSetupUpdate_next :
    ∃ m c, rxSetupUpdate e n s = .next (modifyEp e (fun x => { x with pendingSize := n, reqDir := dirOf (m.read b.base.toNat) })
        (packetCopied n.toNat rest m c s)) ∧
      StoredIn b.base.toNat (4 * words4 n.toNat) s.mem m ∧
      ∀ j, j < n.toNat → m.read (b.base.toNat + j) = packetByte s.cfg.byteOrder ws j := by
  obtain ⟨m, c, hpop, hm⟩ := popPacket_next hk hsp hp hw
  have hone : b.inSpace 1 = true := decide_eq_true b.base.isLt
  refine ⟨m, c, ?_, hm⟩
  simp only [rxSetupUpdate, hr, hone, if_true, hpop, andThen_next]
  rw [setDir, setPending, modifyEp_twice]
  rfl

end

/-! ## The word popped and its instruction (41 R144, 30_encoding R99) -/

/-- A pop of a status word takes the head of the queue, whatever its kind; a head of the other kind leaves the queue out of step
(log 9). -/
theorem popStatus_cons {s : State} {x : RxItem} {q : List RxItem} (hq : s.ri.rxq = x :: q) (hm : s.moves = []) :
    popStatus s = (x.word, { s with
      ri := { s.ri with rxq := q, rxInStep := s.ri.rxInStep && x.isStatus }, trace := .read .rxstsp :: s.trace }) := by
  have ha : anyWordNext s = false := by simp [anyWordNext, nextMoves, hm]
  rw [popStatus, regRead_still _ hm, ha, takeHead_cons (s := logAccess (.read .rxstsp) s) hq, beq_true]
  rfl

theorem field_lt (w : Word) (lo len : Nat) : field w lo len < 2 ^ len := Nat.mod_lt _ (Nat.two_pow_pos len)

/-- The named codes are distinct (30_encoding R99). -/
theorem Layout.codes_ne {l : Layout} (h : l.Apart) :
    l.dataUpdate ≠ l.setupComplete ∧ l.dataUpdate ≠ l.setupUpdate ∧ l.setupComplete ≠ l.setupUpdate := by
  have hd := h.codes
  simp only [Layout.codes, List.nodup_cons, List.mem_cons, List.not_mem_nil, or_false, not_or, not_false_eq_true, and_true,
    List.nodup_nil] at hd
  obtain ⟨⟨h1, h2⟩, h3⟩ := hd
  exact ⟨h1, h2, h3⟩

section
variable {s : State} {w : Word}

/-- The branch on a popped word is the instruction decoded from it. -/
theorem rxBranch_eq_exec (hl : s.cfg.layout.wf = true) {i : Instr} (h : decode s.cfg.layout .rxsts [w] = .ok (i, [])) :
    rxBranch w s = exec i s := by
  obtain ⟨hdc, hdu, hcu⟩ := Layout.codes_ne (Layout.apart_of_wf hl)
  have he : (BitVec.ofNat 4 (rxStatusOf s.cfg.layout w).epnum).toNat = (rxStatusOf s.cfg.layout w).epnum :=
    Nat.mod_eq_of_lt (field_lt w _ 4)
  have hn : (BitVec.ofNat 11 (rxStatusOf s.cfg.layout w).bcnt).setWidth 16 = BitVec.ofNat 16 (rxStatusOf s.cfg.layout w).bcnt := by
    have hlt : (rxStatusOf s.cfg.layout w).bcnt < 2 ^ 11 := field_lt w _ 11
    apply BitVec.eq_of_toNat_eq
    rw [BitVec.toNat_setWidth, BitVec.toNat_ofNat, BitVec.toNat_ofNat, Nat.mod_eq_of_lt hlt]
  obtain ⟨hi, -⟩ := whole_eq_ok.mp h
  unfold rxBranch
  unfold decodeRx at hi
  dsimp only at hi ⊢
  split at hi
  next hc =>
    cases hi
    rw [if_neg (hc ▸ hdc), if_pos hc]
    exact (congrArg₂ (rxDataUpdate · · s) he hn).symm
  next =>
    split at hi
    next hc =>
      cases hi
      rw [if_pos hc]
      rfl
    next hc =>
      split at hi
      next hc' =>
        cases hi
        rw [if_neg hc, if_neg (by assumption), if_pos hc']
        exact (congrArg₂ (rxSetupUpdate · · s) he hn).symm
      next => cases hi

/-- SETUP-complete and the codes without a name have no branch action (41 R145, R148). -/
theorem rxBranch_noAction (hd : field w s.cfg.layout.rxPktsts 4 ≠ s.cfg.layout.dataUpdate)
    (hu : field w s.cfg.layout.rxPktsts 4 ≠ s.cfg.layout.setupUpdate) : rxBranch w s = .next s := by
  simp only [rxBranch, rxStatusOf, hd, hu, if_false, rxSetupComplete, rxOther, ite_self]

end

/-! ## The handler (41 R144) -/

/-- `s` with the status bit of the receive source masked and the head of its queue popped (41 R144). -/
def receivePopped (x : RxItem) (rest : List RxItem) (s : State) : State :=
  { s with
    ri := { s.ri with
      rxq := rest, rxInStep := s.ri.rxInStep && x.isStatus, intmsk := putBit s.ri.intmsk (s.cfg.layout.bit .rxflvl) false },
    trace := [.read .rxstsp, .write (.intmskBit .rxflvl) 0] ++ s.trace }

/-- The receive source, its branch going through from the state after the pop. -/
theorem exec_srcRxflvl_next {s t : State} {x : RxItem} {rest : List RxItem} (hk : s.clockOn = true) (hm : s.moves = [])
    (hq : s.ri.rxq = x :: rest) (h : rxBranch x.word (receivePopped x rest s) = .next t) :
    exec .srcRxflvl s = .next { t with
      ri := { t.ri with
        intmsk := putBit t.ri.intmsk (s.cfg.layout.bit .rxflvl) true,
        intsts := putBit t.ri.intsts (s.cfg.layout.bit .rxflvl) false },
      trace := [.write (.intstsBit .rxflvl) 1, .write (.intmskBit .rxflvl) 1] ++ t.trace } := by
  have ht : Confined (fun _ => True) (receivePopped x rest s) t := rxBranch_confined (.refl _) x.word t h
  have htm : t.moves = [] := ht.still hm
  have htc : t.cfg = s.cfg := ht.cfg
  have hhandler : handler .rxflvl s = .next (putReg (.intmskBit .rxflvl) 1 t) := by
    change handleRxflvl s = _
    unfold handleRxflvl
    rw [regWrite_still _ _ hm, popStatus_cons (s := putReg (.intmskBit .rxflvl) 0 s) hq hm]
    change andThen (rxBranch x.word (receivePopped x rest s)) _ = _
    rw [h, andThen_next, regWrite_still _ _ htm]
  refine (exec_source_next (x := .rxflvl) hk hhandler htm).trans ?_
  rw [← htc]
  rfl

end Sys2Proof.Machine

open Sys2Proof Sys2Proof.Machine

/-- Settles O34: what the instruction of the popped word leaves is unmasked and acknowledged; a code without a branch action leaves what
the pop left. -/
theorem receiveHandlerBracketsPop : Obligations.ReceiveHandlerBracketsPop := by
  intro s x rest hk hm hl hq s1 hs1
  subst hs1
  refine ⟨fun i t hi ht => exec_srcRxflvl_next hk hm hq ?_, fun hd hu => exec_srcRxflvl_next hk hm hq ?_⟩
  · exact (rxBranch_eq_exec (s := receivePopped x rest s) hl hi).trans ht
  · exact rxBranch_noAction (s := receivePopped x rest s) hd hu

/-- Settles O35: the entry is the packet copy and one change of the descriptor, and refused where there is no place for it. -/
theorem receiveDataUpdate : Obligations.ReceiveDataUpdate := by
  intro s e n d b ws rest
  have hn : (n.setWidth 16).toNat = n.toNat := BitVec.toNat_setWidth_of_le (by decide)
  refine ⟨fun hk hi hb hfit hsp hp hw hdelay hdata => ?_, fun h => ?_⟩
  · rw [← hn] at hfit hsp hp
    obtain ⟨m, c, he, hst, hbytes⟩ :=
      rxDataUpdate_next hk (receiveBuf_eq_some hi hb hfit) hsp hp hw.1 (Sub.takesData_eq_true hdelay hdata)
    rw [hn] at he hst hbytes
    refine ⟨_, he, ?_, hbytes, hst.other⟩
    refine congrArg (modifyEp e.toNat · (packetCopied n.toNat rest m c s)) (funext fun x => ?_)
    obtain ⟨_, _, _, _, sub⟩ := x
    cases sub with
    | bulk bin bout => cases bout <;> rfl
    | _ => rfl
  · change rxDataUpdate e.toNat (n.setWidth 16) s = _
    rw [← hn] at h
    obtain hi | hb | hb | ⟨bin, hs⟩ | ⟨bin, m, hs⟩ := h
    · exact rxDataUpdate_noBuf (receiveBuf_eq_none (b := b) (.inl hi))
    · exact rxDataUpdate_noBuf (receiveBuf_eq_none (b := b) (.inr (.inl hb)))
    · exact rxDataUpdate_noBuf (receiveBuf_eq_none (.inr (.inr hb)))
    all_goals exact rxDataUpdate_notTaken (by rw [hs]; rfl)

/-- Settles O36: a SETUP-update entry is the packet copy and one change of the descriptor; SETUP-complete has no action. -/
theorem receiveSetupEntries : Obligations.ReceiveSetupEntries := by
  intro s e n d b ws rest
  have hn : (n.setWidth 16).toNat = n.toNat := BitVec.toNat_setWidth_of_le (by decide)
  refine ⟨rfl, fun hk hi hb hfit hsp hp hw => ?_, fun h => rxSetupUpdate_noBuf (receiveBuf_eq_none (b := b) (hn ▸ h))⟩
  rw [← hn] at hfit hsp hp
  obtain ⟨m, c, he, hst, hbytes⟩ := rxSetupUpdate_next hk (receiveBuf_eq_some hi hb hfit) hsp hp hw.1
  rw [hn] at he hst hbytes
  refine ⟨_, he, ?_, hbytes, hst.other⟩
  rw [dirOf_eq]
  rfl

end

section
/-! PROOFS. The statement about enumeration-done (spec 41 R166): the two activations of the control endpoint 42 R194 and R195, then the
arm for the next SETUP. -/

namespace Sys2Proof.Machine

/-! ## Endpoint 0 started as the control endpoint (42 R194, R195) -/

/-- A descriptor started twice is started once. -/
theorem Endpoint.toControl_twice (e : Endpoint) : e.toControl.toControl = e.toControl := by
  by_cases h : e.sub = .disabled
  · simp only [Endpoint.toControl, h, if_true, reduceCtorEq, if_false]
  · simp only [Endpoint.toControl, h, if_false]

theorem buffersOf_toControl (e : Endpoint) : buffersOf e.toControl = buffersOf e := by
  unfold Endpoint.toControl
  split <;> rfl

/-- Starting endpoint 0 is one change of its descriptor, whatever its sub-state. -/
theorem ep_startControl (s : State) :
    (if (s.epAt 0).sub = .disabled then s.ep.modify 0 fun e => { e with sub := .control .init } else s.ep) =
      s.ep.modify 0 Endpoint.toControl :=
  congrArg State.ep ((startControl0_eq s).symm.trans (startControl0_modifyEp s))

theorem buffersOf_activateIn0 {s : State} (hm : s.moves = []) :
    buffersOf ((activateIn0 s).epAt 0) = buffersOf (s.epAt 0) := by
  rw [activateIn0_eq hm, ep_startControl]
  simp only [State.epAt, getD_modify]
  split
  · exact buffersOf_toControl _
  · rfl

section
variable {s : State} {b1 b2 : Buf} (hm : s.moves = [])
include hm

/-- Both activations of endpoint 0 leave its descriptor started and both sides active. -/
theorem activateBoth0_eq : ∃ l, activateOut0 (activateIn0 s) = { s with
    ep := s.ep.modify 0 Endpoint.toControl,
    ri := { s.ri with
      iep := s.ri.iep.modify 0 fun r => { r with act := true }, oep := s.ri.oep.modify 0 fun r => { r with act := true } },
    trace := l ++ s.trace } := by
  have hin : (activateIn0 s).moves = [] := (Confined.refl (J := fun _ => True) s).activateIn0.still hm
  obtain ⟨l, hl⟩ := (Confined.refl (J := fun _ => True) s).activateIn0.activateOut0.trace
  refine ⟨l, ?_⟩
  rw [← hl, activateOut0_eq hin, ep_startControl, activateIn0_eq hm, ep_startControl]
  simp only [modify_twice, Endpoint.toControl_twice]

/-- With two valid buffers and `ENABLE` done both activations of endpoint 0 go through. -/
theorem activateBoth0_next (hk : s.clockOn = true) (hi : 0 < s.cfg.nEp) (hc : s.ctrl ≠ .disabled)
    (hb : buffersOf (s.epAt 0) = some (b1, b2)) : activateIn .control 0 s = .next (.ok, activateIn0 s) ∧
      activateOut .control 0 (activateIn0 s) = .next (.ok, activateOut0 (activateIn0 s)) := by
  have hin : Confined (fun _ => True) s (activateIn0 s) := (Confined.refl s).activateIn0
  have hc' : (activateIn0 s).ctrl ≠ .disabled := by rwa [activateIn0_eq hm]
  refine ⟨(activateIn_zero (t := .control) hi nofun hb hc).trans (clocked_on hk _), ?_⟩
  exact (activateOut_zero (t := .control) (hin.cfg ▸ hi) nofun ((buffersOf_activateIn0 hm).trans hb) hc').trans
    (clocked_on (hin.clockOn.trans hk) _)

/-! ## The handler (41 R166) -/

theorem handleEnumdne_next (hk : s.clockOn = true) (hi : 0 < s.cfg.nEp) (hc : s.ctrl ≠ .disabled)
    (hb : buffersOf (s.epAt 0) = some (b1, b2)) : ∃ l, handleEnumdne s = .next { s with
      ep := s.ep.modify 0 Endpoint.toControl,
      ri := { s.ri with
        trdt := s.cfg.trdt,
        iep := s.ri.iep.modify 0 fun r => { r with act := true },
        oep := s.ri.oep.modify 0 fun r => OutRegs.armedForSetup s.cfg { r with act := true } },
      trace := l ++ s.trace } := by
  obtain ⟨hIn, hOut⟩ := activateBoth0_next (s := putReg .trdt s.cfg.trdt s) hm hk hi hc hb
  obtain ⟨l, hboth⟩ := activateBoth0_eq (s := putReg .trdt s.cfg.trdt s) hm
  refine ⟨armForSetupWrites s.cfg ++ (l ++ [.write .trdt s.cfg.trdt]), ?_⟩
  rw [handleEnumdne, regWrite_still _ _ hm, hIn, andThen_next, if_pos rfl, hOut, andThen_next, if_pos rfl, hboth,
    armCtrlOut_eq (by exact hm)]
  simp only [modify_twice, List.append_assoc]
  rfl

end

/-- Without valid buffers the activation answers `ConfigurationError`, which has no caller (41 R166). -/
theorem handleEnumdne_noBuffers {s : State} (hi : 0 < s.cfg.nEp) (hb : buffersOf (s.epAt 0) = none) :
    handleEnumdne s = .refused .enumWithoutBuffers := by
  rw [handleEnumdne, activateIn_noBuffers (t := .control) (s := regWrite .trdt s.cfg.trdt s) hi nofun hb, andThen_next, if_neg nofun]

end Sys2Proof.Machine

open Sys2Proof Sys2Proof.Machine

/-- Settles O38: two activations and an arm, then the acknowledge; refused with the first activation. -/
theorem enumerationDoneHandler : Obligations.EnumerationDoneHandler := by
  intro s hk hi
  refine ⟨fun b1 b2 hm hc h1 h2 v1 v2 => ?_, fun hb => exec_source_refused (x := .enumdne) hk (handleEnumdne_noBuffers hi hb)⟩
  obtain ⟨l, h⟩ := handleEnumdne_next hm hk hi hc (buffersOf_eq_some h1 h2 v1 v2)
  refine ⟨.write (.intstsBit .enumdne) 1 :: l, ?_⟩
  rw [ep_startControl]
  exact exec_source_next (x := .enumdne) hk h hm

end

section
/-! PROOFS. The statement about the bus reset (spec 41 R165): what its two loops and its last writes leave of each endpoint, then the
callback and the acknowledge. -/

namespace Sys2Proof.Machine

/-! ## What the bus reset makes of an endpoint (41 R165) -/

/-- IN endpoint registers with no condition flag and no STALL (41 R165). -/
def InRegs.unflagged (l : Layout) (r : InRegs) : InRegs :=
  { r with int := InCond.order.foldl (fun w c => putBit w (l.inBit c) false) r.int, stall := false }

/-- OUT endpoint registers with no condition flag and no STALL (41 R165). -/
def OutRegs.unflagged (l : Layout) (r : OutRegs) : OutRegs :=
  { r with int := OutCond.order.foldl (fun w c => putBit w (l.outBit c) false) r.int, stall := false }

/-- A descriptor that is `Disabled`, nothing pending. -/
def Endpoint.disabled (e : Endpoint) : Endpoint := { e with sub := .disabled, pendingSize := 0 }

/-- The sub-state of endpoint 0 after a bus reset (41 R165). -/
def Sub.controlInit (x : Sub) : Sub :=
  match x with
  | .control _ => .control .init
  | y => y

/-- Descriptor 0 after a bus reset (41 R165). -/
def Endpoint.controlInit (e : Endpoint) : Endpoint := { e with sub := e.sub.controlInit, pendingSize := 0 }

/-! ## The two loops -/

section
variable {s : State} (hm : s.moves = [])
include hm

theorem busResetRegs_eq (i : Nat) : ∃ tr, busResetRegs s i = { s with
    ri := { s.ri with
      iep := s.ri.iep.modify i (InRegs.unflagged s.cfg.layout), oep := s.ri.oep.modify i (OutRegs.unflagged s.cfg.layout) },
    trace := tr } := by
  apply Exists.intro
  conv => lhs; simp only [busResetRegs, clearOutFlags, clearInFlags, InCond.order, OutCond.order, List.foldl_cons, List.foldl_nil,
    regWrite_still, putReg_moves, hm]
  simp only [putReg, logAccess, RegIf.write, modify_twice]
  rfl

theorem busResetEndpoint_eq (i : Nat) : ∃ tr, busResetEndpoint s i = { s with
    ep := s.ep.modify i Endpoint.disabled,
    ri := { s.ri with
      iep := s.ri.iep.modify i fun r => { r with act := false }, oep := s.ri.oep.modify i fun r => { r with act := false },
      aintIep := s.ri.aintIep.modify i fun _ => false, aintOep := s.ri.aintOep.modify i fun _ => false },
    trace := tr } := by
  apply Exists.intro
  conv => lhs; simp only [busResetEndpoint, disableBoth_modifyEp, regWrite_still, putReg_moves, hm]
  simp only [putReg, logAccess, RegIf.write, modifyEp]
  rfl

omit hm in
/-- The first loop (41 R165). -/
theorem foldl_busResetRegs : ∀ (is : List Nat) {s : State}, s.moves = [] → ∃ tr, is.foldl busResetRegs s = { s with
    ri := { s.ri with
      iep := is.foldl (fun l i => l.modify i (InRegs.unflagged s.cfg.layout)) s.ri.iep,
      oep := is.foldl (fun l i => l.modify i (OutRegs.unflagged s.cfg.layout)) s.ri.oep },
    trace := tr }
  | [], s, _ => ⟨s.trace, rfl⟩
  | i :: is, s, hm => by
    obtain ⟨tr, h⟩ := busResetRegs_eq hm i
    rw [List.foldl_cons, h]
    exact foldl_busResetRegs is hm

omit hm in
/-- The second loop (41 R165). -/
theorem foldl_busResetEndpoint : ∀ (is : List Nat) {s : State}, s.moves = [] → ∃ tr, is.foldl busResetEndpoint s = { s with
    ep := is.foldl (fun l i => l.modify i Endpoint.disabled) s.ep,
    ri := { s.ri with
      iep := is.foldl (fun l i => l.modify i fun r => { r with act := false }) s.ri.iep,
      oep := is.foldl (fun l i => l.modify i fun r => { r with act := false }) s.ri.oep,
      aintIep := is.foldl (fun l i => l.modify i fun _ => false) s.ri.aintIep,
      aintOep := is.foldl (fun l i => l.modify i fun _ => false) s.ri.aintOep },
    trace := tr }
  | [], s, _ => ⟨s.trace, rfl⟩
  | i :: is, s, hm => by
    obtain ⟨tr, h⟩ := busResetEndpoint_eq hm i
    rw [List.foldl_cons, h]
    exact foldl_busResetEndpoint is hm

omit hm in
theorem busResetControl_eq (s : State) : busResetControl s = modifyEp 0 (fun e => { e with sub := e.sub.controlInit }) s := by
  unfold busResetControl
  cases hs : (s.epAt 0).sub with
  | control c => exact modifyEp_congr (by rw [hs]; rfl)
  | bulk _ _ | interrupt _ _ | disabled =>
    have hsame : (s.epAt 0).sub.controlInit = (s.epAt 0).sub := by rw [hs]; rfl
    have hep : s.ep.modify 0 (fun e => { e with sub := e.sub.controlInit }) = s.ep.modify 0 id :=
      epAt_congr (congrArg (fun x => { s.epAt 0 with sub := x }) hsame)
    rw [modifyEp, hep, modify_same s.ep 0 id fun _ _ => rfl]

/-- `l` changed by `f` at every index above 0 and below `n` (41 R165, second loop). -/
def modifyAboveZero {α : Type} (f : α → α) (n : Nat) (l : List α) : List α :=
  ((List.range n).drop 1).foldl (fun l i => l.modify i f) l

/-- `s` after the bus reset, before its callback, `tr` the accesses made (41 R165). -/
def afterBusReset (tr : List Access) (s : State) : State :=
  { s with
    ep := (modifyAboveZero Endpoint.disabled s.cfg.nEp s.ep).modify 0 Endpoint.controlInit, devAddrPending := 0,
    ri := { s.ri with
      addr := 0,
      iep := modifyAboveZero (fun r => { r with act := false }) s.cfg.nEp (s.ri.iep.map (InRegs.unflagged s.cfg.layout)),
      oep := (modifyAboveZero (fun r => { r with act := false }) s.cfg.nEp (s.ri.oep.map (OutRegs.unflagged s.cfg.layout))).modify 0
        (OutRegs.armedForSetup s.cfg),
      aintIep := modifyAboveZero (fun _ => false) s.cfg.nEp s.ri.aintIep,
      aintOep := modifyAboveZero (fun _ => false) s.cfg.nEp s.ri.aintOep },
    trace := tr }

theorem busReset_eq (hs : Shaped s) : ∃ tr, busReset s = afterBusReset tr s := by
  obtain ⟨tr1, h1⟩ := foldl_busResetRegs (List.range s.cfg.nEp) hm
  rw [modify_range_map _ _ hs.iep.le, modify_range_map _ _ hs.oep.le] at h1
  obtain ⟨tr2, h2⟩ := foldl_busResetEndpoint ((List.range s.cfg.nEp).drop 1) (s := (List.range s.cfg.nEp).foldl busResetRegs s)
    (by rw [h1]; exact hm)
  rw [h1] at h2
  have hreset : busReset s = armCtrlOut (regWrite .addr 0 (stageAddr 0 (setPending 0 0 (busResetControl
      (((List.range s.cfg.nEp).drop 1).foldl busResetEndpoint ((List.range s.cfg.nEp).foldl busResetRegs s)))))) := rfl
  apply Exists.intro
  rw [hreset, h1, h2, busResetControl_eq, setPending, modifyEp_twice, regWrite_still _ _ (by exact hm), armCtrlOut_eq (by exact hm)]
  simp only [putReg, logAccess, RegIf.write, Nat.zero_mod]
  rfl

end

/-! ## Its entries, index by index -/

theorem length_modifyAboveZero {α : Type} (f : α → α) (n : Nat) (l : List α) : (modifyAboveZero f n l).length = l.length :=
  length_foldl_modify f _ l

theorem getD_modifyAboveZero {α : Type} (f : α → α) (d : α) {n i : Nat} {l : List α} (hl : l.length = n) (hi : i < n) :
    (modifyAboveZero f n l).getD i d = if i = 0 then l.getD i d else f (l.getD i d) := by
  have hmem : i ∈ (List.range n).drop 1 ↔ i ≠ 0 := by
    rw [List.range_eq_range', List.drop_range', List.mem_range'_1]
    omega
  rw [modifyAboveZero, getD_foldl_modify f d _ _ _ (List.nodup_range.sublist (List.drop_sublist 1 _))]
  simp only [hmem, hl, hi, and_true, ite_not]

theorem getD_map_of_lt {α : Type} (f : α → α) (d : α) {i : Nat} {l : List α} (h : i < l.length) :
    (l.map f).getD i d = f (l.getD i d) := by
  simp only [List.getD_eq_getElem?_getD, List.getElem?_map, List.getElem?_eq_getElem h, Option.map_some, Option.getD_some]

section
variable {s : State} {i : Nat} (tr : List Access) (hs : Shaped s) (hi : i < s.cfg.nEp)
include hs hi

theorem afterBusReset_epAt : (afterBusReset tr s).epAt i = { s.epAt i with
    pendingSize := 0, sub := if i = 0 then (s.epAt 0).sub.controlInit else .disabled } := by
  simp only [State.epAt, afterBusReset, getD_modify, length_modifyAboveZero, hs.ep, hi, and_true,
    getD_modifyAboveZero _ _ hs.ep hi]
  by_cases h0 : i = 0
  · subst h0
    simp only [if_true, Endpoint.controlInit]
  · simp only [h0, Ne.symm h0, if_false, Endpoint.disabled]

theorem afterBusReset_iepAt : (afterBusReset tr s).ri.iepAt i = { (s.ri.iepAt i).unflagged s.cfg.layout with
    act := if i = 0 then (s.ri.iepAt i).act else false } := by
  have hl : (s.ri.iep.map (InRegs.unflagged s.cfg.layout)).length = s.cfg.nEp := List.length_map .. |>.trans hs.iep
  simp only [RegIf.iepAt, afterBusReset, getD_modifyAboveZero _ _ hl hi, getD_map_of_lt _ _ (hs.iep ▸ hi)]
  split <;> rfl

theorem afterBusReset_oepAt : (afterBusReset tr s).ri.oepAt i =
    if i = 0 then ((s.ri.oepAt i).unflagged s.cfg.layout).armedForSetup s.cfg
    else { (s.ri.oepAt i).unflagged s.cfg.layout with act := false } := by
  have hl : (s.ri.oep.map (OutRegs.unflagged s.cfg.layout)).length = s.cfg.nEp := List.length_map .. |>.trans hs.oep
  simp only [RegIf.oepAt, afterBusReset, getD_modify, length_modifyAboveZero, hl, hi, and_true, getD_modifyAboveZero _ _ hl hi,
    getD_map_of_lt _ _ (hs.oep ▸ hi)]
  by_cases h0 : i = 0
  · simp only [h0, if_true]
  · simp only [h0, Ne.symm h0, if_false]

theorem afterBusReset_aintIep : (afterBusReset tr s).ri.aintIep.getD i false = if i = 0 then s.ri.aintIep.getD i false else false :=
  getD_modifyAboveZero _ _ hs.aintIep hi

theorem afterBusReset_aintOep : (afterBusReset tr s).ri.aintOep.getD i false = if i = 0 then s.ri.aintOep.getD i false else false :=
  getD_modifyAboveZero _ _ hs.aintOep hi

end

end Sys2Proof.Machine

open Sys2Proof Sys2Proof.Machine

/-- Settles O37: the bus reset, one callback whose response asks for nothing more, and the acknowledge. -/
theorem busResetHandler : Obligations.BusResetHandler := by
  intro s a more hk hm hs ha
  obtain ⟨tr, hreset⟩ := busReset_eq hm hs
  obtain ⟨-, -, hDone, -⟩ := statusAnswersEndTransfer (replied .busReset a more (afterBusReset tr s))
  have hcall : handler .usbrst s = .next (afterCall .busReset a more (afterBusReset tr s)) := by
    change answered (issueCb .busReset (busReset s)) = _
    rw [hreset]
    exact answered_issueCb_next (j := .respBusResetDone) rfl ha (hDone rfl) rfl
  have hshaped : Shaped (afterCall .busReset a more (afterBusReset tr s)) := (Touch.handler hcall).shaped hs
  refine ⟨_, exec_source_next (x := .usbrst) hk hcall hm, rfl, rfl, { hshaped with }, fun i hi => ?_⟩
  have hin := afterBusReset_iepAt tr hs hi
  have hout := afterBusReset_oepAt tr hs hi
  have hiint : ((afterBusReset tr s).ri.iepAt i).int = ((s.ri.iepAt i).unflagged s.cfg.layout).int := by rw [hin]
  have hoint : ((afterBusReset tr s).ri.oepAt i).int = ((s.ri.oepAt i).unflagged s.cfg.layout).int := by
    rw [hout]
    split <;> rfl
  refine ⟨afterBusReset_epAt tr hs hi, ?_, ?_, fun m => ?_, fun m => ?_, afterBusReset_aintIep tr hs hi, afterBusReset_aintOep tr hs hi⟩
  · change _ = { s.ri.iepAt i with
      stall := false, act := if i = 0 then (s.ri.iepAt i).act else false, int := ((afterBusReset tr s).ri.iepAt i).int }
    rw [hiint]
    exact hin
  · change _ = if i = 0 then OutRegs.armedForSetup s.cfg { s.ri.oepAt i with stall := false, int := ((afterBusReset tr s).ri.oepAt i).int }
      else { s.ri.oepAt i with stall := false, act := false, int := ((afterBusReset tr s).ri.oepAt i).int }
    rw [hoint]
    exact hout
  · exact (congrArg (testBit · m) hiint).trans (testBit_foldl_clearBits s.cfg.layout.inBit _ _ m)
  · exact (congrArg (testBit · m) hoint).trans (testBit_foldl_clearBits s.cfg.layout.outBit _ _ m)

end
